-- ==== Sys2Proof/Word.lean ====
section
/-! DEFINITION. The word types of PARCORE.
Rule R11: every register and field holds an unsigned integer, bit 0 its least significant bit.
Rule R12: a bit string is a finite sequence of bits, written first bit first. -/

namespace Sys2Proof

/-- The unit of both byte spaces (R61) and of the `A` operand of a command word (R92). -/
abbrev Byte := BitVec 8

/-- A 64-bit value: a command word (R92), `RES`, `ERRINFO`, `CSEQ`, a response value (R90). -/
abbrev Word := BitVec 64

/-- A bit string, first bit first (R12). -/
abbrev Bits := List Bool

end Sys2Proof
end

