-- ==== Sys2Proof/Syntax.lean ====
section
/-! DEFINITION. The command set of PARCORE: one constructor per row of spec/opcode_table.json, in the table's order (R93).
An operand is held at the width of the bits the command word gives it; the conditions of rule R93's last column stand in
WellFormed.lean. -/

namespace Sys2Proof

/-- The 25 commands of rule R93. -/
inductive Instr where
  /-- `CTX.INIT` (R271). -/
  | ctxInit
  /-- `CTX.RDREG r` (R272). -/
  | ctxRdreg (r : Byte)
  /-- `BS.WRITE w, v` (R136). -/
  | bsWrite (w : Byte) (v : BitVec 32)
  /-- `BS.FINISH` (R137). -/
  | bsFinish
  /-- `BS.RDBIT` (R143). -/
  | bsRdbit
  /-- `BS.ATEND ig` (R144). -/
  | bsAtend (ig : Byte)
  /-- `TC.FLATTEN` (R162). -/
  | tcFlatten
  /-- `TC.SERHDR ig, sig` (R166). -/
  | tcSerhdr (ig : Byte) (sig : Byte)
  /-- `TC.DESER` (R169). -/
  | tcDeser
  /-- `FB.ACC s` (R181). -/
  | fbAcc (sym : Byte)
  /-- `FB.SCAN` (R183). -/
  | fbScan
  /-- `FB.BUILD` (R187). -/
  | fbBuild
  /-- `SH.MKCODES` (R202). -/
  | shMkcodes
  /-- `SH.ENCSYM s` (R204). -/
  | shEncsym (sym : Byte)
  /-- `SH.DECSYM ig` (R207). -/
  | shDecsym (ig : Byte)
  /-- `SH.RDHDR` (R213). -/
  | shRdhdr
  /-- `SH.FIXUP ig` (R215). -/
  | shFixup (ig : Byte)
  /-- `SH.ARCHIVE` (R216). -/
  | shArchive
  /-- `SH.UNARCHIVE` (R217). -/
  | shUnarchive
  /-- `AH.INIT` (R241). -/
  | ahInit
  /-- `AH.UPDATE s` (R248). -/
  | ahUpdate (sym : Byte)
  /-- `AH.ENCSYM s` (R249). -/
  | ahEncsym (sym : Byte)
  /-- `AH.DECSYM` (R250). -/
  | ahDecsym
  /-- `AH.ARCHIVE` (R251). -/
  | ahArchive
  /-- `AH.UNARCHIVE N` (R252). -/
  | ahUnarchive (n : BitVec 48)
  deriving DecidableEq, Repr

end Sys2Proof
end

