-- ==== Sys2Proof/Config.lean ====
section
/-! DEFINITION. What is fixed for one PARCORE: the constants of rule R8, and the three parameters that rule R8 and decisions
D4 and D5 leave OPEN ("a model takes the ones marked OPEN as arguments").
The open ones stand in `Params`, which is a field of State that no step changes: a statement over every state is then a
statement over every value of the parameters (log entry 1). -/

namespace Sys2Proof

/-- `WIDTH_MAX`, the largest `width` of one `BS.WRITE` (R8). -/
def Config.widthMax : Nat := 32

/-- `NYT_MARK`, the out-of-band symbol of the NYT leaf (R8). -/
def Config.nytMark : BitVec 9 := 256#9

/-- `ARENA_SIZE`, the number of node entries, indices 0 to 512 (R8). -/
def Config.arenaSize : Nat := 513

/-- The 10-bit code of `NONE`, the "no node" index, as a register shows it (R8). -/
def Config.noneCode : Nat := 0x3FF

/-- `NUM_ROOT`, the node number of the adaptive root (R8). -/
def Config.numRoot : BitVec 10 := 512#10

/-- `SHAPE_MAX`, the most bytes of tree shape (R8). -/
def Config.shapeMax : Nat := 64

/-- `LEAF_MAX`, the most leaf bytes (R8). -/
def Config.leafMax : Nat := 256

/-- The parameters that rule R8 leaves OPEN: `BLOCK_SIZE` (D5) and the two signature bytes (D4). -/
structure Params where
  /-- `BLOCK_SIZE`, bytes of the output block buffer, any value ≥ 1 (R8). -/
  blockSize : Nat
  /-- `SIG_STATIC`, the static container's signature byte (R8, R116). -/
  sigStatic : Byte
  /-- `SIG_ADAPTIVE`, the adaptive container's signature byte, different from `SIG_STATIC` (R8, R116). -/
  sigAdaptive : Byte
  deriving DecidableEq, Repr

/-- What rule R8 asks of the open parameters. -/
abbrev Params.wf (p : Params) : Prop := 1 ≤ p.blockSize ∧ p.sigAdaptive ≠ p.sigStatic

/-- DESIGN CHOICE (log entry 1): the parameters State.reset carries, the source's default block size and the two signature
bytes the spec's vectors use. No statement rests on them. -/
def Params.initial : Params := { blockSize := 65536, sigStatic := 0x53#8, sigAdaptive := 0x41#8 }

end Sys2Proof
end

