-- ==== Sys2Proof/WellFormed.lean ====
section
/-! DEFINITION. The "legal when" column of rule R93: which operand values a command may carry.
The constructors of Instr already hold an operand at its field's width, so the fields that must be zero cannot be wrong in a
term; they are checked on the word, in Decode.lean. -/

namespace Sys2Proof

/-- The highest register number `CTX.RDREG` may name (R33, R93). -/
def maxRegister : Nat := 0x16

/-- `1 <= w <= 32` (R93, `BS.WRITE`). -/
def widthLegal (w : Byte) : Bool := decide (1 ≤ w.toNat) && decide (w.toNat ≤ Config.widthMax)

/-- `ig <= 7` (R93). -/
def ignoreLegal (ig : Byte) : Bool := decide (ig.toNat ≤ 7)

/-- `r <= 0x16` (R93, `CTX.RDREG`). -/
def registerLegal (r : Byte) : Bool := decide (r.toNat ≤ maxRegister)

/-- The condition of rule R93 on the operands of a command. -/
def Instr.wf : Instr → Bool
  | .ctxInit => true
  | .ctxRdreg r => registerLegal r
  | .bsWrite w _ => widthLegal w
  | .bsFinish => true
  | .bsRdbit => true
  | .bsAtend ig => ignoreLegal ig
  | .tcFlatten => true
  | .tcSerhdr ig _ => ignoreLegal ig
  | .tcDeser => true
  | .fbAcc _ => true
  | .fbScan => true
  | .fbBuild => true
  | .shMkcodes => true
  | .shEncsym _ => true
  | .shDecsym ig => ignoreLegal ig
  | .shRdhdr => true
  | .shFixup ig => ignoreLegal ig
  | .shArchive => true
  | .shUnarchive => true
  | .ahInit => true
  | .ahUpdate _ => true
  | .ahEncsym _ => true
  | .ahDecsym => true
  | .ahArchive => true
  | .ahUnarchive _ => true

end Sys2Proof
end

