-- ==== Sys2Proof/Decode.lean ====
section
/-! DEFINITION. Decoding and encoding of command words.
Rule R92: one format, 64 bits, `OP` = bits 63:56, `A` = bits 55:48, `V` = bits 47:0.
Rule R93: the opcodes and the operands of each. Rule R97: a word is legal exactly when `OP` is one of the 25 opcodes, every
bit rule R93 shows as 0 is 0 and the operand condition holds; every other word is rejected, by name. -/

namespace Sys2Proof

/-- Why a word is no legal command (R97). The hardware answers each of them with the one status `IllegalCommand`. -/
inductive DecodeError where
  /-- `OP` is none of the 25 opcodes. -/
  | unassignedOpcode
  /-- A bit that rule R93 shows as 0 for this opcode is 1. -/
  | unusedFieldNonzero
  /-- The "legal when" condition of rule R93 fails. -/
  | operandOutOfRange
  deriving DecidableEq, Repr

/-- `OP`, bits 63:56 (R92). -/
def fieldOp (c : Word) : Byte := c.extractLsb' 56 8

/-- `A`, bits 55:48 (R92). -/
def fieldA (c : Word) : Byte := c.extractLsb' 48 8

/-- `V`, bits 47:0 (R92). -/
def fieldV (c : Word) : BitVec 48 := c.extractLsb' 0 48

/-- The command, if its operands meet rule R93's condition. -/
def checked (i : Instr) : Except DecodeError Instr :=
  if i.wf then .ok i else .error .operandOutOfRange

/-- A command that uses neither `A` nor `V`. -/
def decodePlain (c : Word) (i : Instr) : Except DecodeError Instr :=
  if fieldA c = 0#8 ∧ fieldV c = 0#48 then checked i else .error .unusedFieldNonzero

/-- A command that uses `A` alone. -/
def decodeA (c : Word) (mk : Byte → Instr) : Except DecodeError Instr :=
  if fieldV c = 0#48 then checked (mk (fieldA c)) else .error .unusedFieldNonzero

/-- `BS.WRITE`: `A` and the low 32 bits of `V`. -/
def decodeWrite (c : Word) : Except DecodeError Instr :=
  if (fieldV c).extractLsb' 32 16 = 0#16 then checked (.bsWrite (fieldA c) ((fieldV c).extractLsb' 0 32))
  else .error .unusedFieldNonzero

/-- `TC.SERHDR`: `A` and the low 8 bits of `V`. -/
def decodeSerhdr (c : Word) : Except DecodeError Instr :=
  if (fieldV c).extractLsb' 8 40 = 0#40 then checked (.tcSerhdr (fieldA c) ((fieldV c).extractLsb' 0 8))
  else .error .unusedFieldNonzero

/-- `AH.UNARCHIVE`: all of `V`. -/
def decodeUnarchive (c : Word) : Except DecodeError Instr :=
  if fieldA c = 0#8 then checked (.ahUnarchive (fieldV c)) else .error .unusedFieldNonzero

/-- The command a word stands for, or why it stands for none (R93, R97). Total on all `2^64` words. -/
def decode (c : Word) : Except DecodeError Instr :=
  match (fieldOp c).toNat with
  | 0x01 => decodePlain c .ctxInit
  | 0x02 => decodeA c .ctxRdreg
  | 0x10 => decodeWrite c
  | 0x11 => decodePlain c .bsFinish
  | 0x12 => decodePlain c .bsRdbit
  | 0x13 => decodeA c .bsAtend
  | 0x20 => decodePlain c .tcFlatten
  | 0x21 => decodeSerhdr c
  | 0x22 => decodePlain c .tcDeser
  | 0x30 => decodeA c .fbAcc
  | 0x31 => decodePlain c .fbScan
  | 0x32 => decodePlain c .fbBuild
  | 0x40 => decodePlain c .shMkcodes
  | 0x41 => decodeA c .shEncsym
  | 0x42 => decodeA c .shDecsym
  | 0x43 => decodePlain c .shRdhdr
  | 0x44 => decodeA c .shFixup
  | 0x48 => decodePlain c .shArchive
  | 0x49 => decodePlain c .shUnarchive
  | 0x50 => decodePlain c .ahInit
  | 0x51 => decodeA c .ahUpdate
  | 0x52 => decodeA c .ahEncsym
  | 0x53 => decodePlain c .ahDecsym
  | 0x58 => decodePlain c .ahArchive
  | 0x59 => decodeUnarchive c
  | _ => .error .unassignedOpcode

/-- `{OP, A, V}`, the format of rule R92. -/
def packWord (op : Byte) (a : Byte) (v : BitVec 48) : Word := op ++ a ++ v

/-- The opcode of a command (R93). -/
def Instr.opcode : Instr → Byte
  | .ctxInit => 0x01#8
  | .ctxRdreg _ => 0x02#8
  | .bsWrite _ _ => 0x10#8
  | .bsFinish => 0x11#8
  | .bsRdbit => 0x12#8
  | .bsAtend _ => 0x13#8
  | .tcFlatten => 0x20#8
  | .tcSerhdr _ _ => 0x21#8
  | .tcDeser => 0x22#8
  | .fbAcc _ => 0x30#8
  | .fbScan => 0x31#8
  | .fbBuild => 0x32#8
  | .shMkcodes => 0x40#8
  | .shEncsym _ => 0x41#8
  | .shDecsym _ => 0x42#8
  | .shRdhdr => 0x43#8
  | .shFixup _ => 0x44#8
  | .shArchive => 0x48#8
  | .shUnarchive => 0x49#8
  | .ahInit => 0x50#8
  | .ahUpdate _ => 0x51#8
  | .ahEncsym _ => 0x52#8
  | .ahDecsym => 0x53#8
  | .ahArchive => 0x58#8
  | .ahUnarchive _ => 0x59#8

/-- The `A` field of a command's word (R93). -/
def Instr.operandA : Instr → Byte
  | .ctxRdreg r => r
  | .bsWrite w _ => w
  | .bsAtend ig => ig
  | .tcSerhdr ig _ => ig
  | .fbAcc sym => sym
  | .shEncsym sym => sym
  | .shDecsym ig => ig
  | .shFixup ig => ig
  | .ahUpdate sym => sym
  | .ahEncsym sym => sym
  | .ctxInit | .bsFinish | .bsRdbit | .tcFlatten | .tcDeser | .fbScan | .fbBuild | .shMkcodes | .shRdhdr
  | .shArchive | .shUnarchive | .ahInit | .ahDecsym | .ahArchive | .ahUnarchive _ => 0#8

/-- The `V` field of a command's word (R93). -/
def Instr.operandV : Instr → BitVec 48
  | .bsWrite _ v => (0#16) ++ v
  | .tcSerhdr _ sig => (0#40) ++ sig
  | .ahUnarchive n => n
  | .ctxInit | .ctxRdreg _ | .bsFinish | .bsRdbit | .bsAtend _ | .tcFlatten | .tcDeser | .fbAcc _ | .fbScan | .fbBuild
  | .shMkcodes | .shEncsym _ | .shDecsym _ | .shRdhdr | .shFixup _ | .shArchive | .shUnarchive | .ahInit
  | .ahUpdate _ | .ahEncsym _ | .ahDecsym | .ahArchive => 0#48

/-- The word of a command, from rule R93's table. -/
def encode (i : Instr) : Word := packWord i.opcode i.operandA i.operandV

/-- The command the decoder reads from the `nbits` low bits of `w`, the bits above them 0. -/
def decodeTableWord (nbits w : Nat) : Option Instr :=
  match decode (BitVec.ofNat 64 (w % 2 ^ nbits)) with
  | .ok i => some i
  | .error _ => none

end Sys2Proof
end

