-- ==== Sys2Proof/Machine/State.lean ====
section
/-! DEFINITION. The architectural state of PARCORE as plain data (10_state.md), the host's side of its ports, and reset.
Conventions, each with its log entry:
a count or an offset that rule R17 says never wraps is a Nat (entry 3);
a table is a sparse list in one canonical form, an index not listed holding the table's reset value (entry 4);
`NONE` is `none` inside the machine and 0x3FF where a register shows it (entry 5);
`OBUF` holds its valid bytes alone, so `OBUF_LEN` is its length, and `CODE_LEN[b]` is the length of `CODE_BITS[b]` (entry 6);
`STATUS` is held as its five fields (entry 7). -/

namespace Sys2Proof.Machine

/-- The five error kinds (R290), the values of `STATUS.ERR` other than 0. -/
inductive ErrKind where
  | invalidInput
  | badSignature
  | malformedHeader
  | io
  | corruptStream
  deriving DecidableEq, Repr

/-- `STATUS.TMODE` (R27): which kind of tree the arena holds. -/
inductive TMode where
  | empty
  | static
  | adaptive
  deriving DecidableEq, Repr

/-- `KIND` of an arena entry (R35). -/
inductive Kind where
  | free
  | leaf
  | internal
  deriving DecidableEq, Repr

/-- One arena entry (R35). -/
structure Node where
  /-- `KIND`. -/
  kind : Kind
  /-- `SYM`, 9 bits: a leaf's symbol, 256 for the NYT leaf, 0 otherwise. -/
  sym : BitVec 9
  /-- `W`, the weight. -/
  w : Nat
  /-- `LEFT`. -/
  left : Option Nat
  /-- `RIGHT`. -/
  right : Option Nat
  /-- `PARENT`. -/
  parent : Option Nat
  /-- `NUM`, 10 bits, the node number of adaptive trees. -/
  num : BitVec 10
  deriving DecidableEq, Repr

/-- A `FREE` entry, the reset value of every arena entry (R44). -/
def Node.reset : Node :=
  { kind := .free, sym := 0#9, w := 0, left := none, right := none, parent := none, num := 0#10 }

/-- A table indexed from 0: the entries that differ from the table's reset value, indices strictly rising. -/
abbrev Table (α : Type) := List (Nat × α)

/-- A byte space as (offset, byte) cells, offsets strictly rising; an offset not listed has no value (R42, R321). -/
abbrev Memory := List Host.Cell

/-- What the environment answers to one port transaction (R64). -/
inductive PortAnswer where
  | done
  | failed
  deriving DecidableEq, Repr

/-- The response to a command: `RSP_ST` and `RSP_VAL` (R90). -/
structure Response where
  st : Byte
  val : Word
  deriving DecidableEq, Repr

/-- Why the model stops. The five error kinds of the spec are no stops: they are taken, as next states (R296). Both of these are
stuck states for states the spec excludes (log entry 12). SAFE: the model stops where the spec gives nothing. -/
inductive Fault where
  /-- Raised by a walk of the arena (`Walk`, `WalkC`, `Build`, `DecSym`, `Path`, `Grow`, `Update`, `AhDecSym`) that needs a node
  the arena does not have or does not come to an end: rule R36 excludes such an arena in every mode that admits the walk. SAFE. -/
  | brokenTree
  /-- Raised by `EncSym` on a symbol without a code, for which "no rule gives a meaning" (93 U1). SAFE. -/
  | symbolWithoutCode
  deriving DecidableEq, Repr

/-- Why an instruction has no meaning in the model. -/
inductive Refusal where
  /-- The instruction has no meaning yet. SAFE. No arm of exec answers it. -/
  | notModelled (mnemonic : String)
  deriving DecidableEq, Repr

/-- Everything rules R20 to R45 give the machine, and the host's side of the ports. -/
structure State where
  /-- The open parameters of rule R8; no step changes them. -/
  params : Params
  /-- `CSEQ`, the command sequence counter (R26). -/
  cseq : BitVec 64
  /-- `STATUS.ERR`, `none` for 0 (R27). -/
  err : Option ErrKind
  /-- `STATUS.FAULTED` (R27). -/
  faulted : Bool
  /-- `STATUS.TMODE` (R27). -/
  tmode : TMode
  /-- `STATUS.CODES_VALID` (R27). -/
  codesValid : Bool
  /-- `STATUS.FLAT_VALID` (R27). -/
  flatValid : Bool
  /-- `ERRINFO` (R28). -/
  errinfo : Word
  /-- `RES` (R25). -/
  res : Word
  /-- `BYTES_IN` (R29). -/
  bytesIn : Nat
  /-- `BYTES_OUT` (R29). -/
  bytesOut : Nat
  /-- `ACC`, 7 bits (R21, R22). -/
  acc : BitVec 7
  /-- `ACC_CNT`, 3 bits (R21, R22). -/
  accCnt : BitVec 3
  /-- `RD_BYTE` (R21, R23). -/
  rdByte : Nat
  /-- `RD_BIT`, 3 bits (R21, R23). -/
  rdBit : BitVec 3
  /-- `SINK_POS` (R21). -/
  sinkPos : Nat
  /-- `OBUF`, its `OBUF_LEN` valid bytes (R24). -/
  obuf : List Byte
  /-- `DISTINCT` (R31). -/
  distinct : Nat
  /-- `NODE_CNT` (R31). -/
  nodeCnt : Nat
  /-- `ROOT` (R31). -/
  root : Option Nat
  /-- `HDR_IGNORE` (R30). -/
  hdrIgnore : Byte
  /-- `HDR_SIG` (R30). -/
  hdrSig : Byte
  /-- `SHAPE_SIZE` (R30). -/
  shapeSize : Nat
  /-- `LEAF_CNT` (R30). -/
  leafCnt : Nat
  /-- `AH_S` (R32). -/
  ahS : Nat
  /-- `AH_NEXTNUM`, 10 bits (R32). -/
  ahNextnum : BitVec 10
  /-- `AH_NYT` (R32). -/
  ahNyt : Option Nat
  /-- `FREQ[0 .. 255]`, 0 where not listed (R34). -/
  freq : Table Nat
  /-- `NODE[0 .. 512]`, `FREE` where not listed (R35). -/
  arena : Table Node
  /-- `CODE_BITS[0 .. 255]`, empty where not listed; `CODE_LEN[b]` is the length (R39). -/
  codeBits : Table Bits
  /-- `MAP[0 .. 255]`, `NONE` where not listed (R40). -/
  map : Table (Option Nat)
  /-- `SHAPE[0 .. 63]`, 0 where not listed (R41). -/
  shape : Table Byte
  /-- `LEAVES[0 .. 255]`, 0 where not listed (R41). -/
  leaves : Table Byte
  /-- SRC, the source port's bytes; `SRC_LEN` is the length (R42, R45; log entry 8). Host input. -/
  src : List Byte
  /-- The environment's answers to the transactions to come, the next one first; `done` when the list is empty (R64, R45; log entry 2). -/
  ports : List PortAnswer
  /-- SNK, what the core has stored in the sink (R42, R321; log entry 8). Host output. -/
  snk : Memory
  /-- The command words the host presents, in order (R90, R45; log entry 10). Host input. -/
  cmds : List Word
  /-- The response to the last command, `none` before the first (R90; log entry 11). Host output. -/
  rsp : Option Response
  deriving DecidableEq, Repr

/-- The machine right after hardware reset (R33, R44, R320, R321). -/
def State.reset : State :=
  { params := Params.initial
    cseq := 0#64
    err := none
    faulted := false
    tmode := .empty
    codesValid := false
    flatValid := false
    errinfo := 0#64
    res := 0#64
    bytesIn := 0
    bytesOut := 0
    acc := 0#7
    accCnt := 0#3
    rdByte := 0
    rdBit := 0#3
    sinkPos := 0
    obuf := []
    distinct := 0
    nodeCnt := 0
    root := none
    hdrIgnore := 0#8
    hdrSig := 0#8
    shapeSize := 0
    leafCnt := 0
    ahS := 0
    ahNextnum := 0#10
    ahNyt := none
    freq := []
    arena := []
    codeBits := []
    map := []
    shape := []
    leaves := []
    src := []
    ports := []
    snk := []
    cmds := []
    rsp := none }

end Sys2Proof.Machine
end

