-- ==== Sys2Proof/Machine/Flags.lean ====
section
/-! DEFINITION. `STATUS` and every computation of its fields (R27), and the response status codes (R94). There is no other flag in the
hardware: "No arithmetic command sets a condition code" (R27). -/

namespace Sys2Proof.Machine

/-- `code(E)`: `STATUS.ERR` and the low three bits of `RSP_ST` (R94, R296). -/
def ErrKind.code : ErrKind → Byte
  | .invalidInput => 0x01#8
  | .badSignature => 0x02#8
  | .malformedHeader => 0x03#8
  | .io => 0x04#8
  | .corruptStream => 0x05#8

/-- `OK` (R94). -/
def stOk : Byte := 0x00#8

/-- `IllegalCommand` (R94). -/
def stIllegalCommand : Byte := 0x10#8

/-- `IllegalState` (R94). -/
def stIllegalState : Byte := 0x11#8

/-- `ContextFaulted` (R94). -/
def stContextFaulted : Byte := 0x12#8

/-- `STATUS.ERR`, bits 2:0 (R27). -/
def errField (s : State) : BitVec 3 :=
  match s.err with
  | none => 0#3
  | some e => (ErrKind.code e).setWidth 3

/-- `STATUS.TMODE`, bits 5:4 (R27). -/
def tmodeField (s : State) : BitVec 2 :=
  match s.tmode with
  | .empty => 0#2
  | .static => 1#2
  | .adaptive => 2#2

/-- `STATUS`, 16 bits, as `CTX.RDREG 0x00` shows it (R27): bits 15:8 read as 0. -/
def statusWord (s : State) : BitVec 16 :=
  0#8 ++ BitVec.ofBool s.flatValid ++ BitVec.ofBool s.codesValid ++ tmodeField s ++ BitVec.ofBool s.faulted ++ errField s

/-- What a fault does to `STATUS` (R296). -/
def setError (e : ErrKind) (s : State) : State := { s with err := some e, faulted := true }

/-- `TMODE <- m` and `CODES_VALID <- 0`: every rule that changes `TMODE` clears `CODES_VALID` (R298). -/
def setTree (m : TMode) (s : State) : State := { s with tmode := m, codesValid := false }

/-- `CODES_VALID <- 1` (R201). -/
def setCodesValid (s : State) : State := { s with codesValid := true }

/-- `FLAT_VALID <- 1` (R161, R211). -/
def setFlatValid (s : State) : State := { s with flatValid := true }

end Sys2Proof.Machine
end

