-- ==== Sys2Proof/Machine/Operands.lean ====
section
/-! DEFINITION. The operand forms and the value notation of the rules.
Every operand is an immediate of the command word, used as it stands, as an unsigned integer (R92); one operand form names a
register, for reading alone (`CTX.RDREG`, R33). Beside them: bit strings (R12) and the sizes of the static header (R110). -/

namespace Sys2Proof.Machine

/-! ### Bit strings (R12) -/

/-- `Bits(v, w)`: the `w` low bits of `v`, most significant bit first (R12). -/
def bitsOf (v : Nat) : Nat → Bits
  | 0 => []
  | w + 1 => v.testBit w :: bitsOf v w

/-- One more bit at the low end of a value. -/
def shiftIn (v : Nat) (b : Bool) : Nat := 2 * v + b.toNat

/-- `Val(b)`: the unsigned integer whose most significant bit is the first bit of `b` (R12). -/
def valOf (b : Bits) : Nat := b.foldl shiftIn 0

/-- `ceil8(n)` (R11). -/
def ceil8 (n : Nat) : Nat := (n + 7) / 8

/-- Byte `k` of `PackMSB(b)`: bit `7 - j` is bit `8 k + j` of `b`, 0 past the end of `b` (R12). -/
def packedByte (b : Bits) (k : Nat) : Byte :=
  BitVec.ofNat 8 (valOf ((List.range 8).map fun j => b.getD (8 * k + j) false))

/-- `PackMSB(b)` (R12). -/
def packMsb (b : Bits) : List Byte := (List.range (ceil8 b.length)).map (packedByte b)

/-- The bits of bytes, most significant bit first (R61). -/
def unpackMsb (bs : List Byte) : Bits := bs.flatMap fun b => bitsOf b.toNat 8

/-! ### Sizes of the static header (R110) -/

/-- `ShapeBits`, the number of shape bits of a tree of `leafCount` leaves (R41). -/
def shapeBits (leafCount : Nat) : Nat := 2 * leafCount - 1

/-- `HdrSize(L) = 4 + ceil8(2L - 1) + L` (R110). -/
def hdrSize (leafCount : Nat) : Nat := 4 + ceil8 (shapeBits leafCount) + leafCount

/-! ### The register operand of `CTX.RDREG` (R33) -/

/-- `SRC_LEN`, what the source port presents now (R42). -/
def State.srcLen (s : State) : Nat := s.src.length

/-- `OBUF_LEN` (R21). -/
def State.obufLen (s : State) : Nat := s.obuf.length

/-- A register of `width` bits, zero extended (R33). -/
def zext (width : Nat) (v : Nat) : Word := (BitVec.ofNat width v).setWidth 64

/-- A node index as a 10-bit register shows it: `NONE` is 0x3FF (R33). -/
def zextIndex (i : Option Nat) : Word := zext 10 (i.getD Config.noneCode)

/-- The register numbered `r`, zero extended to 64 bits, in the order of rule R33's table. -/
def readRegister (r : Byte) (s : State) : Word :=
  match r.toNat with
  | 0x00 => (statusWord s).setWidth 64
  | 0x01 => s.errinfo
  | 0x02 => s.cseq
  | 0x03 => s.res
  | 0x04 => zext 64 s.bytesIn
  | 0x05 => zext 64 s.bytesOut
  | 0x06 => s.acc.setWidth 64
  | 0x07 => s.accCnt.setWidth 64
  | 0x08 => zext 48 s.rdByte
  | 0x09 => s.rdBit.setWidth 64
  | 0x0A => zext 64 s.sinkPos
  | 0x0B => zext 32 s.obufLen
  | 0x0C => zext 9 s.distinct
  | 0x0D => zext 10 s.nodeCnt
  | 0x0E => zextIndex s.root
  | 0x0F => s.hdrIgnore.setWidth 64
  | 0x10 => s.hdrSig.setWidth 64
  | 0x11 => zext 7 s.shapeSize
  | 0x12 => zext 9 s.leafCnt
  | 0x13 => zext 9 s.ahS
  | 0x14 => s.ahNextnum.setWidth 64
  | 0x15 => zextIndex s.ahNyt
  | 0x16 => zext 48 s.srcLen
  | _ => 0#64

end Sys2Proof.Machine
end

