-- ==== Sys2Proof/Machine/Ops.lean ====
section
/-! DEFINITION. The named operations every unit uses: tables and byte spaces, the port transactions, `Init`, the end of a command (OK, a
fault taken, a refusal), and the order of the tests on one command word. -/

namespace Sys2Proof.Machine

/-! ### Tables in canonical form -/

/-- Entry `k` of a table, `d` where it is not listed. -/
def Table.get {α : Type} (d : α) : Table α → Nat → α
  | [], _ => d
  | e :: rest, k => if e.1 = k then e.2 else Table.get d rest k

/-- Puts an entry before the first one of a higher index. -/
def Table.insert {α : Type} (k : Nat) (v : α) : Table α → Table α
  | [] => [(k, v)]
  | e :: rest => if k < e.1 then (k, v) :: e :: rest else e :: Table.insert k v rest

/-- The table without entry `k`. -/
def Table.erase {α : Type} (t : Table α) (k : Nat) : Table α := t.filter fun e => e.1 != k

/-- `TBL[k] <- v`, keeping the canonical form: no entry equals the reset value `d`. -/
def Table.set {α : Type} [DecidableEq α] (d : α) (t : Table α) (k : Nat) (v : α) : Table α :=
  if v = d then Table.erase t k else Table.insert k v (Table.erase t k)

/-- `TBL[k ..] <- xs`, one entry after the other. -/
def Table.setFrom {α : Type} [DecidableEq α] (d : α) (t : Table α) (k : Nat) : List α → Table α
  | [] => t
  | x :: xs => Table.setFrom d (Table.set d t k x) (k + 1) xs

/-- `TBL[k ..] <- d` for every index from `k` up. -/
def Table.clearFrom {α : Type} (t : Table α) (k : Nat) : Table α := t.filter fun e => decide (e.1 < k)

/-- Entries `0 .. n - 1` of a table, in order. -/
def Table.firstN {α : Type} (d : α) (t : Table α) (n : Nat) : List α := (List.range n).map (Table.get d t)

/-- The canonical form: indices strictly rising, no entry equal to the reset value. -/
abbrev Table.wf {α : Type} (d : α) (t : Table α) : Prop :=
  t.Pairwise (fun x y => x.1 < y.1) ∧ ∀ e ∈ t, e.2 ≠ d

/-! ### The byte space SNK -/

/-- The byte at offset `a`, `none` where nothing was ever written (R42, R321). -/
def Memory.read : Memory → Nat → Option Byte
  | [], _ => none
  | c :: rest, a => if c.1 = a then some c.2 else Memory.read rest a

/-- Stores one byte. -/
def Memory.store (m : Memory) (a : Nat) (b : Byte) : Memory := Table.insert a b (Table.erase m a)

/-- Stores bytes at consecutive offsets from `a` (R63). -/
def Memory.storeBytes (m : Memory) (a : Nat) : List Byte → Memory
  | [] => m
  | b :: bs => Memory.storeBytes (Memory.store m a b) (a + 1) bs

/-- The canonical form: offsets strictly rising. An offset not listed has no value, so no cell can equal it. -/
abbrev Memory.wf (m : Memory) : Prop := m.Pairwise (fun x y => x.1 < y.1)

/-! ### Reading and writing the tables of 10_state.md -/

/-- `NODE[i]` (R35). -/
def nodeAt (t : Table Node) (i : Nat) : Node := Table.get Node.reset t i

/-- `NODE[i] <- n` (R35). -/
def setNode (t : Table Node) (i : Nat) (n : Node) : Table Node := Table.set Node.reset t i n

/-- `NODE[i]` of a state. -/
def State.node (s : State) (i : Nat) : Node := nodeAt s.arena i

/-- `FREQ[b]` (R34). -/
def State.freqOf (s : State) (b : Byte) : Nat := Table.get 0 s.freq b.toNat

/-- `CODE_BITS[b]` (R39). -/
def State.codeOf (s : State) (b : Byte) : Bits := Table.get [] s.codeBits b.toNat

/-- `CODE_LEN[b]` (R39). -/
def State.codeLen (s : State) (b : Byte) : Nat := (s.codeOf b).length

/-- `MAP[b]` (R40). -/
def State.mapOf (s : State) (b : Byte) : Option Nat := Table.get none s.map b.toNat

/-- `SHAPE[k]` (R41). -/
def State.shapeByte (s : State) (k : Nat) : Byte := Table.get 0#8 s.shape k

/-- `LEAVES[k]` (R41). -/
def State.leafByte (s : State) (k : Nat) : Byte := Table.get 0#8 s.leaves k

/-! ### Running a rule -/

/-- How the run of a rule ends before its end. -/
inductive Stop where
  /-- `raise E(info)` (R296). -/
  | raised (e : ErrKind) (info : Nat)
  /-- A stuck state of the model. -/
  | stuck (f : Fault)
  deriving DecidableEq, Repr

/-- A rule of the spec as it runs: it changes the state and answers a value, or stops, and then what it did before stays done (R296). -/
abbrev Cmd (α : Type) := EStateM Stop State α

/-- `raise E(info)` (R296). -/
def raise {α : Type} (e : ErrKind) (info : Nat) : Cmd α := fun s => .error (.raised e info) s

/-- Stops in a state the spec excludes. -/
def stick {α : Type} (f : Fault) : Cmd α := fun s => .error (.stuck f) s

/-- `if c: raise E(info)` (R13). -/
def raiseIf (c : Prop) [Decidable c] (e : ErrKind) (info : Nat) : Cmd Unit := if c then raise e info else pure ()

/-- The value a walk of the arena found; stuck where the arena has none. -/
def fromTree {α : Type} : Option α → Cmd α
  | some a => pure a
  | none => stick .brokenTree

/-- `for i in i .. i + n - 1: f(i)` (R13), the count first. -/
def upFrom (f : Nat → Cmd Unit) : Nat → Nat → Cmd Unit
  | 0, _ => pure ()
  | n + 1, i => do
    f i
    upFrom f n (i + 1)

/-- `repeat n times: c`. -/
def repeatTimes (c : Cmd Unit) : Nat → Cmd Unit
  | 0 => pure ()
  | n + 1 => do
    c
    repeatTimes c n

/-! ### Port transactions -/

/-- The environment's answer to one transaction (R64). -/
def askPort : Cmd PortAnswer := fun s =>
  match s.ports with
  | [] => .ok .done s
  | a :: rest => .ok a { s with ports := rest }

/-- `MemRead(SRC, off, n)` (R62); a failed transaction raises `IOError(off)` (R64, R295; log entry 14). -/
def memRead (off n : Nat) : Cmd (List Byte) := do
  match ← askPort with
  | .failed => raise .io off
  | .done => do
    let s ← get
    pure ((s.src.drop off).take n)

/-- `MemWrite(SNK, off, n, v)` (R63); a failed transaction stores nothing and raises `IOError(off)` (R64, R295; log entry 15). -/
def memWrite (off : Nat) (v : List Byte) : Cmd Unit := do
  match ← askPort with
  | .failed => raise .io off
  | .done => modify fun s => { s with snk := Memory.storeBytes s.snk off v }

/-- `SrcByte(off, OnEnd)`: the end-of-source test comes before the transaction (R65, R302). -/
def srcByte (off : Nat) (onEnd : ErrKind) : Cmd Byte := do
  let s ← get
  if s.srcLen ≤ off then
    raise onEnd off
  else do
    let v ← memRead off 1
    pure (v.headD 0#8)

/-! ### The context -/

/-- `Init()` (R270): the reset state of rule R44 with `CSEQ` kept. The parameters, the ports and the host's side are no part of
the context (R20, R42): SRC, SNK, the answers to come, the commands to come and the last response stay (log entry 18). -/
def initContext (s : State) : State :=
  { State.reset with
    params := s.params
    cseq := s.cseq
    src := s.src
    ports := s.ports
    snk := s.snk
    cmds := s.cmds
    rsp := s.rsp }

/-! ### The end of a command (R91) -/

/-- `respond(st, val)` and `CSEQ <- (CSEQ + 1) mod 2^64` (R91, R96). -/
def respond (st : Byte) (val : Word) (s : State) : State :=
  { s with rsp := some { st := st, val := val }, cseq := s.cseq + 1#64 }

/-- A command that ran to its end: `RES <- result; respond(OK, RES)` (R25, R91). -/
def finishOk (val : Word) (s : State) : State := respond stOk val { s with res := val }

/-- TAKING AN EXCEPTION (R296): `STATUS.ERR`, `STATUS.FAULTED` and `ERRINFO` are written, the response carries the code and the
info, `RES` is not written, nothing is rolled back; there is no vector, no handler and no saved program counter, and the next
command is the next word (R296). The return from it is `CTX.INIT` (R301). -/
def takeFault (e : ErrKind) (info : Nat) (s : State) : State :=
  respond e.code (BitVec.ofNat 64 info) { setError e s with errinfo := BitVec.ofNat 64 info }

/-- THE RETURN FROM AN EXCEPTION (R301): the only way out of the faulted state restores the reset values of the context. -/
def leaveFault (s : State) : State := initContext s

/-- `refuse S` (R297): no state changes but `CSEQ`. -/
def refuse (st : Byte) (s : State) : State := respond st 0#64 s

/-- How the run of a rule ends the command (R91). -/
def settle : EStateM.Result Stop State Word → Host.Outcome State Fault Refusal
  | .ok v s => .next (finishOk v s)
  | .error (.raised e info) s => .next (takeFault e info s)
  | .error (.stuck f) _ => .fault f

/-- `Step(c)` on a command (R91, R302): legality, then the faulted state, then admission, then the rule. `inFault` says that the
command is executed in the faulted state too. Operands out of range are tested here too, though no word decodes to them (log entry 16). -/
def command (legal inFault admitted : Bool) (rule : Cmd Word) (s : State) : Host.Outcome State Fault Refusal :=
  if !legal then .next (refuse stIllegalCommand s)
  else if s.faulted && !inFault then .next (refuse stContextFaulted s)
  else if !admitted then .next (refuse stIllegalState s)
  else settle (rule s)

end Sys2Proof.Machine
end

