-- ==== Sys2Proof/Machine/Bs.lean ====
section
/-! DEFINITION. The BS unit (40_bitstream.md): the procedures every unit uses, and the commands `BS.WRITE`, `BS.FINISH`,
`BS.RDBIT`, `BS.ATEND`. -/

namespace Sys2Proof.Machine

/-! ### Output side -/

/-- `FlushOut()` (R132): one transaction, none when the buffer is empty. -/
def flushOut : Cmd Unit := do
  let s ← get
  if s.obuf = [] then
    pure ()
  else do
    memWrite s.sinkPos s.obuf
    modify fun t => { t with sinkPos := t.sinkPos + s.obufLen, obuf := [] }

/-- `EmitByte(b)` (R131): the flush comes as soon as the buffer is full; one that fails leaves it full (log entry 20). -/
def emitByte (b : Byte) : Cmd Unit := do
  modify fun s => { s with obuf := s.obuf ++ [b] }
  let s ← get
  if s.obufLen = s.params.blockSize then
    flushOut
  else
    pure ()

/-- Emits bytes in order. -/
def emitBytes : List Byte → Cmd Unit
  | [] => pure ()
  | b :: bs => do
    emitByte b
    emitBytes bs

/-- The `while` loop of `WriteBits` (R133): `k` rounds from the value `t` of `n` bits. -/
def emitWhole (t : Nat) : Nat → Nat → Cmd Unit
  | 0, _ => pure ()
  | k + 1, n => do
    emitByte (BitVec.ofNat 8 (t / 2 ^ (n - 8)))
    emitWhole t k (n - 8)

/-- `WriteBits(v, w)` (R133). `ACC` and `ACC_CNT` are written after the last byte went out. -/
def writeBits (v w : Nat) : Cmd Unit := do
  let s ← get
  let t := s.acc.toNat * 2 ^ w + v % 2 ^ w
  let n := s.accCnt.toNat + w
  emitWhole t (n / 8) n
  modify fun s => { s with acc := BitVec.ofNat 7 (t % 2 ^ (n % 8)), accCnt := BitVec.ofNat 3 (n % 8) }

/-- The chunks of `EmitBits` (R134), at most `k` of them. -/
def emitChunks : Nat → Bits → Cmd Unit
  | 0, _ => pure ()
  | k + 1, b =>
    if b = [] then
      pure ()
    else do
      writeBits (valOf (b.take Config.widthMax)) (min Config.widthMax b.length)
      emitChunks k (b.drop Config.widthMax)

/-- `EmitBits(b)` (R134): chunks of at most 32 bits; a string has no more chunks than bits. -/
def emitBits (b : Bits) : Cmd Unit := emitChunks b.length b

/-- `Finish()` (R135): pads with zeros on the right (90 C5), emits the last byte, flushes, answers the pad count. -/
def finish : Cmd Nat := do
  let s ← get
  let pad := if s.accCnt = 0#3 then 0 else 8 - s.accCnt.toNat
  if s.accCnt = 0#3 then
    pure ()
  else do
    emitByte (BitVec.ofNat 8 (s.acc.toNat * 2 ^ pad))
    modify fun s => { s with acc := 0#7, accCnt := 0#3 }
  flushOut
  pure pad

/-! ### Input side -/

/-- Bit `7 - i` of a byte (R140). -/
def bitOfByte (b : Byte) (i : BitVec 3) : Bool := b.toNat.testBit (7 - i.toNat)

/-- The cursor one bit further, normalised (R23, R140). -/
def advanceBit (s : State) : State :=
  if s.rdBit = 7#3 then { s with rdBit := 0#3, rdByte := s.rdByte + 1 } else { s with rdBit := s.rdBit + 1#3 }

/-- `ReadBit()` (R140): the cursor moves only after the byte came. -/
def readBit : Cmd Bool := do
  let s ← get
  let b ← srcByte s.rdByte .io
  modify advanceBit
  pure (bitOfByte b s.rdBit)

/-- `AtEnd(ig)` (R141), `8 * (SRC_LEN - RD_BYTE) - RD_BIT = ig` written without subtraction (R17). -/
def atEnd (ig : Nat) (s : State) : Bool := decide (8 * s.srcLen = 8 * s.rdByte + s.rdBit.toNat + ig)

/-- `Remaining`, the number of unread bits (R23). -/
def remaining (s : State) : Nat := 8 * s.srcLen - (8 * s.rdByte + s.rdBit.toNat)

/-- `TakeByte(OnEnd)` (R142), at a byte boundary. -/
def takeByte (onEnd : ErrKind) : Cmd Byte := do
  let s ← get
  let b ← srcByte s.rdByte onEnd
  modify fun s => { s with rdByte := s.rdByte + 1 }
  pure b

/-! ### Commands -/

/-- `BS.WRITE w, v` (R136). -/
def execBsWrite (w : Byte) (v : BitVec 32) (s : State) : Host.Outcome State Fault Refusal :=
  command (widthLegal w) false true (do writeBits v.toNat w.toNat; pure 0#64) s

/-- `BS.FINISH` (R137). -/
def execBsFinish (s : State) : Host.Outcome State Fault Refusal :=
  command true false true (do let pad ← finish; pure (BitVec.ofNat 64 pad)) s

/-- `BS.RDBIT` (R143). -/
def execBsRdbit (s : State) : Host.Outcome State Fault Refusal :=
  command true false true (do let b ← readBit; pure (BitVec.ofNat 64 b.toNat)) s

/-- `BS.ATEND ig` (R144). -/
def execBsAtend (ig : Byte) (s : State) : Host.Outcome State Fault Refusal :=
  command (ignoreLegal ig) false true (do let t ← get; pure (if atEnd ig.toNat t then 1#64 else 0#64)) s

end Sys2Proof.Machine
end

