-- ==== Sys2Proof/Machine/Tc.lean ====
section
/-! DEFINITION. The TC unit (41_treecodec.md): `TC.FLATTEN`, `TC.SERHDR`, `TC.DESER`. -/

namespace Sys2Proof.Machine

/-! ### Flatten -/

/-- `Walk(i)` (R161): the shape bits and the leaf bytes of the tree at `i`, pre-order, left before right. The count bounds the
depth; a walk that needs a child the entry does not have, or goes deeper than the arena has entries, finds no tree (log entries 12 and 13). -/
def walk (t : Table Node) : Nat → Nat → Option (Bits × List Byte)
  | 0, _ => none
  | k + 1, i =>
    match (nodeAt t i).kind, (nodeAt t i).left, (nodeAt t i).right with
    | .leaf, _, _ => some ([false], [(nodeAt t i).sym.setWidth 8])
    | .internal, some l, some r =>
      match walk t k l, walk t k r with
      | some (lb, ll), some (rb, rl) => some (true :: (lb ++ rb), ll ++ rl)
      | _, _ => none
    | _, _, _ => none

/-- What `Flatten` found at `ROOT`: `none` where there is no tree of at most 256 leaves. -/
def flattened (s : State) : Option (Bits × List Byte) :=
  match s.root with
  | none => none
  | some r =>
    match walk s.arena Config.arenaSize r with
    | none => none
    | some (bits, leafBytes) => if leafBytes.length ≤ Config.leafMax then some (bits, leafBytes) else none

/-- The writes of `Flatten` (R161): entries of `LEAVES` at `LEAF_CNT` and above keep their values. -/
def storeFlat (bits : Bits) (leafBytes : List Byte) (s : State) : State :=
  setFlatValid { s with
    leafCnt := leafBytes.length
    leaves := Table.setFrom 0#8 s.leaves 0 leafBytes
    shapeSize := ceil8 bits.length
    shape := Table.setFrom 0#8 [] 0 (packMsb bits) }

/-- `Flatten()` (R161). -/
def flatten : Cmd Unit := do
  let s ← get
  let f ← fromTree (flattened s)
  modify (storeFlat f.1 f.2)

/-! ### Serialise the header -/

/-- `HeaderBytes(ig, sig)` (R163). -/
def headerBytes (ig sig : Byte) (s : State) : List Byte :=
  [ig, sig, BitVec.ofNat 8 s.shapeSize, BitVec.ofNat 8 (s.leafCnt - 1)]
    ++ Table.firstN 0#8 s.shape s.shapeSize ++ Table.firstN 0#8 s.leaves s.leafCnt

/-- `SerHdr(ig, sig)` (R164): the signature written is the operand (R165). -/
def serHdr (ig sig : Byte) : Cmd Unit := do
  flatten
  let s ← get
  emitBytes (headerBytes ig sig s)
  modify fun s => { s with hdrIgnore := ig, hdrSig := sig }

/-! ### Deserialise -/

/-- `ShapeBit(k)` (R167): bit `7 - (k mod 8)` of `SHAPE[k div 8]`. -/
def shapeBit (s : State) (k : Nat) : Bool := (s.shapeByte (k / 8)).toNat.testBit (7 - k % 8)

/-- `NODE[i] <- n` on the state. -/
def putNode (i : Nat) (n : Node) (s : State) : State := { s with arena := setNode s.arena i n }

/-- `i <- NODE_CNT; NODE_CNT <- NODE_CNT + 1` (R168, R185). -/
def allocNode (s : State) : State := { s with nodeCnt := s.nodeCnt + 1 }

/-- The internal node of `Build1`, before its subtrees are built (R168). -/
def deserInternal : Node := { Node.reset with kind := .internal }

/-- The leaf of `Build1` (R168): weight 0. -/
def deserLeaf (b : Byte) : Node := { Node.reset with kind := .leaf, sym := b.setWidth 9 }

/-- `NODE[i].PARENT <- p`. -/
def setParent (t : Table Node) (i p : Nat) : Table Node := setNode t i { nodeAt t i with parent := some p }

/-- `NODE[i].LEFT <- l; NODE[i].RIGHT <- r; NODE[l].PARENT <- i; NODE[r].PARENT <- i` (R168). -/
def linkNodes (t : Table Node) (i l r : Nat) : Table Node :=
  setParent (setParent (setNode t i { nodeAt t i with left := some l, right := some r }) l i) r i

/-- `linkNodes` on the state. -/
def linkChildren (i l r : Nat) (s : State) : State := { s with arena := linkNodes s.arena i l r }

/-- Every arena entry `FREE`, no tree (R168, R185). -/
def clearArena (s : State) : State := { setTree .empty s with arena := [], nodeCnt := 0, root := none }

/-- `Build1()` (R168) from the shape cursor `sc` and the leaf cursor `lc`: answers the node built and both cursors. Each call
takes a shape bit, so the count `8 * SHAPE_SIZE + 1` is never used up before the shape runs out (log entry 13). An entry for which no leaf byte is
left stays `FREE` (log entry 19). -/
def build1 : Nat → Nat → Nat → Cmd (Nat × Nat × Nat)
  | 0, _, _ => do
    let s ← get
    raise .malformedHeader s.rdByte
  | k + 1, sc, lc => do
    let s ← get
    raiseIf (8 * s.shapeSize ≤ sc) .malformedHeader s.rdByte
    modify allocNode
    if shapeBit s sc then do
      modify (putNode s.nodeCnt deserInternal)
      let l ← build1 k (sc + 1) lc
      let r ← build1 k l.2.1 l.2.2
      modify (linkChildren s.nodeCnt l.1 r.1)
      pure (s.nodeCnt, r.2.1, r.2.2)
    else do
      raiseIf (s.leafCnt ≤ lc) .malformedHeader s.rdByte
      modify (putNode s.nodeCnt (deserLeaf (s.leafByte lc)))
      pure (s.nodeCnt, sc + 1, lc + 1)

/-- `Deser()` (R168). -/
def deser : Cmd Unit := do
  modify clearArena
  let s ← get
  let r ← build1 (8 * s.shapeSize + 1) 0 0
  raiseIf (r.2.2 ≠ s.leafCnt) .malformedHeader s.rdByte
  raiseIf (ceil8 r.2.1 ≠ s.shapeSize) .malformedHeader s.rdByte
  let t ← get
  raiseIf ((t.node r.1).kind = .leaf) .malformedHeader s.rdByte
  modify fun t => { t with root := some r.1, tmode := .static }

/-! ### Commands -/

/-- `TC.FLATTEN` (R162). -/
def execTcFlatten (s : State) : Host.Outcome State Fault Refusal :=
  command true false (s.tmode = .static)
    (do flatten; let t ← get; pure (BitVec.ofNat 64 (shapeBits t.leafCnt))) s

/-- `TC.SERHDR ig, sig` (R166). -/
def execTcSerhdr (ig sig : Byte) (s : State) : Host.Outcome State Fault Refusal :=
  command (ignoreLegal ig) false (s.tmode = .static && s.accCnt = 0#3)
    (do serHdr ig sig; let t ← get; pure (BitVec.ofNat 64 (hdrSize t.leafCnt))) s

/-- `TC.DESER` (R169). -/
def execTcDeser (s : State) : Host.Outcome State Fault Refusal :=
  command true false s.flatValid (do deser; let t ← get; pure (BitVec.ofNat 64 t.nodeCnt)) s

end Sys2Proof.Machine
end

