-- ==== Sys2Proof/Machine/Fb.lean ====
section
/-! DEFINITION. The FB unit (42_freq_builder.md): `FB.ACC`, `FB.SCAN`, `FB.BUILD`. -/

namespace Sys2Proof.Machine

/-! ### Frequency accumulation -/

/-- `Acc(s)` (R180). -/
def accSymbol (b : Byte) (s : State) : State :=
  { s with
    distinct := if s.freqOf b = 0 then s.distinct + 1 else s.distinct
    freq := Table.set 0 s.freq b.toNat (s.freqOf b + 1) }

/-- One round of `Scan` (R182). -/
def scanByte (i : Nat) : Cmd Unit := do
  let b ← srcByte i .io
  modify (accSymbol b)

/-- `Scan()` (R182): offsets `0 .. SRC_LEN - 1`, ascending; the read cursor does not move. -/
def scan : Cmd Unit := do
  let s ← get
  upFrom scanByte s.srcLen 0

/-- `CheckDistinct()` (R184). -/
def checkDistinct : Cmd Unit := do
  let s ← get
  raiseIf (s.distinct < 2) .invalidInput s.distinct

/-! ### Tree construction -/

/-- The leaves of `Build` (R185): ascending symbol value from `b`, given the counts from `b` on. -/
def seedLeaves (b : Nat) : List Nat → List Node
  | [] => []
  | f :: fs =>
    if 0 < f then { Node.reset with kind := .leaf, sym := BitVec.ofNat 9 b, w := f } :: seedLeaves (b + 1) fs
    else seedLeaves (b + 1) fs

/-- The order of removal (R186): `(W, index)`, lexicographic. -/
def removedBefore (x y : Nat × Nat) : Bool := decide (x.1 < y.1) || (decide (x.1 = y.1) && decide (x.2 < y.2))

/-- The priority structure as a list in the order of removal: adds one node. -/
def addLive (x : Nat × Nat) : List (Nat × Nat) → List (Nat × Nat)
  | [] => [x]
  | y :: rest => if removedBefore x y then x :: y :: rest else y :: addLive x rest

/-- The first `live` set of `Build`: the leaves with their indices from `i` (R185). -/
def seedLive (i : Nat) : List Node → List (Nat × Nat)
  | [] => []
  | n :: ns => addLive (n.w, i) (seedLive (i + 1) ns)

/-- One merge of `Build` (R185): `x` removed first, so on the left. -/
def mergeNodes (t : Table Node) (n x y : Nat) : Table Node :=
  let t := setNode t n
    { Node.reset with kind := .internal, w := (nodeAt t x).w + (nodeAt t y).w, left := some x, right := some y }
  setParent (setParent t x n) y n

/-- The `while` loop of `Build` (R185): at most as many rounds as the count; answers the arena, `NODE_CNT` and the last live node. -/
def mergeAll : Nat → List (Nat × Nat) → Table Node → Nat → Option (Table Node × Nat × Nat)
  | k + 1, x :: y :: rest, t, n => mergeAll k (addLive (x.1 + y.1, n) rest) (mergeNodes t n x.2 y.2) (n + 1)
  | _, [x], t, n => some (t, n, x.2)
  | _, _, _, _ => none

/-- The tree of `Build` (R185), a function of `FREQ` alone (R188): arena, `NODE_CNT`, `ROOT`. -/
def builtTree (freq : Table Nat) : Option (Table Node × Nat × Nat) :=
  let leafNodes := seedLeaves 0 (Table.firstN 0 freq 256)
  mergeAll leafNodes.length (seedLive 0 leafNodes) (Table.setFrom Node.reset [] 0 leafNodes) leafNodes.length

/-- `Build()` (R185). -/
def build : Cmd Unit := do
  checkDistinct
  modify clearArena
  let s ← get
  let r ← fromTree (builtTree s.freq)
  modify fun s => { s with arena := r.1, nodeCnt := r.2.1, root := some r.2.2, tmode := .static }

/-! ### Commands -/

/-- `FB.ACC s` (R181). -/
def execFbAcc (sym : Byte) (s : State) : Host.Outcome State Fault Refusal :=
  command true false true (do modify (accSymbol sym); let t ← get; pure (BitVec.ofNat 64 (t.freqOf sym))) s

/-- `FB.SCAN` (R183). -/
def execFbScan (s : State) : Host.Outcome State Fault Refusal :=
  command true false true (do scan; checkDistinct; let t ← get; pure (BitVec.ofNat 64 t.distinct)) s

/-- `FB.BUILD` (R187). -/
def execFbBuild (s : State) : Host.Outcome State Fault Refusal :=
  command true false true (do build; let t ← get; pure (BitVec.ofNat 64 t.nodeCnt)) s

end Sys2Proof.Machine
end

