-- ==== Sys2Proof/Machine/Sh.lean ====
section
/-! DEFINITION. The SH unit (43_static_coder.md): `SH.MKCODES`, `SH.ENCSYM`, `SH.DECSYM`, `SH.RDHDR`, `SH.FIXUP`, `SH.ARCHIVE`,
`SH.UNARCHIVE`. -/

namespace Sys2Proof.Machine

/-! ### Code derivation -/

/-- `WalkC(i, p)` (R201) on the code table `c`: the later leaf in pre-order wins. The count bounds the depth as in `walk`. -/
def walkC (t : Table Node) : Nat → Nat → Bits → Table Bits → Option (Table Bits)
  | 0, _, _, _ => none
  | k + 1, i, p, c =>
    match (nodeAt t i).kind, (nodeAt t i).left, (nodeAt t i).right with
    | .leaf, _, _ => some (Table.set [] c ((nodeAt t i).sym.setWidth 8).toNat p)
    | .internal, some l, some r =>
      match walkC t k l (p ++ [false]) c with
      | some c' => walkC t k r (p ++ [true]) c'
      | none => none
    | _, _, _ => none

/-- The code table of the tree at `ROOT` (R201). -/
def derivedCodes (s : State) : Option (Table Bits) :=
  match s.root with
  | none => none
  | some r => walkC s.arena Config.arenaSize r [] []

/-- `MkCodes()` (R201). -/
def mkCodes : Cmd Unit := do
  let s ← get
  let c ← fromTree (derivedCodes s)
  modify fun s => setCodesValid { s with codeBits := c }

/-- The number of `b` with `CODE_LEN[b] > 0` (R202). -/
def codeCount (s : State) : Nat := (Table.firstN [] s.codeBits 256).countP (fun c => decide (0 < c.length))

/-! ### Symbol encode -/

/-- `EncSym(s)` (R203), its precondition `CODE_LEN[s] > 0` kept: no rule gives the other case a meaning (93 U1). -/
def encSym (sym : Byte) : Cmd Unit := do
  let s ← get
  if s.codeLen sym = 0 then
    stick .symbolWithoutCode
  else
    emitBits (s.codeOf sym)

/-! ### Symbol decode -/

/-- `END = 0x100` (R205). -/
def endOfStream : Nat := 0x100

/-- The child a bit selects: left on 0, right on 1 (R205, R250). -/
def childOf (n : Node) (bit : Bool) : Option Nat := if bit then n.right else n.left

/-- The loop of `DecSym` (R205) at node `n`. Each round reads a bit, and `ReadBit` raises when none is left, so a count above
the number of unread bits is never used up. -/
def decLoop (ig : Nat) : Nat → Nat → Cmd Nat
  | 0, _ => stick .brokenTree
  | k + 1, n => do
    let s ← get
    if atEnd ig s then
      pure endOfStream
    else do
      let bit ← readBit
      let m ← fromTree (childOf (s.node n) bit)
      if (s.node m).kind = .leaf then do
        emitByte ((s.node m).sym.setWidth 8)
        pure ((s.node m).sym.setWidth 8).toNat
      else
        decLoop ig k m

/-- `DecSym(ig)` (R205, R206): the symbol, or `END`. -/
def decSym (ig : Nat) : Cmd Nat := do
  let s ← get
  let n ← fromTree s.root
  decLoop ig (remaining s + 1) n

/-! ### Header read -/

/-- `SHAPE[k] <- TakeByte(MalformedHeaderError)` (R211). -/
def takeShape (k : Nat) : Cmd Unit := do
  let b ← takeByte .malformedHeader
  modify fun s => { s with shape := Table.set 0#8 s.shape k b }

/-- `LEAVES[k] <- TakeByte(MalformedHeaderError)` (R211). -/
def takeLeaf (k : Nat) : Cmd Unit := do
  let b ← takeByte .malformedHeader
  modify fun s => { s with leaves := Table.set 0#8 s.leaves k b }

/-- `RdHdr()` (R211): the checks in the order of rule R212. -/
def rdHdr : Cmd Unit := do
  let ig ← takeByte .malformedHeader
  let sig ← takeByte .malformedHeader
  modify fun s => { s with hdrIgnore := ig, hdrSig := sig }
  let s ← get
  raiseIf (sig ≠ s.params.sigStatic) .badSignature sig.toNat
  let ss ← takeByte .malformedHeader
  let lm ← takeByte .malformedHeader
  let s ← get
  raiseIf (7 < ig.toNat) .malformedHeader s.rdByte
  raiseIf (ss.toNat ≠ ceil8 (shapeBits (lm.toNat + 1))) .malformedHeader s.rdByte
  modify fun s => { s with shapeSize := ss.toNat, leafCnt := lm.toNat + 1 }
  upFrom takeShape ss.toNat 0
  modify fun s => { s with shape := Table.clearFrom s.shape ss.toNat }
  upFrom takeLeaf (lm.toNat + 1) 0
  modify setFlatValid
  deser

/-! ### The composites' loops -/

/-- One round of the second pass of `SH.ARCHIVE` (R216). -/
def archiveByte (i : Nat) : Cmd Unit := do
  let b ← srcByte i .io
  encSym b

/-- The decode loop of `SH.UNARCHIVE` (R217): `DecSym` until it answers `END`; a symbol costs at least one bit, so a count above
the number of unread bits is never used up. -/
def decAll : Nat → Cmd Unit
  | 0 => stick .brokenTree
  | k + 1 => do
    let s ← get
    let r ← decSym s.hdrIgnore.toNat
    if r = endOfStream then
      pure ()
    else
      decAll k

/-- The header fix-up (R215, R216): one byte at offset 0. -/
def fixup (ig : Byte) : Cmd Unit := do
  memWrite 0 [ig]
  modify fun s => { s with hdrIgnore := ig }

/-- `BYTES_IN <- n; BYTES_OUT <- SINK_POS` (R29). -/
def countBytes (n : Nat) (s : State) : State := { s with bytesIn := n, bytesOut := s.sinkPos }

/-- Steps 1 to 6 of `SH.ARCHIVE` (R216); answers the pad count. -/
def archiveStatic : Cmd Nat := do
  modify initContext
  scan
  checkDistinct
  build
  mkCodes
  let s ← get
  serHdr 0#8 s.params.sigStatic
  upFrom archiveByte s.srcLen 0
  let pad ← finish
  fixup (BitVec.ofNat 8 pad)
  modify (countBytes s.srcLen)
  pure pad

/-- Steps 1 to 3 of `SH.UNARCHIVE` (R217); answers the number of bytes decoded. -/
def unarchiveStatic : Cmd Nat := do
  modify initContext
  rdHdr
  let s ← get
  decAll (remaining s + 1)
  flushOut
  modify (countBytes s.srcLen)
  let t ← get
  pure t.sinkPos

/-! ### Commands -/

/-- `SH.MKCODES` (R202). -/
def execShMkcodes (s : State) : Host.Outcome State Fault Refusal :=
  command true false (s.tmode = .static) (do mkCodes; let t ← get; pure (BitVec.ofNat 64 (codeCount t))) s

/-- `SH.ENCSYM s` (R204). -/
def execShEncsym (sym : Byte) (s : State) : Host.Outcome State Fault Refusal :=
  command true false (s.codesValid && decide (0 < s.codeLen sym))
    (do encSym sym; let t ← get; pure (BitVec.ofNat 64 (t.codeLen sym))) s

/-- `SH.DECSYM ig` (R207). -/
def execShDecsym (ig : Byte) (s : State) : Host.Outcome State Fault Refusal :=
  command (ignoreLegal ig) false (s.tmode = .static) (do let r ← decSym ig.toNat; pure (BitVec.ofNat 64 r)) s

/-- `SH.RDHDR` (R213). -/
def execShRdhdr (s : State) : Host.Outcome State Fault Refusal :=
  command true false (s.rdBit = 0#3) (do rdHdr; let t ← get; pure (t.hdrIgnore.setWidth 64)) s

/-- `SH.FIXUP ig` (R215). -/
def execShFixup (ig : Byte) (s : State) : Host.Outcome State Fault Refusal :=
  command (ignoreLegal ig) false (decide (s.obufLen = 0) && decide (1 ≤ s.sinkPos)) (do fixup ig; pure 0#64) s

/-- `SH.ARCHIVE` (R216). -/
def execShArchive (s : State) : Host.Outcome State Fault Refusal :=
  command true false true (do let pad ← archiveStatic; pure (BitVec.ofNat 64 pad)) s

/-- `SH.UNARCHIVE` (R217). -/
def execShUnarchive (s : State) : Host.Outcome State Fault Refusal :=
  command true false true (do let n ← unarchiveStatic; pure (BitVec.ofNat 64 n)) s

end Sys2Proof.Machine
end

