-- ==== Sys2Proof/Machine/Ah.lean ====
section
/-! DEFINITION. The AH unit (44_adaptive.md): `AH.INIT`, `AH.UPDATE`, `AH.ENCSYM`, `AH.DECSYM`, `AH.ARCHIVE`, `AH.UNARCHIVE`. -/

namespace Sys2Proof.Machine

/-! ### Initialisation -/

/-- A leaf of an adaptive tree, weight 0 (R235, R238, R240). -/
def adaptiveLeaf (sym : BitVec 9) (parent : Option Nat) (num : BitVec 10) : Node :=
  { Node.reset with kind := .leaf, sym := sym, parent := parent, num := num }

/-- `AhInit()` (R235). -/
def ahInitTree (s : State) : State :=
  { setTree .adaptive s with
    arena := setNode [] 0 (adaptiveLeaf Config.nytMark none Config.numRoot)
    nodeCnt := 1
    root := some 0
    ahNyt := some 0
    ahS := 0
    ahNextnum := Config.numRoot - 1#10
    map := [] }

/-! ### Paths -/

/-- `Path(n)` (R237), the edges already found in front of `p`: 1 for a right edge. The count bounds the parent chain. -/
def pathUp (t : Table Node) : Nat → Nat → Bits → Option Bits
  | 0, _, _ => none
  | k + 1, n, p =>
    match (nodeAt t n).parent with
    | none => some p
    | some q => pathUp t k q (decide ((nodeAt t q).right = some n) :: p)

/-- `Path(n)` (R237). -/
def path (n : Nat) : Cmd Bits := do
  let s ← get
  fromTree (pathUp s.arena Config.arenaSize n [])

/-! ### Growth -/

/-- The arena of `Grow(s)` (R238) under the NYT leaf `p`, the fresh entries at `a` and `a + 1`, the next number `num`: the fresh NYT
leaf on the left with the lower number, the symbol's leaf on the right with the higher one (R239). -/
def growNodes (t : Table Node) (p a : Nat) (sym : Byte) (num : BitVec 10) : Table Node :=
  let t := setNode t (a + 1) (adaptiveLeaf (sym.setWidth 9) (some p) num)
  let t := setNode t a (adaptiveLeaf Config.nytMark (some p) (num - 1#10))
  setNode t p { nodeAt t p with kind := .internal, sym := 0#9, left := some a, right := some (a + 1) }

/-- `Grow(s)` (R238) under the NYT leaf `p`. -/
def growAt (p : Nat) (sym : Byte) (s : State) : State :=
  { s with
    nodeCnt := s.nodeCnt + 2
    arena := growNodes s.arena p s.nodeCnt sym s.ahNextnum
    ahNextnum := s.ahNextnum - 2#10
    map := Table.set none s.map sym.toNat (some (s.nodeCnt + 1))
    ahNyt := some s.nodeCnt
    ahS := s.ahS + 1 }

/-- `Grow(s)` (R238). -/
def grow (sym : Byte) : Cmd Unit := do
  let s ← get
  let p ← fromTree s.ahNyt
  modify (growAt p sym)

/-! ### The model update -/

/-- `Sib(n)` for a node with the parent `q` (R242). -/
def sibling (t : Table Node) (q n : Nat) : Option Nat :=
  if (nodeAt t q).left = some n then (nodeAt t q).right else (nodeAt t q).left

/-- The two swaps of `Update` (R244): the subtrees change sides, the numbers stay with the slots (R243). -/
def swapChildren (t : Table Node) (q n m : Nat) : Table Node :=
  let numN := (nodeAt t n).num
  let numM := (nodeAt t m).num
  let t := setNode t q { nodeAt t q with left := (nodeAt t q).right, right := (nodeAt t q).left }
  let t := setNode t n { nodeAt t n with num := numM }
  setNode t m { nodeAt t m with num := numN }

/-- `NODE[n].W <- NODE[n].W + 1`. -/
def addWeight (t : Table Node) (n : Nat) : Table Node := setNode t n { nodeAt t n with w := (nodeAt t n).w + 1 }

/-- The comparison of `Update` (R244), with the weights before the increment. -/
def mustSwap (t : Table Node) (n m : Nat) : Bool :=
  decide ((nodeAt t n).w = (nodeAt t m).w) && decide ((nodeAt t n).num.toNat < (nodeAt t m).num.toNat)

/-- `Update(n)` (R244) on the arena. The count bounds the parent chain. -/
def updateUp : Nat → Nat → Table Node → Option (Table Node)
  | 0, _, _ => none
  | k + 1, n, t =>
    match (nodeAt t n).parent with
    | none => some (addWeight t n)
    | some q =>
      match sibling t q n with
      | none => none
      | some m => updateUp k q (addWeight (if mustSwap t n m then swapChildren t q n m else t) n)

/-- `Update(MAP[s])` (R244): the tree mutator, started at the symbol's leaf. -/
def updateSymbol (sym : Byte) : Cmd Unit := do
  let s ← get
  let n ← fromTree (s.mapOf sym)
  let t ← fromTree (updateUp Config.arenaSize n s.arena)
  modify fun s => { s with arena := t }

/-! ### Symbol encode and decode -/

/-- `AhEncSym(s)` (R249): the path is taken before the tree changes; answers the number of bits written. -/
def ahEncSym (sym : Byte) : Cmd Nat := do
  let s ← get
  match s.mapOf sym with
  | some n => do
    let p ← path n
    emitBits p
    updateSymbol sym
    pure p.length
  | none => do
    let y ← fromTree s.ahNyt
    let p ← path y
    emitBits p
    writeBits sym.toNat 8
    grow sym
    updateSymbol sym
    pure (p.length + 8)

/-- The descent of `AhDecSym` (R250) from node `n` to a leaf. Each round reads a bit, so a count above the number of unread bits
is never used up. -/
def descend : Nat → Nat → Cmd Nat
  | 0, _ => stick .brokenTree
  | k + 1, n => do
    let s ← get
    if (s.node n).kind = .internal then do
      let bit ← readBit
      let m ← fromTree (childOf (s.node n) bit)
      descend k m
    else
      pure n

/-- `repeat k times: s <- 2 * s + ReadBit()` (R250). -/
def readRaw : Nat → Nat → Cmd Nat
  | 0, v => pure v
  | k + 1, v => do
    let bit ← readBit
    readRaw k (shiftIn v bit)

/-- The raw symbol after the NYT path (R250): one that already has a leaf raises `CorruptStreamError` (R300). -/
def readNewSymbol : Cmd Byte := do
  let v ← readRaw 8 0
  let s ← get
  raiseIf (s.mapOf (BitVec.ofNat 8 v) ≠ none) .corruptStream v
  grow (BitVec.ofNat 8 v)
  pure (BitVec.ofNat 8 v)

/-- `AhDecSym()` (R250). -/
def ahDecSym : Cmd Byte := do
  let s ← get
  let r ← fromTree s.root
  let n ← descend (remaining s + 1) r
  let sym ← if (s.node n).sym = Config.nytMark then readNewSymbol else pure ((s.node n).sym.setWidth 8)
  emitByte sym
  updateSymbol sym
  pure sym

/-- `AH.UPDATE`'s rule (R248): one model step without bit I/O. -/
def ahUpdateSym (sym : Byte) : Cmd Unit := do
  let s ← get
  if s.mapOf sym = none then grow sym else pure ()
  updateSymbol sym

/-- `NODE[MAP[s]].W` (R248). -/
def symbolWeight (sym : Byte) (s : State) : Nat :=
  match s.mapOf sym with
  | some n => (s.node n).w
  | none => 0

/-! ### The composites -/

/-- One round of the loop of `AH.ARCHIVE` (R251). -/
def ahArchiveByte (i : Nat) : Cmd Unit := do
  let b ← srcByte i .io
  discard (ahEncSym b)

/-- `AH.ARCHIVE`'s rule (R251); answers the pad count. -/
def archiveAdaptive : Cmd Nat := do
  modify initContext
  modify ahInitTree
  let s ← get
  emitByte s.params.sigAdaptive
  upFrom ahArchiveByte s.srcLen 0
  let pad ← finish
  modify (countBytes s.srcLen)
  pure pad

/-- `RD_BYTE + (1 if RD_BIT > 0 else 0)`, the bytes the cursor touched (R252). -/
def bytesTouched (s : State) : Nat := if s.rdBit = 0#3 then s.rdByte else s.rdByte + 1

/-- `AH.UNARCHIVE N`'s rule (R252); answers `SINK_POS`. -/
def unarchiveAdaptive (n : Nat) : Cmd Nat := do
  modify initContext
  modify ahInitTree
  let sig ← takeByte .badSignature
  modify fun s => { s with hdrSig := sig }
  let s ← get
  raiseIf (sig ≠ s.params.sigAdaptive) .badSignature sig.toNat
  repeatTimes (discard ahDecSym) n
  flushOut
  modify fun t => countBytes (bytesTouched t) t
  let t ← get
  pure t.sinkPos

/-! ### Commands -/

/-- `AH.INIT` (R241). -/
def execAhInit (s : State) : Host.Outcome State Fault Refusal :=
  command true false true (do modify ahInitTree; pure 0#64) s

/-- `AH.UPDATE s` (R248). -/
def execAhUpdate (sym : Byte) (s : State) : Host.Outcome State Fault Refusal :=
  command true false (s.tmode = .adaptive)
    (do ahUpdateSym sym; let t ← get; pure (BitVec.ofNat 64 (symbolWeight sym t))) s

/-- `AH.ENCSYM s` (R249). -/
def execAhEncsym (sym : Byte) (s : State) : Host.Outcome State Fault Refusal :=
  command true false (s.tmode = .adaptive) (do let k ← ahEncSym sym; pure (BitVec.ofNat 64 k)) s

/-- `AH.DECSYM` (R250). -/
def execAhDecsym (s : State) : Host.Outcome State Fault Refusal :=
  command true false (s.tmode = .adaptive) (do let b ← ahDecSym; pure (b.setWidth 64)) s

/-- `AH.ARCHIVE` (R251). -/
def execAhArchive (s : State) : Host.Outcome State Fault Refusal :=
  command true false true (do let pad ← archiveAdaptive; pure (BitVec.ofNat 64 pad)) s

/-- `AH.UNARCHIVE N` (R252). -/
def execAhUnarchive (n : BitVec 48) (s : State) : Host.Outcome State Fault Refusal :=
  command true false true (do let k ← unarchiveAdaptive n.toNat; pure (BitVec.ofNat 64 k)) s

end Sys2Proof.Machine
end

