-- ==== Sys2Proof/Machine/Ctx.lean ====
section
/-! DEFINITION. The context commands (45_system.md): `CTX.INIT` and `CTX.RDREG`. Both are executed in the faulted state too (R299). -/

namespace Sys2Proof.Machine

/-- `CTX.INIT` (R271): also the return from a fault (R301). -/
def execCtxInit (s : State) : Host.Outcome State Fault Refusal :=
  command true true true (do modify leaveFault; pure 0#64) s

/-- `CTX.RDREG r` (R272): the value before this command began. -/
def execCtxRdreg (r : Byte) (s : State) : Host.Outcome State Fault Refusal :=
  command (registerLegal r) true true (do let t ← get; pure (readRegister r t)) s

end Sys2Proof.Machine
end

