-- ==== Sys2Proof/Machine/Dispatch.lean ====
section
/-! DEFINITION. One arm per command: the rule of `Op(c)` inside `Step(c)` (R91). -/

namespace Sys2Proof.Machine

/-- What a command does to the state (R91, R96). -/
def exec (i : Instr) (s : State) : Host.Outcome State Fault Refusal :=
  match i with
  | .ctxInit => Sys2Proof.Machine.execCtxInit s
  | .ctxRdreg r => Sys2Proof.Machine.execCtxRdreg r s
  | .bsWrite w v => Sys2Proof.Machine.execBsWrite w v s
  | .bsFinish => Sys2Proof.Machine.execBsFinish s
  | .bsRdbit => Sys2Proof.Machine.execBsRdbit s
  | .bsAtend ig => Sys2Proof.Machine.execBsAtend ig s
  | .tcFlatten => Sys2Proof.Machine.execTcFlatten s
  | .tcSerhdr ig sig => Sys2Proof.Machine.execTcSerhdr ig sig s
  | .tcDeser => Sys2Proof.Machine.execTcDeser s
  | .fbAcc sym => Sys2Proof.Machine.execFbAcc sym s
  | .fbScan => Sys2Proof.Machine.execFbScan s
  | .fbBuild => Sys2Proof.Machine.execFbBuild s
  | .shMkcodes => Sys2Proof.Machine.execShMkcodes s
  | .shEncsym sym => Sys2Proof.Machine.execShEncsym sym s
  | .shDecsym ig => Sys2Proof.Machine.execShDecsym ig s
  | .shRdhdr => Sys2Proof.Machine.execShRdhdr s
  | .shFixup ig => Sys2Proof.Machine.execShFixup ig s
  | .shArchive => Sys2Proof.Machine.execShArchive s
  | .shUnarchive => Sys2Proof.Machine.execShUnarchive s
  | .ahInit => Sys2Proof.Machine.execAhInit s
  | .ahUpdate sym => Sys2Proof.Machine.execAhUpdate sym s
  | .ahEncsym sym => Sys2Proof.Machine.execAhEncsym sym s
  | .ahDecsym => Sys2Proof.Machine.execAhDecsym s
  | .ahArchive => Sys2Proof.Machine.execAhArchive s
  | .ahUnarchive n => Sys2Proof.Machine.execAhUnarchive n s

end Sys2Proof.Machine
end

