-- ==== Sys2Proof/Machine/Step.lean ====
section
/-! DEFINITION. One step (R90, R91): the next command word the host presents, run to completion. -/

namespace Sys2Proof.Machine

/-- `Step(c)` on a word (R91): an illegal one is refused with `IllegalCommand`, in any state (R97, R302). -/
def stepWord (c : Word) (s : State) : Host.Outcome State Fault Refusal :=
  match decode c with
  | .ok i => exec i s
  | .error _ => .next (refuse stIllegalCommand s)

/-- The next step: the host's next word is taken and run. With no word presented the core is idle and keeps all state (R342,
log entry 9). -/
def step (s : State) : Host.Outcome State Fault Refusal :=
  match s.cmds with
  | [] => .next s
  | c :: rest => stepWord c { s with cmds := rest }

/-- The state in which the word `w` (its `nbits` low bits, the others 0) is the next one the host presents; the words after it
stay (log entry 10). -/
def State.withFetchWord (s : State) (nbits w : Nat) : State :=
  { s with cmds := BitVec.ofNat 64 (w % 2 ^ nbits) :: s.cmds.drop 1 }

end Sys2Proof.Machine
end

