-- ==== Sys2Proof/Safety.lean ====
section
/-! DEFINITION. The terms the statements use: how a command ends, the emitted stream and the unread bits, the tree the arena holds as an
abstract tree (R38), the containers (R110 to R116), the admission table (R298), the kinds a command can raise (R290), and the
invariants of the machine. Nothing here is used by the step. -/

namespace Sys2Proof.Machine

/-! ### How a command ends -/

/-- `t` is a state in which a command issued in `s` has ended OK with the result `v` (R25, R91, R96). -/
def EndsOk (s t : State) (v : Word) : Prop :=
  t.rsp = some { st := 0x00#8, val := v } ∧ t.res = v ∧ t.cseq = s.cseq + 1#64 ∧ t.err = s.err ∧ t.faulted = s.faulted

/-- `t` is the state after a refusal with the status `st` in `s`: only `CSEQ` and the response changed (R297). -/
def EndsRefused (s t : State) (st : Byte) : Prop :=
  t = { s with rsp := some { st := st, val := 0#64 }, cseq := s.cseq + 1#64 }

/-- `t` is a state in which a command issued in `s` has ended with the fault `e` and the info `info` (R296). -/
def EndsFaulted (s t : State) (e : ErrKind) (info : Nat) : Prop :=
  t.rsp = some { st := e.code, val := BitVec.ofNat 64 info } ∧ t.err = some e ∧ t.faulted = true
    ∧ t.errinfo = BitVec.ofNat 64 info ∧ t.cseq = s.cseq + 1#64

/-- No transaction to come fails: the premise of every claim that a command succeeds (R64). -/
def PortsGood (s : State) : Prop := ∀ a ∈ s.ports, a = PortAnswer.done

/-- The fields every command may write, whatever else it does: the response, `RES`, `CSEQ` and the environment's answers used up. -/
def sameEnd (t s : State) : State := { s with rsp := t.rsp, res := t.res, cseq := t.cseq, ports := t.ports }

/-- The context a composite starts from, which is the reset state (R16, R44, R270), with the host's side of `s` and the fields every
command may write as `t` has them. -/
def freshEnd (t s : State) : State :=
  { State.reset with
    params := s.params, src := s.src, cmds := s.cmds, rsp := t.rsp, res := t.res, cseq := t.cseq, ports := t.ports }

/-! ### The emitted stream and the unread bits -/

/-- `SNK[0 .. SINK_POS - 1]`. -/
def sinkBytes (s : State) : List (Option Byte) := (List.range s.sinkPos).map (Memory.read s.snk)

/-- The emitted stream `E = SNK[0 .. SINK_POS - 1] ++ OBUF[0 .. OBUF_LEN - 1]` (R69). -/
def emitted (s : State) : List (Option Byte) := sinkBytes s ++ s.obuf.map some

/-- `Bits(ACC, ACC_CNT)`, the bits that wait in the accumulator (R130). -/
def pending (s : State) : Bits := bitsOf s.acc.toNat s.accCnt.toNat

/-- The sink outside the offsets from `SINK_POS` before to `SINK_POS` after reads as before. -/
def SinkGrows (s t : State) : Prop :=
  s.sinkPos ≤ t.sinkPos ∧ ∀ a, a < s.sinkPos ∨ t.sinkPos ≤ a → Memory.read t.snk a = Memory.read s.snk a

/-- From `s` to `t` the bytes `bs` were appended to the emitted stream (R69). -/
def EmitsBytes (s t : State) (bs : List Byte) : Prop := emitted t = emitted s ++ bs.map some ∧ SinkGrows s t

/-- From `s` to `t` the bits `b` were appended to what was written (R130): the bytes that went out and the bits that wait are
the bits that waited and `b`. -/
def WritesBits (s t : State) (b : Bits) : Prop :=
  ∃ bs : List Byte, EmitsBytes s t bs ∧ unpackMsb bs ++ pending t = pending s ++ b

/-- The number of bits consumed so far (R23). -/
def cursor (s : State) : Nat := 8 * s.rdByte + s.rdBit.toNat

/-- The unread bits of SRC, first bit first (R23, R61). -/
def unread (s : State) : Bits := (unpackMsb s.src).drop (cursor s)

/-! ### The tree the arena holds -/

/-- An abstract tree with the arena index of every node (R38). -/
inductive Tree where
  | leaf (i : Nat) (sym : BitVec 9)
  | node (i : Nat) (l r : Tree)
  deriving DecidableEq, Repr

/-- The arena index of the root. -/
def Tree.idx : Tree → Nat
  | .leaf i _ => i
  | .node i _ _ => i

/-- The arena indices of all nodes, pre-order. -/
def Tree.indices : Tree → List Nat
  | .leaf i _ => [i]
  | .node i l r => i :: (l.indices ++ r.indices)

/-- The leaf symbols, pre-order. -/
def Tree.syms : Tree → List (BitVec 9)
  | .leaf _ s => [s]
  | .node _ l r => l.syms ++ r.syms

/-- The leaf byte sequence `LeavesOf` (R111). -/
def Tree.leafBytes (T : Tree) : List Byte := T.syms.map fun s => s.setWidth 8

/-- The shape bit string `ShapeOf` (R111). -/
def Tree.shape : Tree → Bits
  | .leaf _ _ => [false]
  | .node _ l r => true :: (l.shape ++ r.shape)

/-- The number of leaves. -/
def Tree.leafCount (T : Tree) : Nat := T.syms.length

/-- The root-to-node path of entry `n`: 0 for a left edge, 1 for a right edge (R237). -/
def Tree.pathTo (n : Nat) : Tree → Option Bits
  | .leaf i _ => if i = n then some [] else none
  | .node i l r =>
    if i = n then some []
    else match l.pathTo n with
      | some p => some (false :: p)
      | none => (r.pathTo n).map (true :: ·)

/-- The code of a symbol: the path of its leaf, of the later one in pre-order if there are two (R200, R201). -/
def Tree.codeOf (sym : BitVec 9) : Tree → Option Bits
  | .leaf _ s => if s = sym then some [] else none
  | .node _ l r =>
    match r.codeOf sym with
    | some p => some (true :: p)
    | none => (l.codeOf sym).map (false :: ·)

/-- The leaf a bit string leads to from the root, if it is a root-to-leaf path. -/
def Tree.leafAt : Tree → Bits → Option (BitVec 9)
  | .leaf _ s, [] => some s
  | .node _ l r, b :: p => if b then r.leafAt p else l.leafAt p
  | _, _ => none

/-- The arena holds `T`, whose root has the parent `p` (R36). -/
def Holds (t : Table Node) (p : Option Nat) : Tree → Prop
  | .leaf i s => (nodeAt t i).kind = .leaf ∧ (nodeAt t i).sym = s ∧ (nodeAt t i).left = none ∧ (nodeAt t i).right = none
      ∧ (nodeAt t i).parent = p
  | .node i l r => (nodeAt t i).kind = .internal ∧ (nodeAt t i).sym = 0#9 ∧ (nodeAt t i).left = some l.idx
      ∧ (nodeAt t i).right = some r.idx ∧ (nodeAt t i).parent = p ∧ Holds t (some i) l ∧ Holds t (some i) r

/-- "the entries `0 .. NODE_CNT - 1` form one binary tree rooted at `ROOT`", here `T` (R36), and the others are `FREE` (R31). -/
def TreeAt (s : State) (T : Tree) : Prop :=
  s.root = some T.idx ∧ Holds s.arena none T ∧ T.indices.Perm (List.range s.nodeCnt)
    ∧ ∀ i, s.nodeCnt ≤ i → s.node i = Node.reset

/-- Every internal node's weight is the sum of its children's (R37). -/
def Weighted (t : Table Node) : Tree → Prop
  | .leaf _ _ => True
  | .node i l r => (nodeAt t i).w = (nodeAt t l.idx).w + (nodeAt t r.idx).w ∧ Weighted t l ∧ Weighted t r

/-- At every internal node the right child has the higher number and a weight not less than the left child's, and the node's own
number exceeds both (R243, R246). -/
def Ordered (t : Table Node) : Tree → Prop
  | .leaf _ _ => True
  | .node i l r => (nodeAt t l.idx).num.toNat < (nodeAt t r.idx).num.toNat ∧ (nodeAt t r.idx).num.toNat < (nodeAt t i).num.toNat
      ∧ (nodeAt t l.idx).w ≤ (nodeAt t r.idx).w ∧ Ordered t l ∧ Ordered t r

/-- The numbers belong to the slots (R243): below `d` internal nodes the right slot holds `511 - 2 * d` and the left one `510 - 2 * d`,
the numbers the `d + 1`-st growth gave (R232). -/
def Numbered (t : Table Node) (d : Nat) : Tree → Prop
  | .leaf _ _ => True
  | .node _ l r => (nodeAt t r.idx).num.toNat + 2 * d = 511 ∧ (nodeAt t l.idx).num.toNat + 2 * d = 510
      ∧ Numbered t (d + 1) l ∧ Numbered t (d + 1) r

/-- Entry `i` is a leaf of the tree with the symbol `sym`. -/
def Tree.HasLeaf (i : Nat) (sym : BitVec 9) : Tree → Prop
  | .leaf j s => j = i ∧ s = sym
  | .node _ l r => l.HasLeaf i sym ∨ r.HasLeaf i sym

/-- A static tree (R36): the root is internal, every leaf's symbol is a byte, at most 256 leaves. -/
def Tree.Static (T : Tree) : Prop :=
  2 ≤ T.leafCount ∧ T.leafCount ≤ Config.leafMax ∧ ∀ s ∈ T.syms, s.toNat < 256

/-- A leaf with a byte symbol. -/
def Tree.IsSymbolLeaf : Tree → Bool
  | .leaf _ s => decide (s.toNat < 256)
  | .node _ _ _ => false

/-- "the tree is a chain" (R247): every internal node has one symbol leaf and one other child below it, the last of them the
NYT leaf, and the NYT leaf is a left child or the root. -/
def Tree.IsChain : Tree → Prop
  | .leaf _ s => s = Config.nytMark
  | .node _ l r => (l.IsChain ∧ r.IsSymbolLeaf = true) ∨ (l.IsSymbolLeaf = true ∧ r.IsChain ∧ ∃ i a b, r = .node i a b)

/-- What rules R32, R36, R37, R40, R232, R235, R243, R245, R246 and R247 say of the state in `ADAPTIVE` mode, with the tree `T`. -/
def AdaptiveAt (s : State) (T : Tree) : Prop :=
  TreeAt s T
    ∧ (∃ y, s.ahNyt = some y ∧ T.HasLeaf y Config.nytMark ∧ (s.node y).w = 0)
    ∧ T.IsChain
    ∧ (∀ (b : Byte) (i : Nat), s.mapOf b = some i ↔ T.HasLeaf i (b.setWidth 9))
    ∧ s.nodeCnt = 2 * s.ahS + 1
    ∧ s.ahNextnum = Config.numRoot - 1#10 - BitVec.ofNat 10 (2 * s.ahS)
    ∧ s.ahS ≤ 256
    ∧ Weighted s.arena T
    ∧ Ordered s.arena T
    ∧ (s.node T.idx).num = Config.numRoot
    ∧ Numbered s.arena 0 T

/-- The mode's tree is as rule R36 says, with the codes of rule R39 where `CODES_VALID` says that they are there. -/
def TreeInv (s : State) : Prop :=
  match s.tmode with
  | .empty => s.root = none
  | .static => ∃ T, TreeAt s T ∧ T.Static ∧ Weighted s.arena T
      ∧ (s.codesValid = true → ∀ b : Byte, s.codeOf b = (T.codeOf (b.setWidth 9)).getD [])
  | .adaptive => ∃ T, AdaptiveAt s T

/-- `P_i` of rule R115 for the symbol `b` and the tree as it stands: the path of the symbol's leaf, or the NYT leaf's path and the raw
8-bit value. -/
def CodeIn (s : State) (T : Tree) (b : Byte) (bits : Bits) : Prop :=
  match s.mapOf b with
  | some n => T.pathTo n = some bits
  | none => ∃ y p, s.ahNyt = some y ∧ T.pathTo y = some p ∧ bits = p ++ bitsOf b.toNat 8

/-- `P_0 ++ P_1 ++ ... ++ P_{n-1}` of rule R115 for the symbols `x` from the tree of `s`, each step's tree the one `AH.UPDATE` leaves. -/
inductive AdaptiveCode : State → List Byte → Bits → Prop
  | nil (s : State) : AdaptiveCode s [] []
  | cons (s u : State) (T : Tree) (b : Byte) (x : List Byte) (bits rest : Bits) : AdaptiveAt s T → CodeIn s T b bits →
      exec (.ahUpdate b) s = .next u → AdaptiveCode u x rest → AdaptiveCode s (b :: x) (bits ++ rest)

/-! ### The adaptive tree as plain data -/

/-- An adaptive tree as symbols and weights alone; the numbers "influence nothing that reaches a port or a response" (R247). -/
inductive Model where
  | leaf (sym : BitVec 9) (w : Nat)
  | node (l r : Model)
  deriving DecidableEq, Repr

/-- A node's weight, the sum of its leaves' (R245). -/
def Model.weight : Model → Nat
  | .leaf _ w => w
  | .node l r => l.weight + r.weight

/-- The path of the symbol's leaf, 0 for left, 1 for right (R237); `none` for a symbol without a leaf. -/
def Model.pathTo (sym : BitVec 9) : Model → Option Bits
  | .leaf s _ => if s = sym then some [] else none
  | .node l r =>
    match l.pathTo sym with
    | some p => some (false :: p)
    | none => (r.pathTo sym).map (true :: ·)

/-- `Grow` (R238, R239): the NYT leaf becomes a node with a fresh NYT leaf on the left and the symbol's leaf on the right. -/
def Model.grow (sym : BitVec 9) : Model → Model
  | .leaf s w => if s = Config.nytMark then .node (.leaf Config.nytMark 0) (.leaf sym 0) else .leaf s w
  | .node l r => .node (l.grow sym) (r.grow sym)

/-- `Update` (R244, R247): every node on the way to the symbol's leaf gains 1, and one that stood on the left with its sibling's weight
changes sides with it; `none` for a symbol without a leaf. -/
def Model.touch (sym : BitVec 9) : Model → Option Model
  | .leaf s w => if s = sym then some (.leaf s (w + 1)) else none
  | .node l r =>
    match l.touch sym with
    | some l' => some (if l.weight = r.weight then .node r l' else .node l' r)
    | none => (r.touch sym).map fun r' => .node l r'

/-- `P_i` of rule R115 for the symbol `b`: its leaf's path, or the NYT leaf's path and the raw 8-bit value (R249). -/
def Model.code (m : Model) (b : Byte) : Bits :=
  match m.pathTo (b.setWidth 9) with
  | some p => p
  | none => (m.pathTo Config.nytMark).getD [] ++ bitsOf b.toNat 8

/-- One model step for the symbol `b` (R248). -/
def Model.next (m : Model) (b : Byte) : Model :=
  let sym := b.setWidth 9
  let grown := if (m.pathTo sym).isSome then m else m.grow sym
  (grown.touch sym).getD grown

/-- `P_0 ++ P_1 ++ ... ++ P_{n-1}` of rule R115 for the symbols `x` from the tree `m`. -/
def Model.payload : Model → List Byte → Bits
  | _, [] => []
  | m, b :: x => m.code b ++ (m.next b).payload x

/-- The adaptive payload of `x` (R115): its code from the tree that holds the NYT leaf alone (R235). -/
def adaptivePayload (x : List Byte) : Bits := (Model.leaf Config.nytMark 0).payload x

/-! ### What the tree mutator does to the arena -/

/-- The adaptive tree `AhInit` leaves (R235): the NYT leaf alone. -/
def FreshAdaptive (t : State) : Prop :=
  t.node 0 = { kind := .leaf, sym := 256#9, w := 0, left := none, right := none, parent := none, num := 512#10 }
    ∧ (∀ i, i ≠ 0 → t.node i = Node.reset) ∧ (∀ b, t.mapOf b = none)
    ∧ t.nodeCnt = 1 ∧ t.root = some 0 ∧ t.ahNyt = some 0 ∧ t.ahS = 0 ∧ t.ahNextnum = 511#10 ∧ t.tmode = .adaptive
    ∧ t.codesValid = false

/-- The path, in the tree `T` before, of the symbol's leaf, or of the NYT leaf that a new symbol grows under (R238, R248). -/
def updatePath (s : State) (T : Tree) (b : Byte) : Option Bits :=
  match s.mapOf b with
  | some n => T.pathTo n
  | none => s.ahNyt.bind fun y => T.pathTo y

/-- Entry `i` lies on that path, "both ends included" (R244). -/
def OnUpdatePath (s : State) (T : Tree) (b : Byte) (i : Nat) : Prop :=
  ∃ p q, T.pathTo i = some p ∧ updatePath s T b = some q ∧ p <+: q

/-- What `AH.UPDATE b` does to the entries of the arena, from `s` with the tree `T` to `t` (R238, R244): the increments, the exchange of
siblings and of their numbers, and the growth under the old NYT leaf. -/
structure Reweighted (s t : State) (T : Tree) (b : Byte) : Prop where
  /-- "`PARENT` fields never change". -/
  parent : ∀ i, i < s.nodeCnt → (t.node i).parent = (s.node i).parent
  /-- "every node on the path from the starting node to the root, both ends included, gains exactly 1". -/
  onPath : ∀ i, i < s.nodeCnt → OnUpdatePath s T b i → (t.node i).w = (s.node i).w + 1
  offPath : ∀ i, i < s.nodeCnt → ¬ OnUpdatePath s T b i → (t.node i).w = (s.node i).w
  /-- On the path, on the left, of its sibling's weight: the subtrees change sides, the numbers stay with the slots. -/
  swap : ∀ q l r, (s.node q).left = some l → (s.node q).right = some r → OnUpdatePath s T b l → (s.node l).w = (s.node r).w →
    (t.node q).left = some r ∧ (t.node q).right = some l ∧ (t.node r).num = (s.node l).num ∧ (t.node l).num = (s.node r).num
  /-- Everywhere else nothing changes sides. -/
  stay : ∀ q l r, (s.node q).left = some l → (s.node q).right = some r → ¬ (OnUpdatePath s T b l ∧ (s.node l).w = (s.node r).w) →
    (t.node q).left = some l ∧ (t.node q).right = some r ∧ (t.node l).num = (s.node l).num ∧ (t.node r).num = (s.node r).num
  /-- A new symbol: the old NYT leaf has the two fresh leaves below it, the symbol's with the weight 1 when the step is over (R240). -/
  grown : ∀ y, s.mapOf b = none → s.ahNyt = some y →
    (t.node y).left = some s.nodeCnt ∧ (t.node y).right = some (s.nodeCnt + 1)
      ∧ t.node s.nodeCnt = { kind := .leaf, sym := 256#9, w := 0, left := none, right := none, parent := some y, num := s.ahNextnum - 1#10 }
      ∧ t.node (s.nodeCnt + 1) = { kind := .leaf, sym := b.setWidth 9, w := 1, left := none, right := none, parent := some y, num := s.ahNextnum }
      ∧ t.ahNyt = some s.nodeCnt
  mapSelf : t.mapOf b = some ((s.mapOf b).getD (s.nodeCnt + 1))
  mapOther : ∀ c, c ≠ b → t.mapOf c = s.mapOf c

/-- The parts of the adaptive model that encoder and decoder must agree on (R253). -/
def SameModel (s t : State) : Prop :=
  s.arena = t.arena ∧ s.map = t.map ∧ s.ahS = t.ahS ∧ s.ahNextnum = t.ahNextnum ∧ s.ahNyt = t.ahNyt ∧ s.nodeCnt = t.nodeCnt
    ∧ s.root = t.root

/-! ### The priority structure of `Build` -/

/-- Entry `i` is in the priority structure when entry `n` is about to be created: it is there, and no entry below `n` is its parent
(R185). -/
def Waiting (s : State) (n i : Nat) : Prop := i < n ∧ ∀ p, (s.node i).parent = some p → n ≤ p

/-- Entry `i` is removed before entry `j`: `(W, index)` in lexicographic order (R185, R186). -/
def Sooner (s : State) (i j : Nat) : Prop := (s.node i).w < (s.node j).w ∨ ((s.node i).w = (s.node j).w ∧ i < j)

/-! ### Counts -/

/-- The number of `b` with `FREQ[b] > 0` (R31). -/
def nonzeroCount (s : State) : Nat := (Table.firstN 0 s.freq 256).countP (fun f => decide (0 < f))

/-- The symbols of a byte sequence, each once. -/
def distinctBytes (x : List Byte) : List Byte := x.dedup

/-- Rule R33's table: the register numbered by a place in the list, at its width, zero extended. -/
def registerTable (s : State) : List Word :=
  [(statusWord s).setWidth 64, s.errinfo, s.cseq, s.res, BitVec.ofNat 64 s.bytesIn, BitVec.ofNat 64 s.bytesOut,
    s.acc.setWidth 64, s.accCnt.setWidth 64, (BitVec.ofNat 48 s.rdByte).setWidth 64, s.rdBit.setWidth 64,
    BitVec.ofNat 64 s.sinkPos, (BitVec.ofNat 32 s.obuf.length).setWidth 64, (BitVec.ofNat 9 s.distinct).setWidth 64,
    (BitVec.ofNat 10 s.nodeCnt).setWidth 64, (BitVec.ofNat 10 (s.root.getD 0x3FF)).setWidth 64, s.hdrIgnore.setWidth 64,
    s.hdrSig.setWidth 64, (BitVec.ofNat 7 s.shapeSize).setWidth 64, (BitVec.ofNat 9 s.leafCnt).setWidth 64,
    (BitVec.ofNat 9 s.ahS).setWidth 64, s.ahNextnum.setWidth 64, (BitVec.ofNat 10 (s.ahNyt.getD 0x3FF)).setWidth 64,
    (BitVec.ofNat 48 s.src.length).setWidth 64]

/-! ### Containers -/

/-- `(8 - (T mod 8)) mod 8`, the number of pad bits after `n` bits (R112). -/
def padCount (n : Nat) : Nat := (8 - n % 8) % 8

/-- The static container header (R110) of the tree `T`. -/
def staticHeader (ig sig : Byte) (T : Tree) : List Byte :=
  [ig, sig, BitVec.ofNat 8 (ceil8 (shapeBits T.leafCount)), BitVec.ofNat 8 (T.leafCount - 1)] ++ packMsb T.shape ++ T.leafBytes

/-- `Code(x_0) ++ ... ++ Code(x_{n-1})` (R112). -/
def staticBits (T : Tree) (x : List Byte) : Bits := x.flatMap fun b => (T.codeOf (b.setWidth 9)).getD []

/-- The static container of `x` under the tree `T` (R110, R112). -/
def staticContainer (sig : Byte) (T : Tree) (x : List Byte) : List Byte :=
  staticHeader (BitVec.ofNat 8 (padCount (staticBits T x).length)) sig T ++ packMsb (staticBits T x)

/-- The bytes are the flattened form of the tree `T`, the pad bits of the last shape byte whatever they are: what `Deser` accepts
(R168). -/
def FlatFormOf (shape leaves : List Byte) (T : Tree) : Prop :=
  2 ≤ T.leafCount ∧ leaves = T.leafBytes ∧ shape.length = ceil8 (shapeBits T.leafCount)
    ∧ (unpackMsb shape).take (shapeBits T.leafCount) = T.shape

/-! ### Admission and fault kinds by command -/

/-- `Admitted(c)`, the table of rule R298. -/
def admitted (i : Instr) (s : State) : Bool :=
  match i with
  | .ctxInit | .ctxRdreg _ | .bsWrite _ _ | .bsFinish | .bsRdbit | .bsAtend _ | .fbAcc _ | .fbScan | .fbBuild
  | .shArchive | .shUnarchive | .ahArchive | .ahUnarchive _ | .ahInit => true
  | .tcFlatten | .shMkcodes | .shDecsym _ => s.tmode = .static
  | .tcSerhdr _ _ => s.tmode = .static && s.accCnt = 0#3
  | .tcDeser => s.flatValid
  | .shEncsym sym => s.codesValid && decide (0 < s.codeLen sym)
  | .shRdhdr => s.rdBit = 0#3
  | .shFixup _ => decide (s.obufLen = 0) && decide (1 ≤ s.sinkPos)
  | .ahUpdate _ | .ahEncsym _ | .ahDecsym => s.tmode = .adaptive

/-- `CTX.INIT` and `CTX.RDREG`, the commands executed in the faulted state (R299). -/
def isContextCommand : Instr → Bool
  | .ctxInit | .ctxRdreg _ => true
  | .bsWrite _ _ | .bsFinish | .bsRdbit | .bsAtend _ | .tcFlatten | .tcSerhdr _ _ | .tcDeser | .fbAcc _ | .fbScan | .fbBuild
  | .shMkcodes | .shEncsym _ | .shDecsym _ | .shRdhdr | .shFixup _ | .shArchive | .shUnarchive | .ahInit | .ahUpdate _
  | .ahEncsym _ | .ahDecsym | .ahArchive | .ahUnarchive _ => false

/-- The composite commands (R16). -/
def isComposite : Instr → Bool
  | .shArchive | .shUnarchive | .ahArchive | .ahUnarchive _ => true
  | .ctxInit | .ctxRdreg _ | .bsWrite _ _ | .bsFinish | .bsRdbit | .bsAtend _ | .tcFlatten | .tcSerhdr _ _ | .tcDeser
  | .fbAcc _ | .fbScan | .fbBuild | .shMkcodes | .shEncsym _ | .shDecsym _ | .shRdhdr | .shFixup _ | .ahInit | .ahUpdate _
  | .ahEncsym _ | .ahDecsym => false

/-- The error kinds a command can raise (R290, R292 to R295, R300). -/
def raisable : Instr → List ErrKind
  | .ctxInit | .ctxRdreg _ | .bsAtend _ | .tcFlatten | .fbAcc _ | .shMkcodes | .ahInit | .ahUpdate _ => []
  | .bsWrite _ _ | .bsFinish | .bsRdbit | .tcSerhdr _ _ | .shEncsym _ | .shDecsym _ | .shFixup _ | .ahEncsym _ | .ahArchive => [.io]
  | .tcDeser => [.malformedHeader]
  | .fbBuild => [.invalidInput]
  | .fbScan | .shArchive => [.invalidInput, .io]
  | .shRdhdr | .shUnarchive => [.badSignature, .malformedHeader, .io]
  | .ahDecsym => [.io, .corruptStream]
  | .ahUnarchive _ => [.badSignature, .io, .corruptStream]

/-! ### Runs of commands -/

/-- The commands `is`, one after the other, from `s`; stops at a stuck state. -/
def execAll : List Instr → State → Host.Outcome State Fault Refusal
  | [], s => .next s
  | i :: is, s =>
    match exec i s with
    | .next t => execAll is t
    | .fault f => .fault f
    | .refused r => .refused r

/-! ### The invariant of the registers, the tables and the sink -/

/-- What rules R21, R22, R23, R27, R30, R31, R41, R70 and R298 say of every state between commands, with the canonical form of
every table and of the sink. -/
structure Inv (s : State) : Prop where
  params : s.params.wf
  sink : Memory.wf s.snk
  freq : Table.wf 0 s.freq
  arena : Table.wf Node.reset s.arena
  codeBits : Table.wf [] s.codeBits
  map : Table.wf none s.map
  shape : Table.wf 0#8 s.shape
  leaves : Table.wf 0#8 s.leaves
  /-- R22. -/
  acc : s.acc.toNat < 2 ^ s.accCnt.toNat
  /-- R27, R296. -/
  err : s.faulted = s.err.isSome
  /-- R70: after a flush that failed the buffer may be full, and the context is faulted. -/
  obuf : s.obuf.length < s.params.blockSize ∨ (s.faulted = true ∧ s.obuf.length = s.params.blockSize)
  /-- R298. -/
  codes : s.codesValid = true → s.tmode = .static
  /-- R31. -/
  root : s.tmode = .empty → s.root = none
  /-- R31, R180. -/
  distinct : s.distinct = nonzeroCount s
  /-- R30. -/
  leafCnt : s.leafCnt ≤ 256
  /-- R30. -/
  shapeSize : s.shapeSize ≤ 64
  /-- R41. -/
  flat : s.flatValid = true → 1 ≤ s.leafCnt ∧ s.shapeSize = ceil8 (shapeBits s.leafCnt)
  /-- R23. -/
  cursor : s.rdByte < s.srcLen ∨ (s.rdByte = s.srcLen ∧ s.rdBit = 0#3)

end Sys2Proof.Machine
end

