-- ==== Sys2Proof/Certificates/Slice0/Obligations.lean ====
section
/-! DEFINITION. The statements for the provers, from the spec's numbered rules. Each says what a command or the whole machine does, and
what it leaves alone: a frame is written as an equation `t = { s with … }` that names every field the command may write.
The parameters of rule R8 (`BLOCK_SIZE`, the signatures) are fields of the state, so every statement holds for all their values. -/

open Sys2Proof Sys2Proof.Machine

/-! ### Encoding and the step -/

/-- R92, R93, R97: decoding the word of a legal command gives the command back, for every value of its operands. -/
def Obligations.DecodeEncodeRoundTrip : Prop := ∀ i : Instr, i.wf = true → decode (encode i) = .ok i

/-- R97, R98: a word the decoder accepts is the word of exactly the command it names, so no two words execute as one command and
no bit outside the operands is free. -/
def Obligations.LegalWordsAreEncodings : Prop :=
  ∀ (c : Word) (i : Instr), decode c = .ok i → i.wf = true ∧ encode i = c

/-- R92, R93: words of every unit written out from the encoding table. A sanity statement. -/
def Obligations.SpecWordsDecode : Prop :=
  decode 0x0100000000000000#64 = .ok .ctxInit ∧ decode 0x0216000000000000#64 = .ok (.ctxRdreg 0x16#8)
    ∧ decode 0x1003000000000005#64 = .ok (.bsWrite 3#8 5#32) ∧ decode 0x21070000000000FF#64 = .ok (.tcSerhdr 7#8 0xFF#8)
    ∧ decode 0x30FF000000000000#64 = .ok (.fbAcc 0xFF#8) ∧ decode 0x4206000000000000#64 = .ok (.shDecsym 6#8)
    ∧ decode 0x5900FFFFFFFFFFFF#64 = .ok (.ahUnarchive 0xFFFFFFFFFFFF#48)

/-- R90, R91: when the word the host presents next decodes to a command, the step takes the word and is `exec` of the command. -/
def Obligations.StepRunsDecoded : Prop :=
  ∀ (s : State) (c : Word) (rest : List Word) (i : Instr), s.cmds = c :: rest → decode c = .ok i →
    step s = exec i { s with cmds := rest }

/-- R97, R302: a word the decoder rejects is answered `IllegalCommand` in any state, faulted or not, and changes only `CSEQ`. -/
def Obligations.IllegalWordChangesOnlyCseq : Prop :=
  ∀ (s : State) (c : Word) (rest : List Word) (e : DecodeError), s.cmds = c :: rest → decode c = .error e →
    ∃ t, step s = .next t ∧ EndsRefused { s with cmds := rest } t 0x10#8

/-! ### Rules of the whole machine -/

/-- R26, R96: every command, OK, faulting or refused, adds 1 to `CSEQ` modulo `2^64` and gives a response. -/
def Obligations.EveryCommandCountsOnce : Prop :=
  ∀ (i : Instr) (s t : State), exec i s = .next t → t.cseq = s.cseq + 1#64 ∧ t.rsp.isSome = true

/-- R60, R45, R306: no command writes SRC, a parameter or the commands to come; the answers of the environment are used up from the
front. -/
def Obligations.HostSideIsReadOnly : Prop :=
  ∀ (i : Instr) (s t : State), exec i s = .next t →
    t.src = s.src ∧ t.params = s.params ∧ t.cmds = s.cmds ∧ ∃ k, t.ports = s.ports.drop k

/-- R299, R301: in the faulted state every legal command other than `CTX.INIT` and `CTX.RDREG` is refused with `ContextFaulted`, whatever
its admission condition says, an illegal word is still answered `IllegalCommand`, and the only command that leaves the faulted state
is `CTX.INIT`. -/
def Obligations.FaultedContextRefuses : Prop :=
  (∀ (i : Instr) (s : State), i.wf = true → s.faulted = true → isContextCommand i = false →
    ∃ t, exec i s = .next t ∧ EndsRefused s t 0x12#8)
  ∧ (∀ (s : State) (c : Word) (rest : List Word) (e : DecodeError), s.faulted = true → s.cmds = c :: rest → decode c = .error e →
    ∃ t, step s = .next t ∧ EndsRefused { s with cmds := rest } t 0x10#8)
  ∧ ∀ (i : Instr) (s t : State), exec i s = .next t → s.faulted = true → t.faulted = false → i = .ctxInit

/-- R297, R298: a legal command whose admission condition is false is refused with `IllegalState` and changes only `CSEQ`; and every
command keeps "`CODES_VALID = 1` implies `TMODE = STATIC`". -/
def Obligations.NotAdmittedIsRefused : Prop :=
  (∀ (i : Instr) (s : State), i.wf = true → s.faulted = false → admitted i s = false →
    ∃ t, exec i s = .next t ∧ EndsRefused s t 0x11#8)
  ∧ ∀ (i : Instr) (s t : State), (s.codesValid = true → s.tmode = .static) → exec i s = .next t →
    (t.codesValid = true → t.tmode = .static)

/-- R296: a command that puts the context in the faulted state wrote `STATUS.ERR` and `ERRINFO`, answered them, and did not write
`RES`: a primitive leaves it, a composite's `Init` had cleared it. -/
def Obligations.FaultIsRecorded : Prop :=
  ∀ (i : Instr) (s t : State), exec i s = .next t → s.faulted = false → t.faulted = true →
    (∃ e, t.err = some e ∧ t.rsp = some { st := e.code, val := t.errinfo })
      ∧ t.res = (if isComposite i then 0#64 else s.res)

/-- R290, R292, R293, R294, R295, R300: which error kinds a command can raise. -/
def Obligations.OnlyListedKindsAreRaised : Prop :=
  ∀ (i : Instr) (s t : State) (e : ErrKind), exec i s = .next t → s.faulted = false → s.err = none → t.err = some e →
    e ∈ raisable i

/-- R303: a composite that rejects its input (`InvalidInputError`, `BadSignatureError`, `MalformedHeaderError`) has emitted nothing:
`SINK_POS = 0`, `OBUF_LEN = 0`, SNK is untouched. -/
def Obligations.RejectionEmitsNothing : Prop :=
  ∀ (i : Instr) (s t : State) (e : ErrKind), isComposite i = true → s.faulted = false → exec i s = .next t → t.err = some e →
    (e = .invalidInput ∨ e = .badSignature ∨ e = .malformedHeader) → t.sinkPos = 0 ∧ t.obuf = [] ∧ t.snk = s.snk

/-- R96, R322: no command but `CTX.RDREG 0x02` depends on `CSEQ`: from two states that differ in `CSEQ` alone, any other command
leaves two states that differ in `CSEQ` alone. -/
def Obligations.CseqInfluencesNothing : Prop :=
  ∀ (i : Instr) (s t : State) (c : BitVec 64), i ≠ .ctxRdreg 0x02#8 → exec i s = .next t →
    exec i { s with cseq := c } = .next { t with cseq := c + 1#64 }

/-- R73, R79, R306: a command stores in SNK only at offsets from `SINK_POS` before it to `SINK_POS` after it, and `SH.FIXUP` at offset 0
alone; a composite starts at offset 0 and stays below its `SINK_POS`. -/
def Obligations.SinkWritesAreBounded : Prop :=
  ∀ (i : Instr) (s t : State) (a : Nat), exec i s = .next t → Memory.read t.snk a ≠ Memory.read s.snk a →
    (isComposite i = true ∧ a < t.sinkPos) ∨ (isComposite i = false ∧ s.sinkPos ≤ a ∧ a < t.sinkPos)
      ∨ (∃ ig, i = .shFixup ig ∧ a = 0)

/-- R27: the layout of `STATUS`: its fields stand where the table says, bits 15:8 read as 0 and `TMODE` is never 3. -/
def Obligations.StatusLayout : Prop :=
  ∀ s : State,
    (statusWord s).extractLsb' 0 3 = (match s.err with
      | none => 0#3
      | some .invalidInput => 1#3
      | some .badSignature => 2#3
      | some .malformedHeader => 3#3
      | some .io => 4#3
      | some .corruptStream => 5#3)
    ∧ (statusWord s).getLsbD 3 = s.faulted
    ∧ (statusWord s).extractLsb' 4 2 = (match s.tmode with
      | .empty => 0#2
      | .static => 1#2
      | .adaptive => 2#2)
    ∧ (statusWord s).getLsbD 6 = s.codesValid ∧ (statusWord s).getLsbD 7 = s.flatValid
    ∧ (statusWord s).extractLsb' 8 8 = 0#8

/-! ### Reset and the context commands -/

/-- R33, R44, R320: the value of every register after reset, and the tables. -/
def Obligations.ResetValues : Prop :=
  (∀ r : Fin 22, (registerTable State.reset)[r.val]? = some (if r.val = 0x0E ∨ r.val = 0x15 then 0x3FF#64 else 0#64))
    ∧ (∀ b : Byte, State.reset.freqOf b = 0 ∧ State.reset.codeLen b = 0 ∧ State.reset.mapOf b = none)
    ∧ (∀ i, State.reset.node i = { kind := .free, sym := 0#9, w := 0, left := none, right := none, parent := none, num := 0#10 })
    ∧ (∀ k, State.reset.shapeByte k = 0#8 ∧ State.reset.leafByte k = 0#8) ∧ State.reset.obuf = []

/-- R270, R271, R301: `CTX.INIT`, faulted or not, answers 0 and leaves the reset state with `CSEQ` counted on; SRC, SNK and the
parameters are no part of the context and stay. -/
def Obligations.CtxInitRestoresReset : Prop :=
  ∀ s : State, exec .ctxInit s = .next { State.reset with
    params := s.params, src := s.src, ports := s.ports, snk := s.snk, cmds := s.cmds,
    cseq := s.cseq + 1#64, rsp := some { st := 0x00#8, val := 0#64 } }

/-- R33, R272: `CTX.RDREG r`, faulted or not, answers the register before the command, writes it to `RES`, and changes nothing else; a
number above 0x16 is `IllegalCommand`. -/
def Obligations.CtxRdregReadsRegister : Prop :=
  ∀ (s : State) (r : Byte),
    (r.toNat ≤ 0x16 → ∃ v, (registerTable s)[r.toNat]? = some v
      ∧ exec (.ctxRdreg r) s = .next { s with res := v, rsp := some { st := 0x00#8, val := v }, cseq := s.cseq + 1#64 })
    ∧ (0x16 < r.toNat → ∃ t, exec (.ctxRdreg r) s = .next t ∧ EndsRefused s t 0x10#8)

/-! ### The BS unit -/

/-- R133, R136: `BS.WRITE w, v` appends the `w` low bits of `v`, most significant first, answers 0, and writes only the writer's
registers and the sink from `SINK_POS` on. -/
def Obligations.BsWriteAppendsBits : Prop :=
  ∀ (s : State) (w : Byte) (v : BitVec 32), 1 ≤ w.toNat → w.toNat ≤ 32 → s.faulted = false → PortsGood s →
    ∃ t, exec (.bsWrite w v) s = .next t ∧ EndsOk s t 0#64 ∧ WritesBits s t (bitsOf v.toNat w.toNat)
      ∧ t.acc.toNat < 2 ^ t.accCnt.toNat
      ∧ t = { sameEnd t s with acc := t.acc, accCnt := t.accCnt, obuf := t.obuf, sinkPos := t.sinkPos, snk := t.snk }

/-- R135, R137: `BS.FINISH` answers the number of zero bits that fill the last byte, appends them, empties the accumulator and the
block buffer, and has every emitted byte in SNK. The premise on `ACC` is rule R22, which `StepKeepsInv` keeps. -/
def Obligations.BsFinishPadsAndFlushes : Prop :=
  ∀ s : State, s.faulted = false → PortsGood s → s.acc.toNat < 2 ^ s.accCnt.toNat →
    ∃ t, exec .bsFinish s = .next t ∧ EndsOk s t (BitVec.ofNat 64 (padCount s.accCnt.toNat))
      ∧ WritesBits s t (List.replicate (padCount s.accCnt.toNat) false)
      ∧ t.acc = 0#7 ∧ t.accCnt = 0#3 ∧ t.obuf = []
      ∧ t.sinkPos = s.sinkPos + s.obuf.length + (if s.accCnt = 0#3 then 0 else 1)
      ∧ t = { sameEnd t s with acc := t.acc, accCnt := t.accCnt, obuf := t.obuf, sinkPos := t.sinkPos, snk := t.snk }

/-- R64, R131, R132, R136, R295: a flush whose transaction fails stores nothing, does not advance `SINK_POS`, and raises `IOError` with
the offset of the transaction. In `BS.FINISH` the bytes that wait stay, with the last byte if it was formed; in `BS.WRITE`, where the
flushes of `j` full blocks may have gone well before it, "the bytes already moved into `OBUF` stay there" and the accumulator is as it was.
That the answers of the environment stand in the state is the model's choice (log entry 2). -/
def Obligations.BsFinishFailedFlush : Prop :=
  (∀ (s : State) (rest : List PortAnswer), s.faulted = false → s.ports = .failed :: rest → (s.obuf ≠ [] ∨ s.accCnt ≠ 0#3) →
    ∃ t, exec .bsFinish s = .next t ∧ EndsFaulted s t .io s.sinkPos
      ∧ t.obuf = s.obuf ++ (if s.accCnt = 0#3 then [] else [BitVec.ofNat 8 (s.acc.toNat * 2 ^ padCount s.accCnt.toNat)])
      ∧ t = { s with rsp := t.rsp, cseq := t.cseq, ports := rest, err := t.err, faulted := t.faulted, errinfo := t.errinfo,
                     acc := t.acc, accCnt := t.accCnt, obuf := t.obuf })
  ∧ ∀ (s : State) (w : Byte) (v : BitVec 32) (j : Nat) (rest : List PortAnswer), 1 ≤ w.toNat → w.toNat ≤ 32 → s.faulted = false →
    s.obuf.length < s.params.blockSize → (j + 1) * s.params.blockSize ≤ s.obuf.length + (s.accCnt.toNat + w.toNat) / 8 →
    s.ports = List.replicate j .done ++ .failed :: rest →
    ∃ t, exec (.bsWrite w v) s = .next t ∧ EndsFaulted s t .io t.sinkPos ∧ t.sinkPos = s.sinkPos + j * s.params.blockSize
      ∧ t.obuf.length = s.params.blockSize
      ∧ EmitsBytes s t ((packMsb (pending s ++ bitsOf v.toNat w.toNat)).take ((j + 1) * s.params.blockSize - s.obuf.length))
      ∧ t = { s with rsp := t.rsp, cseq := t.cseq, ports := rest, err := t.err, faulted := t.faulted, errinfo := t.errinfo,
                     obuf := t.obuf, sinkPos := t.sinkPos, snk := t.snk }

/-- R140, R143, R64: `BS.RDBIT` answers the next unread bit and moves the cursor by one bit; with no unread bit it raises `IOError`
with `RD_BYTE`, and so it does when the transaction fails, the cursor unmoved in both cases. The third clause is the model's choice (log
entry 14): that this very command asks for the byte, and asks once, so that the next answer is the one it gets; hardware that reads SRC in
batches need not (93 U8). -/
def Obligations.BsRdbitReadsNextBit : Prop :=
  ∀ s : State, s.faulted = false →
    (s.rdByte < s.src.length → PortsGood s →
      ∃ t b, exec .bsRdbit s = .next t ∧ unread s = b :: unread t ∧ EndsOk s t (if b then 1#64 else 0#64)
        ∧ cursor t = cursor s + 1 ∧ t = { sameEnd t s with rdByte := t.rdByte, rdBit := t.rdBit })
    ∧ (s.src.length ≤ s.rdByte →
      ∃ t, exec .bsRdbit s = .next t ∧ EndsFaulted s t .io s.rdByte
        ∧ t = { s with rsp := t.rsp, cseq := t.cseq, err := t.err, faulted := t.faulted, errinfo := t.errinfo })
    ∧ (∀ rest, s.rdByte < s.src.length → s.ports = .failed :: rest →
      ∃ t, exec .bsRdbit s = .next t ∧ EndsFaulted s t .io s.rdByte
        ∧ t = { s with rsp := t.rsp, cseq := t.cseq, ports := rest, err := t.err, faulted := t.faulted, errinfo := t.errinfo })

/-- R141, R144: `BS.ATEND ig` answers 1 exactly when `8 * (SRC_LEN - RD_BYTE) - RD_BIT = ig`, else 0, and changes nothing else; it
issues no transaction. -/
def Obligations.BsAtendTestsLogicalEnd : Prop :=
  ∀ (s : State) (ig : Byte), ig.toNat ≤ 7 → s.faulted = false →
    ∃ v, exec (.bsAtend ig) s = .next { s with res := v, rsp := some { st := 0x00#8, val := v }, cseq := s.cseq + 1#64 }
      ∧ v = (if 8 * ((s.src.length : Int) - s.rdByte) - s.rdBit.toNat = ig.toNat then 1#64 else 0#64)

/-- R138: the law of the writer. From an empty writer, any sequence of `BS.WRITE` commands and then `BS.FINISH` leaves in SNK the
packed concatenation of the bit strings, for every `BLOCK_SIZE`, and answers the pad count. -/
def Obligations.WriterLaw : Prop :=
  ∀ (s : State) (ws : List (Byte × BitVec 32)), s.faulted = false → PortsGood s →
    s.acc = 0#7 → s.accCnt = 0#3 → s.obuf = [] → s.sinkPos = 0 → (∀ x ∈ ws, 1 ≤ x.1.toNat ∧ x.1.toNat ≤ 32) →
    ∃ t, execAll (ws.map (fun x => Instr.bsWrite x.1 x.2) ++ [.bsFinish]) s = .next t
      ∧ sinkBytes t = (packMsb (ws.flatMap fun x => bitsOf x.2.toNat x.1.toNat)).map some
      ∧ t.sinkPos = ceil8 (ws.flatMap fun x => bitsOf x.2.toNat x.1.toNat).length
      ∧ t.rsp = some { st := 0x00#8, val := BitVec.ofNat 64 (padCount (ws.flatMap fun x => bitsOf x.2.toNat x.1.toNat).length) }

/-- R145: the contract of writer and reader. If SRC is the packed form of a bit string, the bits come back in order, and the logical
end with the string's pad count is met exactly after the last of them. -/
def Obligations.ReaderMirrorsWriter : Prop :=
  ∀ (s : State) (b : Bits), s.src = packMsb b → cursor s ≤ b.length → s.faulted = false → PortsGood s →
    (∀ h : cursor s < b.length, ∃ t, exec .bsRdbit s = .next t ∧ EndsOk s t (if b[cursor s] then 1#64 else 0#64)
      ∧ cursor t = cursor s + 1)
    ∧ (atEnd (padCount b.length) s = true ↔ cursor s = b.length)

/-! ### The TC unit -/

/-- R161, R162: `TC.FLATTEN` stores the packed shape and the leaf bytes of the tree, pre-order, answers the number of shape bits, and
leaves the arena and the entries of `LEAVES` from `LEAF_CNT` on alone. -/
def Obligations.TcFlattenStoresShapeAndLeaves : Prop :=
  ∀ (s : State) (T : Tree), s.faulted = false → s.tmode = .static → TreeAt s T → T.leafCount ≤ 256 →
    ∃ t, exec .tcFlatten s = .next t ∧ EndsOk s t (BitVec.ofNat 64 (2 * T.leafCount - 1))
      ∧ t.shapeSize = ceil8 (2 * T.leafCount - 1) ∧ t.leafCnt = T.leafCount ∧ t.flatValid = true
      ∧ Table.firstN 0#8 t.shape t.shapeSize = packMsb T.shape ∧ (∀ k, t.shapeSize ≤ k → t.shapeByte k = 0#8)
      ∧ Table.firstN 0#8 t.leaves t.leafCnt = T.leafBytes ∧ (∀ k, t.leafCnt ≤ k → t.leafByte k = s.leafByte k)
      ∧ t = { sameEnd t s with shape := t.shape, shapeSize := t.shapeSize, leaves := t.leaves, leafCnt := t.leafCnt,
                               flatValid := t.flatValid }

/-- R110, R163, R164, R165, R166: `TC.SERHDR ig, sig` emits the header of the tree with the operands as its first two bytes and
answers its size. -/
def Obligations.TcSerhdrEmitsHeader : Prop :=
  ∀ (s : State) (T : Tree) (ig sig : Byte), ig.toNat ≤ 7 → s.faulted = false → s.tmode = .static → s.accCnt = 0#3 →
    TreeAt s T → T.leafCount ≤ 256 → PortsGood s →
    ∃ t, exec (.tcSerhdr ig sig) s = .next t
      ∧ EndsOk s t (BitVec.ofNat 64 (4 + ceil8 (2 * T.leafCount - 1) + T.leafCount))
      ∧ EmitsBytes s t (staticHeader ig sig T) ∧ t.hdrIgnore = ig ∧ t.hdrSig = sig ∧ t.flatValid = true
      ∧ t = { sameEnd t s with shape := t.shape, shapeSize := t.shapeSize, leaves := t.leaves, leafCnt := t.leafCnt,
                               flatValid := t.flatValid, hdrIgnore := t.hdrIgnore, hdrSig := t.hdrSig,
                               obuf := t.obuf, sinkPos := t.sinkPos, snk := t.snk }

/-- R168, R169, R171: `TC.DESER` on the shape bits and leaf bytes of a tree of 2 to 256 leaves rebuilds it, whatever the pad bits of
the last shape byte are: the root is entry 0, every weight is 0, and the old tree is gone. -/
def Obligations.TcDeserRebuildsTree : Prop :=
  ∀ (s : State) (T : Tree), s.faulted = false → s.flatValid = true → T.Static →
    s.shapeSize = ceil8 (2 * T.leafCount - 1) → s.leafCnt = T.leafCount →
    (unpackMsb (Table.firstN 0#8 s.shape s.shapeSize)).take (2 * T.leafCount - 1) = T.shape →
    Table.firstN 0#8 s.leaves s.leafCnt = T.leafBytes →
    ∃ t T', exec .tcDeser s = .next t ∧ EndsOk s t (BitVec.ofNat 64 (2 * T.leafCount - 1))
      ∧ TreeAt t T' ∧ T'.shape = T.shape ∧ T'.syms = T.syms ∧ T'.idx = 0 ∧ (∀ i, (t.node i).w = 0)
      ∧ t.tmode = .static ∧ t.codesValid = false
      ∧ t = { sameEnd t s with arena := t.arena, nodeCnt := t.nodeCnt, root := t.root, tmode := t.tmode, codesValid := t.codesValid }

/-- R168, R171: `TC.DESER` ends OK only when the buffers are exactly the flattened form of a tree of at least 2 leaves; in every other
case it raises `MalformedHeaderError` with `RD_BYTE` and leaves `TMODE = EMPTY`. -/
def Obligations.TcDeserAcceptsOnlyTrees : Prop :=
  ∀ s t : State, s.faulted = false → s.flatValid = true → exec .tcDeser s = .next t →
    (∃ T, t.err = s.err ∧ TreeAt t T ∧ 2 ≤ T.leafCount ∧ s.leafCnt = T.leafCount ∧ s.shapeSize = ceil8 (2 * T.leafCount - 1)
      ∧ (unpackMsb (Table.firstN 0#8 s.shape s.shapeSize)).take (2 * T.leafCount - 1) = T.shape
      ∧ Table.firstN 0#8 s.leaves s.leafCnt = T.leafBytes)
    ∨ (EndsFaulted s t .malformedHeader s.rdByte ∧ t.tmode = .empty ∧ t.root = none)

/-- R170: flattening a static tree and deserialising it does not fault and gives the tree back up to weights and arena indices, and a
second flattening gives the same buffers. -/
def Obligations.FlattenDeserSelfConsistent : Prop :=
  ∀ (s : State) (T : Tree), s.faulted = false → s.tmode = .static → TreeAt s T → T.Static →
    ∃ t u T' w, exec .tcFlatten s = .next t ∧ exec .tcDeser t = .next u ∧ u.faulted = false ∧ u.tmode = .static
      ∧ TreeAt u T' ∧ T'.shape = T.shape ∧ T'.syms = T.syms
      ∧ exec .tcFlatten u = .next w ∧ w.shapeSize = t.shapeSize ∧ w.leafCnt = t.leafCnt
      ∧ ∀ k, w.shapeByte k = t.shapeByte k ∧ w.leafByte k = t.leafByte k

/-! ### The FB unit -/

/-- R180, R181: `FB.ACC s` adds 1 to `FREQ[s]`, adds 1 to `DISTINCT` when the count was 0, so that `DISTINCT` stays the number of
nonzero counts, answers the new count, and changes nothing else. -/
def Obligations.FbAccCountsSymbol : Prop :=
  ∀ (s : State) (b : Byte), s.faulted = false →
    ∃ t, exec (.fbAcc b) s = .next t ∧ EndsOk s t (BitVec.ofNat 64 (s.freqOf b + 1)) ∧ t.freqOf b = s.freqOf b + 1
      ∧ (∀ c, c ≠ b → t.freqOf c = s.freqOf c)
      ∧ t.distinct = (if s.freqOf b = 0 then s.distinct + 1 else s.distinct)
      ∧ (s.distinct = nonzeroCount s → t.distinct = nonzeroCount t)
      ∧ t = { sameEnd t s with freq := t.freq, distinct := t.distinct, ports := s.ports }

/-- R182, R183: `FB.SCAN` adds the count of every byte value of SRC to `FREQ` and, with two or more distinct symbols counted,
answers their number; the read cursor does not move. -/
def Obligations.FbScanCountsSource : Prop :=
  ∀ s : State, s.faulted = false → PortsGood s → s.distinct = nonzeroCount s →
    2 ≤ ((List.range 256).countP fun k => decide (0 < s.freqOf (BitVec.ofNat 8 k) + s.src.count (BitVec.ofNat 8 k))) →
    ∃ t, exec .fbScan s = .next t ∧ EndsOk s t (BitVec.ofNat 64 t.distinct) ∧ t.distinct = nonzeroCount t
      ∧ (∀ b, t.freqOf b = s.freqOf b + s.src.count b) ∧ t = { sameEnd t s with freq := t.freq, distinct := t.distinct }

/-- R183, R184, R187: with fewer than two distinct symbols counted, `FB.SCAN` and `FB.BUILD` raise `InvalidInputError(DISTINCT)`;
`FB.BUILD` then leaves the arena, `TMODE` and `CODES_VALID` as they were, and `FB.SCAN` has added its counts. -/
def Obligations.TooFewSymbolsFault : Prop :=
  ∀ s : State, s.faulted = false →
    (s.distinct < 2 → ∃ t, exec .fbBuild s = .next t ∧ EndsFaulted s t .invalidInput s.distinct
      ∧ t = { s with rsp := t.rsp, cseq := t.cseq, err := t.err, faulted := t.faulted, errinfo := t.errinfo })
    ∧ (PortsGood s → s.distinct = nonzeroCount s →
      ((List.range 256).countP fun k => decide (0 < s.freqOf (BitVec.ofNat 8 k) + s.src.count (BitVec.ofNat 8 k))) < 2 →
      ∃ t, exec .fbScan s = .next t ∧ EndsFaulted s t .invalidInput t.distinct ∧ t.distinct < 2
        ∧ t.distinct = nonzeroCount t ∧ (∀ b, t.freqOf b = s.freqOf b + s.src.count b)
        ∧ t = { s with rsp := t.rsp, cseq := t.cseq, err := t.err, faulted := t.faulted, errinfo := t.errinfo, ports := t.ports,
                       freq := t.freq, distinct := t.distinct })

/-- R36, R37, R185, R186, R187: `FB.BUILD` with two or more distinct symbols builds a static tree with one leaf for each symbol of
nonzero count and that count as its weight; every internal node weighs the sum of its children and its left child is not the heavier
one; it answers `NODE_CNT = 2 * DISTINCT - 1` and the root is the last entry. The leaves are the entries below `DISTINCT`, ascending by
symbol; every later entry was made of the two entries that then were least by `(W, index)` among those without a parent, the first of
them on the left. -/
def Obligations.FbBuildBuildsTree : Prop :=
  ∀ s : State, s.faulted = false → s.distinct = nonzeroCount s → 2 ≤ s.distinct →
    ∃ t T, exec .fbBuild s = .next t ∧ EndsOk s t (BitVec.ofNat 64 (2 * s.distinct - 1))
      ∧ TreeAt t T ∧ T.Static ∧ Weighted t.arena T ∧ T.leafCount = s.distinct ∧ t.nodeCnt = 2 * s.distinct - 1
      ∧ T.idx = 2 * s.distinct - 2
      ∧ (∀ b : Byte, b.setWidth 9 ∈ T.syms ↔ 0 < s.freqOf b) ∧ T.syms.Nodup
      ∧ (∀ (i : Nat) (b : Byte), T.HasLeaf i (b.setWidth 9) → (t.node i).w = s.freqOf b)
      ∧ (∀ i l r, (t.node i).left = some l → (t.node i).right = some r → (t.node l).w ≤ (t.node r).w)
      ∧ (∀ i, i < s.distinct → (t.node i).kind = .leaf)
      ∧ (∀ i j, i < j → j < s.distinct → (t.node i).sym.toNat < (t.node j).sym.toNat)
      ∧ (∀ n, s.distinct ≤ n → n < 2 * s.distinct - 1 → ∃ x y, (t.node n).kind = .internal
        ∧ (t.node n).left = some x ∧ (t.node n).right = some y ∧ Waiting t n x ∧ Waiting t n y ∧ Sooner t x y
        ∧ ∀ z, Waiting t n z → z ≠ x → z ≠ y → Sooner t y z)
      ∧ t.tmode = .static ∧ t.codesValid = false
      ∧ t = { sameEnd t s with arena := t.arena, nodeCnt := t.nodeCnt, root := t.root, tmode := t.tmode, codesValid := t.codesValid,
                               ports := s.ports }

/-! ### The SH unit -/

/-- R200, R201, R202: `SH.MKCODES` gives every symbol of the tree the path of its leaf as its code, of the later leaf in pre-order
when there are two, gives every other symbol the empty code, and answers the number of symbols with a code. -/
def Obligations.ShMkcodesDerivesPaths : Prop :=
  ∀ (s : State) (T : Tree), s.faulted = false → s.tmode = .static → TreeAt s T → T.Static →
    ∃ t, exec .shMkcodes s = .next t ∧ EndsOk s t (BitVec.ofNat 64 T.syms.dedup.length)
      ∧ (∀ b : Byte, t.codeOf b = (T.codeOf (b.setWidth 9)).getD []) ∧ t.codesValid = true
      ∧ t = { sameEnd t s with codeBits := t.codeBits, codesValid := t.codesValid, ports := s.ports }

/-- R200: after `SH.MKCODES` no symbol's code is a prefix of another symbol's code. -/
def Obligations.CodesArePrefixFree : Prop :=
  ∀ (s t : State) (T : Tree), s.faulted = false → s.tmode = .static → TreeAt s T → T.Static → exec .shMkcodes s = .next t →
    ∀ b c : Byte, b ≠ c → t.codeLen b ≠ 0 → t.codeLen c ≠ 0 → ¬ (t.codeOf b <+: t.codeOf c)

/-- R203, R204: `SH.ENCSYM s` writes the symbol's code and answers its length. -/
def Obligations.ShEncsymWritesCode : Prop :=
  ∀ (s : State) (b : Byte), s.faulted = false → s.codesValid = true → 0 < s.codeLen b → PortsGood s →
    ∃ t, exec (.shEncsym b) s = .next t ∧ EndsOk s t (BitVec.ofNat 64 (s.codeLen b)) ∧ WritesBits s t (s.codeOf b)
      ∧ t = { sameEnd t s with acc := t.acc, accCnt := t.accCnt, obuf := t.obuf, sinkPos := t.sinkPos, snk := t.snk }

/-- R205, R207, R295: `SH.DECSYM ig`, with a whole code unread and the logical end not inside it (at least `ig` bits come after it, or
fewer than `ig` were unread to begin with), consumes the code, emits the leaf's symbol and answers it. When fewer than `ig` bits were unread
and they complete no code, it consumes them and raises `IOError` with `RD_BYTE = SRC_LEN`; nothing is emitted. -/
def Obligations.ShDecsymDecodesSymbol : Prop :=
  (∀ (s : State) (T : Tree) (ig : Byte) (p rest : Bits) (sym : BitVec 9), ig.toNat ≤ 7 → s.faulted = false → s.tmode = .static →
    TreeAt s T → 2 ≤ T.leafCount → PortsGood s → unread s = p ++ rest → T.leafAt p = some sym →
    (ig.toNat ≤ rest.length ∨ (unread s).length < ig.toNat) →
    ∃ t, exec (.shDecsym ig) s = .next t ∧ EndsOk s t ((sym.setWidth 8).setWidth 64)
      ∧ EmitsBytes s t [sym.setWidth 8] ∧ unread t = rest ∧ cursor t = cursor s + p.length
      ∧ t = { sameEnd t s with rdByte := t.rdByte, rdBit := t.rdBit, obuf := t.obuf, sinkPos := t.sinkPos, snk := t.snk })
  ∧ ∀ (s : State) (T : Tree) (ig : Byte), ig.toNat ≤ 7 → s.faulted = false → s.tmode = .static → TreeAt s T → PortsGood s →
    cursor s ≤ 8 * s.src.length → (unread s).length < ig.toNat → (∀ q, q <+: unread s → T.leafAt q = none) →
    ∃ t, exec (.shDecsym ig) s = .next t ∧ EndsFaulted s t .io s.src.length ∧ cursor t = 8 * s.src.length
      ∧ t = { s with rsp := t.rsp, cseq := t.cseq, ports := t.ports, err := t.err, faulted := t.faulted, errinfo := t.errinfo,
                     rdByte := t.rdByte, rdBit := t.rdBit }

/-- R205, R206, R207: when exactly `ig` bits remain after bits that do not complete a code (none at all, or a partial walk), `SH.DECSYM
ig` answers `END = 0x100` without an error; the bits of the partial walk stay consumed and nothing is emitted. -/
def Obligations.ShDecsymStopsAtLogicalEnd : Prop :=
  ∀ (s : State) (T : Tree) (ig : Byte) (p rest : Bits), ig.toNat ≤ 7 → s.faulted = false → s.tmode = .static →
    TreeAt s T → PortsGood s → cursor s ≤ 8 * s.src.length → unread s = p ++ rest → rest.length = ig.toNat →
    (∀ q, q <+: p → T.leafAt q = none) →
    ∃ t, exec (.shDecsym ig) s = .next t ∧ EndsOk s t 0x100#64 ∧ unread t = rest ∧ cursor t = cursor s + p.length
      ∧ t = { sameEnd t s with rdByte := t.rdByte, rdBit := t.rdBit }

/-- R211, R213: `SH.RDHDR` on a well-formed header reads it, rebuilds the tree, answers `ignoreBits`, and leaves the cursor on the
first payload byte. -/
def Obligations.ShRdhdrReadsHeader : Prop :=
  ∀ (s : State) (T : Tree) (ig : Byte) (rest : List Byte), ig.toNat ≤ 7 → s.faulted = false → s.rdBit = 0#3 → PortsGood s →
    T.Static → s.src.drop s.rdByte = staticHeader ig s.params.sigStatic T ++ rest →
    ∃ t T', exec .shRdhdr s = .next t ∧ EndsOk s t (ig.setWidth 64)
      ∧ TreeAt t T' ∧ T'.shape = T.shape ∧ T'.syms = T.syms
      ∧ t.rdByte = s.rdByte + (4 + ceil8 (2 * T.leafCount - 1) + T.leafCount) ∧ t.rdBit = 0#3
      ∧ t.hdrIgnore = ig ∧ t.hdrSig = s.params.sigStatic ∧ t.shapeSize = ceil8 (2 * T.leafCount - 1) ∧ t.leafCnt = T.leafCount
      ∧ t.tmode = .static ∧ t.codesValid = false ∧ t.flatValid = true
      ∧ t = { sameEnd t s with rdByte := t.rdByte, hdrIgnore := t.hdrIgnore, hdrSig := t.hdrSig, shapeSize := t.shapeSize,
                               leafCnt := t.leafCnt, shape := t.shape, leaves := t.leaves, flatValid := t.flatValid,
                               arena := t.arena, nodeCnt := t.nodeCnt, root := t.root, tmode := t.tmode, codesValid := t.codesValid }

/-- R168, R211, R212, R293, R294: the seven checks of the static header in their order: a source that ends before the signature, a wrong
signature, a source that ends before byte 4, `ignoreBits > 7`, a shape size that does not fit the leaf count, a source that ends inside
shape or leaves, the failures of `Deser` (all of one kind and with one value); with all of them passed the command ends OK. In every
case nothing has been emitted, and no register but those of the header, the tree and the cursor was written. -/
def Obligations.ShRdhdrCheckOrder : Prop :=
  ∀ (s : State), s.faulted = false → s.rdBit = 0#3 → PortsGood s → s.rdByte ≤ s.src.length →
    ∃ t, exec .shRdhdr s = .next t ∧ t.obuf = s.obuf ∧ t.sinkPos = s.sinkPos ∧ t.snk = s.snk
      ∧ t = { sameEnd t s with err := t.err, faulted := t.faulted, errinfo := t.errinfo, rdByte := t.rdByte, hdrIgnore := t.hdrIgnore,
                               hdrSig := t.hdrSig, shapeSize := t.shapeSize, leafCnt := t.leafCnt, shape := t.shape, leaves := t.leaves,
                               flatValid := t.flatValid, arena := t.arena, nodeCnt := t.nodeCnt, root := t.root, tmode := t.tmode,
                               codesValid := t.codesValid }
      ∧ match s.src.drop s.rdByte with
      | [] | [_] => EndsFaulted s t .malformedHeader s.src.length
      | ig :: sig :: rest =>
        if sig ≠ s.params.sigStatic then EndsFaulted s t .badSignature sig.toNat ∧ t.hdrIgnore = ig ∧ t.hdrSig = sig
        else match rest with
          | [] | [_] => EndsFaulted s t .malformedHeader s.src.length
          | ss :: lm :: body =>
            if 7 < ig.toNat ∨ ss.toNat ≠ ceil8 (2 * (lm.toNat + 1) - 1) then EndsFaulted s t .malformedHeader (s.rdByte + 4)
            else if body.length < ss.toNat + (lm.toNat + 1) then EndsFaulted s t .malformedHeader s.src.length
            else
              (∃ T, FlatFormOf (body.take ss.toNat) ((body.drop ss.toNat).take (lm.toNat + 1)) T
                ∧ EndsOk s t (ig.setWidth 64) ∧ t.tmode = .static)
              ∨ ((∀ T, ¬ FlatFormOf (body.take ss.toNat) ((body.drop ss.toNat).take (lm.toNat + 1)) T)
                ∧ EndsFaulted s t .malformedHeader (s.rdByte + 4 + ss.toNat + (lm.toNat + 1)) ∧ t.tmode = .empty)

/-- R215: `SH.FIXUP ig` stores `ig` at offset 0 of SNK and in `HDR_IGNORE`, answers 0, and moves nothing else. -/
def Obligations.ShFixupOverwritesByteZero : Prop :=
  ∀ (s : State) (ig : Byte), ig.toNat ≤ 7 → s.faulted = false → s.obuf = [] → 1 ≤ s.sinkPos → PortsGood s →
    ∃ t, exec (.shFixup ig) s = .next t ∧ EndsOk s t 0#64 ∧ Memory.read t.snk 0 = some ig
      ∧ (∀ a, a ≠ 0 → Memory.read t.snk a = Memory.read s.snk a) ∧ t.hdrIgnore = ig
      ∧ t = { sameEnd t s with snk := t.snk, hdrIgnore := t.hdrIgnore }

/-- R110, R112, R216: `SH.ARCHIVE` on a source of two or more distinct byte values leaves the static container of the source in SNK from
offset 0, counts the bytes, and answers the pad count; SNK from `SINK_POS` on is untouched. -/
def Obligations.ShArchiveWritesContainer : Prop :=
  ∀ s : State, s.faulted = false → PortsGood s → 2 ≤ (distinctBytes s.src).length →
    ∃ t T, exec .shArchive s = .next t ∧ TreeAt t T ∧ T.Static ∧ T.leafBytes.Perm (distinctBytes s.src)
      ∧ sinkBytes t = (staticContainer s.params.sigStatic T s.src).map some ∧ t.obuf = []
      ∧ t.sinkPos = (staticContainer s.params.sigStatic T s.src).length
      ∧ (∀ a, t.sinkPos ≤ a → Memory.read t.snk a = Memory.read s.snk a)
      ∧ t.rsp = some { st := 0x00#8, val := BitVec.ofNat 64 (padCount (staticBits T s.src).length) }
      ∧ t.res = BitVec.ofNat 64 (padCount (staticBits T s.src).length) ∧ t.cseq = s.cseq + 1#64
      ∧ t.bytesIn = s.src.length ∧ t.bytesOut = t.sinkPos
      ∧ t.hdrIgnore = BitVec.ofNat 8 (padCount (staticBits T s.src).length) ∧ t.hdrSig = s.params.sigStatic
      ∧ t.tmode = .static ∧ t.codesValid = true ∧ t.flatValid = true ∧ t.faulted = false
      ∧ (∀ b, t.freqOf b = s.src.count b) ∧ t.distinct = (distinctBytes s.src).length
      ∧ t = { freshEnd t s with
        bytesIn := t.bytesIn, bytesOut := t.bytesOut, sinkPos := t.sinkPos, snk := t.snk, distinct := t.distinct, freq := t.freq,
        arena := t.arena, nodeCnt := t.nodeCnt, root := t.root, tmode := t.tmode, codeBits := t.codeBits,
        codesValid := t.codesValid, shape := t.shape, shapeSize := t.shapeSize, leaves := t.leaves, leafCnt := t.leafCnt,
        flatValid := t.flatValid, hdrIgnore := t.hdrIgnore, hdrSig := t.hdrSig }

/-- R184, R216, R292, R303: `SH.ARCHIVE` on an empty source or one of a single repeated byte raises `InvalidInputError` with the number of
distinct values before any output. -/
def Obligations.ShArchiveRejectsFewSymbols : Prop :=
  ∀ s : State, s.faulted = false → PortsGood s → (distinctBytes s.src).length < 2 →
    ∃ t, exec .shArchive s = .next t ∧ EndsFaulted s t .invalidInput (distinctBytes s.src).length
      ∧ t.snk = s.snk ∧ t.sinkPos = 0 ∧ t.obuf = [] ∧ t.tmode = .empty
      ∧ t = { freshEnd t s with
        snk := s.snk, err := t.err, faulted := t.faulted, errinfo := t.errinfo, distinct := t.distinct, freq := t.freq }

/-- R205, R217: `SH.UNARCHIVE` on the static container of `x` under any static tree that has a leaf for every byte of `x` leaves `x` in
SNK from offset 0, counts the bytes, and answers their number. -/
def Obligations.ShUnarchiveDecodesContainer : Prop :=
  ∀ (s : State) (T : Tree) (x : List Byte), s.faulted = false → PortsGood s → T.Static → (∀ b ∈ x, b.setWidth 9 ∈ T.syms) →
    s.src = staticContainer s.params.sigStatic T x →
    ∃ t, exec .shUnarchive s = .next t ∧ sinkBytes t = x.map some ∧ t.sinkPos = x.length ∧ t.obuf = []
      ∧ (∀ a, t.sinkPos ≤ a → Memory.read t.snk a = Memory.read s.snk a)
      ∧ t.rsp = some { st := 0x00#8, val := BitVec.ofNat 64 x.length } ∧ t.res = BitVec.ofNat 64 x.length
      ∧ t.cseq = s.cseq + 1#64 ∧ t.bytesIn = s.src.length ∧ t.bytesOut = x.length
      ∧ t.tmode = .static ∧ t.codesValid = false ∧ t.flatValid = true ∧ t.faulted = false
      ∧ t = { freshEnd t s with
        bytesIn := t.bytesIn, bytesOut := t.bytesOut, rdByte := t.rdByte, rdBit := t.rdBit, sinkPos := t.sinkPos, snk := t.snk,
        arena := t.arena, nodeCnt := t.nodeCnt, root := t.root, tmode := t.tmode, shape := t.shape, shapeSize := t.shapeSize,
        leaves := t.leaves, leafCnt := t.leafCnt, flatValid := t.flatValid, hdrIgnore := t.hdrIgnore, hdrSig := t.hdrSig }

/-- R218: the round trip of the static engine: `SH.ARCHIVE` on a source `x` of two or more distinct byte values ends OK, and if it ends OK
with the sink content `y`, then `SH.UNARCHIVE` on `y` ends OK with the sink content `x`, given that no transaction fails. -/
def Obligations.StaticRoundTrip : Prop :=
  (∀ s : State, s.faulted = false → PortsGood s → 2 ≤ (distinctBytes s.src).length →
    ∃ t, exec .shArchive s = .next t ∧ t.faulted = false)
  ∧ ∀ (s t s' : State) (y : List Byte), s.faulted = false → PortsGood s → exec .shArchive s = .next t → t.faulted = false →
    sinkBytes t = y.map some → s'.faulted = false → PortsGood s' → s'.params = s.params → s'.src = y →
    ∃ u, exec .shUnarchive s' = .next u ∧ u.faulted = false ∧ sinkBytes u = s.src.map some

/-- R219: `SH.ARCHIVE` leaves the same SNK and the same context, but for `RES`, `BYTES_IN`, `BYTES_OUT` and `CSEQ`, as the sequence of
primitive commands. -/
def Obligations.ShArchiveEqualsPrimitives : Prop :=
  ∀ s : State, s.faulted = false → PortsGood s → 2 ≤ (distinctBytes s.src).length →
    ∃ (t u w : State) (pad : Byte), exec .shArchive s = .next t
      ∧ execAll ([.ctxInit, .fbScan, .fbBuild, .shMkcodes, .tcSerhdr 0#8 s.params.sigStatic] ++ s.src.map Instr.shEncsym
          ++ [.bsFinish]) s = .next u
      ∧ u.res = pad.setWidth 64 ∧ exec (.shFixup pad) u = .next w
      ∧ t = { w with res := t.res, bytesIn := t.bytesIn, bytesOut := t.bytesOut, cseq := t.cseq, rsp := t.rsp, ports := t.ports }

/-! ### The AH unit -/

/-- R235, R241: `AH.INIT` destroys any tree, leaves the one NYT leaf of weight 0 and number 512, clears the map, answers 0, and touches
nothing else. -/
def Obligations.AhInitCreatesNytLeaf : Prop :=
  ∀ s : State, s.faulted = false →
    ∃ t, exec .ahInit s = .next t ∧ EndsOk s t 0#64 ∧ FreshAdaptive t
      ∧ t = { sameEnd t s with arena := t.arena, nodeCnt := t.nodeCnt, root := t.root, ahNyt := t.ahNyt, ahS := t.ahS,
                               ahNextnum := t.ahNextnum, map := t.map, tmode := t.tmode, codesValid := t.codesValid, ports := s.ports }

/-- R238, R243 to R248: `AH.UPDATE s` grows the tree when the symbol is new, keeps the adaptive tree's invariants (weights sum up, siblings
are in order, a parent's number exceeds both children's), adds 1 to the symbol's weight and to the root's and to no other symbol's, and
answers the symbol's weight; no bit is read or written. No entry changes its parent, two siblings change sides exactly where the left one
lies on the path and had its sibling's weight (`Reweighted`), every entry stays at its depth, and a new symbol's leaf and the new NYT leaf
hang at depth `AH_S`, so that the leaf of the k-th symbol hangs at depth `k` for ever. -/
def Obligations.AhUpdateReweights : Prop :=
  ∀ (s : State) (T : Tree) (b : Byte), s.faulted = false → s.tmode = .adaptive → AdaptiveAt s T →
    ∃ t T', exec (.ahUpdate b) s = .next t ∧ EndsOk s t (BitVec.ofNat 64 (symbolWeight b s + 1)) ∧ AdaptiveAt t T'
      ∧ symbolWeight b t = symbolWeight b s + 1 ∧ (∀ c, c ≠ b → symbolWeight c t = symbolWeight c s)
      ∧ (t.node T'.idx).w = (s.node T.idx).w + 1 ∧ T'.idx = T.idx ∧ Reweighted s t T b
      ∧ (∀ n p, T.pathTo n = some p → ∃ p', T'.pathTo n = some p' ∧ p'.length = p.length)
      ∧ (s.mapOf b = none → ∃ n p, t.mapOf b = some n ∧ T'.pathTo n = some p ∧ p.length = t.ahS)
      ∧ (∃ y p, t.ahNyt = some y ∧ T'.pathTo y = some p ∧ p.length = t.ahS)
      ∧ t.ahS = (if s.mapOf b = none then s.ahS + 1 else s.ahS)
      ∧ t = { sameEnd t s with arena := t.arena, nodeCnt := t.nodeCnt, map := t.map, ahNyt := t.ahNyt, ahS := t.ahS,
                               ahNextnum := t.ahNextnum, ports := s.ports }

/-- R115, R237, R249: `AH.ENCSYM s` writes the path of the symbol's leaf as the tree stands before the command, or, for a new symbol, the
path of the NYT leaf and the symbol's 8 bits; it answers the number of bits; the tree then is as after `AH.UPDATE s` (R253). -/
def Obligations.AhEncsymWritesPath : Prop :=
  ∀ (s : State) (T : Tree) (b : Byte), s.faulted = false → s.tmode = .adaptive → AdaptiveAt s T → PortsGood s →
    ∃ t u bits, exec (.ahEncsym b) s = .next t ∧ exec (.ahUpdate b) s = .next u ∧ SameModel t u ∧ CodeIn s T b bits
      ∧ EndsOk s t (BitVec.ofNat 64 bits.length) ∧ WritesBits s t bits
      ∧ t = { sameEnd t s with acc := t.acc, accCnt := t.accCnt, obuf := t.obuf, sinkPos := t.sinkPos, snk := t.snk,
                               arena := t.arena, nodeCnt := t.nodeCnt, map := t.map, ahNyt := t.ahNyt, ahS := t.ahS,
                               ahNextnum := t.ahNextnum }

/-- R250, R253: the lock-step of encoder and decoder: on the bits that `AH.ENCSYM s` would write from the same tree, `AH.DECSYM` decodes and
emits `s`, answers it, consumes exactly those bits, and leaves the tree that `AH.UPDATE s` leaves. -/
def Obligations.AhDecsymMirrorsEncsym : Prop :=
  ∀ (s : State) (T : Tree) (b : Byte) (bits rest : Bits), s.faulted = false → s.tmode = .adaptive → AdaptiveAt s T → PortsGood s →
    CodeIn s T b bits → unread s = bits ++ rest →
    ∃ t u, exec .ahDecsym s = .next t ∧ exec (.ahUpdate b) s = .next u ∧ SameModel t u
      ∧ EndsOk s t (b.setWidth 64) ∧ EmitsBytes s t [b] ∧ unread t = rest ∧ cursor t = cursor s + bits.length
      ∧ t = { sameEnd t s with rdByte := t.rdByte, rdBit := t.rdBit, obuf := t.obuf, sinkPos := t.sinkPos, snk := t.snk,
                               arena := t.arena, nodeCnt := t.nodeCnt, map := t.map, ahNyt := t.ahNyt, ahS := t.ahS,
                               ahNextnum := t.ahNextnum }

/-- R250, R295, R300: the two faults of `AH.DECSYM` that its input brings about. A raw symbol after the NYT path that already has a leaf
raises `CorruptStreamError` with the symbol; a source that ends inside a symbol (in the walk, or in the raw bits after the NYT leaf) raises
`IOError` with `RD_BYTE = SRC_LEN`. The bits read stay consumed, nothing is emitted and the tree does not change. -/
def Obligations.AhDecsymCorruptStream : Prop :=
  (∀ (s : State) (T : Tree) (b : Byte) (y n : Nat) (p rest : Bits), s.faulted = false → s.tmode = .adaptive → AdaptiveAt s T →
    PortsGood s → s.ahNyt = some y → T.pathTo y = some p → s.mapOf b = some n → unread s = p ++ bitsOf b.toNat 8 ++ rest →
    ∃ t, exec .ahDecsym s = .next t ∧ EndsFaulted s t .corruptStream b.toNat ∧ unread t = rest
      ∧ t = { s with rsp := t.rsp, cseq := t.cseq, ports := t.ports, err := t.err, faulted := t.faulted, errinfo := t.errinfo,
                     rdByte := t.rdByte, rdBit := t.rdBit })
  ∧ ∀ (s : State) (T : Tree), s.faulted = false → s.tmode = .adaptive → AdaptiveAt s T → PortsGood s → cursor s ≤ 8 * s.src.length →
    ((∀ q, q <+: unread s → T.leafAt q = none)
      ∨ ∃ p raw, unread s = p ++ raw ∧ T.leafAt p = some Config.nytMark ∧ raw.length < 8) →
    ∃ t, exec .ahDecsym s = .next t ∧ EndsFaulted s t .io s.src.length ∧ cursor t = 8 * s.src.length
      ∧ t = { s with rsp := t.rsp, cseq := t.cseq, ports := t.ports, err := t.err, faulted := t.faulted, errinfo := t.errinfo,
                     rdByte := t.rdByte, rdBit := t.rdBit }

/-- R114, R251, R255: `AH.ARCHIVE` ends OK on every source, the empty one and a single repeated byte included, with the SNK and the
context, but for `RES`, `BYTES_IN`, `BYTES_OUT` and `CSEQ`, of the sequence of primitive commands; the sink starts with the signature, and
the answer is the pad count. -/
def Obligations.AhArchiveEqualsPrimitives : Prop :=
  ∀ s : State, s.faulted = false → PortsGood s →
    ∃ t u, exec .ahArchive s = .next t
      ∧ execAll ([.ctxInit, .ahInit, .bsWrite 8#8 (s.params.sigAdaptive.setWidth 32)] ++ s.src.map Instr.ahEncsym ++ [.bsFinish]) s
          = .next u
      ∧ t = { u with res := t.res, bytesIn := t.bytesIn, bytesOut := t.bytesOut, cseq := t.cseq, rsp := t.rsp, ports := t.ports }
      ∧ t.faulted = false ∧ t.rsp = u.rsp ∧ t.res = u.res ∧ t.cseq = s.cseq + 1#64
      ∧ t.bytesIn = s.src.length ∧ t.bytesOut = t.sinkPos ∧ t.obuf = [] ∧ t.tmode = .adaptive
      ∧ (sinkBytes t).head? = some (some s.params.sigAdaptive)
      ∧ (∀ a, t.sinkPos ≤ a → Memory.read t.snk a = Memory.read s.snk a)

/-- R114, R115, R251: `AH.ARCHIVE` ends OK on every source, the empty one and a single repeated byte included: it leaves the signature and
the packed adaptive payload of the source in SNK from offset 0, counts the bytes and answers the pad count. -/
def Obligations.AhArchiveWritesContainer : Prop :=
  ∀ s : State, s.faulted = false → PortsGood s →
    ∃ t u bits, exec .ahInit s = .next u ∧ AdaptiveCode u s.src bits ∧ exec .ahArchive s = .next t
      ∧ sinkBytes t = (s.params.sigAdaptive :: packMsb bits).map some ∧ t.obuf = [] ∧ t.sinkPos = 1 + ceil8 bits.length
      ∧ (∀ a, t.sinkPos ≤ a → Memory.read t.snk a = Memory.read s.snk a)
      ∧ t.rsp = some { st := 0x00#8, val := BitVec.ofNat 64 (padCount bits.length) }
      ∧ t.res = BitVec.ofNat 64 (padCount bits.length) ∧ t.cseq = s.cseq + 1#64
      ∧ t.bytesIn = s.src.length ∧ t.bytesOut = t.sinkPos ∧ t.tmode = .adaptive ∧ t.faulted = false
      ∧ t = { freshEnd t s with
        bytesIn := t.bytesIn, bytesOut := t.bytesOut, sinkPos := t.sinkPos, snk := t.snk, arena := t.arena, nodeCnt := t.nodeCnt,
        root := t.root, tmode := t.tmode, ahS := t.ahS, ahNextnum := t.ahNextnum, ahNyt := t.ahNyt, map := t.map }

/-- R115, R252: `AH.UNARCHIVE N` completes on every source that starts with the signature and goes on with the adaptive payload of any `N`
symbols: it leaves the symbols in SNK from offset 0 and answers `N`; "whatever follows the `N`-th symbol (pad bits, or whole extra bytes)
is ignored and not counted in `BYTES_IN`". The payload is a function of the symbols alone (`adaptivePayload`), and it is the one that the
trees of `AH.INIT` and `AH.UPDATE` give. -/
def Obligations.AhUnarchiveDecodesContainer : Prop :=
  (∀ (s : State) (x body : List Byte), s.faulted = false → PortsGood s → x.length < 2 ^ 48 →
    s.src = s.params.sigAdaptive :: body → adaptivePayload x <+: unpackMsb body →
    ∃ t, exec (.ahUnarchive (BitVec.ofNat 48 x.length)) s = .next t ∧ sinkBytes t = x.map some ∧ t.sinkPos = x.length ∧ t.obuf = []
      ∧ (∀ a, t.sinkPos ≤ a → Memory.read t.snk a = Memory.read s.snk a)
      ∧ t.rsp = some { st := 0x00#8, val := BitVec.ofNat 64 x.length } ∧ t.res = BitVec.ofNat 64 x.length
      ∧ t.cseq = s.cseq + 1#64 ∧ t.bytesIn = 1 + ceil8 (adaptivePayload x).length ∧ t.bytesOut = x.length
      ∧ t.hdrSig = s.params.sigAdaptive ∧ t.tmode = .adaptive ∧ t.faulted = false
      ∧ t = { freshEnd t s with
        bytesIn := t.bytesIn, bytesOut := t.bytesOut, rdByte := t.rdByte, rdBit := t.rdBit, sinkPos := t.sinkPos, snk := t.snk,
        arena := t.arena, nodeCnt := t.nodeCnt, root := t.root, tmode := t.tmode, ahS := t.ahS, ahNextnum := t.ahNextnum,
        ahNyt := t.ahNyt, map := t.map, hdrSig := t.hdrSig })
  ∧ ∀ (s u : State) (x : List Byte) (bits : Bits), s.faulted = false → exec .ahInit s = .next u → AdaptiveCode u x bits →
    bits = adaptivePayload x

/-- R252, R254: the round trip of the adaptive engine: if `AH.ARCHIVE` on `x` leaves the sink content `y`, then `AH.UNARCHIVE len(x)` on `y`
ends OK with the sink content `x` and answers its length. -/
def Obligations.AdaptiveRoundTrip : Prop :=
  ∀ (s t s' : State) (y : List Byte), s.faulted = false → PortsGood s → exec .ahArchive s = .next t → sinkBytes t = y.map some →
    s.src.length < 2 ^ 48 → s'.faulted = false → PortsGood s' → s'.params = s.params → s'.src = y →
    ∃ u, exec (.ahUnarchive (BitVec.ofNat 48 s.src.length)) s' = .next u ∧ u.faulted = false ∧ sinkBytes u = s.src.map some
      ∧ u.rsp = some { st := 0x00#8, val := BitVec.ofNat 64 s.src.length } ∧ u.obuf = []
      ∧ u.bytesIn = y.length ∧ u.bytesOut = s.src.length ∧ u.tmode = .adaptive

/-- R252, R293: `AH.UNARCHIVE` on an empty source raises `BadSignatureError` with the offset 0, on another first byte than `SIG_ADAPTIVE` with
that byte; nothing is emitted, and the context is a fresh adaptive one: the tree is the one `AH.INIT` leaves. -/
def Obligations.AhUnarchiveChecksSignature : Prop :=
  ∀ (s : State) (n : BitVec 48), s.faulted = false → PortsGood s →
    (s.src = [] → ∃ t, exec (.ahUnarchive n) s = .next t ∧ EndsFaulted s t .badSignature 0 ∧ t.snk = s.snk ∧ t.sinkPos = 0
      ∧ t.obuf = [] ∧ FreshAdaptive t
      ∧ t = { freshEnd t s with
        snk := s.snk, err := t.err, faulted := t.faulted, errinfo := t.errinfo, arena := t.arena, nodeCnt := t.nodeCnt,
        root := t.root, tmode := t.tmode, ahS := t.ahS, ahNextnum := t.ahNextnum, ahNyt := t.ahNyt })
    ∧ (∀ sig rest, s.src = sig :: rest → sig ≠ s.params.sigAdaptive →
      ∃ t, exec (.ahUnarchive n) s = .next t ∧ EndsFaulted s t .badSignature sig.toNat ∧ t.snk = s.snk ∧ t.sinkPos = 0
        ∧ t.obuf = [] ∧ FreshAdaptive t ∧ t.hdrSig = sig
        ∧ t = { freshEnd t s with
          snk := s.snk, err := t.err, faulted := t.faulted, errinfo := t.errinfo, arena := t.arena, nodeCnt := t.nodeCnt,
          root := t.root, tmode := t.tmode, ahS := t.ahS, ahNextnum := t.ahNextnum, ahNyt := t.ahNyt, rdByte := 1, hdrSig := sig })

/-! ### Invariants -/

/-- The invariant of the registers, the tables and the sink holds after reset. -/
def Obligations.ResetMeetsInv : Prop := Inv State.reset ∧ TreeInv State.reset

/-- R22, R23, R27, R30, R31, R41, R180, R298: from every state that meets the invariant, a step gives a state that meets it. -/
def Obligations.StepKeepsInv : Prop := ∀ s t : State, Inv s → step s = .next t → Inv t

/-- R36, R37, R232, R243, R245, R246, R247, R340: from every state whose tree is as rule R36 says, a step answers a next state, whose tree is so too: no
command gets stuck. -/
def Obligations.StepKeepsTreeAndNeverSticks : Prop :=
  ∀ s : State, Inv s → TreeInv s → ∃ t, step s = .next t ∧ TreeInv t
end

