-- ==== Sys2Proof/Laws/Bits.lean ====
section
/-! SUPPORT. The laws of bit strings (R12): `Bits`, `Val`, `PackMSB` and its inverse. -/

namespace Sys2Proof.Machine

/-! ### `Bits(v, w)` -/

@[simp] theorem length_bitsOf (v w : Nat) : (bitsOf v w).length = w := by
  induction w with
  | zero => rfl
  | succ w ih => simp [bitsOf, ih]

theorem getElem_bitsOf (v w i : Nat) (h : i < (bitsOf v w).length) : (bitsOf v w)[i] = v.testBit (w - 1 - i) := by
  induction w generalizing i with
  | zero => simp at h
  | succ w ih =>
    cases i with
    | zero => simp [bitsOf]
    | succ i =>
      simp only [bitsOf, List.getElem_cons_succ]
      rw [ih]
      congr 1
      omega

/-- Two values with the same low `w` bits have the same bit string. -/
theorem bitsOf_congr {u v w : Nat} (h : ∀ i, i < w → u.testBit i = v.testBit i) : bitsOf u w = bitsOf v w := by
  apply List.ext_getElem (by simp)
  intro i h1 h2
  rw [getElem_bitsOf, getElem_bitsOf]
  simp at h1
  exact h _ (by omega)

@[simp] theorem bitsOf_mod (v w : Nat) : bitsOf (v % 2 ^ w) w = bitsOf v w :=
  bitsOf_congr fun i hi => by simp [Nat.testBit_mod_two_pow, hi]

/-- The first bits of a value are the bits of its high part. -/
theorem bitsOf_add (v n k : Nat) : bitsOf v (n + k) = bitsOf (v / 2 ^ k) n ++ bitsOf v k := by
  induction n with
  | zero => simp [bitsOf]
  | succ n ih =>
    have h : n + 1 + k = (n + k) + 1 := by omega
    rw [h, bitsOf, ih, bitsOf, List.cons_append, Nat.testBit_div_two_pow]

/-- The bits of a concatenation (R133, the value the accumulator step forms). -/
theorem bitsOf_mul_add (a b n w : Nat) : bitsOf (a * 2 ^ w + b % 2 ^ w) (n + w) = bitsOf a n ++ bitsOf b w := by
  have hb : b % 2 ^ w < 2 ^ w := Nat.mod_lt _ (by positivity)
  rw [bitsOf_add]
  congr 1
  · rw [Nat.mul_comm, Nat.mul_add_div (by positivity), Nat.div_eq_of_lt hb, Nat.add_zero]
  · rw [← bitsOf_mod, Nat.mul_comm, Nat.mul_add_mod, Nat.mod_mod, bitsOf_mod]

@[simp] theorem bitsOf_zero (w : Nat) : bitsOf 0 w = List.replicate w false := by
  induction w with
  | zero => rfl
  | succ w ih => simp [bitsOf, ih, List.replicate_succ]

/-! ### `Val(b)` -/

theorem valOf_append (a b : Bits) : valOf (a ++ b) = valOf a * 2 ^ b.length + valOf b := by
  have key : ∀ (b : Bits) (v : Nat), b.foldl shiftIn v = v * 2 ^ b.length + b.foldl shiftIn 0 := by
    intro b
    induction b with
    | nil => simp
    | cons x b ih =>
      intro v
      rw [List.foldl_cons, List.foldl_cons, ih (shiftIn v x), ih (shiftIn 0 x)]
      simp only [shiftIn, List.length_cons, Nat.pow_succ]
      ring
  unfold valOf
  rw [List.foldl_append, key]

@[simp] theorem valOf_nil : valOf [] = 0 := rfl

@[simp] theorem valOf_singleton (x : Bool) : valOf [x] = x.toNat := by simp [valOf, shiftIn]

theorem valOf_cons (x : Bool) (b : Bits) : valOf (x :: b) = x.toNat * 2 ^ b.length + valOf b := by
  rw [← List.singleton_append, valOf_append, valOf_singleton]

theorem valOf_lt (b : Bits) : valOf b < 2 ^ b.length := by
  induction b with
  | nil => simp
  | cons x b ih =>
    rw [valOf_cons, List.length_cons, Nat.pow_succ]
    have hx : x.toNat ≤ 1 := Bool.toNat_le x
    nlinarith

/-- `Val(Bits(v, w)) = v mod 2^w` (R12). -/
@[simp] theorem valOf_bitsOf (v w : Nat) : valOf (bitsOf v w) = v % 2 ^ w := by
  induction w with
  | zero => simp [bitsOf, Nat.mod_one]
  | succ w ih =>
    rw [bitsOf, valOf_cons, ih, length_bitsOf, Nat.testBit_eq_decide_div_mod_eq, Nat.pow_succ, Nat.mod_mul]
    have h : v / 2 ^ w % 2 = 0 ∨ v / 2 ^ w % 2 = 1 := by omega
    rcases h with h | h <;> simp [h, Nat.add_comm]

/-- `Bits(Val(b), len(b)) = b` (R12). -/
@[simp] theorem bitsOf_valOf (b : Bits) : bitsOf (valOf b) b.length = b := by
  induction b with
  | nil => rfl
  | cons x b ih =>
    have hlt := valOf_lt b
    rw [valOf_cons, List.length_cons, Nat.add_comm b.length 1]
    have h := bitsOf_mul_add x.toNat (valOf b) 1 b.length
    rw [Nat.mod_eq_of_lt hlt] at h
    rw [h, ih]
    cases x <;> rfl

/-- A bit string is the bit string of a value exactly when the value is its `Val`. -/
theorem bitsOf_eq_iff {v : Nat} {b : Bits} : bitsOf v b.length = b ↔ v % 2 ^ b.length = valOf b := by
  constructor
  · intro h
    rw [← valOf_bitsOf, h]
  · intro h
    rw [← bitsOf_mod, h, bitsOf_valOf]

/-! ### Bytes as bits (R61) -/

@[simp] theorem unpackMsb_nil : unpackMsb [] = [] := rfl

@[simp] theorem unpackMsb_cons (b : Byte) (bs : List Byte) : unpackMsb (b :: bs) = bitsOf b.toNat 8 ++ unpackMsb bs := by
  simp [unpackMsb]

@[simp] theorem unpackMsb_append (xs ys : List Byte) : unpackMsb (xs ++ ys) = unpackMsb xs ++ unpackMsb ys := by
  simp [unpackMsb]

@[simp] theorem length_unpackMsb (bs : List Byte) : (unpackMsb bs).length = 8 * bs.length := by
  induction bs with
  | nil => rfl
  | cons b bs ih => simp [ih]; omega

/-- Bit `i` of a byte sequence is bit `7 - (i mod 8)` of byte `i div 8` (R12). -/
theorem getElem_unpackMsb (bs : List Byte) (i : Nat) (h : i < (unpackMsb bs).length) :
    (unpackMsb bs)[i] = (bs[i / 8]'(by simp at h; omega)).toNat.testBit (7 - i % 8) := by
  induction bs generalizing i with
  | nil => simp at h
  | cons b bs ih =>
    simp only [unpackMsb_cons]
    by_cases hi : i < 8
    · rw [List.getElem_append_left (by simpa using hi), getElem_bitsOf]
      have h0 : i / 8 = 0 := by omega
      have h1 : i % 8 = i := by omega
      simp [h0, h1]
    · have h8 : 8 ≤ i := by omega
      rw [List.getElem_append_right (by simpa using h8)]
      simp only [length_bitsOf]
      rw [ih]
      have h0 : i / 8 = (i - 8) / 8 + 1 := by omega
      have h1 : (i - 8) % 8 = i % 8 := by omega
      simp [h0, h1]

theorem bitsOf_byte_inj {a b : Byte} (h : bitsOf a.toNat 8 = bitsOf b.toNat 8) : a = b := by
  have h1 := congrArg valOf h
  rw [valOf_bitsOf, valOf_bitsOf] at h1
  exact BitVec.eq_of_toNat_eq (by simpa [Nat.mod_eq_of_lt a.isLt, Nat.mod_eq_of_lt b.isLt] using h1)

theorem unpackMsb_inj {xs ys : List Byte} (h : unpackMsb xs = unpackMsb ys) : xs = ys := by
  induction xs generalizing ys with
  | nil =>
    cases ys with
    | nil => rfl
    | cons y ys =>
      have h1 := congrArg List.length h
      simp only [length_unpackMsb, List.length_cons, List.length_nil] at h1
      omega
  | cons x xs ih =>
    cases ys with
    | nil =>
      have h1 := congrArg List.length h
      simp only [length_unpackMsb, List.length_cons, List.length_nil] at h1
      omega
    | cons y ys =>
      rw [unpackMsb_cons, unpackMsb_cons] at h
      have h2 := List.append_inj h (by simp)
      rw [bitsOf_byte_inj h2.1, ih h2.2]

/-! ### `PackMSB(b)` -/

@[simp] theorem length_packMsb (b : Bits) : (packMsb b).length = ceil8 b.length := by simp [packMsb]

theorem padCount_add (n : Nat) : n + padCount n = 8 * ceil8 n := by unfold padCount ceil8; omega

/-- R12: the bytes of `PackMSB(b)` spell `b` and then zeros to the end of the last byte. -/
theorem unpackMsb_packMsb (b : Bits) : unpackMsb (packMsb b) = b ++ List.replicate (padCount b.length) false := by
  have hlen := padCount_add b.length
  apply List.ext_getElem
  · simp; omega
  · intro i h1 h2
    rw [getElem_unpackMsb]
    have hb : ∀ k, (packedByte b k).toNat = valOf ((List.range 8).map fun j => b.getD (8 * k + j) false) := by
      intro k
      unfold packedByte
      rw [BitVec.toNat_ofNat, Nat.mod_eq_of_lt]
      simpa using valOf_lt ((List.range 8).map fun j => b.getD (8 * k + j) false)
    simp only [packMsb, List.getElem_map, List.getElem_range, hb]
    have h8 : ((List.range 8).map fun j => b.getD (8 * (i / 8) + j) false).length = 8 := by simp
    have h3 := bitsOf_valOf ((List.range 8).map fun j => b.getD (8 * (i / 8) + j) false)
    rw [h8] at h3
    have h4 := getElem_bitsOf (valOf ((List.range 8).map fun j => b.getD (8 * (i / 8) + j) false)) 8 (i % 8)
      (by simp; omega)
    have h6 : (bitsOf (valOf ((List.range 8).map fun j => b.getD (8 * (i / 8) + j) false)) 8)[i % 8]'(by simp; omega)
        = ((List.range 8).map fun j => b.getD (8 * (i / 8) + j) false)[i % 8]'(by simp; omega) := by
      congr 1
    rw [h6] at h4
    have h5 : 8 * (i / 8) + i % 8 = i := by omega
    simp only [List.getElem_map, List.getElem_range, h5] at h4
    rw [show 7 - i % 8 = 8 - 1 - i % 8 by omega, ← h4]
    by_cases hi : i < b.length
    · rw [List.getElem_append_left hi]
      simp [List.getD, hi]
    · rw [List.getElem_append_right (by omega)]
      simp [List.getD, Nat.not_lt.mp hi]

/-- The byte sequence that spells `b` and zeros to the end of the last byte is `PackMSB(b)`. -/
theorem packMsb_unique {b : Bits} {bs : List Byte} (h : unpackMsb bs = b ++ List.replicate (padCount b.length) false) :
    packMsb b = bs := unpackMsb_inj (by rw [unpackMsb_packMsb, h])

@[simp] theorem packMsb_unpackMsb (bs : List Byte) : packMsb (unpackMsb bs) = bs := by
  apply packMsb_unique
  simp [padCount]

/-- The first bits of a packed string are the string. -/
theorem take_unpackMsb_packMsb (b : Bits) : (unpackMsb (packMsb b)).take b.length = b := by
  rw [unpackMsb_packMsb, List.take_left']
  rfl

end Sys2Proof.Machine
end

