-- ==== Sys2Proof/Laws/State.lean ====
section
/-! SUPPORT. One lemma for each field under each named update of the state, so that no
proof unfolds a record update. The cursor after `advanceBit` is in Laws/Bs.lean. -/

namespace Sys2Proof.Machine

/-! ### `setError`: R296 -/

@[simp] theorem setError_params (e : ErrKind) (s : State) : (setError e s).params = s.params := rfl
@[simp] theorem setError_cseq (e : ErrKind) (s : State) : (setError e s).cseq = s.cseq := rfl
@[simp] theorem setError_err (e : ErrKind) (s : State) : (setError e s).err = some e := rfl
@[simp] theorem setError_faulted (e : ErrKind) (s : State) : (setError e s).faulted = true := rfl
@[simp] theorem setError_tmode (e : ErrKind) (s : State) : (setError e s).tmode = s.tmode := rfl
@[simp] theorem setError_codesValid (e : ErrKind) (s : State) : (setError e s).codesValid = s.codesValid := rfl
@[simp] theorem setError_flatValid (e : ErrKind) (s : State) : (setError e s).flatValid = s.flatValid := rfl
@[simp] theorem setError_errinfo (e : ErrKind) (s : State) : (setError e s).errinfo = s.errinfo := rfl
@[simp] theorem setError_res (e : ErrKind) (s : State) : (setError e s).res = s.res := rfl
@[simp] theorem setError_bytesIn (e : ErrKind) (s : State) : (setError e s).bytesIn = s.bytesIn := rfl
@[simp] theorem setError_bytesOut (e : ErrKind) (s : State) : (setError e s).bytesOut = s.bytesOut := rfl
@[simp] theorem setError_acc (e : ErrKind) (s : State) : (setError e s).acc = s.acc := rfl
@[simp] theorem setError_accCnt (e : ErrKind) (s : State) : (setError e s).accCnt = s.accCnt := rfl
@[simp] theorem setError_rdByte (e : ErrKind) (s : State) : (setError e s).rdByte = s.rdByte := rfl
@[simp] theorem setError_rdBit (e : ErrKind) (s : State) : (setError e s).rdBit = s.rdBit := rfl
@[simp] theorem setError_sinkPos (e : ErrKind) (s : State) : (setError e s).sinkPos = s.sinkPos := rfl
@[simp] theorem setError_obuf (e : ErrKind) (s : State) : (setError e s).obuf = s.obuf := rfl
@[simp] theorem setError_distinct (e : ErrKind) (s : State) : (setError e s).distinct = s.distinct := rfl
@[simp] theorem setError_nodeCnt (e : ErrKind) (s : State) : (setError e s).nodeCnt = s.nodeCnt := rfl
@[simp] theorem setError_root (e : ErrKind) (s : State) : (setError e s).root = s.root := rfl
@[simp] theorem setError_hdrIgnore (e : ErrKind) (s : State) : (setError e s).hdrIgnore = s.hdrIgnore := rfl
@[simp] theorem setError_hdrSig (e : ErrKind) (s : State) : (setError e s).hdrSig = s.hdrSig := rfl
@[simp] theorem setError_shapeSize (e : ErrKind) (s : State) : (setError e s).shapeSize = s.shapeSize := rfl
@[simp] theorem setError_leafCnt (e : ErrKind) (s : State) : (setError e s).leafCnt = s.leafCnt := rfl
@[simp] theorem setError_ahS (e : ErrKind) (s : State) : (setError e s).ahS = s.ahS := rfl
@[simp] theorem setError_ahNextnum (e : ErrKind) (s : State) : (setError e s).ahNextnum = s.ahNextnum := rfl
@[simp] theorem setError_ahNyt (e : ErrKind) (s : State) : (setError e s).ahNyt = s.ahNyt := rfl
@[simp] theorem setError_freq (e : ErrKind) (s : State) : (setError e s).freq = s.freq := rfl
@[simp] theorem setError_arena (e : ErrKind) (s : State) : (setError e s).arena = s.arena := rfl
@[simp] theorem setError_codeBits (e : ErrKind) (s : State) : (setError e s).codeBits = s.codeBits := rfl
@[simp] theorem setError_map (e : ErrKind) (s : State) : (setError e s).map = s.map := rfl
@[simp] theorem setError_shape (e : ErrKind) (s : State) : (setError e s).shape = s.shape := rfl
@[simp] theorem setError_leaves (e : ErrKind) (s : State) : (setError e s).leaves = s.leaves := rfl
@[simp] theorem setError_src (e : ErrKind) (s : State) : (setError e s).src = s.src := rfl
@[simp] theorem setError_ports (e : ErrKind) (s : State) : (setError e s).ports = s.ports := rfl
@[simp] theorem setError_snk (e : ErrKind) (s : State) : (setError e s).snk = s.snk := rfl
@[simp] theorem setError_cmds (e : ErrKind) (s : State) : (setError e s).cmds = s.cmds := rfl
@[simp] theorem setError_rsp (e : ErrKind) (s : State) : (setError e s).rsp = s.rsp := rfl

/-! ### `setTree`: R298 -/

@[simp] theorem setTree_params (m : TMode) (s : State) : (setTree m s).params = s.params := rfl
@[simp] theorem setTree_cseq (m : TMode) (s : State) : (setTree m s).cseq = s.cseq := rfl
@[simp] theorem setTree_err (m : TMode) (s : State) : (setTree m s).err = s.err := rfl
@[simp] theorem setTree_faulted (m : TMode) (s : State) : (setTree m s).faulted = s.faulted := rfl
@[simp] theorem setTree_tmode (m : TMode) (s : State) : (setTree m s).tmode = m := rfl
@[simp] theorem setTree_codesValid (m : TMode) (s : State) : (setTree m s).codesValid = false := rfl
@[simp] theorem setTree_flatValid (m : TMode) (s : State) : (setTree m s).flatValid = s.flatValid := rfl
@[simp] theorem setTree_errinfo (m : TMode) (s : State) : (setTree m s).errinfo = s.errinfo := rfl
@[simp] theorem setTree_res (m : TMode) (s : State) : (setTree m s).res = s.res := rfl
@[simp] theorem setTree_bytesIn (m : TMode) (s : State) : (setTree m s).bytesIn = s.bytesIn := rfl
@[simp] theorem setTree_bytesOut (m : TMode) (s : State) : (setTree m s).bytesOut = s.bytesOut := rfl
@[simp] theorem setTree_acc (m : TMode) (s : State) : (setTree m s).acc = s.acc := rfl
@[simp] theorem setTree_accCnt (m : TMode) (s : State) : (setTree m s).accCnt = s.accCnt := rfl
@[simp] theorem setTree_rdByte (m : TMode) (s : State) : (setTree m s).rdByte = s.rdByte := rfl
@[simp] theorem setTree_rdBit (m : TMode) (s : State) : (setTree m s).rdBit = s.rdBit := rfl
@[simp] theorem setTree_sinkPos (m : TMode) (s : State) : (setTree m s).sinkPos = s.sinkPos := rfl
@[simp] theorem setTree_obuf (m : TMode) (s : State) : (setTree m s).obuf = s.obuf := rfl
@[simp] theorem setTree_distinct (m : TMode) (s : State) : (setTree m s).distinct = s.distinct := rfl
@[simp] theorem setTree_nodeCnt (m : TMode) (s : State) : (setTree m s).nodeCnt = s.nodeCnt := rfl
@[simp] theorem setTree_root (m : TMode) (s : State) : (setTree m s).root = s.root := rfl
@[simp] theorem setTree_hdrIgnore (m : TMode) (s : State) : (setTree m s).hdrIgnore = s.hdrIgnore := rfl
@[simp] theorem setTree_hdrSig (m : TMode) (s : State) : (setTree m s).hdrSig = s.hdrSig := rfl
@[simp] theorem setTree_shapeSize (m : TMode) (s : State) : (setTree m s).shapeSize = s.shapeSize := rfl
@[simp] theorem setTree_leafCnt (m : TMode) (s : State) : (setTree m s).leafCnt = s.leafCnt := rfl
@[simp] theorem setTree_ahS (m : TMode) (s : State) : (setTree m s).ahS = s.ahS := rfl
@[simp] theorem setTree_ahNextnum (m : TMode) (s : State) : (setTree m s).ahNextnum = s.ahNextnum := rfl
@[simp] theorem setTree_ahNyt (m : TMode) (s : State) : (setTree m s).ahNyt = s.ahNyt := rfl
@[simp] theorem setTree_freq (m : TMode) (s : State) : (setTree m s).freq = s.freq := rfl
@[simp] theorem setTree_arena (m : TMode) (s : State) : (setTree m s).arena = s.arena := rfl
@[simp] theorem setTree_codeBits (m : TMode) (s : State) : (setTree m s).codeBits = s.codeBits := rfl
@[simp] theorem setTree_map (m : TMode) (s : State) : (setTree m s).map = s.map := rfl
@[simp] theorem setTree_shape (m : TMode) (s : State) : (setTree m s).shape = s.shape := rfl
@[simp] theorem setTree_leaves (m : TMode) (s : State) : (setTree m s).leaves = s.leaves := rfl
@[simp] theorem setTree_src (m : TMode) (s : State) : (setTree m s).src = s.src := rfl
@[simp] theorem setTree_ports (m : TMode) (s : State) : (setTree m s).ports = s.ports := rfl
@[simp] theorem setTree_snk (m : TMode) (s : State) : (setTree m s).snk = s.snk := rfl
@[simp] theorem setTree_cmds (m : TMode) (s : State) : (setTree m s).cmds = s.cmds := rfl
@[simp] theorem setTree_rsp (m : TMode) (s : State) : (setTree m s).rsp = s.rsp := rfl

/-! ### `setCodesValid`: R201 -/

@[simp] theorem setCodesValid_params (s : State) : (setCodesValid s).params = s.params := rfl
@[simp] theorem setCodesValid_cseq (s : State) : (setCodesValid s).cseq = s.cseq := rfl
@[simp] theorem setCodesValid_err (s : State) : (setCodesValid s).err = s.err := rfl
@[simp] theorem setCodesValid_faulted (s : State) : (setCodesValid s).faulted = s.faulted := rfl
@[simp] theorem setCodesValid_tmode (s : State) : (setCodesValid s).tmode = s.tmode := rfl
@[simp] theorem setCodesValid_codesValid (s : State) : (setCodesValid s).codesValid = true := rfl
@[simp] theorem setCodesValid_flatValid (s : State) : (setCodesValid s).flatValid = s.flatValid := rfl
@[simp] theorem setCodesValid_errinfo (s : State) : (setCodesValid s).errinfo = s.errinfo := rfl
@[simp] theorem setCodesValid_res (s : State) : (setCodesValid s).res = s.res := rfl
@[simp] theorem setCodesValid_bytesIn (s : State) : (setCodesValid s).bytesIn = s.bytesIn := rfl
@[simp] theorem setCodesValid_bytesOut (s : State) : (setCodesValid s).bytesOut = s.bytesOut := rfl
@[simp] theorem setCodesValid_acc (s : State) : (setCodesValid s).acc = s.acc := rfl
@[simp] theorem setCodesValid_accCnt (s : State) : (setCodesValid s).accCnt = s.accCnt := rfl
@[simp] theorem setCodesValid_rdByte (s : State) : (setCodesValid s).rdByte = s.rdByte := rfl
@[simp] theorem setCodesValid_rdBit (s : State) : (setCodesValid s).rdBit = s.rdBit := rfl
@[simp] theorem setCodesValid_sinkPos (s : State) : (setCodesValid s).sinkPos = s.sinkPos := rfl
@[simp] theorem setCodesValid_obuf (s : State) : (setCodesValid s).obuf = s.obuf := rfl
@[simp] theorem setCodesValid_distinct (s : State) : (setCodesValid s).distinct = s.distinct := rfl
@[simp] theorem setCodesValid_nodeCnt (s : State) : (setCodesValid s).nodeCnt = s.nodeCnt := rfl
@[simp] theorem setCodesValid_root (s : State) : (setCodesValid s).root = s.root := rfl
@[simp] theorem setCodesValid_hdrIgnore (s : State) : (setCodesValid s).hdrIgnore = s.hdrIgnore := rfl
@[simp] theorem setCodesValid_hdrSig (s : State) : (setCodesValid s).hdrSig = s.hdrSig := rfl
@[simp] theorem setCodesValid_shapeSize (s : State) : (setCodesValid s).shapeSize = s.shapeSize := rfl
@[simp] theorem setCodesValid_leafCnt (s : State) : (setCodesValid s).leafCnt = s.leafCnt := rfl
@[simp] theorem setCodesValid_ahS (s : State) : (setCodesValid s).ahS = s.ahS := rfl
@[simp] theorem setCodesValid_ahNextnum (s : State) : (setCodesValid s).ahNextnum = s.ahNextnum := rfl
@[simp] theorem setCodesValid_ahNyt (s : State) : (setCodesValid s).ahNyt = s.ahNyt := rfl
@[simp] theorem setCodesValid_freq (s : State) : (setCodesValid s).freq = s.freq := rfl
@[simp] theorem setCodesValid_arena (s : State) : (setCodesValid s).arena = s.arena := rfl
@[simp] theorem setCodesValid_codeBits (s : State) : (setCodesValid s).codeBits = s.codeBits := rfl
@[simp] theorem setCodesValid_map (s : State) : (setCodesValid s).map = s.map := rfl
@[simp] theorem setCodesValid_shape (s : State) : (setCodesValid s).shape = s.shape := rfl
@[simp] theorem setCodesValid_leaves (s : State) : (setCodesValid s).leaves = s.leaves := rfl
@[simp] theorem setCodesValid_src (s : State) : (setCodesValid s).src = s.src := rfl
@[simp] theorem setCodesValid_ports (s : State) : (setCodesValid s).ports = s.ports := rfl
@[simp] theorem setCodesValid_snk (s : State) : (setCodesValid s).snk = s.snk := rfl
@[simp] theorem setCodesValid_cmds (s : State) : (setCodesValid s).cmds = s.cmds := rfl
@[simp] theorem setCodesValid_rsp (s : State) : (setCodesValid s).rsp = s.rsp := rfl

/-! ### `setFlatValid`: R161, R211 -/

@[simp] theorem setFlatValid_params (s : State) : (setFlatValid s).params = s.params := rfl
@[simp] theorem setFlatValid_cseq (s : State) : (setFlatValid s).cseq = s.cseq := rfl
@[simp] theorem setFlatValid_err (s : State) : (setFlatValid s).err = s.err := rfl
@[simp] theorem setFlatValid_faulted (s : State) : (setFlatValid s).faulted = s.faulted := rfl
@[simp] theorem setFlatValid_tmode (s : State) : (setFlatValid s).tmode = s.tmode := rfl
@[simp] theorem setFlatValid_codesValid (s : State) : (setFlatValid s).codesValid = s.codesValid := rfl
@[simp] theorem setFlatValid_flatValid (s : State) : (setFlatValid s).flatValid = true := rfl
@[simp] theorem setFlatValid_errinfo (s : State) : (setFlatValid s).errinfo = s.errinfo := rfl
@[simp] theorem setFlatValid_res (s : State) : (setFlatValid s).res = s.res := rfl
@[simp] theorem setFlatValid_bytesIn (s : State) : (setFlatValid s).bytesIn = s.bytesIn := rfl
@[simp] theorem setFlatValid_bytesOut (s : State) : (setFlatValid s).bytesOut = s.bytesOut := rfl
@[simp] theorem setFlatValid_acc (s : State) : (setFlatValid s).acc = s.acc := rfl
@[simp] theorem setFlatValid_accCnt (s : State) : (setFlatValid s).accCnt = s.accCnt := rfl
@[simp] theorem setFlatValid_rdByte (s : State) : (setFlatValid s).rdByte = s.rdByte := rfl
@[simp] theorem setFlatValid_rdBit (s : State) : (setFlatValid s).rdBit = s.rdBit := rfl
@[simp] theorem setFlatValid_sinkPos (s : State) : (setFlatValid s).sinkPos = s.sinkPos := rfl
@[simp] theorem setFlatValid_obuf (s : State) : (setFlatValid s).obuf = s.obuf := rfl
@[simp] theorem setFlatValid_distinct (s : State) : (setFlatValid s).distinct = s.distinct := rfl
@[simp] theorem setFlatValid_nodeCnt (s : State) : (setFlatValid s).nodeCnt = s.nodeCnt := rfl
@[simp] theorem setFlatValid_root (s : State) : (setFlatValid s).root = s.root := rfl
@[simp] theorem setFlatValid_hdrIgnore (s : State) : (setFlatValid s).hdrIgnore = s.hdrIgnore := rfl
@[simp] theorem setFlatValid_hdrSig (s : State) : (setFlatValid s).hdrSig = s.hdrSig := rfl
@[simp] theorem setFlatValid_shapeSize (s : State) : (setFlatValid s).shapeSize = s.shapeSize := rfl
@[simp] theorem setFlatValid_leafCnt (s : State) : (setFlatValid s).leafCnt = s.leafCnt := rfl
@[simp] theorem setFlatValid_ahS (s : State) : (setFlatValid s).ahS = s.ahS := rfl
@[simp] theorem setFlatValid_ahNextnum (s : State) : (setFlatValid s).ahNextnum = s.ahNextnum := rfl
@[simp] theorem setFlatValid_ahNyt (s : State) : (setFlatValid s).ahNyt = s.ahNyt := rfl
@[simp] theorem setFlatValid_freq (s : State) : (setFlatValid s).freq = s.freq := rfl
@[simp] theorem setFlatValid_arena (s : State) : (setFlatValid s).arena = s.arena := rfl
@[simp] theorem setFlatValid_codeBits (s : State) : (setFlatValid s).codeBits = s.codeBits := rfl
@[simp] theorem setFlatValid_map (s : State) : (setFlatValid s).map = s.map := rfl
@[simp] theorem setFlatValid_shape (s : State) : (setFlatValid s).shape = s.shape := rfl
@[simp] theorem setFlatValid_leaves (s : State) : (setFlatValid s).leaves = s.leaves := rfl
@[simp] theorem setFlatValid_src (s : State) : (setFlatValid s).src = s.src := rfl
@[simp] theorem setFlatValid_ports (s : State) : (setFlatValid s).ports = s.ports := rfl
@[simp] theorem setFlatValid_snk (s : State) : (setFlatValid s).snk = s.snk := rfl
@[simp] theorem setFlatValid_cmds (s : State) : (setFlatValid s).cmds = s.cmds := rfl
@[simp] theorem setFlatValid_rsp (s : State) : (setFlatValid s).rsp = s.rsp := rfl

/-! ### `initContext`: R270 -/

@[simp] theorem initContext_params (s : State) : (initContext s).params = s.params := rfl
@[simp] theorem initContext_cseq (s : State) : (initContext s).cseq = s.cseq := rfl
@[simp] theorem initContext_err (s : State) : (initContext s).err = none := rfl
@[simp] theorem initContext_faulted (s : State) : (initContext s).faulted = false := rfl
@[simp] theorem initContext_tmode (s : State) : (initContext s).tmode = TMode.empty := rfl
@[simp] theorem initContext_codesValid (s : State) : (initContext s).codesValid = false := rfl
@[simp] theorem initContext_flatValid (s : State) : (initContext s).flatValid = false := rfl
@[simp] theorem initContext_errinfo (s : State) : (initContext s).errinfo = 0#64 := rfl
@[simp] theorem initContext_res (s : State) : (initContext s).res = 0#64 := rfl
@[simp] theorem initContext_bytesIn (s : State) : (initContext s).bytesIn = 0 := rfl
@[simp] theorem initContext_bytesOut (s : State) : (initContext s).bytesOut = 0 := rfl
@[simp] theorem initContext_acc (s : State) : (initContext s).acc = 0#7 := rfl
@[simp] theorem initContext_accCnt (s : State) : (initContext s).accCnt = 0#3 := rfl
@[simp] theorem initContext_rdByte (s : State) : (initContext s).rdByte = 0 := rfl
@[simp] theorem initContext_rdBit (s : State) : (initContext s).rdBit = 0#3 := rfl
@[simp] theorem initContext_sinkPos (s : State) : (initContext s).sinkPos = 0 := rfl
@[simp] theorem initContext_obuf (s : State) : (initContext s).obuf = [] := rfl
@[simp] theorem initContext_distinct (s : State) : (initContext s).distinct = 0 := rfl
@[simp] theorem initContext_nodeCnt (s : State) : (initContext s).nodeCnt = 0 := rfl
@[simp] theorem initContext_root (s : State) : (initContext s).root = none := rfl
@[simp] theorem initContext_hdrIgnore (s : State) : (initContext s).hdrIgnore = 0#8 := rfl
@[simp] theorem initContext_hdrSig (s : State) : (initContext s).hdrSig = 0#8 := rfl
@[simp] theorem initContext_shapeSize (s : State) : (initContext s).shapeSize = 0 := rfl
@[simp] theorem initContext_leafCnt (s : State) : (initContext s).leafCnt = 0 := rfl
@[simp] theorem initContext_ahS (s : State) : (initContext s).ahS = 0 := rfl
@[simp] theorem initContext_ahNextnum (s : State) : (initContext s).ahNextnum = 0#10 := rfl
@[simp] theorem initContext_ahNyt (s : State) : (initContext s).ahNyt = none := rfl
@[simp] theorem initContext_freq (s : State) : (initContext s).freq = [] := rfl
@[simp] theorem initContext_arena (s : State) : (initContext s).arena = [] := rfl
@[simp] theorem initContext_codeBits (s : State) : (initContext s).codeBits = [] := rfl
@[simp] theorem initContext_map (s : State) : (initContext s).map = [] := rfl
@[simp] theorem initContext_shape (s : State) : (initContext s).shape = [] := rfl
@[simp] theorem initContext_leaves (s : State) : (initContext s).leaves = [] := rfl
@[simp] theorem initContext_src (s : State) : (initContext s).src = s.src := rfl
@[simp] theorem initContext_ports (s : State) : (initContext s).ports = s.ports := rfl
@[simp] theorem initContext_snk (s : State) : (initContext s).snk = s.snk := rfl
@[simp] theorem initContext_cmds (s : State) : (initContext s).cmds = s.cmds := rfl
@[simp] theorem initContext_rsp (s : State) : (initContext s).rsp = s.rsp := rfl

/-- R301. -/
@[simp] theorem leaveFault_eq (s : State) : leaveFault s = initContext s := rfl

/-! ### `respond`: R91, R96 -/

@[simp] theorem respond_params (st : Byte) (v : Word) (s : State) : (respond st v s).params = s.params := rfl
@[simp] theorem respond_cseq (st : Byte) (v : Word) (s : State) : (respond st v s).cseq = s.cseq + 1#64 := rfl
@[simp] theorem respond_err (st : Byte) (v : Word) (s : State) : (respond st v s).err = s.err := rfl
@[simp] theorem respond_faulted (st : Byte) (v : Word) (s : State) : (respond st v s).faulted = s.faulted := rfl
@[simp] theorem respond_tmode (st : Byte) (v : Word) (s : State) : (respond st v s).tmode = s.tmode := rfl
@[simp] theorem respond_codesValid (st : Byte) (v : Word) (s : State) : (respond st v s).codesValid = s.codesValid := rfl
@[simp] theorem respond_flatValid (st : Byte) (v : Word) (s : State) : (respond st v s).flatValid = s.flatValid := rfl
@[simp] theorem respond_errinfo (st : Byte) (v : Word) (s : State) : (respond st v s).errinfo = s.errinfo := rfl
@[simp] theorem respond_res (st : Byte) (v : Word) (s : State) : (respond st v s).res = s.res := rfl
@[simp] theorem respond_bytesIn (st : Byte) (v : Word) (s : State) : (respond st v s).bytesIn = s.bytesIn := rfl
@[simp] theorem respond_bytesOut (st : Byte) (v : Word) (s : State) : (respond st v s).bytesOut = s.bytesOut := rfl
@[simp] theorem respond_acc (st : Byte) (v : Word) (s : State) : (respond st v s).acc = s.acc := rfl
@[simp] theorem respond_accCnt (st : Byte) (v : Word) (s : State) : (respond st v s).accCnt = s.accCnt := rfl
@[simp] theorem respond_rdByte (st : Byte) (v : Word) (s : State) : (respond st v s).rdByte = s.rdByte := rfl
@[simp] theorem respond_rdBit (st : Byte) (v : Word) (s : State) : (respond st v s).rdBit = s.rdBit := rfl
@[simp] theorem respond_sinkPos (st : Byte) (v : Word) (s : State) : (respond st v s).sinkPos = s.sinkPos := rfl
@[simp] theorem respond_obuf (st : Byte) (v : Word) (s : State) : (respond st v s).obuf = s.obuf := rfl
@[simp] theorem respond_distinct (st : Byte) (v : Word) (s : State) : (respond st v s).distinct = s.distinct := rfl
@[simp] theorem respond_nodeCnt (st : Byte) (v : Word) (s : State) : (respond st v s).nodeCnt = s.nodeCnt := rfl
@[simp] theorem respond_root (st : Byte) (v : Word) (s : State) : (respond st v s).root = s.root := rfl
@[simp] theorem respond_hdrIgnore (st : Byte) (v : Word) (s : State) : (respond st v s).hdrIgnore = s.hdrIgnore := rfl
@[simp] theorem respond_hdrSig (st : Byte) (v : Word) (s : State) : (respond st v s).hdrSig = s.hdrSig := rfl
@[simp] theorem respond_shapeSize (st : Byte) (v : Word) (s : State) : (respond st v s).shapeSize = s.shapeSize := rfl
@[simp] theorem respond_leafCnt (st : Byte) (v : Word) (s : State) : (respond st v s).leafCnt = s.leafCnt := rfl
@[simp] theorem respond_ahS (st : Byte) (v : Word) (s : State) : (respond st v s).ahS = s.ahS := rfl
@[simp] theorem respond_ahNextnum (st : Byte) (v : Word) (s : State) : (respond st v s).ahNextnum = s.ahNextnum := rfl
@[simp] theorem respond_ahNyt (st : Byte) (v : Word) (s : State) : (respond st v s).ahNyt = s.ahNyt := rfl
@[simp] theorem respond_freq (st : Byte) (v : Word) (s : State) : (respond st v s).freq = s.freq := rfl
@[simp] theorem respond_arena (st : Byte) (v : Word) (s : State) : (respond st v s).arena = s.arena := rfl
@[simp] theorem respond_codeBits (st : Byte) (v : Word) (s : State) : (respond st v s).codeBits = s.codeBits := rfl
@[simp] theorem respond_map (st : Byte) (v : Word) (s : State) : (respond st v s).map = s.map := rfl
@[simp] theorem respond_shape (st : Byte) (v : Word) (s : State) : (respond st v s).shape = s.shape := rfl
@[simp] theorem respond_leaves (st : Byte) (v : Word) (s : State) : (respond st v s).leaves = s.leaves := rfl
@[simp] theorem respond_src (st : Byte) (v : Word) (s : State) : (respond st v s).src = s.src := rfl
@[simp] theorem respond_ports (st : Byte) (v : Word) (s : State) : (respond st v s).ports = s.ports := rfl
@[simp] theorem respond_snk (st : Byte) (v : Word) (s : State) : (respond st v s).snk = s.snk := rfl
@[simp] theorem respond_cmds (st : Byte) (v : Word) (s : State) : (respond st v s).cmds = s.cmds := rfl
@[simp] theorem respond_rsp (st : Byte) (v : Word) (s : State) : (respond st v s).rsp = some { st := st, val := v } := rfl

/-! ### `refuse`: R297 -/

@[simp] theorem refuse_params (st : Byte) (s : State) : (refuse st s).params = s.params := rfl
@[simp] theorem refuse_cseq (st : Byte) (s : State) : (refuse st s).cseq = s.cseq + 1#64 := rfl
@[simp] theorem refuse_err (st : Byte) (s : State) : (refuse st s).err = s.err := rfl
@[simp] theorem refuse_faulted (st : Byte) (s : State) : (refuse st s).faulted = s.faulted := rfl
@[simp] theorem refuse_tmode (st : Byte) (s : State) : (refuse st s).tmode = s.tmode := rfl
@[simp] theorem refuse_codesValid (st : Byte) (s : State) : (refuse st s).codesValid = s.codesValid := rfl
@[simp] theorem refuse_flatValid (st : Byte) (s : State) : (refuse st s).flatValid = s.flatValid := rfl
@[simp] theorem refuse_errinfo (st : Byte) (s : State) : (refuse st s).errinfo = s.errinfo := rfl
@[simp] theorem refuse_res (st : Byte) (s : State) : (refuse st s).res = s.res := rfl
@[simp] theorem refuse_bytesIn (st : Byte) (s : State) : (refuse st s).bytesIn = s.bytesIn := rfl
@[simp] theorem refuse_bytesOut (st : Byte) (s : State) : (refuse st s).bytesOut = s.bytesOut := rfl
@[simp] theorem refuse_acc (st : Byte) (s : State) : (refuse st s).acc = s.acc := rfl
@[simp] theorem refuse_accCnt (st : Byte) (s : State) : (refuse st s).accCnt = s.accCnt := rfl
@[simp] theorem refuse_rdByte (st : Byte) (s : State) : (refuse st s).rdByte = s.rdByte := rfl
@[simp] theorem refuse_rdBit (st : Byte) (s : State) : (refuse st s).rdBit = s.rdBit := rfl
@[simp] theorem refuse_sinkPos (st : Byte) (s : State) : (refuse st s).sinkPos = s.sinkPos := rfl
@[simp] theorem refuse_obuf (st : Byte) (s : State) : (refuse st s).obuf = s.obuf := rfl
@[simp] theorem refuse_distinct (st : Byte) (s : State) : (refuse st s).distinct = s.distinct := rfl
@[simp] theorem refuse_nodeCnt (st : Byte) (s : State) : (refuse st s).nodeCnt = s.nodeCnt := rfl
@[simp] theorem refuse_root (st : Byte) (s : State) : (refuse st s).root = s.root := rfl
@[simp] theorem refuse_hdrIgnore (st : Byte) (s : State) : (refuse st s).hdrIgnore = s.hdrIgnore := rfl
@[simp] theorem refuse_hdrSig (st : Byte) (s : State) : (refuse st s).hdrSig = s.hdrSig := rfl
@[simp] theorem refuse_shapeSize (st : Byte) (s : State) : (refuse st s).shapeSize = s.shapeSize := rfl
@[simp] theorem refuse_leafCnt (st : Byte) (s : State) : (refuse st s).leafCnt = s.leafCnt := rfl
@[simp] theorem refuse_ahS (st : Byte) (s : State) : (refuse st s).ahS = s.ahS := rfl
@[simp] theorem refuse_ahNextnum (st : Byte) (s : State) : (refuse st s).ahNextnum = s.ahNextnum := rfl
@[simp] theorem refuse_ahNyt (st : Byte) (s : State) : (refuse st s).ahNyt = s.ahNyt := rfl
@[simp] theorem refuse_freq (st : Byte) (s : State) : (refuse st s).freq = s.freq := rfl
@[simp] theorem refuse_arena (st : Byte) (s : State) : (refuse st s).arena = s.arena := rfl
@[simp] theorem refuse_codeBits (st : Byte) (s : State) : (refuse st s).codeBits = s.codeBits := rfl
@[simp] theorem refuse_map (st : Byte) (s : State) : (refuse st s).map = s.map := rfl
@[simp] theorem refuse_shape (st : Byte) (s : State) : (refuse st s).shape = s.shape := rfl
@[simp] theorem refuse_leaves (st : Byte) (s : State) : (refuse st s).leaves = s.leaves := rfl
@[simp] theorem refuse_src (st : Byte) (s : State) : (refuse st s).src = s.src := rfl
@[simp] theorem refuse_ports (st : Byte) (s : State) : (refuse st s).ports = s.ports := rfl
@[simp] theorem refuse_snk (st : Byte) (s : State) : (refuse st s).snk = s.snk := rfl
@[simp] theorem refuse_cmds (st : Byte) (s : State) : (refuse st s).cmds = s.cmds := rfl
@[simp] theorem refuse_rsp (st : Byte) (s : State) : (refuse st s).rsp = some { st := st, val := 0#64 } := rfl

/-! ### `finishOk`: R25, R91 -/

@[simp] theorem finishOk_params (v : Word) (s : State) : (finishOk v s).params = s.params := rfl
@[simp] theorem finishOk_cseq (v : Word) (s : State) : (finishOk v s).cseq = s.cseq + 1#64 := rfl
@[simp] theorem finishOk_err (v : Word) (s : State) : (finishOk v s).err = s.err := rfl
@[simp] theorem finishOk_faulted (v : Word) (s : State) : (finishOk v s).faulted = s.faulted := rfl
@[simp] theorem finishOk_tmode (v : Word) (s : State) : (finishOk v s).tmode = s.tmode := rfl
@[simp] theorem finishOk_codesValid (v : Word) (s : State) : (finishOk v s).codesValid = s.codesValid := rfl
@[simp] theorem finishOk_flatValid (v : Word) (s : State) : (finishOk v s).flatValid = s.flatValid := rfl
@[simp] theorem finishOk_errinfo (v : Word) (s : State) : (finishOk v s).errinfo = s.errinfo := rfl
@[simp] theorem finishOk_res (v : Word) (s : State) : (finishOk v s).res = v := rfl
@[simp] theorem finishOk_bytesIn (v : Word) (s : State) : (finishOk v s).bytesIn = s.bytesIn := rfl
@[simp] theorem finishOk_bytesOut (v : Word) (s : State) : (finishOk v s).bytesOut = s.bytesOut := rfl
@[simp] theorem finishOk_acc (v : Word) (s : State) : (finishOk v s).acc = s.acc := rfl
@[simp] theorem finishOk_accCnt (v : Word) (s : State) : (finishOk v s).accCnt = s.accCnt := rfl
@[simp] theorem finishOk_rdByte (v : Word) (s : State) : (finishOk v s).rdByte = s.rdByte := rfl
@[simp] theorem finishOk_rdBit (v : Word) (s : State) : (finishOk v s).rdBit = s.rdBit := rfl
@[simp] theorem finishOk_sinkPos (v : Word) (s : State) : (finishOk v s).sinkPos = s.sinkPos := rfl
@[simp] theorem finishOk_obuf (v : Word) (s : State) : (finishOk v s).obuf = s.obuf := rfl
@[simp] theorem finishOk_distinct (v : Word) (s : State) : (finishOk v s).distinct = s.distinct := rfl
@[simp] theorem finishOk_nodeCnt (v : Word) (s : State) : (finishOk v s).nodeCnt = s.nodeCnt := rfl
@[simp] theorem finishOk_root (v : Word) (s : State) : (finishOk v s).root = s.root := rfl
@[simp] theorem finishOk_hdrIgnore (v : Word) (s : State) : (finishOk v s).hdrIgnore = s.hdrIgnore := rfl
@[simp] theorem finishOk_hdrSig (v : Word) (s : State) : (finishOk v s).hdrSig = s.hdrSig := rfl
@[simp] theorem finishOk_shapeSize (v : Word) (s : State) : (finishOk v s).shapeSize = s.shapeSize := rfl
@[simp] theorem finishOk_leafCnt (v : Word) (s : State) : (finishOk v s).leafCnt = s.leafCnt := rfl
@[simp] theorem finishOk_ahS (v : Word) (s : State) : (finishOk v s).ahS = s.ahS := rfl
@[simp] theorem finishOk_ahNextnum (v : Word) (s : State) : (finishOk v s).ahNextnum = s.ahNextnum := rfl
@[simp] theorem finishOk_ahNyt (v : Word) (s : State) : (finishOk v s).ahNyt = s.ahNyt := rfl
@[simp] theorem finishOk_freq (v : Word) (s : State) : (finishOk v s).freq = s.freq := rfl
@[simp] theorem finishOk_arena (v : Word) (s : State) : (finishOk v s).arena = s.arena := rfl
@[simp] theorem finishOk_codeBits (v : Word) (s : State) : (finishOk v s).codeBits = s.codeBits := rfl
@[simp] theorem finishOk_map (v : Word) (s : State) : (finishOk v s).map = s.map := rfl
@[simp] theorem finishOk_shape (v : Word) (s : State) : (finishOk v s).shape = s.shape := rfl
@[simp] theorem finishOk_leaves (v : Word) (s : State) : (finishOk v s).leaves = s.leaves := rfl
@[simp] theorem finishOk_src (v : Word) (s : State) : (finishOk v s).src = s.src := rfl
@[simp] theorem finishOk_ports (v : Word) (s : State) : (finishOk v s).ports = s.ports := rfl
@[simp] theorem finishOk_snk (v : Word) (s : State) : (finishOk v s).snk = s.snk := rfl
@[simp] theorem finishOk_cmds (v : Word) (s : State) : (finishOk v s).cmds = s.cmds := rfl
@[simp] theorem finishOk_rsp (v : Word) (s : State) : (finishOk v s).rsp = some { st := stOk, val := v } := rfl

/-! ### `takeFault`: R296 -/

@[simp] theorem takeFault_params (e : ErrKind) (info : Nat) (s : State) : (takeFault e info s).params = s.params := rfl
@[simp] theorem takeFault_cseq (e : ErrKind) (info : Nat) (s : State) : (takeFault e info s).cseq = s.cseq + 1#64 := rfl
@[simp] theorem takeFault_err (e : ErrKind) (info : Nat) (s : State) : (takeFault e info s).err = some e := rfl
@[simp] theorem takeFault_faulted (e : ErrKind) (info : Nat) (s : State) : (takeFault e info s).faulted = true := rfl
@[simp] theorem takeFault_tmode (e : ErrKind) (info : Nat) (s : State) : (takeFault e info s).tmode = s.tmode := rfl
@[simp] theorem takeFault_codesValid (e : ErrKind) (info : Nat) (s : State) : (takeFault e info s).codesValid = s.codesValid := rfl
@[simp] theorem takeFault_flatValid (e : ErrKind) (info : Nat) (s : State) : (takeFault e info s).flatValid = s.flatValid := rfl
@[simp] theorem takeFault_errinfo (e : ErrKind) (info : Nat) (s : State) : (takeFault e info s).errinfo = BitVec.ofNat 64 info := rfl
@[simp] theorem takeFault_res (e : ErrKind) (info : Nat) (s : State) : (takeFault e info s).res = s.res := rfl
@[simp] theorem takeFault_bytesIn (e : ErrKind) (info : Nat) (s : State) : (takeFault e info s).bytesIn = s.bytesIn := rfl
@[simp] theorem takeFault_bytesOut (e : ErrKind) (info : Nat) (s : State) : (takeFault e info s).bytesOut = s.bytesOut := rfl
@[simp] theorem takeFault_acc (e : ErrKind) (info : Nat) (s : State) : (takeFault e info s).acc = s.acc := rfl
@[simp] theorem takeFault_accCnt (e : ErrKind) (info : Nat) (s : State) : (takeFault e info s).accCnt = s.accCnt := rfl
@[simp] theorem takeFault_rdByte (e : ErrKind) (info : Nat) (s : State) : (takeFault e info s).rdByte = s.rdByte := rfl
@[simp] theorem takeFault_rdBit (e : ErrKind) (info : Nat) (s : State) : (takeFault e info s).rdBit = s.rdBit := rfl
@[simp] theorem takeFault_sinkPos (e : ErrKind) (info : Nat) (s : State) : (takeFault e info s).sinkPos = s.sinkPos := rfl
@[simp] theorem takeFault_obuf (e : ErrKind) (info : Nat) (s : State) : (takeFault e info s).obuf = s.obuf := rfl
@[simp] theorem takeFault_distinct (e : ErrKind) (info : Nat) (s : State) : (takeFault e info s).distinct = s.distinct := rfl
@[simp] theorem takeFault_nodeCnt (e : ErrKind) (info : Nat) (s : State) : (takeFault e info s).nodeCnt = s.nodeCnt := rfl
@[simp] theorem takeFault_root (e : ErrKind) (info : Nat) (s : State) : (takeFault e info s).root = s.root := rfl
@[simp] theorem takeFault_hdrIgnore (e : ErrKind) (info : Nat) (s : State) : (takeFault e info s).hdrIgnore = s.hdrIgnore := rfl
@[simp] theorem takeFault_hdrSig (e : ErrKind) (info : Nat) (s : State) : (takeFault e info s).hdrSig = s.hdrSig := rfl
@[simp] theorem takeFault_shapeSize (e : ErrKind) (info : Nat) (s : State) : (takeFault e info s).shapeSize = s.shapeSize := rfl
@[simp] theorem takeFault_leafCnt (e : ErrKind) (info : Nat) (s : State) : (takeFault e info s).leafCnt = s.leafCnt := rfl
@[simp] theorem takeFault_ahS (e : ErrKind) (info : Nat) (s : State) : (takeFault e info s).ahS = s.ahS := rfl
@[simp] theorem takeFault_ahNextnum (e : ErrKind) (info : Nat) (s : State) : (takeFault e info s).ahNextnum = s.ahNextnum := rfl
@[simp] theorem takeFault_ahNyt (e : ErrKind) (info : Nat) (s : State) : (takeFault e info s).ahNyt = s.ahNyt := rfl
@[simp] theorem takeFault_freq (e : ErrKind) (info : Nat) (s : State) : (takeFault e info s).freq = s.freq := rfl
@[simp] theorem takeFault_arena (e : ErrKind) (info : Nat) (s : State) : (takeFault e info s).arena = s.arena := rfl
@[simp] theorem takeFault_codeBits (e : ErrKind) (info : Nat) (s : State) : (takeFault e info s).codeBits = s.codeBits := rfl
@[simp] theorem takeFault_map (e : ErrKind) (info : Nat) (s : State) : (takeFault e info s).map = s.map := rfl
@[simp] theorem takeFault_shape (e : ErrKind) (info : Nat) (s : State) : (takeFault e info s).shape = s.shape := rfl
@[simp] theorem takeFault_leaves (e : ErrKind) (info : Nat) (s : State) : (takeFault e info s).leaves = s.leaves := rfl
@[simp] theorem takeFault_src (e : ErrKind) (info : Nat) (s : State) : (takeFault e info s).src = s.src := rfl
@[simp] theorem takeFault_ports (e : ErrKind) (info : Nat) (s : State) : (takeFault e info s).ports = s.ports := rfl
@[simp] theorem takeFault_snk (e : ErrKind) (info : Nat) (s : State) : (takeFault e info s).snk = s.snk := rfl
@[simp] theorem takeFault_cmds (e : ErrKind) (info : Nat) (s : State) : (takeFault e info s).cmds = s.cmds := rfl
@[simp] theorem takeFault_rsp (e : ErrKind) (info : Nat) (s : State) :
    (takeFault e info s).rsp = some { st := e.code, val := BitVec.ofNat 64 info } := rfl

/-! ### `storeFlat`: R161 -/

@[simp] theorem storeFlat_params (bits : Bits) (bs : List Byte) (s : State) : (storeFlat bits bs s).params = s.params := rfl
@[simp] theorem storeFlat_cseq (bits : Bits) (bs : List Byte) (s : State) : (storeFlat bits bs s).cseq = s.cseq := rfl
@[simp] theorem storeFlat_err (bits : Bits) (bs : List Byte) (s : State) : (storeFlat bits bs s).err = s.err := rfl
@[simp] theorem storeFlat_faulted (bits : Bits) (bs : List Byte) (s : State) : (storeFlat bits bs s).faulted = s.faulted := rfl
@[simp] theorem storeFlat_tmode (bits : Bits) (bs : List Byte) (s : State) : (storeFlat bits bs s).tmode = s.tmode := rfl
@[simp] theorem storeFlat_codesValid (bits : Bits) (bs : List Byte) (s : State) : (storeFlat bits bs s).codesValid = s.codesValid := rfl
@[simp] theorem storeFlat_flatValid (bits : Bits) (bs : List Byte) (s : State) : (storeFlat bits bs s).flatValid = true := rfl
@[simp] theorem storeFlat_errinfo (bits : Bits) (bs : List Byte) (s : State) : (storeFlat bits bs s).errinfo = s.errinfo := rfl
@[simp] theorem storeFlat_res (bits : Bits) (bs : List Byte) (s : State) : (storeFlat bits bs s).res = s.res := rfl
@[simp] theorem storeFlat_bytesIn (bits : Bits) (bs : List Byte) (s : State) : (storeFlat bits bs s).bytesIn = s.bytesIn := rfl
@[simp] theorem storeFlat_bytesOut (bits : Bits) (bs : List Byte) (s : State) : (storeFlat bits bs s).bytesOut = s.bytesOut := rfl
@[simp] theorem storeFlat_acc (bits : Bits) (bs : List Byte) (s : State) : (storeFlat bits bs s).acc = s.acc := rfl
@[simp] theorem storeFlat_accCnt (bits : Bits) (bs : List Byte) (s : State) : (storeFlat bits bs s).accCnt = s.accCnt := rfl
@[simp] theorem storeFlat_rdByte (bits : Bits) (bs : List Byte) (s : State) : (storeFlat bits bs s).rdByte = s.rdByte := rfl
@[simp] theorem storeFlat_rdBit (bits : Bits) (bs : List Byte) (s : State) : (storeFlat bits bs s).rdBit = s.rdBit := rfl
@[simp] theorem storeFlat_sinkPos (bits : Bits) (bs : List Byte) (s : State) : (storeFlat bits bs s).sinkPos = s.sinkPos := rfl
@[simp] theorem storeFlat_obuf (bits : Bits) (bs : List Byte) (s : State) : (storeFlat bits bs s).obuf = s.obuf := rfl
@[simp] theorem storeFlat_distinct (bits : Bits) (bs : List Byte) (s : State) : (storeFlat bits bs s).distinct = s.distinct := rfl
@[simp] theorem storeFlat_nodeCnt (bits : Bits) (bs : List Byte) (s : State) : (storeFlat bits bs s).nodeCnt = s.nodeCnt := rfl
@[simp] theorem storeFlat_root (bits : Bits) (bs : List Byte) (s : State) : (storeFlat bits bs s).root = s.root := rfl
@[simp] theorem storeFlat_hdrIgnore (bits : Bits) (bs : List Byte) (s : State) : (storeFlat bits bs s).hdrIgnore = s.hdrIgnore := rfl
@[simp] theorem storeFlat_hdrSig (bits : Bits) (bs : List Byte) (s : State) : (storeFlat bits bs s).hdrSig = s.hdrSig := rfl
@[simp] theorem storeFlat_shapeSize (bits : Bits) (bs : List Byte) (s : State) :
    (storeFlat bits bs s).shapeSize = ceil8 bits.length := rfl
@[simp] theorem storeFlat_leafCnt (bits : Bits) (bs : List Byte) (s : State) : (storeFlat bits bs s).leafCnt = bs.length := rfl
@[simp] theorem storeFlat_ahS (bits : Bits) (bs : List Byte) (s : State) : (storeFlat bits bs s).ahS = s.ahS := rfl
@[simp] theorem storeFlat_ahNextnum (bits : Bits) (bs : List Byte) (s : State) : (storeFlat bits bs s).ahNextnum = s.ahNextnum := rfl
@[simp] theorem storeFlat_ahNyt (bits : Bits) (bs : List Byte) (s : State) : (storeFlat bits bs s).ahNyt = s.ahNyt := rfl
@[simp] theorem storeFlat_freq (bits : Bits) (bs : List Byte) (s : State) : (storeFlat bits bs s).freq = s.freq := rfl
@[simp] theorem storeFlat_arena (bits : Bits) (bs : List Byte) (s : State) : (storeFlat bits bs s).arena = s.arena := rfl
@[simp] theorem storeFlat_codeBits (bits : Bits) (bs : List Byte) (s : State) : (storeFlat bits bs s).codeBits = s.codeBits := rfl
@[simp] theorem storeFlat_map (bits : Bits) (bs : List Byte) (s : State) : (storeFlat bits bs s).map = s.map := rfl
@[simp] theorem storeFlat_shape (bits : Bits) (bs : List Byte) (s : State) :
    (storeFlat bits bs s).shape = Table.setFrom 0#8 [] 0 (packMsb bits) := rfl
@[simp] theorem storeFlat_leaves (bits : Bits) (bs : List Byte) (s : State) :
    (storeFlat bits bs s).leaves = Table.setFrom 0#8 s.leaves 0 bs := rfl
@[simp] theorem storeFlat_src (bits : Bits) (bs : List Byte) (s : State) : (storeFlat bits bs s).src = s.src := rfl
@[simp] theorem storeFlat_ports (bits : Bits) (bs : List Byte) (s : State) : (storeFlat bits bs s).ports = s.ports := rfl
@[simp] theorem storeFlat_snk (bits : Bits) (bs : List Byte) (s : State) : (storeFlat bits bs s).snk = s.snk := rfl
@[simp] theorem storeFlat_cmds (bits : Bits) (bs : List Byte) (s : State) : (storeFlat bits bs s).cmds = s.cmds := rfl
@[simp] theorem storeFlat_rsp (bits : Bits) (bs : List Byte) (s : State) : (storeFlat bits bs s).rsp = s.rsp := rfl

/-! ### `putNode`: R35 -/

@[simp] theorem putNode_params (i : Nat) (n : Node) (s : State) : (putNode i n s).params = s.params := rfl
@[simp] theorem putNode_cseq (i : Nat) (n : Node) (s : State) : (putNode i n s).cseq = s.cseq := rfl
@[simp] theorem putNode_err (i : Nat) (n : Node) (s : State) : (putNode i n s).err = s.err := rfl
@[simp] theorem putNode_faulted (i : Nat) (n : Node) (s : State) : (putNode i n s).faulted = s.faulted := rfl
@[simp] theorem putNode_tmode (i : Nat) (n : Node) (s : State) : (putNode i n s).tmode = s.tmode := rfl
@[simp] theorem putNode_codesValid (i : Nat) (n : Node) (s : State) : (putNode i n s).codesValid = s.codesValid := rfl
@[simp] theorem putNode_flatValid (i : Nat) (n : Node) (s : State) : (putNode i n s).flatValid = s.flatValid := rfl
@[simp] theorem putNode_errinfo (i : Nat) (n : Node) (s : State) : (putNode i n s).errinfo = s.errinfo := rfl
@[simp] theorem putNode_res (i : Nat) (n : Node) (s : State) : (putNode i n s).res = s.res := rfl
@[simp] theorem putNode_bytesIn (i : Nat) (n : Node) (s : State) : (putNode i n s).bytesIn = s.bytesIn := rfl
@[simp] theorem putNode_bytesOut (i : Nat) (n : Node) (s : State) : (putNode i n s).bytesOut = s.bytesOut := rfl
@[simp] theorem putNode_acc (i : Nat) (n : Node) (s : State) : (putNode i n s).acc = s.acc := rfl
@[simp] theorem putNode_accCnt (i : Nat) (n : Node) (s : State) : (putNode i n s).accCnt = s.accCnt := rfl
@[simp] theorem putNode_rdByte (i : Nat) (n : Node) (s : State) : (putNode i n s).rdByte = s.rdByte := rfl
@[simp] theorem putNode_rdBit (i : Nat) (n : Node) (s : State) : (putNode i n s).rdBit = s.rdBit := rfl
@[simp] theorem putNode_sinkPos (i : Nat) (n : Node) (s : State) : (putNode i n s).sinkPos = s.sinkPos := rfl
@[simp] theorem putNode_obuf (i : Nat) (n : Node) (s : State) : (putNode i n s).obuf = s.obuf := rfl
@[simp] theorem putNode_distinct (i : Nat) (n : Node) (s : State) : (putNode i n s).distinct = s.distinct := rfl
@[simp] theorem putNode_nodeCnt (i : Nat) (n : Node) (s : State) : (putNode i n s).nodeCnt = s.nodeCnt := rfl
@[simp] theorem putNode_root (i : Nat) (n : Node) (s : State) : (putNode i n s).root = s.root := rfl
@[simp] theorem putNode_hdrIgnore (i : Nat) (n : Node) (s : State) : (putNode i n s).hdrIgnore = s.hdrIgnore := rfl
@[simp] theorem putNode_hdrSig (i : Nat) (n : Node) (s : State) : (putNode i n s).hdrSig = s.hdrSig := rfl
@[simp] theorem putNode_shapeSize (i : Nat) (n : Node) (s : State) : (putNode i n s).shapeSize = s.shapeSize := rfl
@[simp] theorem putNode_leafCnt (i : Nat) (n : Node) (s : State) : (putNode i n s).leafCnt = s.leafCnt := rfl
@[simp] theorem putNode_ahS (i : Nat) (n : Node) (s : State) : (putNode i n s).ahS = s.ahS := rfl
@[simp] theorem putNode_ahNextnum (i : Nat) (n : Node) (s : State) : (putNode i n s).ahNextnum = s.ahNextnum := rfl
@[simp] theorem putNode_ahNyt (i : Nat) (n : Node) (s : State) : (putNode i n s).ahNyt = s.ahNyt := rfl
@[simp] theorem putNode_freq (i : Nat) (n : Node) (s : State) : (putNode i n s).freq = s.freq := rfl
@[simp] theorem putNode_arena (i : Nat) (n : Node) (s : State) : (putNode i n s).arena = setNode s.arena i n := rfl
@[simp] theorem putNode_codeBits (i : Nat) (n : Node) (s : State) : (putNode i n s).codeBits = s.codeBits := rfl
@[simp] theorem putNode_map (i : Nat) (n : Node) (s : State) : (putNode i n s).map = s.map := rfl
@[simp] theorem putNode_shape (i : Nat) (n : Node) (s : State) : (putNode i n s).shape = s.shape := rfl
@[simp] theorem putNode_leaves (i : Nat) (n : Node) (s : State) : (putNode i n s).leaves = s.leaves := rfl
@[simp] theorem putNode_src (i : Nat) (n : Node) (s : State) : (putNode i n s).src = s.src := rfl
@[simp] theorem putNode_ports (i : Nat) (n : Node) (s : State) : (putNode i n s).ports = s.ports := rfl
@[simp] theorem putNode_snk (i : Nat) (n : Node) (s : State) : (putNode i n s).snk = s.snk := rfl
@[simp] theorem putNode_cmds (i : Nat) (n : Node) (s : State) : (putNode i n s).cmds = s.cmds := rfl
@[simp] theorem putNode_rsp (i : Nat) (n : Node) (s : State) : (putNode i n s).rsp = s.rsp := rfl

/-! ### `allocNode`: R168, R185 -/

@[simp] theorem allocNode_params (s : State) : (allocNode s).params = s.params := rfl
@[simp] theorem allocNode_cseq (s : State) : (allocNode s).cseq = s.cseq := rfl
@[simp] theorem allocNode_err (s : State) : (allocNode s).err = s.err := rfl
@[simp] theorem allocNode_faulted (s : State) : (allocNode s).faulted = s.faulted := rfl
@[simp] theorem allocNode_tmode (s : State) : (allocNode s).tmode = s.tmode := rfl
@[simp] theorem allocNode_codesValid (s : State) : (allocNode s).codesValid = s.codesValid := rfl
@[simp] theorem allocNode_flatValid (s : State) : (allocNode s).flatValid = s.flatValid := rfl
@[simp] theorem allocNode_errinfo (s : State) : (allocNode s).errinfo = s.errinfo := rfl
@[simp] theorem allocNode_res (s : State) : (allocNode s).res = s.res := rfl
@[simp] theorem allocNode_bytesIn (s : State) : (allocNode s).bytesIn = s.bytesIn := rfl
@[simp] theorem allocNode_bytesOut (s : State) : (allocNode s).bytesOut = s.bytesOut := rfl
@[simp] theorem allocNode_acc (s : State) : (allocNode s).acc = s.acc := rfl
@[simp] theorem allocNode_accCnt (s : State) : (allocNode s).accCnt = s.accCnt := rfl
@[simp] theorem allocNode_rdByte (s : State) : (allocNode s).rdByte = s.rdByte := rfl
@[simp] theorem allocNode_rdBit (s : State) : (allocNode s).rdBit = s.rdBit := rfl
@[simp] theorem allocNode_sinkPos (s : State) : (allocNode s).sinkPos = s.sinkPos := rfl
@[simp] theorem allocNode_obuf (s : State) : (allocNode s).obuf = s.obuf := rfl
@[simp] theorem allocNode_distinct (s : State) : (allocNode s).distinct = s.distinct := rfl
@[simp] theorem allocNode_nodeCnt (s : State) : (allocNode s).nodeCnt = s.nodeCnt + 1 := rfl
@[simp] theorem allocNode_root (s : State) : (allocNode s).root = s.root := rfl
@[simp] theorem allocNode_hdrIgnore (s : State) : (allocNode s).hdrIgnore = s.hdrIgnore := rfl
@[simp] theorem allocNode_hdrSig (s : State) : (allocNode s).hdrSig = s.hdrSig := rfl
@[simp] theorem allocNode_shapeSize (s : State) : (allocNode s).shapeSize = s.shapeSize := rfl
@[simp] theorem allocNode_leafCnt (s : State) : (allocNode s).leafCnt = s.leafCnt := rfl
@[simp] theorem allocNode_ahS (s : State) : (allocNode s).ahS = s.ahS := rfl
@[simp] theorem allocNode_ahNextnum (s : State) : (allocNode s).ahNextnum = s.ahNextnum := rfl
@[simp] theorem allocNode_ahNyt (s : State) : (allocNode s).ahNyt = s.ahNyt := rfl
@[simp] theorem allocNode_freq (s : State) : (allocNode s).freq = s.freq := rfl
@[simp] theorem allocNode_arena (s : State) : (allocNode s).arena = s.arena := rfl
@[simp] theorem allocNode_codeBits (s : State) : (allocNode s).codeBits = s.codeBits := rfl
@[simp] theorem allocNode_map (s : State) : (allocNode s).map = s.map := rfl
@[simp] theorem allocNode_shape (s : State) : (allocNode s).shape = s.shape := rfl
@[simp] theorem allocNode_leaves (s : State) : (allocNode s).leaves = s.leaves := rfl
@[simp] theorem allocNode_src (s : State) : (allocNode s).src = s.src := rfl
@[simp] theorem allocNode_ports (s : State) : (allocNode s).ports = s.ports := rfl
@[simp] theorem allocNode_snk (s : State) : (allocNode s).snk = s.snk := rfl
@[simp] theorem allocNode_cmds (s : State) : (allocNode s).cmds = s.cmds := rfl
@[simp] theorem allocNode_rsp (s : State) : (allocNode s).rsp = s.rsp := rfl

/-! ### `linkChildren`: R168 -/

@[simp] theorem linkChildren_params (i l r : Nat) (s : State) : (linkChildren i l r s).params = s.params := by simp only [linkChildren]
@[simp] theorem linkChildren_cseq (i l r : Nat) (s : State) : (linkChildren i l r s).cseq = s.cseq := by simp only [linkChildren]
@[simp] theorem linkChildren_err (i l r : Nat) (s : State) : (linkChildren i l r s).err = s.err := by simp only [linkChildren]
@[simp] theorem linkChildren_faulted (i l r : Nat) (s : State) : (linkChildren i l r s).faulted = s.faulted := by simp only [linkChildren]
@[simp] theorem linkChildren_tmode (i l r : Nat) (s : State) : (linkChildren i l r s).tmode = s.tmode := by simp only [linkChildren]
@[simp] theorem linkChildren_codesValid (i l r : Nat) (s : State) :
    (linkChildren i l r s).codesValid = s.codesValid := by simp only [linkChildren]
@[simp] theorem linkChildren_flatValid (i l r : Nat) (s : State) :
    (linkChildren i l r s).flatValid = s.flatValid := by simp only [linkChildren]
@[simp] theorem linkChildren_errinfo (i l r : Nat) (s : State) : (linkChildren i l r s).errinfo = s.errinfo := by simp only [linkChildren]
@[simp] theorem linkChildren_res (i l r : Nat) (s : State) : (linkChildren i l r s).res = s.res := by simp only [linkChildren]
@[simp] theorem linkChildren_bytesIn (i l r : Nat) (s : State) : (linkChildren i l r s).bytesIn = s.bytesIn := by simp only [linkChildren]
@[simp] theorem linkChildren_bytesOut (i l r : Nat) (s : State) :
    (linkChildren i l r s).bytesOut = s.bytesOut := by simp only [linkChildren]
@[simp] theorem linkChildren_acc (i l r : Nat) (s : State) : (linkChildren i l r s).acc = s.acc := by simp only [linkChildren]
@[simp] theorem linkChildren_accCnt (i l r : Nat) (s : State) : (linkChildren i l r s).accCnt = s.accCnt := by simp only [linkChildren]
@[simp] theorem linkChildren_rdByte (i l r : Nat) (s : State) : (linkChildren i l r s).rdByte = s.rdByte := by simp only [linkChildren]
@[simp] theorem linkChildren_rdBit (i l r : Nat) (s : State) : (linkChildren i l r s).rdBit = s.rdBit := by simp only [linkChildren]
@[simp] theorem linkChildren_sinkPos (i l r : Nat) (s : State) : (linkChildren i l r s).sinkPos = s.sinkPos := by simp only [linkChildren]
@[simp] theorem linkChildren_obuf (i l r : Nat) (s : State) : (linkChildren i l r s).obuf = s.obuf := by simp only [linkChildren]
@[simp] theorem linkChildren_distinct (i l r : Nat) (s : State) :
    (linkChildren i l r s).distinct = s.distinct := by simp only [linkChildren]
@[simp] theorem linkChildren_nodeCnt (i l r : Nat) (s : State) : (linkChildren i l r s).nodeCnt = s.nodeCnt := by simp only [linkChildren]
@[simp] theorem linkChildren_root (i l r : Nat) (s : State) : (linkChildren i l r s).root = s.root := by simp only [linkChildren]
@[simp] theorem linkChildren_hdrIgnore (i l r : Nat) (s : State) :
    (linkChildren i l r s).hdrIgnore = s.hdrIgnore := by simp only [linkChildren]
@[simp] theorem linkChildren_hdrSig (i l r : Nat) (s : State) : (linkChildren i l r s).hdrSig = s.hdrSig := by simp only [linkChildren]
@[simp] theorem linkChildren_shapeSize (i l r : Nat) (s : State) :
    (linkChildren i l r s).shapeSize = s.shapeSize := by simp only [linkChildren]
@[simp] theorem linkChildren_leafCnt (i l r : Nat) (s : State) : (linkChildren i l r s).leafCnt = s.leafCnt := by simp only [linkChildren]
@[simp] theorem linkChildren_ahS (i l r : Nat) (s : State) : (linkChildren i l r s).ahS = s.ahS := by simp only [linkChildren]
@[simp] theorem linkChildren_ahNextnum (i l r : Nat) (s : State) :
    (linkChildren i l r s).ahNextnum = s.ahNextnum := by simp only [linkChildren]
@[simp] theorem linkChildren_ahNyt (i l r : Nat) (s : State) : (linkChildren i l r s).ahNyt = s.ahNyt := by simp only [linkChildren]
@[simp] theorem linkChildren_freq (i l r : Nat) (s : State) : (linkChildren i l r s).freq = s.freq := by simp only [linkChildren]
@[simp] theorem linkChildren_arena (i l r : Nat) (s : State) :
    (linkChildren i l r s).arena = linkNodes s.arena i l r := by simp only [linkChildren]
@[simp] theorem linkChildren_codeBits (i l r : Nat) (s : State) :
    (linkChildren i l r s).codeBits = s.codeBits := by simp only [linkChildren]
@[simp] theorem linkChildren_map (i l r : Nat) (s : State) : (linkChildren i l r s).map = s.map := by simp only [linkChildren]
@[simp] theorem linkChildren_shape (i l r : Nat) (s : State) : (linkChildren i l r s).shape = s.shape := by simp only [linkChildren]
@[simp] theorem linkChildren_leaves (i l r : Nat) (s : State) : (linkChildren i l r s).leaves = s.leaves := by simp only [linkChildren]
@[simp] theorem linkChildren_src (i l r : Nat) (s : State) : (linkChildren i l r s).src = s.src := by simp only [linkChildren]
@[simp] theorem linkChildren_ports (i l r : Nat) (s : State) : (linkChildren i l r s).ports = s.ports := by simp only [linkChildren]
@[simp] theorem linkChildren_snk (i l r : Nat) (s : State) : (linkChildren i l r s).snk = s.snk := by simp only [linkChildren]
@[simp] theorem linkChildren_cmds (i l r : Nat) (s : State) : (linkChildren i l r s).cmds = s.cmds := by simp only [linkChildren]
@[simp] theorem linkChildren_rsp (i l r : Nat) (s : State) : (linkChildren i l r s).rsp = s.rsp := by simp only [linkChildren]

/-! ### `clearArena`: R168, R185 -/

@[simp] theorem clearArena_params (s : State) : (clearArena s).params = s.params := rfl
@[simp] theorem clearArena_cseq (s : State) : (clearArena s).cseq = s.cseq := rfl
@[simp] theorem clearArena_err (s : State) : (clearArena s).err = s.err := rfl
@[simp] theorem clearArena_faulted (s : State) : (clearArena s).faulted = s.faulted := rfl
@[simp] theorem clearArena_tmode (s : State) : (clearArena s).tmode = TMode.empty := rfl
@[simp] theorem clearArena_codesValid (s : State) : (clearArena s).codesValid = false := rfl
@[simp] theorem clearArena_flatValid (s : State) : (clearArena s).flatValid = s.flatValid := rfl
@[simp] theorem clearArena_errinfo (s : State) : (clearArena s).errinfo = s.errinfo := rfl
@[simp] theorem clearArena_res (s : State) : (clearArena s).res = s.res := rfl
@[simp] theorem clearArena_bytesIn (s : State) : (clearArena s).bytesIn = s.bytesIn := rfl
@[simp] theorem clearArena_bytesOut (s : State) : (clearArena s).bytesOut = s.bytesOut := rfl
@[simp] theorem clearArena_acc (s : State) : (clearArena s).acc = s.acc := rfl
@[simp] theorem clearArena_accCnt (s : State) : (clearArena s).accCnt = s.accCnt := rfl
@[simp] theorem clearArena_rdByte (s : State) : (clearArena s).rdByte = s.rdByte := rfl
@[simp] theorem clearArena_rdBit (s : State) : (clearArena s).rdBit = s.rdBit := rfl
@[simp] theorem clearArena_sinkPos (s : State) : (clearArena s).sinkPos = s.sinkPos := rfl
@[simp] theorem clearArena_obuf (s : State) : (clearArena s).obuf = s.obuf := rfl
@[simp] theorem clearArena_distinct (s : State) : (clearArena s).distinct = s.distinct := rfl
@[simp] theorem clearArena_nodeCnt (s : State) : (clearArena s).nodeCnt = 0 := rfl
@[simp] theorem clearArena_root (s : State) : (clearArena s).root = none := rfl
@[simp] theorem clearArena_hdrIgnore (s : State) : (clearArena s).hdrIgnore = s.hdrIgnore := rfl
@[simp] theorem clearArena_hdrSig (s : State) : (clearArena s).hdrSig = s.hdrSig := rfl
@[simp] theorem clearArena_shapeSize (s : State) : (clearArena s).shapeSize = s.shapeSize := rfl
@[simp] theorem clearArena_leafCnt (s : State) : (clearArena s).leafCnt = s.leafCnt := rfl
@[simp] theorem clearArena_ahS (s : State) : (clearArena s).ahS = s.ahS := rfl
@[simp] theorem clearArena_ahNextnum (s : State) : (clearArena s).ahNextnum = s.ahNextnum := rfl
@[simp] theorem clearArena_ahNyt (s : State) : (clearArena s).ahNyt = s.ahNyt := rfl
@[simp] theorem clearArena_freq (s : State) : (clearArena s).freq = s.freq := rfl
@[simp] theorem clearArena_arena (s : State) : (clearArena s).arena = [] := rfl
@[simp] theorem clearArena_codeBits (s : State) : (clearArena s).codeBits = s.codeBits := rfl
@[simp] theorem clearArena_map (s : State) : (clearArena s).map = s.map := rfl
@[simp] theorem clearArena_shape (s : State) : (clearArena s).shape = s.shape := rfl
@[simp] theorem clearArena_leaves (s : State) : (clearArena s).leaves = s.leaves := rfl
@[simp] theorem clearArena_src (s : State) : (clearArena s).src = s.src := rfl
@[simp] theorem clearArena_ports (s : State) : (clearArena s).ports = s.ports := rfl
@[simp] theorem clearArena_snk (s : State) : (clearArena s).snk = s.snk := rfl
@[simp] theorem clearArena_cmds (s : State) : (clearArena s).cmds = s.cmds := rfl
@[simp] theorem clearArena_rsp (s : State) : (clearArena s).rsp = s.rsp := rfl

/-! ### `accSymbol`: R180 -/

@[simp] theorem accSymbol_params (b : Byte) (s : State) : (accSymbol b s).params = s.params := rfl
@[simp] theorem accSymbol_cseq (b : Byte) (s : State) : (accSymbol b s).cseq = s.cseq := rfl
@[simp] theorem accSymbol_err (b : Byte) (s : State) : (accSymbol b s).err = s.err := rfl
@[simp] theorem accSymbol_faulted (b : Byte) (s : State) : (accSymbol b s).faulted = s.faulted := rfl
@[simp] theorem accSymbol_tmode (b : Byte) (s : State) : (accSymbol b s).tmode = s.tmode := rfl
@[simp] theorem accSymbol_codesValid (b : Byte) (s : State) : (accSymbol b s).codesValid = s.codesValid := rfl
@[simp] theorem accSymbol_flatValid (b : Byte) (s : State) : (accSymbol b s).flatValid = s.flatValid := rfl
@[simp] theorem accSymbol_errinfo (b : Byte) (s : State) : (accSymbol b s).errinfo = s.errinfo := rfl
@[simp] theorem accSymbol_res (b : Byte) (s : State) : (accSymbol b s).res = s.res := rfl
@[simp] theorem accSymbol_bytesIn (b : Byte) (s : State) : (accSymbol b s).bytesIn = s.bytesIn := rfl
@[simp] theorem accSymbol_bytesOut (b : Byte) (s : State) : (accSymbol b s).bytesOut = s.bytesOut := rfl
@[simp] theorem accSymbol_acc (b : Byte) (s : State) : (accSymbol b s).acc = s.acc := rfl
@[simp] theorem accSymbol_accCnt (b : Byte) (s : State) : (accSymbol b s).accCnt = s.accCnt := rfl
@[simp] theorem accSymbol_rdByte (b : Byte) (s : State) : (accSymbol b s).rdByte = s.rdByte := rfl
@[simp] theorem accSymbol_rdBit (b : Byte) (s : State) : (accSymbol b s).rdBit = s.rdBit := rfl
@[simp] theorem accSymbol_sinkPos (b : Byte) (s : State) : (accSymbol b s).sinkPos = s.sinkPos := rfl
@[simp] theorem accSymbol_obuf (b : Byte) (s : State) : (accSymbol b s).obuf = s.obuf := rfl
@[simp] theorem accSymbol_distinct (b : Byte) (s : State) :
    (accSymbol b s).distinct = if s.freqOf b = 0 then s.distinct + 1 else s.distinct := rfl
@[simp] theorem accSymbol_nodeCnt (b : Byte) (s : State) : (accSymbol b s).nodeCnt = s.nodeCnt := rfl
@[simp] theorem accSymbol_root (b : Byte) (s : State) : (accSymbol b s).root = s.root := rfl
@[simp] theorem accSymbol_hdrIgnore (b : Byte) (s : State) : (accSymbol b s).hdrIgnore = s.hdrIgnore := rfl
@[simp] theorem accSymbol_hdrSig (b : Byte) (s : State) : (accSymbol b s).hdrSig = s.hdrSig := rfl
@[simp] theorem accSymbol_shapeSize (b : Byte) (s : State) : (accSymbol b s).shapeSize = s.shapeSize := rfl
@[simp] theorem accSymbol_leafCnt (b : Byte) (s : State) : (accSymbol b s).leafCnt = s.leafCnt := rfl
@[simp] theorem accSymbol_ahS (b : Byte) (s : State) : (accSymbol b s).ahS = s.ahS := rfl
@[simp] theorem accSymbol_ahNextnum (b : Byte) (s : State) : (accSymbol b s).ahNextnum = s.ahNextnum := rfl
@[simp] theorem accSymbol_ahNyt (b : Byte) (s : State) : (accSymbol b s).ahNyt = s.ahNyt := rfl
@[simp] theorem accSymbol_freq (b : Byte) (s : State) : (accSymbol b s).freq = Table.set 0 s.freq b.toNat (s.freqOf b + 1) := rfl
@[simp] theorem accSymbol_arena (b : Byte) (s : State) : (accSymbol b s).arena = s.arena := rfl
@[simp] theorem accSymbol_codeBits (b : Byte) (s : State) : (accSymbol b s).codeBits = s.codeBits := rfl
@[simp] theorem accSymbol_map (b : Byte) (s : State) : (accSymbol b s).map = s.map := rfl
@[simp] theorem accSymbol_shape (b : Byte) (s : State) : (accSymbol b s).shape = s.shape := rfl
@[simp] theorem accSymbol_leaves (b : Byte) (s : State) : (accSymbol b s).leaves = s.leaves := rfl
@[simp] theorem accSymbol_src (b : Byte) (s : State) : (accSymbol b s).src = s.src := rfl
@[simp] theorem accSymbol_ports (b : Byte) (s : State) : (accSymbol b s).ports = s.ports := rfl
@[simp] theorem accSymbol_snk (b : Byte) (s : State) : (accSymbol b s).snk = s.snk := rfl
@[simp] theorem accSymbol_cmds (b : Byte) (s : State) : (accSymbol b s).cmds = s.cmds := rfl
@[simp] theorem accSymbol_rsp (b : Byte) (s : State) : (accSymbol b s).rsp = s.rsp := rfl

/-! ### `countBytes`: R29 -/

@[simp] theorem countBytes_params (n : Nat) (s : State) : (countBytes n s).params = s.params := rfl
@[simp] theorem countBytes_cseq (n : Nat) (s : State) : (countBytes n s).cseq = s.cseq := rfl
@[simp] theorem countBytes_err (n : Nat) (s : State) : (countBytes n s).err = s.err := rfl
@[simp] theorem countBytes_faulted (n : Nat) (s : State) : (countBytes n s).faulted = s.faulted := rfl
@[simp] theorem countBytes_tmode (n : Nat) (s : State) : (countBytes n s).tmode = s.tmode := rfl
@[simp] theorem countBytes_codesValid (n : Nat) (s : State) : (countBytes n s).codesValid = s.codesValid := rfl
@[simp] theorem countBytes_flatValid (n : Nat) (s : State) : (countBytes n s).flatValid = s.flatValid := rfl
@[simp] theorem countBytes_errinfo (n : Nat) (s : State) : (countBytes n s).errinfo = s.errinfo := rfl
@[simp] theorem countBytes_res (n : Nat) (s : State) : (countBytes n s).res = s.res := rfl
@[simp] theorem countBytes_bytesIn (n : Nat) (s : State) : (countBytes n s).bytesIn = n := rfl
@[simp] theorem countBytes_bytesOut (n : Nat) (s : State) : (countBytes n s).bytesOut = s.sinkPos := rfl
@[simp] theorem countBytes_acc (n : Nat) (s : State) : (countBytes n s).acc = s.acc := rfl
@[simp] theorem countBytes_accCnt (n : Nat) (s : State) : (countBytes n s).accCnt = s.accCnt := rfl
@[simp] theorem countBytes_rdByte (n : Nat) (s : State) : (countBytes n s).rdByte = s.rdByte := rfl
@[simp] theorem countBytes_rdBit (n : Nat) (s : State) : (countBytes n s).rdBit = s.rdBit := rfl
@[simp] theorem countBytes_sinkPos (n : Nat) (s : State) : (countBytes n s).sinkPos = s.sinkPos := rfl
@[simp] theorem countBytes_obuf (n : Nat) (s : State) : (countBytes n s).obuf = s.obuf := rfl
@[simp] theorem countBytes_distinct (n : Nat) (s : State) : (countBytes n s).distinct = s.distinct := rfl
@[simp] theorem countBytes_nodeCnt (n : Nat) (s : State) : (countBytes n s).nodeCnt = s.nodeCnt := rfl
@[simp] theorem countBytes_root (n : Nat) (s : State) : (countBytes n s).root = s.root := rfl
@[simp] theorem countBytes_hdrIgnore (n : Nat) (s : State) : (countBytes n s).hdrIgnore = s.hdrIgnore := rfl
@[simp] theorem countBytes_hdrSig (n : Nat) (s : State) : (countBytes n s).hdrSig = s.hdrSig := rfl
@[simp] theorem countBytes_shapeSize (n : Nat) (s : State) : (countBytes n s).shapeSize = s.shapeSize := rfl
@[simp] theorem countBytes_leafCnt (n : Nat) (s : State) : (countBytes n s).leafCnt = s.leafCnt := rfl
@[simp] theorem countBytes_ahS (n : Nat) (s : State) : (countBytes n s).ahS = s.ahS := rfl
@[simp] theorem countBytes_ahNextnum (n : Nat) (s : State) : (countBytes n s).ahNextnum = s.ahNextnum := rfl
@[simp] theorem countBytes_ahNyt (n : Nat) (s : State) : (countBytes n s).ahNyt = s.ahNyt := rfl
@[simp] theorem countBytes_freq (n : Nat) (s : State) : (countBytes n s).freq = s.freq := rfl
@[simp] theorem countBytes_arena (n : Nat) (s : State) : (countBytes n s).arena = s.arena := rfl
@[simp] theorem countBytes_codeBits (n : Nat) (s : State) : (countBytes n s).codeBits = s.codeBits := rfl
@[simp] theorem countBytes_map (n : Nat) (s : State) : (countBytes n s).map = s.map := rfl
@[simp] theorem countBytes_shape (n : Nat) (s : State) : (countBytes n s).shape = s.shape := rfl
@[simp] theorem countBytes_leaves (n : Nat) (s : State) : (countBytes n s).leaves = s.leaves := rfl
@[simp] theorem countBytes_src (n : Nat) (s : State) : (countBytes n s).src = s.src := rfl
@[simp] theorem countBytes_ports (n : Nat) (s : State) : (countBytes n s).ports = s.ports := rfl
@[simp] theorem countBytes_snk (n : Nat) (s : State) : (countBytes n s).snk = s.snk := rfl
@[simp] theorem countBytes_cmds (n : Nat) (s : State) : (countBytes n s).cmds = s.cmds := rfl
@[simp] theorem countBytes_rsp (n : Nat) (s : State) : (countBytes n s).rsp = s.rsp := rfl

/-! ### `ahInitTree`: R235 -/

@[simp] theorem ahInitTree_params (s : State) : (ahInitTree s).params = s.params := rfl
@[simp] theorem ahInitTree_cseq (s : State) : (ahInitTree s).cseq = s.cseq := rfl
@[simp] theorem ahInitTree_err (s : State) : (ahInitTree s).err = s.err := rfl
@[simp] theorem ahInitTree_faulted (s : State) : (ahInitTree s).faulted = s.faulted := rfl
@[simp] theorem ahInitTree_tmode (s : State) : (ahInitTree s).tmode = TMode.adaptive := rfl
@[simp] theorem ahInitTree_codesValid (s : State) : (ahInitTree s).codesValid = false := rfl
@[simp] theorem ahInitTree_flatValid (s : State) : (ahInitTree s).flatValid = s.flatValid := rfl
@[simp] theorem ahInitTree_errinfo (s : State) : (ahInitTree s).errinfo = s.errinfo := rfl
@[simp] theorem ahInitTree_res (s : State) : (ahInitTree s).res = s.res := rfl
@[simp] theorem ahInitTree_bytesIn (s : State) : (ahInitTree s).bytesIn = s.bytesIn := rfl
@[simp] theorem ahInitTree_bytesOut (s : State) : (ahInitTree s).bytesOut = s.bytesOut := rfl
@[simp] theorem ahInitTree_acc (s : State) : (ahInitTree s).acc = s.acc := rfl
@[simp] theorem ahInitTree_accCnt (s : State) : (ahInitTree s).accCnt = s.accCnt := rfl
@[simp] theorem ahInitTree_rdByte (s : State) : (ahInitTree s).rdByte = s.rdByte := rfl
@[simp] theorem ahInitTree_rdBit (s : State) : (ahInitTree s).rdBit = s.rdBit := rfl
@[simp] theorem ahInitTree_sinkPos (s : State) : (ahInitTree s).sinkPos = s.sinkPos := rfl
@[simp] theorem ahInitTree_obuf (s : State) : (ahInitTree s).obuf = s.obuf := rfl
@[simp] theorem ahInitTree_distinct (s : State) : (ahInitTree s).distinct = s.distinct := rfl
@[simp] theorem ahInitTree_nodeCnt (s : State) : (ahInitTree s).nodeCnt = 1 := rfl
@[simp] theorem ahInitTree_root (s : State) : (ahInitTree s).root = some 0 := rfl
@[simp] theorem ahInitTree_hdrIgnore (s : State) : (ahInitTree s).hdrIgnore = s.hdrIgnore := rfl
@[simp] theorem ahInitTree_hdrSig (s : State) : (ahInitTree s).hdrSig = s.hdrSig := rfl
@[simp] theorem ahInitTree_shapeSize (s : State) : (ahInitTree s).shapeSize = s.shapeSize := rfl
@[simp] theorem ahInitTree_leafCnt (s : State) : (ahInitTree s).leafCnt = s.leafCnt := rfl
@[simp] theorem ahInitTree_ahS (s : State) : (ahInitTree s).ahS = 0 := rfl
@[simp] theorem ahInitTree_ahNextnum (s : State) : (ahInitTree s).ahNextnum = Config.numRoot - 1#10 := rfl
@[simp] theorem ahInitTree_ahNyt (s : State) : (ahInitTree s).ahNyt = some 0 := rfl
@[simp] theorem ahInitTree_freq (s : State) : (ahInitTree s).freq = s.freq := rfl
@[simp] theorem ahInitTree_arena (s : State) :
    (ahInitTree s).arena = setNode [] 0 (adaptiveLeaf Config.nytMark none Config.numRoot) := rfl
@[simp] theorem ahInitTree_codeBits (s : State) : (ahInitTree s).codeBits = s.codeBits := rfl
@[simp] theorem ahInitTree_map (s : State) : (ahInitTree s).map = [] := rfl
@[simp] theorem ahInitTree_shape (s : State) : (ahInitTree s).shape = s.shape := rfl
@[simp] theorem ahInitTree_leaves (s : State) : (ahInitTree s).leaves = s.leaves := rfl
@[simp] theorem ahInitTree_src (s : State) : (ahInitTree s).src = s.src := rfl
@[simp] theorem ahInitTree_ports (s : State) : (ahInitTree s).ports = s.ports := rfl
@[simp] theorem ahInitTree_snk (s : State) : (ahInitTree s).snk = s.snk := rfl
@[simp] theorem ahInitTree_cmds (s : State) : (ahInitTree s).cmds = s.cmds := rfl
@[simp] theorem ahInitTree_rsp (s : State) : (ahInitTree s).rsp = s.rsp := rfl

/-! ### `growAt`: R238 -/

@[simp] theorem growAt_params (p : Nat) (b : Byte) (s : State) : (growAt p b s).params = s.params := rfl
@[simp] theorem growAt_cseq (p : Nat) (b : Byte) (s : State) : (growAt p b s).cseq = s.cseq := rfl
@[simp] theorem growAt_err (p : Nat) (b : Byte) (s : State) : (growAt p b s).err = s.err := rfl
@[simp] theorem growAt_faulted (p : Nat) (b : Byte) (s : State) : (growAt p b s).faulted = s.faulted := rfl
@[simp] theorem growAt_tmode (p : Nat) (b : Byte) (s : State) : (growAt p b s).tmode = s.tmode := rfl
@[simp] theorem growAt_codesValid (p : Nat) (b : Byte) (s : State) : (growAt p b s).codesValid = s.codesValid := rfl
@[simp] theorem growAt_flatValid (p : Nat) (b : Byte) (s : State) : (growAt p b s).flatValid = s.flatValid := rfl
@[simp] theorem growAt_errinfo (p : Nat) (b : Byte) (s : State) : (growAt p b s).errinfo = s.errinfo := rfl
@[simp] theorem growAt_res (p : Nat) (b : Byte) (s : State) : (growAt p b s).res = s.res := rfl
@[simp] theorem growAt_bytesIn (p : Nat) (b : Byte) (s : State) : (growAt p b s).bytesIn = s.bytesIn := rfl
@[simp] theorem growAt_bytesOut (p : Nat) (b : Byte) (s : State) : (growAt p b s).bytesOut = s.bytesOut := rfl
@[simp] theorem growAt_acc (p : Nat) (b : Byte) (s : State) : (growAt p b s).acc = s.acc := rfl
@[simp] theorem growAt_accCnt (p : Nat) (b : Byte) (s : State) : (growAt p b s).accCnt = s.accCnt := rfl
@[simp] theorem growAt_rdByte (p : Nat) (b : Byte) (s : State) : (growAt p b s).rdByte = s.rdByte := rfl
@[simp] theorem growAt_rdBit (p : Nat) (b : Byte) (s : State) : (growAt p b s).rdBit = s.rdBit := rfl
@[simp] theorem growAt_sinkPos (p : Nat) (b : Byte) (s : State) : (growAt p b s).sinkPos = s.sinkPos := rfl
@[simp] theorem growAt_obuf (p : Nat) (b : Byte) (s : State) : (growAt p b s).obuf = s.obuf := rfl
@[simp] theorem growAt_distinct (p : Nat) (b : Byte) (s : State) : (growAt p b s).distinct = s.distinct := rfl
@[simp] theorem growAt_nodeCnt (p : Nat) (b : Byte) (s : State) : (growAt p b s).nodeCnt = s.nodeCnt + 2 := rfl
@[simp] theorem growAt_root (p : Nat) (b : Byte) (s : State) : (growAt p b s).root = s.root := rfl
@[simp] theorem growAt_hdrIgnore (p : Nat) (b : Byte) (s : State) : (growAt p b s).hdrIgnore = s.hdrIgnore := rfl
@[simp] theorem growAt_hdrSig (p : Nat) (b : Byte) (s : State) : (growAt p b s).hdrSig = s.hdrSig := rfl
@[simp] theorem growAt_shapeSize (p : Nat) (b : Byte) (s : State) : (growAt p b s).shapeSize = s.shapeSize := rfl
@[simp] theorem growAt_leafCnt (p : Nat) (b : Byte) (s : State) : (growAt p b s).leafCnt = s.leafCnt := rfl
@[simp] theorem growAt_ahS (p : Nat) (b : Byte) (s : State) : (growAt p b s).ahS = s.ahS + 1 := rfl
@[simp] theorem growAt_ahNextnum (p : Nat) (b : Byte) (s : State) : (growAt p b s).ahNextnum = s.ahNextnum - 2#10 := rfl
@[simp] theorem growAt_ahNyt (p : Nat) (b : Byte) (s : State) : (growAt p b s).ahNyt = some s.nodeCnt := rfl
@[simp] theorem growAt_freq (p : Nat) (b : Byte) (s : State) : (growAt p b s).freq = s.freq := rfl
@[simp] theorem growAt_arena (p : Nat) (b : Byte) (s : State) : (growAt p b s).arena = growNodes s.arena p s.nodeCnt b s.ahNextnum := rfl
@[simp] theorem growAt_codeBits (p : Nat) (b : Byte) (s : State) : (growAt p b s).codeBits = s.codeBits := rfl
@[simp] theorem growAt_map (p : Nat) (b : Byte) (s : State) :
    (growAt p b s).map = Table.set none s.map b.toNat (some (s.nodeCnt + 1)) := rfl
@[simp] theorem growAt_shape (p : Nat) (b : Byte) (s : State) : (growAt p b s).shape = s.shape := rfl
@[simp] theorem growAt_leaves (p : Nat) (b : Byte) (s : State) : (growAt p b s).leaves = s.leaves := rfl
@[simp] theorem growAt_src (p : Nat) (b : Byte) (s : State) : (growAt p b s).src = s.src := rfl
@[simp] theorem growAt_ports (p : Nat) (b : Byte) (s : State) : (growAt p b s).ports = s.ports := rfl
@[simp] theorem growAt_snk (p : Nat) (b : Byte) (s : State) : (growAt p b s).snk = s.snk := rfl
@[simp] theorem growAt_cmds (p : Nat) (b : Byte) (s : State) : (growAt p b s).cmds = s.cmds := rfl
@[simp] theorem growAt_rsp (p : Nat) (b : Byte) (s : State) : (growAt p b s).rsp = s.rsp := rfl

/-! ### `advanceBit`: R140 -/

@[simp] theorem advanceBit_params (s : State) : (advanceBit s).params = s.params := by unfold advanceBit; split <;> rfl
@[simp] theorem advanceBit_cseq (s : State) : (advanceBit s).cseq = s.cseq := by unfold advanceBit; split <;> rfl
@[simp] theorem advanceBit_err (s : State) : (advanceBit s).err = s.err := by unfold advanceBit; split <;> rfl
@[simp] theorem advanceBit_faulted (s : State) : (advanceBit s).faulted = s.faulted := by unfold advanceBit; split <;> rfl
@[simp] theorem advanceBit_tmode (s : State) : (advanceBit s).tmode = s.tmode := by unfold advanceBit; split <;> rfl
@[simp] theorem advanceBit_codesValid (s : State) : (advanceBit s).codesValid = s.codesValid := by unfold advanceBit; split <;> rfl
@[simp] theorem advanceBit_flatValid (s : State) : (advanceBit s).flatValid = s.flatValid := by unfold advanceBit; split <;> rfl
@[simp] theorem advanceBit_errinfo (s : State) : (advanceBit s).errinfo = s.errinfo := by unfold advanceBit; split <;> rfl
@[simp] theorem advanceBit_res (s : State) : (advanceBit s).res = s.res := by unfold advanceBit; split <;> rfl
@[simp] theorem advanceBit_bytesIn (s : State) : (advanceBit s).bytesIn = s.bytesIn := by unfold advanceBit; split <;> rfl
@[simp] theorem advanceBit_bytesOut (s : State) : (advanceBit s).bytesOut = s.bytesOut := by unfold advanceBit; split <;> rfl
@[simp] theorem advanceBit_acc (s : State) : (advanceBit s).acc = s.acc := by unfold advanceBit; split <;> rfl
@[simp] theorem advanceBit_accCnt (s : State) : (advanceBit s).accCnt = s.accCnt := by unfold advanceBit; split <;> rfl
@[simp] theorem advanceBit_sinkPos (s : State) : (advanceBit s).sinkPos = s.sinkPos := by unfold advanceBit; split <;> rfl
@[simp] theorem advanceBit_obuf (s : State) : (advanceBit s).obuf = s.obuf := by unfold advanceBit; split <;> rfl
@[simp] theorem advanceBit_distinct (s : State) : (advanceBit s).distinct = s.distinct := by unfold advanceBit; split <;> rfl
@[simp] theorem advanceBit_nodeCnt (s : State) : (advanceBit s).nodeCnt = s.nodeCnt := by unfold advanceBit; split <;> rfl
@[simp] theorem advanceBit_root (s : State) : (advanceBit s).root = s.root := by unfold advanceBit; split <;> rfl
@[simp] theorem advanceBit_hdrIgnore (s : State) : (advanceBit s).hdrIgnore = s.hdrIgnore := by unfold advanceBit; split <;> rfl
@[simp] theorem advanceBit_hdrSig (s : State) : (advanceBit s).hdrSig = s.hdrSig := by unfold advanceBit; split <;> rfl
@[simp] theorem advanceBit_shapeSize (s : State) : (advanceBit s).shapeSize = s.shapeSize := by unfold advanceBit; split <;> rfl
@[simp] theorem advanceBit_leafCnt (s : State) : (advanceBit s).leafCnt = s.leafCnt := by unfold advanceBit; split <;> rfl
@[simp] theorem advanceBit_ahS (s : State) : (advanceBit s).ahS = s.ahS := by unfold advanceBit; split <;> rfl
@[simp] theorem advanceBit_ahNextnum (s : State) : (advanceBit s).ahNextnum = s.ahNextnum := by unfold advanceBit; split <;> rfl
@[simp] theorem advanceBit_ahNyt (s : State) : (advanceBit s).ahNyt = s.ahNyt := by unfold advanceBit; split <;> rfl
@[simp] theorem advanceBit_freq (s : State) : (advanceBit s).freq = s.freq := by unfold advanceBit; split <;> rfl
@[simp] theorem advanceBit_arena (s : State) : (advanceBit s).arena = s.arena := by unfold advanceBit; split <;> rfl
@[simp] theorem advanceBit_codeBits (s : State) : (advanceBit s).codeBits = s.codeBits := by unfold advanceBit; split <;> rfl
@[simp] theorem advanceBit_map (s : State) : (advanceBit s).map = s.map := by unfold advanceBit; split <;> rfl
@[simp] theorem advanceBit_shape (s : State) : (advanceBit s).shape = s.shape := by unfold advanceBit; split <;> rfl
@[simp] theorem advanceBit_leaves (s : State) : (advanceBit s).leaves = s.leaves := by unfold advanceBit; split <;> rfl
@[simp] theorem advanceBit_src (s : State) : (advanceBit s).src = s.src := by unfold advanceBit; split <;> rfl
@[simp] theorem advanceBit_ports (s : State) : (advanceBit s).ports = s.ports := by unfold advanceBit; split <;> rfl
@[simp] theorem advanceBit_snk (s : State) : (advanceBit s).snk = s.snk := by unfold advanceBit; split <;> rfl
@[simp] theorem advanceBit_cmds (s : State) : (advanceBit s).cmds = s.cmds := by unfold advanceBit; split <;> rfl
@[simp] theorem advanceBit_rsp (s : State) : (advanceBit s).rsp = s.rsp := by unfold advanceBit; split <;> rfl

end Sys2Proof.Machine
end

