-- ==== Sys2Proof/Laws/Cmd.lean ====
section
/-! SUPPORT. How the run of a rule is taken apart: one equation for each way to build a rule, the inversion of a sequence, the end of a
command, the one form every command has (`exec_eq`), and what a command can answer (`exec_cases`). -/

namespace Sys2Proof.Machine

section
variable {α β : Type} {s t u : State}

/-! ### One equation for each way to build a rule -/

@[simp] theorem run_pure (a : α) (s : State) : (pure a : Cmd α) s = .ok a s := rfl

@[simp] theorem run_get (s : State) : (get : Cmd State) s = .ok s s := rfl

@[simp] theorem run_modify (f : State → State) (s : State) : (modify f : Cmd PUnit) s = .ok ⟨⟩ (f s) := rfl

@[simp] theorem run_raise (e : ErrKind) (info : Nat) (s : State) : (raise e info : Cmd α) s = .error (.raised e info) s := rfl

@[simp] theorem run_stick (f : Fault) (s : State) : (stick f : Cmd α) s = .error (.stuck f) s := rfl

theorem run_bind (c : Cmd α) (f : α → Cmd β) (s : State) :
    (c >>= f) s = match c s with
      | .ok a t => f a t
      | .error e t => .error e t := by
  change EStateM.bind c f s = _
  unfold EStateM.bind
  cases c s <;> rfl

/-- The first part came to its end: the second runs from there. -/
theorem run_bind_ok {c : Cmd α} {a : α} (f : α → Cmd β) (h : c s = .ok a t) : (c >>= f) s = f a t := by
  rw [run_bind, h]

/-- The first part stopped: the whole stops there (R296). -/
theorem run_bind_error {c : Cmd α} {e : Stop} (f : α → Cmd β) (h : c s = .error e t) : (c >>= f) s = .error e t := by
  rw [run_bind, h]

@[simp] theorem run_pure_bind (a : α) (f : α → Cmd β) (s : State) : ((pure a : Cmd α) >>= f) s = f a s := rfl

@[simp] theorem run_get_bind (f : State → Cmd β) (s : State) : ((get : Cmd State) >>= f) s = f s s := rfl

@[simp] theorem run_modify_bind (g : State → State) (f : PUnit → Cmd β) (s : State) :
    ((modify g : Cmd PUnit) >>= f) s = f ⟨⟩ (g s) := rfl

@[simp] theorem run_discard (c : Cmd α) (s : State) :
    (discard c : Cmd PUnit) s = match c s with
      | .ok _ t => .ok ⟨⟩ t
      | .error e t => .error e t := by
  change (Functor.map (Function.const α PUnit.unit) c : Cmd PUnit) s = _
  change (EStateM.map _ c) s = _
  unfold EStateM.map
  cases c s <;> rfl

@[simp] theorem run_fromTree_some (a : α) (s : State) : (fromTree (some a)) s = .ok a s := rfl

@[simp] theorem run_fromTree_none (s : State) : (fromTree none : Cmd α) s = .error (.stuck .brokenTree) s := rfl

theorem raiseIf_pos {c : Prop} [Decidable c] (e : ErrKind) (info : Nat) (s : State) (h : c) :
    raiseIf c e info s = .error (.raised e info) s := by simp [raiseIf, h]

theorem raiseIf_neg {c : Prop} [Decidable c] (e : ErrKind) (info : Nat) (s : State) (h : ¬ c) :
    raiseIf c e info s = .ok () s := by simp [raiseIf, h]

/-! ### Taking a sequence apart -/

theorem bind_ok_iff {c : Cmd α} {f : α → Cmd β} {b : β} :
    (c >>= f) s = .ok b u ↔ ∃ a t, c s = .ok a t ∧ f a t = .ok b u := by
  rw [run_bind]
  cases h : c s <;> simp

theorem bind_error_iff {c : Cmd α} {f : α → Cmd β} {e : Stop} :
    (c >>= f) s = .error e u ↔ c s = .error e u ∨ ∃ a t, c s = .ok a t ∧ f a t = .error e u := by
  rw [run_bind]
  cases h : c s <;> simp

/-! ### A relation every part of a rule keeps -/

/-- However the run of `c` from `s` ends, the end state is related to `s`. -/
def StepsAt (R : State → State → Prop) (c : Cmd α) (s : State) : Prop :=
  (∀ a t, c s = .ok a t → R s t) ∧ ∀ e t, c s = .error e t → R s t

/-- However the run of `c` from a state ends, the end state is related to the first one. -/
def Steps (R : State → State → Prop) (c : Cmd α) : Prop := ∀ s, StepsAt R c s

variable {R : State → State → Prop}

theorem stepsAt_ok {c : Cmd α} {a : α} (h : c s = .ok a t) (hr : R s t) : StepsAt R c s := by
  constructor
  · intro b u hu
    rw [h] at hu
    cases hu
    exact hr
  · intro e u hu
    rw [h] at hu
    cases hu

theorem stepsAt_error {c : Cmd α} {e : Stop} (h : c s = .error e t) (hr : R s t) : StepsAt R c s := by
  constructor
  · intro b u hu
    rw [h] at hu
    cases hu
  · intro e u hu
    rw [h] at hu
    cases hu
    exact hr

theorem stepsAt_bind (ht : ∀ s t u, R s t → R t u → R s u) {c : Cmd α} {f : α → Cmd β} (hc : StepsAt R c s)
    (hf : ∀ a t, c s = .ok a t → StepsAt R (f a) t) : StepsAt R (c >>= f) s := by
  constructor
  · intro b u h
    obtain ⟨a, t, h1, h2⟩ := bind_ok_iff.mp h
    exact ht _ _ _ (hc.1 a t h1) ((hf a t h1).1 b u h2)
  · intro e u h
    rcases bind_error_iff.mp h with h1 | ⟨a, t, h1, h2⟩
    · exact hc.2 e u h1
    · exact ht _ _ _ (hc.1 a t h1) ((hf a t h1).2 e u h2)

theorem stepsAt_ite {c : Prop} [Decidable c] {x y : Cmd α} (hx : c → StepsAt R x s) (hy : ¬ c → StepsAt R y s) :
    StepsAt R (if c then x else y) s := by
  split
  · exact hx ‹_›
  · exact hy ‹_›

theorem steps_pure (hr : ∀ s, R s s) (a : α) : Steps R (pure a : Cmd α) := fun s => stepsAt_ok (run_pure a s) (hr s)

theorem steps_get (hr : ∀ s, R s s) : Steps R (get : Cmd State) := fun s => stepsAt_ok (run_get s) (hr s)

theorem steps_modify {f : State → State} (h : ∀ s, R s (f s)) : Steps R (modify f : Cmd PUnit) :=
  fun s => stepsAt_ok (run_modify f s) (h s)

theorem steps_raise (hr : ∀ s, R s s) (e : ErrKind) (info : Nat) : Steps R (raise e info : Cmd α) :=
  fun s => stepsAt_error (run_raise e info s) (hr s)

theorem steps_stick (hr : ∀ s, R s s) (f : Fault) : Steps R (stick f : Cmd α) := fun s => stepsAt_error (run_stick f s) (hr s)

theorem steps_bind (ht : ∀ s t u, R s t → R t u → R s u) {c : Cmd α} {f : α → Cmd β} (hc : Steps R c)
    (hf : ∀ a, Steps R (f a)) : Steps R (c >>= f) := fun s => stepsAt_bind ht (hc s) fun a t _ => hf a t

theorem steps_raiseIf (hr : ∀ s, R s s) (c : Prop) [Decidable c] (e : ErrKind) (info : Nat) : Steps R (raiseIf c e info) :=
  fun s => stepsAt_ite (fun _ => steps_raise hr e info s) (fun _ => steps_pure hr () s)

theorem steps_fromTree (hr : ∀ s, R s s) (o : Option α) : Steps R (fromTree o) := by
  cases o
  · exact steps_stick hr .brokenTree
  · exact steps_pure hr _

theorem fromTree_ok {o : Option α} {a : α} (h : fromTree o s = .ok a t) : o = some a ∧ t = s := by
  cases o
  · cases h
  · cases h
    exact ⟨rfl, rfl⟩

theorem steps_discard {c : Cmd α} (hc : Steps R c) : Steps R (discard c : Cmd PUnit) := by
  intro s
  cases h : c s with
  | ok a t => exact stepsAt_ok (by rw [run_discard, h]) ((hc s).1 a t h)
  | error e t => exact stepsAt_error (by rw [run_discard, h]) ((hc s).2 e t h)

theorem steps_upFrom (hr : ∀ s, R s s) (ht : ∀ s t u, R s t → R t u → R s u) {f : Nat → Cmd Unit} (hf : ∀ i, Steps R (f i))
    (n i : Nat) : Steps R (upFrom f n i) := by
  induction n generalizing i with
  | zero => exact steps_pure hr ()
  | succ n ih => exact steps_bind ht (hf i) fun _ => ih (i + 1)

theorem steps_repeatTimes (hr : ∀ s, R s s) (ht : ∀ s t u, R s t → R t u → R s u) {c : Cmd Unit} (hc : Steps R c)
    (n : Nat) : Steps R (repeatTimes c n) := by
  induction n with
  | zero => exact steps_pure hr ()
  | succ n ih => exact steps_bind ht hc fun _ => ih

end

/-! ### The end of a command -/

theorem settle_ok (v : Word) (s : State) : settle (.ok v s) = .next (finishOk v s) := rfl

theorem settle_raised (e : ErrKind) (info : Nat) (s : State) : settle (.error (.raised e info) s) = .next (takeFault e info s) := rfl

/-- R91, R302: everything a command can answer with a next state, the order of the tests included. -/
theorem command_cases {legal inFault adm : Bool} {rule : Cmd Word} {s t : State}
    (h : command legal inFault adm rule s = .next t) :
    (legal = false ∧ t = refuse stIllegalCommand s)
    ∨ (legal = true ∧ s.faulted = true ∧ inFault = false ∧ t = refuse stContextFaulted s)
    ∨ (legal = true ∧ (s.faulted = true → inFault = true) ∧ adm = false ∧ t = refuse stIllegalState s)
    ∨ (legal = true ∧ (s.faulted = true → inFault = true) ∧ adm = true
        ∧ ((∃ v u, rule s = .ok v u ∧ t = finishOk v u)
          ∨ ∃ e info u, rule s = .error (.raised e info) u ∧ t = takeFault e info u)) := by
  unfold command at h
  split at h
  · next h1 => exact .inl ⟨by simpa using h1, by simpa using h.symm⟩
  · next h1 =>
    have hl : legal = true := by simpa using h1
    split at h
    · next h2 =>
      have h3 : s.faulted = true ∧ inFault = false := by simpa using h2
      exact .inr (.inl ⟨hl, h3.1, h3.2, by simpa using h.symm⟩)
    · next h2 =>
      have h3 : s.faulted = true → inFault = true := by simpa using h2
      split at h
      · next h4 => exact .inr (.inr (.inl ⟨hl, h3, by simpa using h4, by simpa using h.symm⟩))
      · next h4 =>
        refine .inr (.inr (.inr ⟨hl, h3, by simpa using h4, ?_⟩))
        cases hr : rule s with
        | ok v u =>
          rw [hr, settle_ok] at h
          exact .inl ⟨v, u, rfl, by simpa using h.symm⟩
        | error e u =>
          cases e with
          | raised e info =>
            rw [hr, settle_raised] at h
            exact .inr ⟨e, info, u, rfl, by simpa using h.symm⟩
          | stuck f =>
            rw [hr] at h
            cases h

/-- R91: a legal, admitted command of a context that is not faulted runs its rule. -/
theorem command_runs {inFault : Bool} (rule : Cmd Word) {s : State} (h : s.faulted = true → inFault = true) :
    command true inFault true rule s = settle (rule s) := by
  unfold command
  cases hf : s.faulted <;> simp_all

theorem command_ok {inFault : Bool} {rule : Cmd Word} {s u : State} {v : Word} (h : s.faulted = true → inFault = true)
    (hr : rule s = .ok v u) : command true inFault true rule s = .next (finishOk v u) := by
  rw [command_runs rule h, hr, settle_ok]

theorem command_raised {inFault : Bool} {rule : Cmd Word} {s u : State} {e : ErrKind} {info : Nat}
    (h : s.faulted = true → inFault = true) (hr : rule s = .error (.raised e info) u) :
    command true inFault true rule s = .next (takeFault e info u) := by
  rw [command_runs rule h, hr, settle_raised]

theorem command_illegal (inFault adm : Bool) (rule : Cmd Word) (s : State) :
    command false inFault adm rule s = .next (refuse stIllegalCommand s) := by simp [command]

theorem command_faulted (adm : Bool) (rule : Cmd Word) {s : State} (h : s.faulted = true) :
    command true false adm rule s = .next (refuse stContextFaulted s) := by simp [command, h]

theorem command_notAdmitted {inFault : Bool} (rule : Cmd Word) {s : State} (h : s.faulted = true → inFault = true) :
    command true inFault false rule s = .next (refuse stIllegalState s) := by
  unfold command
  cases hf : s.faulted <;> simp_all

/-! ### The one form of every command -/

/-- The rule of a command, its result included. -/
def ruleOf : Instr → Cmd Word
  | .ctxInit => do modify leaveFault; pure 0#64
  | .ctxRdreg r => do let t ← get; pure (readRegister r t)
  | .bsWrite w v => do writeBits v.toNat w.toNat; pure 0#64
  | .bsFinish => do let pad ← finish; pure (BitVec.ofNat 64 pad)
  | .bsRdbit => do let b ← readBit; pure (BitVec.ofNat 64 b.toNat)
  | .bsAtend ig => do let t ← get; pure (if atEnd ig.toNat t then 1#64 else 0#64)
  | .tcFlatten => do flatten; let t ← get; pure (BitVec.ofNat 64 (shapeBits t.leafCnt))
  | .tcSerhdr ig sig => do serHdr ig sig; let t ← get; pure (BitVec.ofNat 64 (hdrSize t.leafCnt))
  | .tcDeser => do deser; let t ← get; pure (BitVec.ofNat 64 t.nodeCnt)
  | .fbAcc sym => do modify (accSymbol sym); let t ← get; pure (BitVec.ofNat 64 (t.freqOf sym))
  | .fbScan => do scan; checkDistinct; let t ← get; pure (BitVec.ofNat 64 t.distinct)
  | .fbBuild => do build; let t ← get; pure (BitVec.ofNat 64 t.nodeCnt)
  | .shMkcodes => do mkCodes; let t ← get; pure (BitVec.ofNat 64 (codeCount t))
  | .shEncsym sym => do encSym sym; let t ← get; pure (BitVec.ofNat 64 (t.codeLen sym))
  | .shDecsym ig => do let r ← decSym ig.toNat; pure (BitVec.ofNat 64 r)
  | .shRdhdr => do rdHdr; let t ← get; pure (t.hdrIgnore.setWidth 64)
  | .shFixup ig => do fixup ig; pure 0#64
  | .shArchive => do let pad ← archiveStatic; pure (BitVec.ofNat 64 pad)
  | .shUnarchive => do let n ← unarchiveStatic; pure (BitVec.ofNat 64 n)
  | .ahInit => do modify ahInitTree; pure 0#64
  | .ahUpdate sym => do ahUpdateSym sym; let t ← get; pure (BitVec.ofNat 64 (symbolWeight sym t))
  | .ahEncsym sym => do let k ← ahEncSym sym; pure (BitVec.ofNat 64 k)
  | .ahDecsym => do let b ← ahDecSym; pure (b.setWidth 64)
  | .ahArchive => do let pad ← archiveAdaptive; pure (BitVec.ofNat 64 pad)
  | .ahUnarchive n => do let k ← unarchiveAdaptive n.toNat; pure (BitVec.ofNat 64 k)

/-- R91, R93, R298, R299: every command is the tests of rule R302 on its own legality and admission, and then its rule. -/
theorem exec_eq (i : Instr) (s : State) :
    exec i s = command i.wf (isContextCommand i) (admitted i s) (ruleOf i) s := by
  cases i <;> rfl

/-- Everything a command can answer with a next state. -/
theorem exec_cases {i : Instr} {s t : State} (h : exec i s = .next t) :
    (i.wf = false ∧ t = refuse stIllegalCommand s)
    ∨ (i.wf = true ∧ s.faulted = true ∧ isContextCommand i = false ∧ t = refuse stContextFaulted s)
    ∨ (i.wf = true ∧ (s.faulted = true → isContextCommand i = true) ∧ admitted i s = false ∧ t = refuse stIllegalState s)
    ∨ (i.wf = true ∧ (s.faulted = true → isContextCommand i = true) ∧ admitted i s = true
        ∧ ((∃ v u, ruleOf i s = .ok v u ∧ t = finishOk v u)
          ∨ ∃ e info u, ruleOf i s = .error (.raised e info) u ∧ t = takeFault e info u)) :=
  command_cases (by rw [← exec_eq, h])

/-- A command whose rule comes to its end ends OK. -/
theorem exec_ok {i : Instr} {s u : State} {v : Word} (hw : i.wf = true) (hf : s.faulted = true → isContextCommand i = true)
    (ha : admitted i s = true) (hr : ruleOf i s = .ok v u) : exec i s = .next (finishOk v u) := by
  rw [exec_eq, hw, ha]
  exact command_ok hf hr

/-- A command whose rule raises takes the fault. -/
theorem exec_raised {i : Instr} {s u : State} {e : ErrKind} {info : Nat} (hw : i.wf = true)
    (hf : s.faulted = true → isContextCommand i = true) (ha : admitted i s = true)
    (hr : ruleOf i s = .error (.raised e info) u) : exec i s = .next (takeFault e info u) := by
  rw [exec_eq, hw, ha]
  exact command_raised hf hr

/-- A state after `finishOk` is one in which the command has ended OK, if the rule left the error fields and `CSEQ` alone. -/
theorem endsOk_finishOk {s u : State} (v : Word) (hc : u.cseq = s.cseq) (he : u.err = s.err) (hf : u.faulted = s.faulted) :
    EndsOk s (finishOk v u) v := by
  simp [EndsOk, hc, he, hf, stOk]

/-- A state after `takeFault` is one in which the command has ended with the fault. -/
theorem endsFaulted_takeFault {s u : State} (e : ErrKind) (info : Nat) (hc : u.cseq = s.cseq) :
    EndsFaulted s (takeFault e info u) e info := by
  simp [EndsFaulted, hc]

end Sys2Proof.Machine
end

