-- ==== Sys2Proof/Laws/Table.lean ====
section
/-! SUPPORT. The laws of the tables and of the sink: a read after a write gives what was written at the place and what was there
elsewhere, every operation keeps the canonical form, and two canonical tables that read alike are equal. -/

namespace Sys2Proof.Machine

/-! ### Tables -/

section
variable {α : Type} (d : α)

@[simp] theorem Table.get_nil (k : Nat) : Table.get d ([] : Table α) k = d := rfl

theorem Table.get_cons (e : Nat × α) (t : Table α) (k : Nat) :
    Table.get d (e :: t) k = if e.1 = k then e.2 else Table.get d t k := rfl

/-- An index that no entry has reads as the reset value. -/
theorem Table.get_of_not_mem (t : Table α) (k : Nat) (h : ∀ e ∈ t, e.1 ≠ k) : Table.get d t k = d := by
  induction t with
  | nil => rfl
  | cons e t ih =>
    rw [Table.get_cons, if_neg (h e (by simp))]
    exact ih fun e he => h e (by simp [he])

theorem Table.get_erase (t : Table α) (k j : Nat) :
    Table.get d (Table.erase t k) j = if j = k then d else Table.get d t j := by
  induction t with
  | nil => simp [Table.erase]
  | cons e t ih =>
    unfold Table.erase at ih ⊢
    by_cases hk : e.1 = k
    · rw [List.filter_cons_of_neg (by simp [hk]), ih, Table.get_cons]
      by_cases hj : j = k
      · simp [hj]
      · simp [hj, hk, Ne.symm hj]
    · rw [List.filter_cons_of_pos (by simp [hk]), Table.get_cons, Table.get_cons, ih]
      by_cases hj : e.1 = j
      · subst hj; simp [hk]
      · simp [hj]

theorem Table.get_insert (t : Table α) (k j : Nat) (v : α) (h : ∀ e ∈ t, e.1 ≠ k) :
    Table.get d (Table.insert k v t) j = if j = k then v else Table.get d t j := by
  induction t with
  | nil =>
    simp only [Table.insert, Table.get_cons, Table.get_nil, eq_comm]
  | cons e t ih =>
    have ht := ih fun e he => h e (by simp [he])
    have he := h e (by simp)
    unfold Table.insert
    split
    · rw [Table.get_cons]
      simp only [eq_comm]
    · rw [Table.get_cons, ht, Table.get_cons]
      by_cases hj : e.1 = j
      · subst hj; simp [he]
      · simp [hj]

theorem Table.not_mem_erase (t : Table α) (k : Nat) : ∀ e ∈ Table.erase t k, e.1 ≠ k := by
  intro e he
  simpa using (List.mem_filter.mp he).2

/-- R13: reading a table after `TBL[k] <- v`. -/
theorem Table.get_set [DecidableEq α] (t : Table α) (k j : Nat) (v : α) :
    Table.get d (Table.set d t k v) j = if j = k then v else Table.get d t j := by
  unfold Table.set
  split
  · next h => rw [Table.get_erase, h]
  · rw [Table.get_insert d _ _ _ _ (Table.not_mem_erase t k), Table.get_erase]
    by_cases hj : j = k <;> simp [hj]

@[simp] theorem Table.get_set_same [DecidableEq α] (t : Table α) (k : Nat) (v : α) :
    Table.get d (Table.set d t k v) k = v := by simp [Table.get_set]

theorem Table.get_set_ne [DecidableEq α] (t : Table α) {k j : Nat} (v : α) (h : j ≠ k) :
    Table.get d (Table.set d t k v) j = Table.get d t j := by simp [Table.get_set, h]

theorem Table.get_clearFrom (t : Table α) (k j : Nat) :
    Table.get d (Table.clearFrom t k) j = if j < k then Table.get d t j else d := by
  induction t with
  | nil => simp [Table.clearFrom]
  | cons e t ih =>
    unfold Table.clearFrom at ih ⊢
    by_cases hk : e.1 < k
    · rw [List.filter_cons_of_pos (by simp [hk]), Table.get_cons, Table.get_cons, ih]
      by_cases hj : e.1 = j
      · subst hj; simp [hk]
      · simp [hj]
    · rw [List.filter_cons_of_neg (by simp [hk]), ih, Table.get_cons]
      by_cases hj : e.1 = j
      · simp [← hj, hk]
      · simp [hj]

theorem Table.get_setFrom [DecidableEq α] (t : Table α) (k j : Nat) (xs : List α) :
    Table.get d (Table.setFrom d t k xs) j =
      if k ≤ j ∧ j < k + xs.length then xs.getD (j - k) d else Table.get d t j := by
  induction xs generalizing t k with
  | nil => simp [Table.setFrom]
  | cons x xs ih =>
    rw [Table.setFrom, ih, Table.get_set]
    by_cases hjk : j = k
    · subst hjk; simp
    · by_cases hr : k ≤ j ∧ j < k + (x :: xs).length
      · have h1 : k + 1 ≤ j ∧ j < k + 1 + xs.length := by simp at hr; omega
        have h2 : j - k = (j - (k + 1)) + 1 := by omega
        rw [if_pos hr, if_pos h1, h2, List.getD_cons_succ]
      · have h1 : ¬ (k + 1 ≤ j ∧ j < k + 1 + xs.length) := by simp at hr; omega
        rw [if_neg hr, if_neg h1, if_neg hjk]

@[simp] theorem Table.length_firstN (t : Table α) (n : Nat) : (Table.firstN d t n).length = n := by simp [Table.firstN]

theorem Table.firstN_succ (t : Table α) (n : Nat) :
    Table.firstN d t (n + 1) = Table.firstN d t n ++ [Table.get d t n] := by
  simp [Table.firstN, List.range_succ]

@[simp] theorem Table.getElem_firstN (t : Table α) (n k : Nat) (h : k < (Table.firstN d t n).length) :
    (Table.firstN d t n)[k] = Table.get d t k := by simp [Table.firstN]

/-- The entries just stored are read back. -/
theorem Table.firstN_setFrom [DecidableEq α] (t : Table α) (xs : List α) :
    Table.firstN d (Table.setFrom d t 0 xs) xs.length = xs := by
  apply List.ext_getElem (by simp)
  intro k h1 h2
  simp [Table.get_setFrom, h2]

/-- Two tables that agree on the first `n` entries list the same first `n` entries. -/
theorem Table.firstN_congr (t u : Table α) (n : Nat) (h : ∀ k, k < n → Table.get d t k = Table.get d u k) :
    Table.firstN d t n = Table.firstN d u n := by
  unfold Table.firstN
  apply List.map_congr_left
  intro k hk
  exact h k (List.mem_range.mp hk)

/-! ### The canonical form -/

theorem Table.wf_nil : Table.wf d ([] : Table α) := by simp [Table.wf]

theorem Table.wf_erase {t : Table α} (k : Nat) (h : Table.wf d t) : Table.wf d (Table.erase t k) :=
  ⟨h.1.sublist List.filter_sublist, fun e he => h.2 e (List.mem_filter.mp he).1⟩

theorem Table.wf_clearFrom {t : Table α} (k : Nat) (h : Table.wf d t) : Table.wf d (Table.clearFrom t k) :=
  ⟨h.1.sublist List.filter_sublist, fun e he => h.2 e (List.mem_filter.mp he).1⟩

theorem Table.mem_insert {t : Table α} {k : Nat} {v : α} {e : Nat × α} :
    e ∈ Table.insert k v t ↔ e = (k, v) ∨ e ∈ t := by
  induction t with
  | nil => simp [Table.insert]
  | cons x t ih =>
    unfold Table.insert
    split
    · simp
    · simp only [List.mem_cons, ih]
      tauto

theorem Table.sorted_insert {t : Table α} {k : Nat} (v : α) (hs : t.Pairwise (fun x y => x.1 < y.1)) (hk : ∀ e ∈ t, e.1 ≠ k) :
    (Table.insert k v t).Pairwise (fun x y => x.1 < y.1) := by
  induction t with
  | nil => simp [Table.insert]
  | cons x t ih =>
    have hx := List.pairwise_cons.mp hs
    unfold Table.insert
    split
    · next h =>
      refine List.pairwise_cons.mpr ⟨?_, hs⟩
      intro e he
      rcases List.mem_cons.mp he with rfl | he
      · exact h
      · exact Nat.lt_trans h (hx.1 e he)
    · next h =>
      refine List.pairwise_cons.mpr ⟨?_, ih hx.2 fun e he => hk e (by simp [he])⟩
      intro e he
      rcases Table.mem_insert.mp he with rfl | he
      · have := hk x (by simp)
        simp only at this ⊢
        omega
      · exact hx.1 e he

theorem Table.wf_set [DecidableEq α] {t : Table α} (k : Nat) (v : α) (h : Table.wf d t) : Table.wf d (Table.set d t k v) := by
  unfold Table.set
  split
  · exact Table.wf_erase d k h
  · next hv =>
    have he := Table.wf_erase d k h
    refine ⟨Table.sorted_insert v he.1 (Table.not_mem_erase t k), ?_⟩
    intro e hm
    rcases Table.mem_insert.mp hm with rfl | hm
    · exact hv
    · exact he.2 e hm

theorem Table.wf_setFrom [DecidableEq α] {t : Table α} (k : Nat) (xs : List α) (h : Table.wf d t) :
    Table.wf d (Table.setFrom d t k xs) := by
  induction xs generalizing t k with
  | nil => exact h
  | cons x xs ih => exact ih (k + 1) (Table.wf_set d k x h)

/-- An entry of a canonical table is what the table reads at its index. -/
theorem Table.get_of_mem {t : Table α} {e : Nat × α} (h : t.Pairwise (fun x y => x.1 < y.1)) (he : e ∈ t) :
    Table.get d t e.1 = e.2 := by
  induction t with
  | nil => simp at he
  | cons x t ih =>
    have hx := List.pairwise_cons.mp h
    rw [Table.get_cons]
    rcases List.mem_cons.mp he with rfl | he
    · simp
    · have := hx.1 e he
      rw [if_neg (by omega), ih hx.2 he]

/-- Two canonical tables that read alike everywhere are equal: the form is canonical. -/
theorem Table.ext_get {t u : Table α} (ht : Table.wf d t) (hu : Table.wf d u) (h : ∀ k, Table.get d t k = Table.get d u k) :
    t = u := by
  have key : ∀ {a b : Table α}, Table.wf d a → Table.wf d b → (∀ k, Table.get d a k = Table.get d b k) → ∀ e ∈ a, e ∈ b := by
    intro a b ha hb hab e he
    have h1 := Table.get_of_mem d ha.1 he
    by_contra hne
    by_cases hx : ∃ x ∈ b, x.1 = e.1
    · obtain ⟨x, hxb, hxe⟩ := hx
      have h2 := Table.get_of_mem d hb.1 hxb
      rw [hxe, ← hab, h1] at h2
      exact hne (by rwa [← Prod.ext hxe h2.symm])
    · have h2 : Table.get d b e.1 = d := Table.get_of_not_mem d b e.1 fun x hxb hxe => hx ⟨x, hxb, hxe⟩
      rw [← hab, h1] at h2
      exact ha.2 e he h2
  have hset : ∀ e, e ∈ t ↔ e ∈ u := fun e => ⟨key ht hu h e, key hu ht (fun k => (h k).symm) e⟩
  have nodup : ∀ {a : Table α}, a.Pairwise (fun x y => x.1 < y.1) → a.Nodup :=
    fun ha => ha.imp fun {x y} hxy hx => by rw [hx] at hxy; exact Nat.lt_irrefl _ hxy
  have hp : t.Perm u := (List.perm_ext_iff_of_nodup (nodup ht.1) (nodup hu.1)).mpr hset
  exact hp.eq_of_pairwise (fun a b _ _ h1 h2 => absurd h1 (Nat.lt_asymm h2)) ht.1 hu.1

end

/-! ### The sink -/

theorem Memory.read_nil (a : Nat) : Memory.read [] a = none := rfl

theorem Memory.read_cons (c : Host.Cell) (m : Memory) (a : Nat) :
    Memory.read (c :: m) a = if c.1 = a then some c.2 else Memory.read m a := rfl

/-- Reading one byte after storing one byte (R63). -/
theorem Memory.read_store (m : Memory) (a x : Nat) (b : Byte) :
    Memory.read (Memory.store m a b) x = if x = a then some b else Memory.read m x := by
  have herase : ∀ (m : Memory), Memory.read (Table.erase m a) x = if x = a then none else Memory.read m x := by
    intro m
    induction m with
    | nil => simp [Table.erase, Memory.read]
    | cons c m ih =>
      unfold Table.erase at ih ⊢
      by_cases hk : c.1 = a
      · rw [List.filter_cons_of_neg (by simp [hk]), ih, Memory.read_cons]
        by_cases hj : x = a
        · simp [hj]
        · simp [hj, hk, Ne.symm hj]
      · rw [List.filter_cons_of_pos (by simp [hk]), Memory.read_cons, Memory.read_cons, ih]
        by_cases hj : c.1 = x
        · subst hj; simp [hk]
        · simp [hj]
  have hins : ∀ (m : Memory), (∀ e ∈ m, e.1 ≠ a) →
      Memory.read (Table.insert a b m) x = if x = a then some b else Memory.read m x := by
    intro m hm
    induction m with
    | nil => simp only [Table.insert, Memory.read, eq_comm]
    | cons c m ih =>
      have ht := ih fun e he => hm e (by simp [he])
      have hc := hm c (by simp)
      unfold Table.insert
      split
      · rw [Memory.read_cons]
        simp only [eq_comm]
      · rw [Memory.read_cons, ht, Memory.read_cons]
        by_cases hj : c.1 = x
        · subst hj; simp [hc]
        · simp [hj]
  unfold Memory.store
  rw [hins _ (Table.not_mem_erase m a), herase]
  by_cases hx : x = a <;> simp [hx]

/-- Reading one byte after a transaction (R63). -/
theorem Memory.read_storeBytes (m : Memory) (a x : Nat) (bs : List Byte) :
    Memory.read (Memory.storeBytes m a bs) x =
      if a ≤ x ∧ x < a + bs.length then bs[x - a]? else Memory.read m x := by
  induction bs generalizing m a with
  | nil => simp [Memory.storeBytes]
  | cons b bs ih =>
    rw [Memory.storeBytes, ih, Memory.read_store]
    by_cases hxa : x = a
    · subst hxa; simp
    · by_cases hr : a ≤ x ∧ x < a + (b :: bs).length
      · have h1 : a + 1 ≤ x ∧ x < a + 1 + bs.length := by simp at hr; omega
        have h2 : x - a = (x - (a + 1)) + 1 := by omega
        rw [if_pos hr, if_pos h1, h2, List.getElem?_cons_succ]
      · have h1 : ¬ (a + 1 ≤ x ∧ x < a + 1 + bs.length) := by simp at hr; omega
        rw [if_neg hr, if_neg h1, if_neg hxa]

theorem Memory.wf_store {m : Memory} (a : Nat) (b : Byte) (h : Memory.wf m) : Memory.wf (Memory.store m a b) :=
  Table.sorted_insert b (h.sublist List.filter_sublist) (Table.not_mem_erase m a)

theorem Memory.wf_storeBytes {m : Memory} (a : Nat) (bs : List Byte) (h : Memory.wf m) :
    Memory.wf (Memory.storeBytes m a bs) := by
  induction bs generalizing m a with
  | nil => exact h
  | cons b bs ih => exact ih (a + 1) (Memory.wf_store a b h)

/-- The sink after reset is in canonical form (R321). -/
theorem Memory.wf_reset : Memory.wf State.reset.snk := List.Pairwise.nil

/-! ### The tables of the state -/

theorem nodeAt_setNode (t : Table Node) (i j : Nat) (n : Node) :
    nodeAt (setNode t i n) j = if j = i then n else nodeAt t j := Table.get_set Node.reset t i j n

@[simp] theorem nodeAt_setNode_same (t : Table Node) (i : Nat) (n : Node) : nodeAt (setNode t i n) i = n := by
  simp [nodeAt_setNode]

theorem nodeAt_setNode_ne (t : Table Node) {i j : Nat} (n : Node) (h : j ≠ i) : nodeAt (setNode t i n) j = nodeAt t j := by
  simp [nodeAt_setNode, h]

@[simp] theorem nodeAt_nil (i : Nat) : nodeAt [] i = Node.reset := rfl

theorem wf_setNode {t : Table Node} (i : Nat) (n : Node) (h : Table.wf Node.reset t) : Table.wf Node.reset (setNode t i n) :=
  Table.wf_set Node.reset i n h

/-- R180: the count of a symbol after `Acc`. -/
theorem accSymbol_freqOf (b c : Byte) (s : State) :
    (accSymbol b s).freqOf c = if c = b then s.freqOf b + 1 else s.freqOf c := by
  unfold accSymbol State.freqOf
  simp only [Table.get_set]
  by_cases h : c = b
  · simp [h]
  · have : c.toNat ≠ b.toNat := fun hn => h (BitVec.eq_of_toNat_eq hn)
    simp [h, this]

end Sys2Proof.Machine
end

