-- ==== Sys2Proof/Laws/Ports.lean ====
section
/-! SUPPORT. The port transactions (R62 to R65): one equation for each operation, which says everything it can do, and its form when no
transaction fails. -/

namespace Sys2Proof.Machine

/-- The state after one transaction has used up the environment's next answer. -/
def usePort (s : State) : State := { s with ports := s.ports.drop 1 }

theorem askPort_eq (s : State) : askPort s = .ok (s.ports.headD .done) (usePort s) := by
  unfold askPort usePort
  cases s with
  | mk => rename_i ports _ _ _; cases ports <;> rfl

/-- R62, R64. -/
theorem memRead_eq (off n : Nat) (s : State) :
    memRead off n s = if s.ports.headD .done = .done then .ok ((s.src.drop off).take n) (usePort s)
      else .error (.raised .io off) (usePort s) := by
  unfold memRead
  rw [run_bind_ok _ (askPort_eq s)]
  cases s.ports.headD .done <;> rfl

/-- R63, R64: a failed transaction stores nothing. -/
theorem memWrite_eq (off : Nat) (v : List Byte) (s : State) :
    memWrite off v s = if s.ports.headD .done = .done then .ok () { usePort s with snk := Memory.storeBytes s.snk off v }
      else .error (.raised .io off) (usePort s) := by
  unfold memWrite
  rw [run_bind_ok _ (askPort_eq s)]
  cases s.ports.headD .done <;> rfl

/-- R65, R302: the end of the source is tested before the transaction. -/
theorem srcByte_eq (off : Nat) (onEnd : ErrKind) (s : State) :
    srcByte off onEnd s = if s.src.length ≤ off then .error (.raised onEnd off) s
      else if s.ports.headD .done = .done then .ok (s.src.getD off 0#8) (usePort s)
      else .error (.raised .io off) (usePort s) := by
  unfold srcByte
  rw [run_get_bind]
  change (if s.src.length ≤ off then raise onEnd off else _ : Cmd Byte) s = _
  split
  · rfl
  · next h =>
    have hl : off < s.src.length := by omega
    by_cases hd : s.ports.headD .done = .done
    · have h1 : (s.src.drop off).take 1 = [s.src[off]] := by
        rw [List.drop_eq_getElem_cons hl]
        rfl
      rw [if_pos hd, run_bind_ok _ ((memRead_eq off 1 s).trans (if_pos hd)), run_pure, h1]
      simp [List.getD, hl]
    · rw [if_neg hd, run_bind_error _ ((memRead_eq off 1 s).trans (if_neg hd))]

/-! ### When no transaction fails -/

theorem PortsGood.head {s : State} (h : PortsGood s) : s.ports.headD .done = .done := by
  unfold PortsGood at h
  cases hp : s.ports with
  | nil => rfl
  | cons a rest => exact h a (by simp [hp])

theorem PortsGood.use {s : State} (h : PortsGood s) : PortsGood (usePort s) :=
  fun a ha => h a (List.mem_of_mem_drop ha)

/-- `PortsGood` looks at the answers alone. -/
theorem PortsGood.of_ports {s t : State} (h : PortsGood s) (ht : t.ports = s.ports) : PortsGood t := by
  unfold PortsGood
  rwa [ht]

theorem memRead_good (off n : Nat) {s : State} (h : PortsGood s) :
    memRead off n s = .ok ((s.src.drop off).take n) (usePort s) := by rw [memRead_eq, if_pos h.head]

theorem memWrite_good (off : Nat) (v : List Byte) {s : State} (h : PortsGood s) :
    memWrite off v s = .ok () { usePort s with snk := Memory.storeBytes s.snk off v } := by rw [memWrite_eq, if_pos h.head]

theorem srcByte_good {off : Nat} (onEnd : ErrKind) {s : State} (h : PortsGood s) (hl : off < s.src.length) :
    srcByte off onEnd s = .ok s.src[off] (usePort s) := by
  rw [srcByte_eq, if_neg (by omega), if_pos h.head]
  simp [List.getD, hl]

/-- R65: the source has ended. -/
theorem srcByte_end {off : Nat} (onEnd : ErrKind) {s : State} (hl : s.src.length ≤ off) :
    srcByte off onEnd s = .error (.raised onEnd off) s := by rw [srcByte_eq, if_pos hl]

/-- R64: the transaction fails. -/
theorem srcByte_failed {off : Nat} (onEnd : ErrKind) {s : State} {rest : List PortAnswer} (hp : s.ports = .failed :: rest)
    (hl : off < s.src.length) : srcByte off onEnd s = .error (.raised .io off) (usePort s) := by
  rw [srcByte_eq, if_neg (by omega), if_neg (by simp [hp])]

theorem memWrite_failed (off : Nat) (v : List Byte) {s : State} {rest : List PortAnswer} (hp : s.ports = .failed :: rest) :
    memWrite off v s = .error (.raised .io off) (usePort s) := by
  rw [memWrite_eq, if_neg (by simp [hp])]

@[simp] theorem usePort_src (s : State) : (usePort s).src = s.src := rfl
@[simp] theorem usePort_params (s : State) : (usePort s).params = s.params := rfl
@[simp] theorem usePort_ports (s : State) : (usePort s).ports = s.ports.drop 1 := rfl

end Sys2Proof.Machine
end

