-- ==== Sys2Proof/Laws/Bs.lean ====
section
/-! SUPPORT. What the procedures of the BS unit do when no transaction fails: the output procedures append to the emitted stream (R69,
R130 to R135), the input procedures take bits from the front of the unread ones (R140, R142). -/

namespace Sys2Proof.Machine

/-! ### The emitted stream -/

theorem SinkGrows.refl (s : State) : SinkGrows s s := ⟨Nat.le_refl _, fun _ _ => rfl⟩

theorem SinkGrows.trans {s t u : State} (h1 : SinkGrows s t) (h2 : SinkGrows t u) : SinkGrows s u := by
  refine ⟨Nat.le_trans h1.1 h2.1, fun a ha => ?_⟩
  have h3 := h1.1
  have h4 := h2.1
  rw [h2.2 a (by omega), h1.2 a (by omega)]

theorem EmitsBytes.refl (s : State) : EmitsBytes s s [] := ⟨by simp, SinkGrows.refl s⟩

theorem EmitsBytes.trans {s t u : State} {xs ys : List Byte} (h1 : EmitsBytes s t xs) (h2 : EmitsBytes t u ys) :
    EmitsBytes s u (xs ++ ys) := ⟨by rw [h2.1, h1.1]; simp, h1.2.trans h2.2⟩

/-- Bytes were appended to the emitted stream, and nothing else of the state changed but the answers used up. -/
structure Emits (s t : State) (bs : List Byte) : Prop where
  bytes : EmitsBytes s t bs
  good : PortsGood t
  frame : t = { s with ports := t.ports, obuf := t.obuf, sinkPos := t.sinkPos, snk := t.snk }

theorem Emits.refl {s : State} (h : PortsGood s) : Emits s s [] := ⟨EmitsBytes.refl s, h, rfl⟩

theorem Emits.trans {s t u : State} {xs ys : List Byte} (h1 : Emits s t xs) (h2 : Emits t u ys) : Emits s u (xs ++ ys) := by
  refine ⟨h1.bytes.trans h2.bytes, h2.good, ?_⟩
  rw [h2.frame, h1.frame]

/-- Bits were written: whole bytes went out, the rest waits in the accumulator, and nothing else of the state changed. -/
structure Writes (s t : State) (b : Bits) : Prop where
  bits : WritesBits s t b
  good : PortsGood t
  frame : t = { s with ports := t.ports, acc := t.acc, accCnt := t.accCnt, obuf := t.obuf, sinkPos := t.sinkPos, snk := t.snk }

theorem WritesBits.refl (s : State) : WritesBits s s [] := ⟨[], EmitsBytes.refl s, by simp⟩

theorem WritesBits.trans {s t u : State} {a b : Bits} (h1 : WritesBits s t a) (h2 : WritesBits t u b) : WritesBits s u (a ++ b) := by
  obtain ⟨xs, hx, hp⟩ := h1
  obtain ⟨ys, hy, hq⟩ := h2
  refine ⟨xs ++ ys, hx.trans hy, ?_⟩
  rw [unpackMsb_append, List.append_assoc, hq, ← List.append_assoc, hp, List.append_assoc]

theorem Writes.refl {s : State} (h : PortsGood s) : Writes s s [] := ⟨WritesBits.refl s, h, rfl⟩

theorem Writes.trans {s t u : State} {a b : Bits} (h1 : Writes s t a) (h2 : Writes t u b) : Writes s u (a ++ b) := by
  refine ⟨h1.bits.trans h2.bits, h2.good, ?_⟩
  rw [h2.frame, h1.frame]

/-! ### Output -/

/-- R132: everything `FlushOut` can do. -/
theorem flushOut_eq (s : State) :
    flushOut s = if s.obuf = [] then .ok () s
      else if s.ports.headD .done = .done then
        .ok () { usePort s with
          snk := Memory.storeBytes s.snk s.sinkPos s.obuf, sinkPos := s.sinkPos + s.obuf.length, obuf := [] }
      else .error (.raised .io s.sinkPos) (usePort s) := by
  unfold flushOut
  rw [run_get_bind]
  split
  · rfl
  · by_cases hd : s.ports.headD .done = .done
    · rw [if_pos hd, run_bind_ok _ ((memWrite_eq _ _ s).trans (if_pos hd)), run_modify]
      rfl
    · rw [if_neg hd, run_bind_error _ ((memWrite_eq _ _ s).trans (if_neg hd))]

theorem map_read_storeBytes (m : Memory) (k : Nat) (bs : List Byte) :
    (List.range (k + bs.length)).map (Memory.read (Memory.storeBytes m k bs))
      = (List.range k).map (Memory.read m) ++ bs.map some := by
  rw [List.range_add, List.map_append, List.map_map]
  congr 1
  · apply List.map_congr_left
    intro a ha
    have := List.mem_range.mp ha
    rw [Memory.read_storeBytes, if_neg (by omega)]
  · apply List.ext_getElem (by simp)
    intro i h1 h2
    simp at h1
    simp [Memory.read_storeBytes, h1]

/-- R132: the waiting bytes reach the sink; the emitted stream is the same. -/
theorem flushOut_good {s : State} (h : PortsGood s) :
    ∃ t, flushOut s = .ok () t ∧ Emits s t [] ∧ t.obuf = [] ∧ t.sinkPos = s.sinkPos + s.obuf.length := by
  rw [flushOut_eq]
  split
  · next h0 => exact ⟨s, rfl, Emits.refl h, h0, by simp [h0]⟩
  · rw [if_pos h.head]
    refine ⟨_, rfl, ⟨⟨?_, ?_⟩, h.use.of_ports rfl, rfl⟩, rfl, rfl⟩
    · simp only [emitted, sinkBytes, List.map_nil, List.append_nil]
      exact map_read_storeBytes s.snk s.sinkPos s.obuf
    · refine ⟨Nat.le_add_right _ _, fun a ha => ?_⟩
      change Memory.read (Memory.storeBytes s.snk s.sinkPos s.obuf) a = _
      rw [Memory.read_storeBytes, if_neg]
      simp only at ha
      omega

/-- R131: everything `EmitByte` can do. -/
theorem emitByte_eq (b : Byte) (s : State) :
    emitByte b s = if s.obuf.length + 1 = s.params.blockSize then flushOut { s with obuf := s.obuf ++ [b] }
      else .ok () { s with obuf := s.obuf ++ [b] } := by
  unfold emitByte
  rw [run_modify_bind, run_get_bind]
  simp only [State.obufLen, List.length_append, List.length_cons, List.length_nil, Nat.zero_add]
  split <;> rfl

/-- R131, R69: one byte is appended to the emitted stream. -/
theorem emitByte_good (b : Byte) {s : State} (h : PortsGood s) : ∃ t, emitByte b s = .ok () t ∧ Emits s t [b] := by
  have h1 : Emits s { s with obuf := s.obuf ++ [b] } [b] :=
    ⟨⟨by simp [emitted, sinkBytes], Nat.le_refl _, fun _ _ => rfl⟩, h.of_ports rfl, rfl⟩
  rw [emitByte_eq]
  split
  · obtain ⟨t, ht, he, -⟩ := flushOut_good h1.good
    exact ⟨t, ht, by simpa using h1.trans he⟩
  · exact ⟨_, rfl, h1⟩

/-- R69: the bytes are appended in order. -/
theorem emitBytes_good (bs : List Byte) {s : State} (h : PortsGood s) : ∃ t, emitBytes bs s = .ok () t ∧ Emits s t bs := by
  induction bs generalizing s with
  | nil => exact ⟨s, rfl, Emits.refl h⟩
  | cons b bs ih =>
    obtain ⟨t, ht, he⟩ := emitByte_good b h
    obtain ⟨u, hu, he'⟩ := ih he.good
    refine ⟨u, ?_, by simpa using he.trans he'⟩
    rw [emitBytes, run_bind_ok _ ht, hu]

/-- R133: the `while` loop emits the whole bytes of an `n`-bit value, the first bits first. -/
theorem emitWhole_good (x k n : Nat) (hn : 8 * k ≤ n) {s : State} (h : PortsGood s) :
    ∃ t bs, emitWhole x k n s = .ok () t ∧ Emits s t bs ∧ bitsOf x n = unpackMsb bs ++ bitsOf x (n - 8 * k) := by
  induction k generalizing s n with
  | zero => exact ⟨s, [], rfl, Emits.refl h, by simp⟩
  | succ k ih =>
    obtain ⟨t, ht, he⟩ := emitByte_good (BitVec.ofNat 8 (x / 2 ^ (n - 8))) h
    obtain ⟨u, bs, hu, he', hb⟩ := ih (n - 8) (by omega) he.good
    refine ⟨u, _, ?_, he.trans he', ?_⟩
    · rw [emitWhole, run_bind_ok _ ht, hu]
    · have h8 : n = 8 + (n - 8) := by omega
      have hs : bitsOf x n = bitsOf (x / 2 ^ (n - 8)) 8 ++ bitsOf x (n - 8) := by
        conv_lhs => rw [h8]
        exact bitsOf_add x 8 (n - 8)
      rw [hs, hb, List.singleton_append, unpackMsb_cons, BitVec.toNat_ofNat, bitsOf_mod, List.append_assoc]
      congr 3
      omega

/-- R133: `WriteBits(v, w)` writes the `w` low bits of `v`, and the accumulator keeps rule R22. -/
theorem writeBits_good (v w : Nat) {s : State} (h : PortsGood s) :
    ∃ t, writeBits v w s = .ok () t ∧ Writes s t (bitsOf v w) ∧ t.acc.toNat < 2 ^ t.accCnt.toNat := by
  unfold writeBits
  simp only [run_get_bind]
  obtain ⟨t, bs, ht, he, hb⟩ := emitWhole_good (s.acc.toNat * 2 ^ w + v % 2 ^ w) ((s.accCnt.toNat + w) / 8) (s.accCnt.toNat + w)
    (by omega) h
  rw [run_bind_ok _ ht, run_modify]
  have hr : s.accCnt.toNat + w - 8 * ((s.accCnt.toNat + w) / 8) = (s.accCnt.toNat + w) % 8 := by omega
  have hm : (s.accCnt.toNat + w) % 8 < 8 := Nat.mod_lt _ (by omega)
  have hx : (s.acc.toNat * 2 ^ w + v % 2 ^ w) % 2 ^ ((s.accCnt.toNat + w) % 8) < 2 ^ ((s.accCnt.toNat + w) % 8) :=
    Nat.mod_lt _ (by positivity)
  have hp : (2 : Nat) ^ ((s.accCnt.toNat + w) % 8) ≤ 2 ^ 7 := Nat.pow_le_pow_right (by omega) (by omega)
  have hacc : (BitVec.ofNat 7 ((s.acc.toNat * 2 ^ w + v % 2 ^ w) % 2 ^ ((s.accCnt.toNat + w) % 8))).toNat
      = (s.acc.toNat * 2 ^ w + v % 2 ^ w) % 2 ^ ((s.accCnt.toNat + w) % 8) := by
    rw [BitVec.toNat_ofNat, Nat.mod_eq_of_lt (by omega)]
  have hcnt : (BitVec.ofNat 3 ((s.accCnt.toNat + w) % 8)).toNat = (s.accCnt.toNat + w) % 8 := by
    rw [BitVec.toNat_ofNat, Nat.mod_eq_of_lt (by omega)]
  refine ⟨_, rfl, ⟨⟨bs, ⟨he.bytes.1, he.bytes.2⟩, ?_⟩, he.good.of_ports rfl, ?_⟩, ?_⟩
  · unfold pending
    simp only [hacc, hcnt, bitsOf_mod]
    rw [← hr, ← hb, bitsOf_mul_add]
  · rw [he.frame]
  · simp only [hacc, hcnt]
    exact hx

theorem emitChunks_good (k : Nat) (b : Bits) (hk : b.length ≤ k) {s : State} (h : PortsGood s) :
    ∃ t, emitChunks k b s = .ok () t ∧ Writes s t b
      ∧ (s.acc.toNat < 2 ^ s.accCnt.toNat → t.acc.toNat < 2 ^ t.accCnt.toNat) := by
  induction k generalizing b s with
  | zero =>
    have hb : b = [] := List.eq_nil_of_length_eq_zero (by omega)
    subst hb
    exact ⟨s, rfl, Writes.refl h, id⟩
  | succ k ih =>
    unfold emitChunks
    split
    · next hb =>
      subst hb
      exact ⟨s, rfl, Writes.refl h, id⟩
    · next hb =>
      obtain ⟨t, ht, hw, ha⟩ := writeBits_good (valOf (b.take Config.widthMax)) (min Config.widthMax b.length) h
      have hpos : 0 < b.length := List.length_pos_iff.mpr hb
      obtain ⟨u, hu, hw', ha'⟩ := ih (b.drop Config.widthMax) (by simp [Config.widthMax]; omega) hw.good
      refine ⟨u, ?_, ?_, fun _ => ha' ha⟩
      · rw [run_bind_ok _ ht, hu]
      · have hl : (b.take Config.widthMax).length = min Config.widthMax b.length := by simp
        have h1 : bitsOf (valOf (b.take Config.widthMax)) (min Config.widthMax b.length) = b.take Config.widthMax := by
          rw [← hl, bitsOf_valOf]
        rw [h1] at hw
        have h2 := hw.trans hw'
        rwa [List.take_append_drop] at h2

/-- R134: a bit string of any length is written whole, in order; the chunks cannot be seen. -/
theorem emitBits_good (b : Bits) {s : State} (h : PortsGood s) :
    ∃ t, emitBits b s = .ok () t ∧ Writes s t b ∧ (s.acc.toNat < 2 ^ s.accCnt.toNat → t.acc.toNat < 2 ^ t.accCnt.toNat) :=
  emitChunks_good b.length b (Nat.le_refl _) h

theorem padCount_accCnt (c : BitVec 3) : padCount c.toNat = if c = 0#3 then 0 else 8 - c.toNat := by
  revert c
  decide

/-- R135: `Finish` pads with zeros to the end of the byte, empties the accumulator and the block buffer, and answers the number of
zeros. -/
theorem finish_good {s : State} (h : PortsGood s) (hacc : s.acc.toNat < 2 ^ s.accCnt.toNat) :
    ∃ t, finish s = .ok (padCount s.accCnt.toNat) t ∧ Writes s t (List.replicate (padCount s.accCnt.toNat) false)
      ∧ t.acc = 0#7 ∧ t.accCnt = 0#3 ∧ t.obuf = []
      ∧ t.sinkPos = s.sinkPos + s.obuf.length + (if s.accCnt = 0#3 then 0 else 1) := by
  unfold finish
  simp only [run_get_bind]
  rw [padCount_accCnt]
  by_cases hc : s.accCnt = 0#3
  · simp only [hc, if_true]
    obtain ⟨t, ht, he, ho, hp⟩ := flushOut_good h
    have ha : s.acc = 0#7 := by
      apply BitVec.eq_of_toNat_eq
      rw [hc] at hacc
      simpa using hacc
    have hfa : t.acc = s.acc := by rw [he.frame]
    have hfc : t.accCnt = s.accCnt := by rw [he.frame]
    refine ⟨t, ?_, ⟨⟨[], he.bytes, ?_⟩, he.good, ?_⟩, by rw [hfa, ha], by rw [hfc, hc], ho, by simpa using hp⟩
    · rw [run_bind_ok _ ht, run_pure]
    · simp [pending, hfa, hfc]
    · rw [he.frame]
  · simp only [hc, if_false]
    obtain ⟨t, ht, he⟩ := emitByte_good (BitVec.ofNat 8 (s.acc.toNat * 2 ^ (8 - s.accCnt.toNat))) h
    have hg : PortsGood { t with acc := 0#7, accCnt := 0#3 } := he.good.of_ports rfl
    obtain ⟨u, hu, he', ho, hp⟩ := flushOut_good hg
    have hcnt : s.accCnt.toNat ≠ 0 := fun h0 => hc (BitVec.eq_of_toNat_eq (by simpa using h0))
    have hlt : s.accCnt.toNat < 8 := s.accCnt.isLt
    have hfa : u.acc = 0#7 := by rw [he'.frame]
    have hfc : u.accCnt = 0#3 := by rw [he'.frame]
    have hemit : EmitsBytes s u [BitVec.ofNat 8 (s.acc.toNat * 2 ^ (8 - s.accCnt.toNat))] := by
      have h1 : EmitsBytes s { t with acc := 0#7, accCnt := 0#3 } _ := ⟨he.bytes.1, he.bytes.2⟩
      simpa using h1.trans he'.bytes
    refine ⟨u, ?_, ⟨⟨_, hemit, ?_⟩, he'.good, ?_⟩, hfa, hfc, ho, ?_⟩
    · rw [run_bind_ok _ ht, run_modify_bind, run_bind_ok _ hu, run_pure]
    · have h8 := bitsOf_mul_add s.acc.toNat 0 s.accCnt.toNat (8 - s.accCnt.toNat)
      have h9 : s.accCnt.toNat + (8 - s.accCnt.toNat) = 8 := by omega
      rw [h9] at h8
      simp only [Nat.zero_mod, Nat.add_zero, bitsOf_zero] at h8
      simp only [unpackMsb_cons, unpackMsb_nil, List.append_nil, BitVec.toNat_ofNat, bitsOf_mod, h8, pending, hfa, hfc]
      simp
    · rw [he'.frame, he.frame]
    · have hlen := congrArg List.length he.bytes.1
      simp only [emitted, sinkBytes, List.length_append, List.length_map, List.length_range, List.length_cons,
        List.length_nil] at hlen
      rw [hp]
      simp only
      omega

/-! ### Input -/

theorem advanceBit_cursor (s : State) : cursor (advanceBit s) = cursor s + 1 := by
  unfold advanceBit cursor
  split
  · next h => simp [h]; omega
  · next h =>
    have hlt := s.rdBit.isLt
    have hne : s.rdBit.toNat ≠ 7 := fun h7 => h (BitVec.eq_of_toNat_eq (by simpa using h7))
    have : (s.rdBit + 1#3).toNat = s.rdBit.toNat + 1 := by
      rw [BitVec.toNat_add]
      simp
      omega
    simp only [this]
    omega

/-- The next unread bit. -/
theorem unread_cons {s : State} (h : s.rdByte < s.src.length) :
    unread s = bitOfByte s.src[s.rdByte] s.rdBit :: (unpackMsb s.src).drop (cursor s + 1) := by
  have hb : s.rdBit.toNat < 8 := s.rdBit.isLt
  have hc : cursor s < (unpackMsb s.src).length := by
    simp [cursor]
    omega
  unfold unread
  rw [List.drop_eq_getElem_cons hc, getElem_unpackMsb]
  have h1 : cursor s / 8 = s.rdByte := by unfold cursor; omega
  have h2 : cursor s % 8 = s.rdBit.toNat := by unfold cursor; omega
  simp [h1, h2, bitOfByte]

/-- The part of the state a reader may change. -/
theorem advanceBit_frame (s : State) :
    advanceBit s = { s with rdByte := (advanceBit s).rdByte, rdBit := (advanceBit s).rdBit } := by
  unfold advanceBit
  split <;> rfl

/-- R140: `ReadBit` takes the next unread bit. -/
theorem readBit_good {s : State} (h : PortsGood s) (hl : s.rdByte < s.src.length) :
    ∃ b t, readBit s = .ok b t ∧ unread s = b :: unread t ∧ cursor t = cursor s + 1 ∧ PortsGood t
      ∧ t = { s with ports := t.ports, rdByte := t.rdByte, rdBit := t.rdBit } := by
  refine ⟨bitOfByte s.src[s.rdByte] s.rdBit, advanceBit (usePort s), ?_, ?_, ?_, ?_, ?_⟩
  · unfold readBit
    rw [run_get_bind, run_bind_ok _ (srcByte_good .io h hl), run_modify_bind, run_pure]
  · rw [unread_cons hl]
    unfold unread
    rw [advanceBit_cursor]
    simp
    rfl
  · rw [advanceBit_cursor]
    rfl
  · exact h.use.of_ports (by simp)
  · rw [advanceBit_frame]
    rfl

/-- R140: no unread bit is left. -/
theorem readBit_end {s : State} (hl : s.src.length ≤ s.rdByte) : readBit s = .error (.raised .io s.rdByte) s := by
  unfold readBit
  rw [run_get_bind, run_bind_error _ (srcByte_end .io hl)]

/-- R64, R140: the transaction fails; the cursor does not move. -/
theorem readBit_failed {s : State} {rest : List PortAnswer} (hp : s.ports = .failed :: rest) (hl : s.rdByte < s.src.length) :
    readBit s = .error (.raised .io s.rdByte) (usePort s) := by
  unfold readBit
  rw [run_get_bind, run_bind_error _ (srcByte_failed .io hp hl)]

/-- With an unread bit left the cursor is inside the source. -/
theorem rdByte_lt_of_unread {s : State} {b : Bool} {rest : Bits} (h : unread s = b :: rest) : s.rdByte < s.src.length := by
  have h1 := congrArg List.length h
  simp [unread, cursor] at h1
  omega

/-- R250: the raw bits are assembled most significant bit first. -/
theorem readRaw_good (b rest : Bits) (v : Nat) {s : State} (h : PortsGood s) (hu : unread s = b ++ rest) :
    ∃ t, readRaw b.length v s = .ok (v * 2 ^ b.length + valOf b) t ∧ unread t = rest ∧ cursor t = cursor s + b.length ∧ PortsGood t
      ∧ t = { s with ports := t.ports, rdByte := t.rdByte, rdBit := t.rdBit } := by
  induction b generalizing v s with
  | nil => exact ⟨s, by simp [readRaw], by simpa using hu, rfl, h, rfl⟩
  | cons x b ih =>
    obtain ⟨y, t, ht, h1, h2, h3, h4⟩ := readBit_good h (rdByte_lt_of_unread hu)
    rw [h1] at hu
    have hxy : y = x ∧ unread t = b ++ rest := by simpa using hu
    obtain ⟨u, hu', h5, h6, h7, h8⟩ := ih (shiftIn v y) h3 hxy.2
    refine ⟨u, ?_, h5, ?_, h7, ?_⟩
    · rw [List.length_cons, readRaw, run_bind_ok _ ht, hu', valOf_cons, hxy.1]
      congr 1
      unfold shiftIn
      rw [Nat.pow_succ]
      ring
    · rw [h6, h2, List.length_cons]
      omega
    · rw [h8, h4]

/-- R142: everything `TakeByte` can do. -/
theorem takeByte_eq (onEnd : ErrKind) (s : State) :
    takeByte onEnd s = if s.src.length ≤ s.rdByte then .error (.raised onEnd s.rdByte) s
      else if s.ports.headD .done = .done then
        .ok (s.src.getD s.rdByte 0#8) { usePort s with rdByte := s.rdByte + 1 }
      else .error (.raised .io s.rdByte) (usePort s) := by
  unfold takeByte
  rw [run_get_bind]
  have h := srcByte_eq s.rdByte onEnd s
  by_cases hl : s.src.length ≤ s.rdByte
  · rw [if_pos hl] at h ⊢
    rw [run_bind_error _ h]
  · rw [if_neg hl] at h ⊢
    by_cases hd : s.ports.headD .done = .done
    · rw [if_pos hd] at h ⊢
      rw [run_bind_ok _ h, run_modify_bind, run_pure]
      rfl
    · rw [if_neg hd] at h ⊢
      rw [run_bind_error _ h]

theorem takeByte_good (onEnd : ErrKind) {s : State} (h : PortsGood s) (hl : s.rdByte < s.src.length) :
    takeByte onEnd s = .ok s.src[s.rdByte] { usePort s with rdByte := s.rdByte + 1 } := by
  rw [takeByte_eq, if_neg (by omega), if_pos h.head]
  simp [List.getD, hl]

theorem takeByte_end (onEnd : ErrKind) {s : State} (hl : s.src.length ≤ s.rdByte) :
    takeByte onEnd s = .error (.raised onEnd s.rdByte) s := by rw [takeByte_eq, if_pos hl]

end Sys2Proof.Machine
end

