-- ==== Sys2Proof/Laws/Tree.lean ====
section
/-! SUPPORT. The walks of the arena, said on the abstract tree the arena holds (R36, R38): flattening (R161), code derivation (R201), the
path of an entry (R237), and the descent by the bits of a path (R205, R250). -/

namespace Sys2Proof.Machine

/-! ### Abstract trees -/

@[simp] theorem Tree.leafCount_leaf (i : Nat) (s : BitVec 9) : (Tree.leaf i s).leafCount = 1 := rfl

@[simp] theorem Tree.leafCount_node (i : Nat) (l r : Tree) : (Tree.node i l r).leafCount = l.leafCount + r.leafCount := by
  simp [Tree.leafCount, Tree.syms]

theorem Tree.leafCount_pos (T : Tree) : 0 < T.leafCount := by
  induction T with
  | leaf i s => simp
  | node i l r ihl ihr => simp; omega

@[simp] theorem Tree.leafBytes_leaf (i : Nat) (s : BitVec 9) : (Tree.leaf i s).leafBytes = [s.setWidth 8] := rfl

@[simp] theorem Tree.leafBytes_node (i : Nat) (l r : Tree) : (Tree.node i l r).leafBytes = l.leafBytes ++ r.leafBytes := by
  simp [Tree.leafBytes, Tree.syms]

@[simp] theorem Tree.length_leafBytes (T : Tree) : T.leafBytes.length = T.leafCount := by simp [Tree.leafBytes, Tree.leafCount]

/-- R41: a tree of `L` leaves has `2L - 1` shape bits. -/
theorem Tree.length_shape (T : Tree) : T.shape.length = 2 * T.leafCount - 1 := by
  induction T with
  | leaf i s => rfl
  | node i l r ihl ihr =>
    have hl := l.leafCount_pos
    have hr := r.leafCount_pos
    simp [Tree.shape, ihl, ihr]
    omega

/-- R41: and as many nodes. -/
theorem Tree.length_indices (T : Tree) : T.indices.length = 2 * T.leafCount - 1 := by
  induction T with
  | leaf i s => rfl
  | node i l r ihl ihr =>
    have hl := l.leafCount_pos
    have hr := r.leafCount_pos
    simp [Tree.indices, ihl, ihr]
    omega

@[simp] theorem Tree.idx_leaf (i : Nat) (s : BitVec 9) : (Tree.leaf i s).idx = i := rfl

@[simp] theorem Tree.idx_node (i : Nat) (l r : Tree) : (Tree.node i l r).idx = i := rfl

theorem Tree.idx_mem_indices (T : Tree) : T.idx ∈ T.indices := by cases T <;> simp [Tree.indices]

/-- The shape determines where a tree ends (R168): a shape followed by more bits is read in one way. -/
theorem Tree.shape_append_inj {T U : Tree} {x y : Bits} (h : T.shape ++ x = U.shape ++ y) : T.shape = U.shape ∧ x = y := by
  induction T generalizing U x y with
  | leaf i s =>
    cases U with
    | leaf j u => simpa [Tree.shape] using h
    | node j l r => simp [Tree.shape] at h
  | node i l r ihl ihr =>
    cases U with
    | leaf j u => simp [Tree.shape] at h
    | node j l' r' =>
      simp only [Tree.shape, List.cons_append, List.append_assoc, List.cons.injEq, true_and] at h
      obtain ⟨h1, h2⟩ := ihl h
      obtain ⟨h3, h4⟩ := ihr h2
      exact ⟨by simp [Tree.shape, h1, h3], h4⟩

/-- R200: no path to a leaf goes on from another one. -/
theorem Tree.leafAt_append {T : Tree} {p q : Bits} {a b : BitVec 9} (h : T.leafAt p = some a) (h' : T.leafAt (p ++ q) = some b) :
    q = [] := by
  induction T generalizing p with
  | leaf i s =>
    cases p with
    | nil => cases q with
      | nil => rfl
      | cons x q => simp [Tree.leafAt] at h'
    | cons x p => simp [Tree.leafAt] at h
  | node i l r ihl ihr =>
    cases p with
    | nil => simp [Tree.leafAt] at h
    | cons x p =>
      cases x
      · exact ihl (by simpa [Tree.leafAt] using h) (by simpa [Tree.leafAt] using h')
      · exact ihr (by simpa [Tree.leafAt] using h) (by simpa [Tree.leafAt] using h')

/-- The code of a symbol leads to a leaf of the symbol. -/
theorem Tree.leafAt_codeOf {T : Tree} {a : BitVec 9} {p : Bits} (h : T.codeOf a = some p) : T.leafAt p = some a := by
  induction T generalizing p with
  | leaf i s =>
    unfold Tree.codeOf at h
    split at h
    · next hs =>
      cases h
      rw [Tree.leafAt, hs]
    · cases h
  | node i l r ihl ihr =>
    unfold Tree.codeOf at h
    cases hr : r.codeOf a with
    | some q =>
      rw [hr] at h
      cases h
      simpa [Tree.leafAt] using ihr hr
    | none =>
      rw [hr] at h
      cases hl : l.codeOf a with
      | some q =>
        rw [hl] at h
        cases h
        simpa [Tree.leafAt] using ihl hl
      | none => simp [hl] at h

theorem Tree.codeOf_isSome {T : Tree} {a : BitVec 9} : (T.codeOf a).isSome = true ↔ a ∈ T.syms := by
  induction T with
  | leaf i s =>
    unfold Tree.codeOf
    split <;> simp_all [Tree.syms, eq_comm]
  | node i l r ihl ihr =>
    unfold Tree.codeOf
    rw [Tree.syms, List.mem_append, ← ihl, ← ihr]
    cases r.codeOf a <;> simp

/-- The paths of a tree are not longer than its leaves are many. -/
theorem Tree.length_leafAt {T : Tree} {p : Bits} {a : BitVec 9} (h : T.leafAt p = some a) : p.length < T.leafCount := by
  induction T generalizing p with
  | leaf i s =>
    cases p with
    | nil => simp
    | cons x p => simp [Tree.leafAt] at h
  | node i l r ihl ihr =>
    have hl := l.leafCount_pos
    have hr := r.leafCount_pos
    cases p with
    | nil => simp [Tree.leafAt] at h
    | cons x p =>
      cases x
      · have := ihl (by simpa [Tree.leafAt] using h)
        simp
        omega
      · have := ihr (by simpa [Tree.leafAt] using h)
        simp
        omega

/-! ### The arena -/

/-- A tree is held where the nodes of the tree are the same. -/
theorem Holds.congr {t u : Table Node} {p : Option Nat} {T : Tree} (h : Holds t p T) (hn : ∀ i ∈ T.indices, nodeAt u i = nodeAt t i) :
    Holds u p T := by
  induction T generalizing p with
  | leaf i s =>
    have h0 := hn i (by simp [Tree.indices])
    simpa only [Holds, h0] using h
  | node i l r ihl ihr =>
    have h0 := hn i (by simp [Tree.indices])
    simp only [Holds, h0] at h ⊢
    refine ⟨h.1, h.2.1, h.2.2.1, h.2.2.2.1, h.2.2.2.2.1, ihl h.2.2.2.2.2.1 ?_, ihr h.2.2.2.2.2.2 ?_⟩
    · exact fun j hj => hn j (by simp [Tree.indices, hj])
    · exact fun j hj => hn j (by simp [Tree.indices, hj])

/-- R161: the walk of a held tree. -/
theorem walk_holds {t : Table Node} {p : Option Nat} {T : Tree} (h : Holds t p T) {k : Nat} (hk : T.leafCount ≤ k) :
    walk t k T.idx = some (T.shape, T.leafBytes) := by
  induction T generalizing p k with
  | leaf i s =>
    obtain ⟨k, rfl⟩ : ∃ j, k = j + 1 := ⟨k - 1, by simp at hk; omega⟩
    obtain ⟨h1, h2, -⟩ := h
    simp [walk, h1, h2, Tree.shape]
  | node i l r ihl ihr =>
    have hl := l.leafCount_pos
    have hr := r.leafCount_pos
    simp at hk
    obtain ⟨k, rfl⟩ : ∃ j, k = j + 1 := ⟨k - 1, by omega⟩
    obtain ⟨h1, -, h3, h4, -, h6, h7⟩ := h
    simp [walk, h1, h3, h4, ihl h6 (k := k) (by omega), ihr h7 (k := k) (by omega), Tree.shape]

/-- R161: `Flatten` of a tree of at most 256 leaves. -/
theorem flatten_good {s : State} {T : Tree} (h : TreeAt s T) (hl : T.leafCount ≤ 256) :
    flatten s = .ok () (storeFlat T.shape T.leafBytes s) := by
  have hf : flattened s = some (T.shape, T.leafBytes) := by
    have hw := walk_holds h.2.1 (k := Config.arenaSize) (by unfold Config.arenaSize; omega)
    simp [flattened, h.1, hw, Config.leafMax, hl]
  unfold flatten
  rw [run_get_bind, hf]
  rfl

/-- R201: the code table after the walk of a held tree. -/
theorem walkC_holds {t : Table Node} {p : Option Nat} {T : Tree} (h : Holds t p T) (hs : ∀ x ∈ T.syms, x.toNat < 256) {k : Nat}
    (hk : T.leafCount ≤ k) (q : Bits) (c : Table Bits) :
    ∃ c', walkC t k T.idx q c = some c'
      ∧ ∀ b : Byte, Table.get [] c' b.toNat = match T.codeOf (b.setWidth 9) with
        | some x => q ++ x
        | none => Table.get [] c b.toNat := by
  induction T generalizing p k q c with
  | leaf i s =>
    obtain ⟨k, rfl⟩ : ∃ j, k = j + 1 := ⟨k - 1, by simp at hk; omega⟩
    obtain ⟨h1, h2, -⟩ := h
    have hs' := hs s (by simp [Tree.syms])
    refine ⟨Table.set [] c (s.setWidth 8).toNat q, by simp [walkC, h1, h2], fun b => ?_⟩
    rw [Table.get_set]
    have hiff : b.toNat = (s.setWidth 8).toNat ↔ s = b.setWidth 9 := by
      have hb := b.isLt
      constructor
      · intro he
        apply BitVec.eq_of_toNat_eq
        simp only [BitVec.toNat_setWidth] at he ⊢
        omega
      · intro he
        rw [he]
        simp only [BitVec.toNat_setWidth]
        omega
    unfold Tree.codeOf
    by_cases he : s = b.setWidth 9
    · rw [if_pos (hiff.mpr he), if_pos he]
      simp
    · rw [if_neg (fun hh => he (hiff.mp hh)), if_neg he]
  | node i l r ihl ihr =>
    have hl := l.leafCount_pos
    have hr := r.leafCount_pos
    simp at hk
    obtain ⟨k, rfl⟩ : ∃ j, k = j + 1 := ⟨k - 1, by omega⟩
    obtain ⟨h1, -, h3, h4, -, h6, h7⟩ := h
    obtain ⟨c1, hw1, hc1⟩ := ihl h6 (fun x hx => hs x (by simp [Tree.syms, hx])) (k := k) (by omega) (q ++ [false]) c
    obtain ⟨c2, hw2, hc2⟩ := ihr h7 (fun x hx => hs x (by simp [Tree.syms, hx])) (k := k) (by omega) (q ++ [true]) c1
    refine ⟨c2, by simp [walkC, h1, h3, h4, hw1, hw2], fun b => ?_⟩
    rw [hc2, hc1, Tree.codeOf]
    cases r.codeOf (b.setWidth 9) with
    | some x => simp
    | none => cases l.codeOf (b.setWidth 9) <;> simp

/-- R201: `MkCodes` on a static tree. -/
theorem mkCodes_good {s : State} {T : Tree} (h : TreeAt s T) (hs : T.Static) :
    ∃ c, mkCodes s = .ok () (setCodesValid { s with codeBits := c })
      ∧ ∀ b : Byte, Table.get [] c b.toNat = (T.codeOf (b.setWidth 9)).getD [] := by
  obtain ⟨c, hw, hc⟩ := walkC_holds h.2.1 hs.2.2 (k := Config.arenaSize)
    (by have := hs.2.1; unfold Config.arenaSize; unfold Config.leafMax at this; omega) [] []
  refine ⟨c, ?_, fun b => ?_⟩
  · have hd : derivedCodes s = some c := by simp [derivedCodes, h.1, hw]
    unfold mkCodes
    rw [run_get_bind, hd]
    rfl
  · rw [hc]
    cases T.codeOf (b.setWidth 9) <;> simp

/-- R237: going up from an entry of a held tree to the tree's root prepends the path of the entry. -/
theorem pathUp_holds {t : Table Node} {p : Option Nat} {T : Tree} (h : Holds t p T) (hn : T.indices.Nodup) {n : Nat} {q : Bits}
    (hq : T.pathTo n = some q) (k : Nat) (x : Bits) : pathUp t (q.length + k) n x = pathUp t k T.idx (q ++ x) := by
  induction T generalizing p n q k x with
  | leaf i s =>
    unfold Tree.pathTo at hq
    split at hq
    · next hi =>
      cases hq
      simp [Tree.idx, hi]
    · cases hq
  | node i l r ihl ihr =>
    have hmem : ∀ {U : Tree} {m : Nat} {y : Bits}, U.pathTo m = some y → m ∈ U.indices := by
      intro U
      induction U with
      | leaf j s =>
        intro m y hy
        unfold Tree.pathTo at hy
        split at hy
        · next hj => simp [Tree.indices, hj]
        · cases hy
      | node j a b iha ihb =>
        intro m y hy
        unfold Tree.pathTo at hy
        split at hy
        · next hj => simp [Tree.indices, hj]
        · cases ha : a.pathTo m with
          | some z => simp [Tree.indices, iha ha]
          | none =>
            rw [ha] at hy
            cases hb : b.pathTo m with
            | some z => simp [Tree.indices, ihb hb]
            | none => simp [hb] at hy
    have hnd : l.indices.Nodup ∧ r.indices.Nodup ∧ ∀ a ∈ l.indices, ∀ b ∈ r.indices, a ≠ b := by
      have := (List.nodup_cons.mp hn).2
      exact List.nodup_append.mp this
    obtain ⟨h1, -, h3, h4, -, h6, h7⟩ := h
    unfold Tree.pathTo at hq
    split at hq
    · next hi =>
      cases hq
      simp [Tree.idx, hi]
    · have hroot : ∀ {U : Tree} {pp : Option Nat}, Holds t pp U → (nodeAt t U.idx).parent = pp := by
        intro U pp hU
        cases U with
        | leaf j s => exact hU.2.2.2.2
        | node j a b => exact hU.2.2.2.2.1
      cases hl : l.pathTo n with
      | some y =>
        rw [hl] at hq
        cases hq
        have hne : (nodeAt t i).right ≠ some l.idx := by
          rw [h4]
          intro hc
          exact hnd.2.2 _ l.idx_mem_indices _ r.idx_mem_indices (by simpa using hc.symm)
        rw [List.length_cons, show y.length + 1 + k = y.length + (k + 1) by omega, ihl h6 hnd.1 hl (k + 1) x, pathUp, hroot h6]
        simp [hne]
      | none =>
        rw [hl] at hq
        cases hr : r.pathTo n with
        | some y =>
          rw [hr] at hq
          cases hq
          rw [List.length_cons, show y.length + 1 + k = y.length + (k + 1) by omega, ihr h7 hnd.2.1 hr (k + 1) x, pathUp, hroot h7]
          simp [h4]
        | none => simp [hr] at hq

/-- R237: the path of an entry of the tree at the root. -/
theorem path_good {s : State} {T : Tree} (h : TreeAt s T) {n : Nat} {q : Bits} (hq : T.pathTo n = some q)
    (hl : q.length < Config.arenaSize) : path n s = .ok q s := by
  have hn : T.indices.Nodup := (List.Perm.nodup_iff h.2.2.1).mpr List.nodup_range
  have h1 := pathUp_holds h.2.1 hn hq (Config.arenaSize - q.length) []
  have h2 : q.length + (Config.arenaSize - q.length) = Config.arenaSize := by omega
  have hroot : (nodeAt s.arena T.idx).parent = none := by
    have := h.2.1
    cases T with
    | leaf j s => exact this.2.2.2.2
    | node j a b => exact this.2.2.2.2.1
  obtain ⟨k, hk⟩ : ∃ k, Config.arenaSize - q.length = k + 1 := ⟨Config.arenaSize - q.length - 1, by omega⟩
  rw [h2, hk, pathUp, hroot] at h1
  unfold path
  rw [run_get_bind, h1]
  simp

/-- The child a bit selects is the root of the subtree (R205, R250). -/
theorem childOf_holds {t : Table Node} {p : Option Nat} {i : Nat} {l r : Tree} (h : Holds t p (.node i l r)) (b : Bool) :
    childOf (nodeAt t i) b = some (if b then r else l).idx := by
  obtain ⟨-, -, h3, h4, -⟩ := h
  cases b <;> simp [childOf, h3, h4]

/-- A held tree's root is a leaf of the arena exactly when the tree is a leaf. -/
theorem kind_idx {t : Table Node} {p : Option Nat} {T : Tree} (h : Holds t p T) :
    (nodeAt t T.idx).kind = match T with
      | .leaf _ _ => Kind.leaf
      | .node _ _ _ => Kind.internal := by
  cases T with
  | leaf i s => exact h.1
  | node i l r => exact h.1

/-- One level of the descent (R250). -/
theorem descend_internal {s t : State} {k n m : Nat} {b : Bool} (hk : (s.node n).kind = .internal) (hb : readBit s = .ok b t)
    (hm : childOf (s.node n) b = some m) : descend (k + 1) n s = descend k m t := by
  rw [descend, run_get_bind, if_pos hk, run_bind_ok _ hb, hm, run_bind_ok _ (run_fromTree_some m t)]

/-- R250: the descent by the bits of a path to a leaf ends at a leaf with the symbol, the bits of the path consumed. -/
theorem descend_good {T : Tree} {pp : Option Nat} {a : BitVec 9} {q rest : Bits} {s : State} {k : Nat} (h : Holds s.arena pp T)
    (hq : T.leafAt q = some a) (hg : PortsGood s) (hu : unread s = q ++ rest) (hk : q.length < k) :
    ∃ n t, descend k T.idx s = .ok n t ∧ (s.node n).sym = a ∧ (s.node n).kind = .leaf ∧ T.HasLeaf n a
      ∧ unread t = rest ∧ cursor t = cursor s + q.length ∧ PortsGood t
      ∧ t = { s with ports := t.ports, rdByte := t.rdByte, rdBit := t.rdBit } := by
  induction T generalizing pp q s k with
  | leaf i x =>
    obtain ⟨k, rfl⟩ : ∃ j, k = j + 1 := ⟨k - 1, by omega⟩
    cases q with
    | cons y q => simp [Tree.leafAt] at hq
    | nil =>
      have hx : x = a := by simpa [Tree.leafAt] using hq
      obtain ⟨h1, h2, -⟩ := h
      refine ⟨i, s, ?_, by rw [State.node, h2, hx], h1, ⟨rfl, hx⟩, by simpa using hu, rfl, hg, rfl⟩
      simp [descend, State.node, h1]
  | node i l r ihl ihr =>
    obtain ⟨k, rfl⟩ : ∃ j, k = j + 1 := ⟨k - 1, by omega⟩
    cases q with
    | nil => simp [Tree.leafAt] at hq
    | cons y q =>
      obtain ⟨z, t, ht, h1, h2, h3, h4⟩ := readBit_good hg (rdByte_lt_of_unread hu)
      rw [h1] at hu
      have hzy : z = y ∧ unread t = q ++ rest := by simpa using hu
      have harena : t.arena = s.arena := by rw [h4]
      have hc : childOf (s.node i) y = some (if y then r else l).idx := childOf_holds h y
      have hkind : (s.node (Tree.node i l r).idx).kind = .internal := h.1
      obtain ⟨-, -, -, -, -, h6, h7⟩ := h
      have hrun : ∀ m, childOf (s.node i) y = some m →
          descend (k + 1) (Tree.node i l r).idx s = descend k m t := by
        intro m hm
        exact descend_internal hkind (hzy.1 ▸ ht) hm
      have hfin : ∀ {U : Tree}, (∃ n u, descend k U.idx t = .ok n u ∧ (t.node n).sym = a ∧ (t.node n).kind = .leaf ∧ U.HasLeaf n a
          ∧ unread u = rest ∧ cursor u = cursor t + q.length ∧ PortsGood u
          ∧ u = { t with ports := u.ports, rdByte := u.rdByte, rdBit := u.rdBit }) →
          (∀ n, U.HasLeaf n a → (Tree.node i l r).HasLeaf n a) → childOf (s.node i) y = some U.idx →
          ∃ n u, descend (k + 1) (Tree.node i l r).idx s = .ok n u ∧ (s.node n).sym = a ∧ (s.node n).kind = .leaf
            ∧ (Tree.node i l r).HasLeaf n a ∧ unread u = rest ∧ cursor u = cursor s + (y :: q).length ∧ PortsGood u
            ∧ u = { s with ports := u.ports, rdByte := u.rdByte, rdBit := u.rdBit } := by
        rintro U ⟨n, u, e1, e2, e3, e4, e5, e6, e7, e8⟩ hleaf hm
        refine ⟨n, u, by rw [hrun _ hm, e1], ?_, ?_, hleaf n e4, e5, ?_, e7, ?_⟩
        · rw [← e2, State.node, State.node, harena]
        · rw [← e3, State.node, State.node, harena]
        · rw [e6, h2, List.length_cons]
          omega
        · rw [e8, h4]
      simp at hk
      cases y
      · exact hfin (ihl (by rw [harena]; exact h6) (by simpa [Tree.leafAt] using hq) h3 hzy.2 (by omega))
          (fun n hn => .inl hn) (by simpa using hc)
      · exact hfin (ihr (by rw [harena]; exact h7) (by simpa [Tree.leafAt] using hq) h3 hzy.2 (by omega))
          (fun n hn => .inr hn) (by simpa using hc)

end Sys2Proof.Machine
end

