-- ==== Sys2Proof/Laws/Units.lean ====
section
/-! SUPPORT. What the procedures of the FB, TC and SH units do when no transaction fails: the scan (R180, R182), the guard (R184), the
header (R164), the symbol decode (R205, R206). -/

namespace Sys2Proof.Machine

/-! ### Counting (R180 to R184) -/

theorem countP_insert (l : List Nat) (hl : l.Nodup) (k : Nat) (hk : k ∈ l) (p : Nat → Bool) :
    l.countP (fun j => decide (j = k) || p j) = l.countP p + (if p k then 0 else 1) := by
  induction l with
  | nil => cases hk
  | cons a l ih =>
    have hnd := List.nodup_cons.mp hl
    rw [List.countP_cons, List.countP_cons]
    by_cases ha : a = k
    · subst ha
      have h1 : l.countP (fun j => decide (j = a) || p j) = l.countP p := by
        apply List.countP_congr
        intro j hj
        have : j ≠ a := fun h => hnd.1 (h ▸ hj)
        simp [this]
      rw [h1]
      cases p a <;> simp
    · have h2 : k ∈ l := by
        rcases List.mem_cons.mp hk with h | h
        · exact absurd h.symm ha
        · exact h
      rw [ih hnd.2 h2]
      simp only [ha, decide_false, Bool.false_or]
      omega

/-- The number of nonzero counts, read entry by entry. -/
theorem nonzeroCount_eq (s : State) : nonzeroCount s = (List.range 256).countP fun k => decide (0 < Table.get 0 s.freq k) := by
  unfold nonzeroCount Table.firstN
  rw [List.countP_map]
  rfl

/-- R180: `DISTINCT` stays the number of nonzero counts. -/
theorem accSymbol_nonzeroCount (b : Byte) {s : State} (h : s.distinct = nonzeroCount s) :
    (accSymbol b s).distinct = nonzeroCount (accSymbol b s) := by
  have h1 : nonzeroCount (accSymbol b s)
      = (List.range 256).countP fun k => decide (k = b.toNat) || decide (0 < Table.get 0 s.freq k) := by
    rw [nonzeroCount_eq]
    apply List.countP_congr
    intro k _
    change decide (0 < Table.get 0 (Table.set 0 s.freq b.toNat (s.freqOf b + 1)) k) = true ↔ _
    rw [Table.get_set]
    by_cases hk : k = b.toNat <;> simp [hk]
  rw [h1, countP_insert _ List.nodup_range _ (List.mem_range.mpr b.isLt), ← nonzeroCount_eq, ← h]
  unfold accSymbol State.freqOf
  by_cases h0 : Table.get 0 s.freq b.toNat = 0
  · simp [h0]
  · simp [h0, Nat.pos_of_ne_zero h0]

/-- R182 from offset `i`: the bytes from there on are counted. -/
theorem scanFrom_good (n i : Nat) {s : State} (h : PortsGood s) (hi : i + n = s.src.length) :
    ∃ t, upFrom scanByte n i s = .ok () t ∧ PortsGood t ∧ (∀ b, t.freqOf b = s.freqOf b + (s.src.drop i).count b)
      ∧ (s.distinct = nonzeroCount s → t.distinct = nonzeroCount t)
      ∧ t = { s with ports := t.ports, freq := t.freq, distinct := t.distinct } := by
  induction n generalizing i s with
  | zero =>
    refine ⟨s, rfl, h, fun b => ?_, id, rfl⟩
    rw [List.drop_eq_nil_of_le (by omega)]
    simp
  | succ n ih =>
    have hl : i < s.src.length := by omega
    have h1 : scanByte i s = .ok () (accSymbol s.src[i] (usePort s)) := by
      unfold scanByte
      rw [run_bind_ok _ (srcByte_good .io h hl), run_modify]
    obtain ⟨t, ht, hg, hf, hd, hfr⟩ := ih (i + 1) (s := accSymbol s.src[i] (usePort s)) (h.use.of_ports rfl) (by
      change i + 1 + n = s.src.length
      omega)
    refine ⟨t, ?_, hg, fun b => ?_, fun h0 => hd (accSymbol_nonzeroCount _ h0), ?_⟩
    · rw [upFrom, run_bind_ok _ h1, ht]
    · rw [hf, accSymbol_freqOf, List.drop_eq_getElem_cons hl, List.count_cons]
      change (if b = s.src[i] then s.freqOf s.src[i] + 1 else s.freqOf b) + (s.src.drop (i + 1)).count b = _
      by_cases hb : b = s.src[i]
      · simp [hb]
        omega
      · have hb' : ¬ s.src[i] = b := fun h => hb h.symm
        simp [hb, hb']
    · rw [hfr]
      rfl

/-- R182: `Scan` adds the count of every byte value of SRC. -/
theorem scan_good {s : State} (h : PortsGood s) :
    ∃ t, scan s = .ok () t ∧ PortsGood t ∧ (∀ b, t.freqOf b = s.freqOf b + s.src.count b)
      ∧ (s.distinct = nonzeroCount s → t.distinct = nonzeroCount t)
      ∧ t = { s with ports := t.ports, freq := t.freq, distinct := t.distinct } := by
  obtain ⟨t, ht, hg, hf, hd, hfr⟩ := scanFrom_good s.src.length 0 h (by omega)
  refine ⟨t, ?_, hg, by simpa using hf, hd, hfr⟩
  unfold scan
  rw [run_get_bind]
  exact ht

/-- R184: everything `CheckDistinct` can do. -/
theorem checkDistinct_eq (s : State) :
    checkDistinct s = if s.distinct < 2 then .error (.raised .invalidInput s.distinct) s else .ok () s := by
  unfold checkDistinct
  rw [run_get_bind]
  split
  · next h => exact raiseIf_pos _ _ _ h
  · next h => exact raiseIf_neg _ _ _ h

/-! ### The header (R163, R164) -/

/-- R163: the header bytes of the buffers `Flatten` filled. -/
theorem headerBytes_storeFlat (ig sig : Byte) (T : Tree) (s : State) :
    headerBytes ig sig (storeFlat T.shape T.leafBytes s) = staticHeader ig sig T := by
  have h1 : Table.firstN 0#8 (Table.setFrom 0#8 [] 0 (packMsb T.shape)) (ceil8 T.shape.length) = packMsb T.shape := by
    rw [← length_packMsb]
    exact Table.firstN_setFrom 0#8 [] _
  have h2 : Table.firstN 0#8 (Table.setFrom 0#8 s.leaves 0 T.leafBytes) T.leafBytes.length = T.leafBytes :=
    Table.firstN_setFrom 0#8 s.leaves _
  unfold headerBytes staticHeader storeFlat setFlatValid
  simp only [h1, h2]
  rw [T.length_shape, Tree.length_leafBytes]
  rfl

/-- R164: `SerHdr` flattens and emits the header. -/
theorem serHdr_good (ig sig : Byte) {s : State} {T : Tree} (h : TreeAt s T) (hl : T.leafCount ≤ 256) (hg : PortsGood s) :
    ∃ t, serHdr ig sig s = .ok () { t with hdrIgnore := ig, hdrSig := sig }
      ∧ Emits (storeFlat T.shape T.leafBytes s) t (staticHeader ig sig T) := by
  have hs : PortsGood (storeFlat T.shape T.leafBytes s) := hg.of_ports rfl
  obtain ⟨t, ht, he⟩ := emitBytes_good (headerBytes ig sig (storeFlat T.shape T.leafBytes s)) hs
  rw [headerBytes_storeFlat] at ht he
  refine ⟨t, ?_, he⟩
  unfold serHdr
  rw [run_bind_ok _ (flatten_good h hl), run_get_bind, headerBytes_storeFlat, run_bind_ok _ ht, run_modify]

/-! ### The symbol decode (R205, R206) -/

/-- R141: the end test, in terms of the unread bits. -/
theorem atEnd_iff {ig : Nat} {s : State} (h : cursor s ≤ 8 * s.src.length) : atEnd ig s = true ↔ (unread s).length = ig := by
  have h1 : (unread s).length = 8 * s.src.length - cursor s := by simp [unread]
  rw [h1]
  unfold cursor at h ⊢
  unfold atEnd State.srcLen
  rw [decide_eq_true_iff]
  omega

theorem cursor_le_of_unread {s : State} {b : Bool} {rest : Bits} (h : unread s = b :: rest) : cursor s < 8 * s.src.length := by
  have h1 := congrArg List.length h
  simp [unread] at h1
  omega

/-- One round of `DecSym` (R205) away from the logical end. -/
theorem decLoop_round {ig k n m : Nat} {s t : State} {b : Bool} (he : atEnd ig s = false) (hb : readBit s = .ok b t)
    (hm : childOf (s.node n) b = some m) :
    decLoop ig (k + 1) n s = if (s.node m).kind = .leaf then
        (do emitByte ((s.node m).sym.setWidth 8); pure ((s.node m).sym.setWidth 8).toNat : Cmd Nat) t
      else decLoop ig k m t := by
  rw [decLoop, run_get_bind, he]
  simp only [Bool.false_eq_true, if_false]
  rw [run_bind_ok _ hb, hm, run_bind_ok _ (run_fromTree_some m t)]
  split <;> rfl

/-- R205: a whole code, with at least `ig` bits after it, is consumed, and the leaf's symbol is emitted. -/
theorem decLoop_good {T : Tree} {pp : Option Nat} {a : BitVec 9} {q rest : Bits} {s : State} {k ig : Nat} (h : Holds s.arena pp T)
    (hq : T.leafAt q = some a) (hne : q ≠ []) (hg : PortsGood s) (hu : unread s = q ++ rest) (hig : ig ≤ rest.length)
    (hk : q.length < k) :
    ∃ t u, decLoop ig k T.idx s = .ok (a.setWidth 8).toNat u ∧ Emits t u [a.setWidth 8] ∧ unread t = rest
      ∧ cursor t = cursor s + q.length ∧ t = { s with ports := t.ports, rdByte := t.rdByte, rdBit := t.rdBit } := by
  induction T generalizing pp q s k with
  | leaf i x =>
    cases q with
    | nil => exact absurd rfl hne
    | cons y q => simp [Tree.leafAt] at hq
  | node i l r ihl ihr =>
    obtain ⟨k, rfl⟩ : ∃ j, k = j + 1 := ⟨k - 1, by omega⟩
    cases q with
    | nil => exact absurd rfl hne
    | cons y q =>
      have hcur := cursor_le_of_unread hu
      have hend : atEnd ig s = false := by
        rw [Bool.eq_false_iff, ne_eq, atEnd_iff (by omega), hu]
        simp
        omega
      obtain ⟨z, t, ht, h1, h2, h3, h4⟩ := readBit_good hg (rdByte_lt_of_unread hu)
      rw [h1] at hu
      have hzy : z = y ∧ unread t = q ++ rest := by simpa using hu
      obtain ⟨rfl, hut⟩ := hzy
      have harena : t.arena = s.arena := by rw [h4]
      have hc : childOf (s.node i) z = some (if z then r else l).idx := childOf_holds h z
      obtain ⟨-, -, -, -, -, h6, h7⟩ := h
      simp at hk
      have hgo : ∀ {U : Tree}, childOf (s.node i) z = some U.idx → Holds s.arena (some i) U → U.leafAt q = some a →
          (q ≠ [] → ∃ t' u, decLoop ig k U.idx t = .ok (a.setWidth 8).toNat u ∧ Emits t' u [a.setWidth 8] ∧ unread t' = rest
            ∧ cursor t' = cursor t + q.length ∧ t' = { t with ports := t'.ports, rdByte := t'.rdByte, rdBit := t'.rdBit }) →
          ∃ t' u, decLoop ig (k + 1) (Tree.node i l r).idx s = .ok (a.setWidth 8).toNat u ∧ Emits t' u [a.setWidth 8]
            ∧ unread t' = rest ∧ cursor t' = cursor s + (z :: q).length
            ∧ t' = { s with ports := t'.ports, rdByte := t'.rdByte, rdBit := t'.rdBit } := by
        intro U hm hU hleaf ih
        have hround := decLoop_round (k := k) hend ht (n := (Tree.node i l r).idx) hm
        cases U with
        | leaf j x =>
          have hqe : q = [] := by
            cases q with
            | nil => rfl
            | cons y q => simp [Tree.leafAt] at hleaf
          subst hqe
          have hx : x = a := by simpa [Tree.leafAt] using hleaf
          have hkind : (s.node (Tree.leaf j x).idx).kind = .leaf := hU.1
          have hsym : (s.node (Tree.leaf j x).idx).sym = a := by rw [← hx]; exact hU.2.1
          obtain ⟨u, hu', he⟩ := emitByte_good (a.setWidth 8) h3
          refine ⟨t, u, ?_, he, by simpa using hut, by simpa using h2, h4⟩
          rw [hround, if_pos hkind, hsym, run_bind_ok _ hu', run_pure]
        | node j a' b' =>
          have hkind : ¬ (s.node (Tree.node j a' b').idx).kind = .leaf := by
            have : (s.node (Tree.node j a' b').idx).kind = .internal := hU.1
            rw [this]
            decide
          have hqn : q ≠ [] := by
            rintro rfl
            simp [Tree.leafAt] at hleaf
          obtain ⟨t', u, e1, e2, e3, e4, e5⟩ := ih hqn
          refine ⟨t', u, by rw [hround, if_neg hkind, e1], e2, e3, ?_, ?_⟩
          · rw [e4, h2, List.length_cons]
            omega
          · rw [e5, h4]
      cases z
      · exact hgo (by simpa using hc) h6 (by simpa [Tree.leafAt] using hq)
          (fun hn => ihl (by rw [harena]; exact h6) (by simpa [Tree.leafAt] using hq) hn h3 hut (by omega))
      · exact hgo (by simpa using hc) h7 (by simpa [Tree.leafAt] using hq)
          (fun hn => ihr (by rw [harena]; exact h7) (by simpa [Tree.leafAt] using hq) hn h3 hut (by omega))

/-- R205, R206: bits that complete no code are consumed up to the logical end; nothing is emitted. -/
theorem decLoop_stops {T : Tree} {pp : Option Nat} {p rest : Bits} {s : State} {k ig : Nat} (h : Holds s.arena pp T)
    (hno : ∀ q, q <+: p → T.leafAt q = none) (hg : PortsGood s) (hu : unread s = p ++ rest) (hig : rest.length = ig)
    (hcur : cursor s ≤ 8 * s.src.length) (hk : p.length < k) :
    ∃ t, decLoop ig k T.idx s = .ok endOfStream t ∧ unread t = rest ∧ cursor t = cursor s + p.length ∧ PortsGood t
      ∧ t = { s with ports := t.ports, rdByte := t.rdByte, rdBit := t.rdBit } := by
  induction p generalizing T pp s k with
  | nil =>
    obtain ⟨k, rfl⟩ : ∃ j, k = j + 1 := ⟨k - 1, by omega⟩
    have hend : atEnd ig s = true := by
      rw [atEnd_iff hcur, hu]
      simpa using hig
    refine ⟨s, ?_, by simpa using hu, rfl, hg, rfl⟩
    rw [decLoop, run_get_bind, hend]
    rfl
  | cons y p ih =>
    obtain ⟨k, rfl⟩ : ∃ j, k = j + 1 := ⟨k - 1, by omega⟩
    cases T with
    | leaf i x =>
      have := hno [] (List.nil_prefix)
      simp [Tree.leafAt] at this
    | node i l r =>
      have hend : atEnd ig s = false := by
        rw [Bool.eq_false_iff, ne_eq, atEnd_iff hcur, hu]
        simp
        omega
      obtain ⟨z, t, ht, h1, h2, h3, h4⟩ := readBit_good hg (rdByte_lt_of_unread hu)
      have hlt := cursor_le_of_unread hu
      rw [h1] at hu
      have hzy : z = y ∧ unread t = p ++ rest := by simpa using hu
      obtain ⟨rfl, hut⟩ := hzy
      have harena : t.arena = s.arena := by rw [h4]
      have hsrc : t.src = s.src := by rw [h4]
      have hc : childOf (s.node i) z = some (if z then r else l).idx := childOf_holds h z
      have hU : ∃ pp, Holds s.arena pp (if z then r else l) := by
        obtain ⟨-, -, -, -, -, h6, h7⟩ := h
        cases z
        · exact ⟨_, h6⟩
        · exact ⟨_, h7⟩
      have hnoU : ∀ q, q <+: p → (if z then r else l).leafAt q = none := by
        intro q hq
        have := hno (z :: q) (List.cons_prefix_cons.mpr ⟨rfl, hq⟩)
        cases z <;> simpa [Tree.leafAt] using this
      obtain ⟨pp', hU⟩ := hU
      generalize (if z = true then r else l) = U at hc hU hnoU
      have hkind : ¬ (s.node U.idx).kind = .leaf := by
        cases U with
        | leaf j x =>
          have := hnoU [] List.nil_prefix
          simp [Tree.leafAt] at this
        | node j a b =>
          have h0 : (s.node (Tree.node j a b).idx).kind = .internal := hU.1
          rw [h0]
          decide
      simp at hk
      obtain ⟨u, e1, e2, e3, e4, e5⟩ := ih (T := U) (by rw [harena]; exact hU) hnoU h3 hut
        (by rw [h2, hsrc]; omega) (k := k) (by omega)
      refine ⟨u, ?_, e2, ?_, e4, ?_⟩
      · rw [Tree.idx_node, decLoop_round hend ht hc, if_neg hkind, e1]
      · rw [e3, h2, List.length_cons]
        omega
      · rw [e5, h4]

end Sys2Proof.Machine
end

