-- ==== Sys2Proof/Laws/Deser.lean ====
section
/-! SUPPORT. What `Deser` does (R168): a run of `Build1` that comes to its end has built one tree of the arena from the bits and the bytes
it took, and it comes to its end on the flattened form of every tree. -/

namespace Sys2Proof.Machine

/-- The shape bits from `sc` on, `n` of them. -/
def shapeBitsFrom (s : State) (sc n : Nat) : Bits := (List.range n).map fun j => shapeBit s (sc + j)

/-- The leaf bytes from `lc` on, `n` of them. -/
def leafBytesFrom (s : State) (lc n : Nat) : List Byte := (List.range n).map fun j => s.leafByte (lc + j)

theorem shapeBitsFrom_add (s : State) (sc m n : Nat) :
    shapeBitsFrom s sc (m + n) = shapeBitsFrom s sc m ++ shapeBitsFrom s (sc + m) n := by
  simp [shapeBitsFrom, List.range_add, Function.comp_def, Nat.add_assoc]

theorem leafBytesFrom_add (s : State) (lc m n : Nat) :
    leafBytesFrom s lc (m + n) = leafBytesFrom s lc m ++ leafBytesFrom s (lc + m) n := by
  simp [leafBytesFrom, List.range_add, Function.comp_def, Nat.add_assoc]

theorem shapeBitsFrom_one (s : State) (sc : Nat) : shapeBitsFrom s sc 1 = [shapeBit s sc] := by simp [shapeBitsFrom]

theorem leafBytesFrom_one (s : State) (lc : Nat) : leafBytesFrom s lc 1 = [s.leafByte lc] := by simp [leafBytesFrom]

/-- R167: the shape bits are the bits of the shape bytes. -/
theorem shapeBitsFrom_eq (s : State) {n : Nat} (h : n ≤ 8 * s.shapeSize) :
    shapeBitsFrom s 0 n = (unpackMsb (Table.firstN 0#8 s.shape s.shapeSize)).take n := by
  apply List.ext_getElem
  · simp [shapeBitsFrom]
    omega
  · intro i h1 h2
    simp [shapeBitsFrom] at h1
    simp only [shapeBitsFrom, List.getElem_map, List.getElem_range, List.getElem_take, getElem_unpackMsb, Table.getElem_firstN,
      Nat.zero_add]
    rfl

theorem leafBytesFrom_eq (s : State) : leafBytesFrom s 0 s.leafCnt = Table.firstN 0#8 s.leaves s.leafCnt := by
  simp [leafBytesFrom, Table.firstN, State.leafByte]

/-! ### Linking two built subtrees -/

theorem nodeAt_setParent (t : Table Node) (i p j : Nat) :
    nodeAt (setParent t i p) j = if j = i then { nodeAt t i with parent := some p } else nodeAt t j := by
  unfold setParent
  rw [nodeAt_setNode]

/-- A held tree under a new parent. -/
theorem Holds.setParent {t : Table Node} {p : Option Nat} {T : Tree} (h : Holds t p T) (hn : T.indices.Nodup) (q : Nat) :
    Holds (setParent t T.idx q) (some q) T := by
  cases T with
  | leaf i s =>
    simp only [Holds, Tree.idx_leaf, nodeAt_setParent, if_pos] at h ⊢
    exact ⟨h.1, h.2.1, h.2.2.1, h.2.2.2.1, trivial⟩
  | node i l r =>
    have hne := (List.nodup_cons.mp hn).1
    simp only [Holds, Tree.idx_node, nodeAt_setParent, if_pos] at h ⊢
    refine ⟨h.1, h.2.1, h.2.2.1, h.2.2.2.1, trivial, h.2.2.2.2.2.1.congr ?_, h.2.2.2.2.2.2.congr ?_⟩
    · intro j hj
      rw [nodeAt_setParent, if_neg]
      rintro rfl
      exact hne (by simp [hj])
    · intro j hj
      rw [nodeAt_setParent, if_neg]
      rintro rfl
      exact hne (by simp [hj])

/-- Everything `linkNodes` does to the entries. -/
theorem nodeAt_linkNodes (t : Table Node) {i l r : Nat} (hil : i ≠ l) (hir : i ≠ r) (hlr : l ≠ r) (j : Nat) :
    nodeAt (linkNodes t i l r) j =
      if j = i then { nodeAt t i with left := some l, right := some r }
      else if j = l ∨ j = r then { nodeAt t j with parent := some i }
      else nodeAt t j := by
  unfold linkNodes
  simp only [nodeAt_setParent, nodeAt_setNode]
  by_cases h1 : j = r
  · subst h1
    simp [hir.symm, hlr.symm]
  · by_cases h2 : j = l
    · subst h2
      simp [hil.symm, h1]
    · by_cases h3 : j = i
      · subst h3
        simp [hil, hir]
      · simp [h1, h2, h3]

/-- R168: an internal entry whose two built subtrees are linked below it. -/
theorem holds_linkNodes {t : Table Node} {i : Nat} {l r : Tree} (hi : nodeAt t i = deserInternal) (hl : Holds t none l)
    (hr : Holds t none r) (hn : (Tree.node i l r).indices.Nodup) : Holds (linkNodes t i l.idx r.idx) none (.node i l r) := by
  have hnd := List.nodup_cons.mp hn
  have hap := List.nodup_append.mp hnd.2
  have hil : i ≠ l.idx := fun h => hnd.1 (by rw [h]; simp [l.idx_mem_indices])
  have hir : i ≠ r.idx := fun h => hnd.1 (by rw [h]; simp [r.idx_mem_indices])
  have hlr : l.idx ≠ r.idx := hap.2.2 _ l.idx_mem_indices _ r.idx_mem_indices
  have h0 := nodeAt_linkNodes t hil hir hlr
  refine ⟨?_, ?_, ?_, ?_, ?_, ?_, ?_⟩
  · rw [h0, if_pos rfl, hi]
    rfl
  · rw [h0, if_pos rfl, hi]
    rfl
  · rw [h0, if_pos rfl]
  · rw [h0, if_pos rfl]
  · rw [h0, if_pos rfl, hi]
    rfl
  · refine (hl.setParent hap.1 i).congr fun j hj => ?_
    have hji : ¬ j = i := fun h => hnd.1 (by rw [← h]; simp [hj])
    have hjr : ¬ j = r.idx := fun h => hap.2.2 _ hj _ r.idx_mem_indices h
    rw [h0, if_neg hji, nodeAt_setParent]
    by_cases hjl : j = l.idx
    · rw [if_pos (.inl hjl), if_pos hjl, hjl]
    · rw [if_neg (by simp [hjl, hjr]), if_neg hjl]
  · refine (hr.setParent hap.2.1 i).congr fun j hj => ?_
    have hji : ¬ j = i := fun h => hnd.1 (by rw [← h]; simp [hj])
    have hjl : ¬ j = l.idx := fun h => hap.2.2 _ l.idx_mem_indices _ hj h.symm
    rw [h0, if_neg hji, nodeAt_setParent]
    by_cases hjr : j = r.idx
    · rw [if_pos (.inr hjr), if_pos hjr, hjr]
    · rw [if_neg (by simp [hjl, hjr]), if_neg hjr]

/-! ### `Build1` -/

/-- What a run of `Build1` that came to its end has built: the tree `T`, from the bits and the bytes it took, in fresh entries. -/
structure Built (s : State) (sc lc : Nat) (T : Tree) (t : State) : Prop where
  indices : T.indices = List.range' s.nodeCnt T.shape.length
  shape : shapeBitsFrom s sc T.shape.length = T.shape
  shapeLe : sc + T.shape.length ≤ 8 * s.shapeSize
  leaves : leafBytesFrom s lc T.leafCount = T.leafBytes
  leavesLe : lc + T.leafCount ≤ s.leafCnt
  syms : ∀ x ∈ T.syms, x.toNat < 256
  frame : t = { s with arena := t.arena, nodeCnt := s.nodeCnt + T.shape.length }
  holds : Holds t.arena none T
  others : ∀ j, j < s.nodeCnt ∨ s.nodeCnt + T.shape.length ≤ j → nodeAt t.arena j = nodeAt s.arena j
  zero : ∀ j ∈ T.indices, (nodeAt t.arena j).w = 0 ∧ (nodeAt t.arena j).num = 0#10

theorem Built.idx {s t : State} {sc lc : Nat} {T : Tree} (h : Built s sc lc T t) : T.idx = s.nodeCnt := by
  have h1 := h.indices
  cases T with
  | leaf i x =>
    simpa [Tree.indices, Tree.shape] using h1
  | node i l r =>
    simp only [Tree.indices, Tree.shape, List.length_cons, List.range'_succ, List.cons.injEq] at h1
    exact h1.1

theorem Built.nodup {s t : State} {sc lc : Nat} {T : Tree} (h : Built s sc lc T t) : T.indices.Nodup := by
  rw [h.indices]
  exact List.nodup_range'

theorem deserLeaf_lt (b : Byte) : (b.setWidth 9).toNat < 256 := by
  have := b.isLt
  simp
  omega

/-- The arena after a fresh entry was written (R168). -/
theorem putNode_allocNode_arena (s : State) (n : Node) :
    (putNode s.nodeCnt n (allocNode s)).arena = setNode s.arena s.nodeCnt n := rfl

/-- R168: the leaf case of `Build1`. -/
theorem built_leaf {s : State} {sc lc : Nat} (hs : sc < 8 * s.shapeSize) (hl : lc < s.leafCnt) (hb : shapeBit s sc = false) :
    Built s sc lc (.leaf s.nodeCnt ((s.leafByte lc).setWidth 9)) (putNode s.nodeCnt (deserLeaf (s.leafByte lc)) (allocNode s)) where
  indices := rfl
  shape := by simp [Tree.shape, shapeBitsFrom_one, hb]
  shapeLe := by simp [Tree.shape]; omega
  leaves := by
    rw [Tree.leafCount_leaf, leafBytesFrom_one, Tree.leafBytes_leaf]
    congr 1
    apply BitVec.eq_of_toNat_eq
    have := (s.leafByte lc).isLt
    simp
  leavesLe := by simp; omega
  syms := by simpa [Tree.syms] using deserLeaf_lt (s.leafByte lc)
  frame := rfl
  holds := by
    have h : nodeAt (putNode s.nodeCnt (deserLeaf (s.leafByte lc)) (allocNode s)).arena s.nodeCnt = deserLeaf (s.leafByte lc) := by
      rw [putNode_allocNode_arena, nodeAt_setNode_same]
    simp only [Holds, h]
    exact ⟨rfl, rfl, rfl, rfl, rfl⟩
  others := by
    intro j hj
    rw [putNode_allocNode_arena, nodeAt_setNode_ne]
    rintro rfl
    simp [Tree.shape] at hj
  zero := by
    intro j hj
    have hj' : j = s.nodeCnt := by simpa [Tree.indices] using hj
    subst hj'
    have h : nodeAt (putNode s.nodeCnt (deserLeaf (s.leafByte lc)) (allocNode s)).arena s.nodeCnt = deserLeaf (s.leafByte lc) := by
      rw [putNode_allocNode_arena, nodeAt_setNode_same]
    rw [h]
    exact ⟨rfl, rfl⟩

/-- R168: the internal case of `Build1`. -/
theorem built_node {s t u : State} {sc lc : Nat} {l r : Tree} (hb : shapeBit s sc = true)
    (h1 : Built (putNode s.nodeCnt deserInternal (allocNode s)) (sc + 1) lc l t)
    (h2 : Built t (sc + 1 + l.shape.length) (lc + l.leafCount) r u) :
    Built s sc lc (.node s.nodeCnt l r) (linkChildren s.nodeCnt l.idx r.idx u) := by
  have f1 := h1.frame
  have f2 := h2.frame
  have hcnt1 : t.nodeCnt = s.nodeCnt + 1 + l.shape.length := by rw [f1]; rfl
  have hshape : t.shape = s.shape := by rw [f1]; rfl
  have hleaves : t.leaves = s.leaves := by rw [f1]; rfl
  have hsb : ∀ k, shapeBit t k = shapeBit s k := fun k => by unfold shapeBit State.shapeByte; rw [hshape]
  have hlb : ∀ k, t.leafByte k = s.leafByte k := fun k => by unfold State.leafByte; rw [hleaves]
  have hsz : t.shapeSize = s.shapeSize := by rw [f1]; rfl
  have hlc : t.leafCnt = s.leafCnt := by rw [f1]; rfl
  have hidx1 : l.indices = List.range' (s.nodeCnt + 1) l.shape.length := h1.indices
  have hidx2 : r.indices = List.range' (s.nodeCnt + 1 + l.shape.length) r.shape.length := by rw [h2.indices, hcnt1]
  have hidx : (Tree.node s.nodeCnt l r).indices = List.range' s.nodeCnt (l.shape.length + r.shape.length + 1) := by
    rw [Tree.indices, hidx1, hidx2, List.range'_append_1, List.range'_succ]
  have hnd : (Tree.node s.nodeCnt l r).indices.Nodup := by
    rw [hidx]
    exact List.nodup_range'
  have hlen : (Tree.node s.nodeCnt l r).shape.length = l.shape.length + r.shape.length + 1 := by simp [Tree.shape]
  have harena1 : ∀ j, j < s.nodeCnt + 1 → nodeAt t.arena j = nodeAt (setNode s.arena s.nodeCnt deserInternal) j :=
    fun j hj => h1.others j (.inl hj)
  have hroot1 : nodeAt t.arena s.nodeCnt = deserInternal := by
    rw [harena1 _ (Nat.lt_succ_self _), nodeAt_setNode_same]
  have hroot : nodeAt u.arena s.nodeCnt = deserInternal := by
    rw [h2.others _ (.inl (by omega)), hroot1]
  have hholdl : Holds u.arena none l := h1.holds.congr fun j hj => by
    rw [hidx1, List.mem_range'_1] at hj
    exact h2.others j (.inl (by omega))
  have hndn := List.nodup_cons.mp hnd
  have hap := List.nodup_append.mp hndn.2
  have hil : s.nodeCnt ≠ l.idx := fun h => hndn.1 (by rw [h]; simp [l.idx_mem_indices])
  have hir : s.nodeCnt ≠ r.idx := fun h => hndn.1 (by rw [h]; simp [r.idx_mem_indices])
  have hlr : l.idx ≠ r.idx := hap.2.2 _ l.idx_mem_indices _ r.idx_mem_indices
  have hlink := nodeAt_linkNodes u.arena hil hir hlr
  refine ⟨by rw [hidx, hlen], ?_, ?_, ?_, ?_, ?_, ?_, holds_linkNodes hroot hholdl h2.holds hnd, ?_, ?_⟩
  · have e1 : shapeBitsFrom s (sc + 1) l.shape.length = l.shape := h1.shape
    have e2 : shapeBitsFrom s (sc + 1 + l.shape.length) r.shape.length = r.shape := by
      rw [← h2.shape]
      simp [shapeBitsFrom, hsb]
    have e3 : l.shape.length + r.shape.length + 1 = 1 + l.shape.length + r.shape.length := by omega
    rw [hlen, e3, shapeBitsFrom_add, shapeBitsFrom_add, shapeBitsFrom_one, hb, e1]
    rw [show sc + (1 + l.shape.length) = sc + 1 + l.shape.length by omega, e2]
    simp [Tree.shape]
  · have := h2.shapeLe
    rw [hsz] at this
    rw [hlen]
    omega
  · have e1 : leafBytesFrom s lc l.leafCount = l.leafBytes := h1.leaves
    have e2 : leafBytesFrom s (lc + l.leafCount) r.leafCount = r.leafBytes := by
      rw [← h2.leaves]
      simp [leafBytesFrom, hlb]
    rw [Tree.leafCount_node, leafBytesFrom_add, e1, e2, Tree.leafBytes_node]
  · have := h2.leavesLe
    rw [hlc] at this
    rw [Tree.leafCount_node]
    omega
  · intro x hx
    rcases List.mem_append.mp hx with h | h
    · exact h1.syms x h
    · exact h2.syms x h
  · have hcnt2 : u.nodeCnt = s.nodeCnt + (Tree.node s.nodeCnt l r).shape.length := by
      rw [hlen, f2]
      simp only
      omega
    unfold linkChildren
    rw [← hcnt2, f2, f1]
    rfl
  · intro j hj
    rw [hlen] at hj
    have hli : l.idx ∈ List.range' (s.nodeCnt + 1) l.shape.length := hidx1 ▸ l.idx_mem_indices
    have hri : r.idx ∈ List.range' (s.nodeCnt + 1 + l.shape.length) r.shape.length := hidx2 ▸ r.idx_mem_indices
    rw [List.mem_range'_1] at hli hri
    have hlj : ¬ j = l.idx := by omega
    have hrj : ¬ j = r.idx := by omega
    have hij : j ≠ s.nodeCnt := by omega
    change nodeAt (linkNodes u.arena s.nodeCnt l.idx r.idx) j = _
    rw [hlink, if_neg hij, if_neg (by simp [hlj, hrj]), h2.others j (by omega)]
    refine (h1.others j ?_).trans (by rw [putNode_allocNode_arena, nodeAt_setNode_ne _ _ hij])
    change j < s.nodeCnt + 1 ∨ s.nodeCnt + 1 + l.shape.length ≤ j
    omega
  · intro j hj
    change (nodeAt (linkNodes u.arena s.nodeCnt l.idx r.idx) j).w = 0 ∧ (nodeAt (linkNodes u.arena s.nodeCnt l.idx r.idx) j).num = 0#10
    have hz : (nodeAt u.arena j).w = 0 ∧ (nodeAt u.arena j).num = 0#10 := by
      rcases List.mem_cons.mp hj with h | h
      · rw [h, hroot]
        exact ⟨rfl, rfl⟩
      · rcases List.mem_append.mp h with h | h
        · have hlt : j < t.nodeCnt := by
            rw [hidx1, List.mem_range'_1] at h
            omega
          rw [h2.others j (.inl hlt)]
          exact h1.zero j h
        · exact h2.zero j h
    rw [hlink]
    split
    · rw [hroot]
      exact ⟨rfl, rfl⟩
    · split
      · exact hz
      · exact hz

/-- One call of `Build1` (R168). -/
theorem build1_succ (k sc lc : Nat) (s : State) :
    build1 (k + 1) sc lc s = if 8 * s.shapeSize ≤ sc then .error (.raised .malformedHeader s.rdByte) s
      else if shapeBit s sc = true then
        (do
          let l ← build1 k (sc + 1) lc
          let r ← build1 k l.2.1 l.2.2
          modify (linkChildren s.nodeCnt l.1 r.1)
          pure (s.nodeCnt, r.2.1, r.2.2) : Cmd (Nat × Nat × Nat)) (putNode s.nodeCnt deserInternal (allocNode s))
      else if s.leafCnt ≤ lc then .error (.raised .malformedHeader s.rdByte) (allocNode s)
      else .ok (s.nodeCnt, sc + 1, lc + 1) (putNode s.nodeCnt (deserLeaf (s.leafByte lc)) (allocNode s)) := by
  rw [build1, run_get_bind]
  by_cases h1 : 8 * s.shapeSize ≤ sc
  · rw [if_pos h1, run_bind_error _ (raiseIf_pos _ _ _ h1)]
  · rw [if_neg h1, run_bind_ok _ (raiseIf_neg _ _ _ h1), run_modify_bind]
    by_cases h2 : shapeBit s sc = true
    · rw [if_pos h2, if_pos h2, run_modify_bind]
    · rw [if_neg h2, if_neg h2]
      by_cases h3 : s.leafCnt ≤ lc
      · rw [if_pos h3, run_bind_error _ (raiseIf_pos _ _ _ h3)]
      · rw [if_neg h3, run_bind_ok _ (raiseIf_neg _ _ _ h3), run_modify_bind, run_pure]

/-- R168: a run of `Build1` that came to its end has built a tree; one that did not raised `MalformedHeaderError` with `RD_BYTE`, and
changed the arena and `NODE_CNT` alone. -/
theorem build1_cases (k sc lc : Nat) (s : State) :
    (∃ T t, build1 k sc lc s = .ok (s.nodeCnt, sc + T.shape.length, lc + T.leafCount) t ∧ Built s sc lc T t)
    ∨ ∃ t, build1 k sc lc s = .error (.raised .malformedHeader s.rdByte) t
        ∧ t = { s with arena := t.arena, nodeCnt := t.nodeCnt } := by
  induction k generalizing sc lc s with
  | zero => exact .inr ⟨s, by rw [build1, run_get_bind]; rfl, rfl⟩
  | succ k ih =>
    rw [build1_succ]
    by_cases h1 : 8 * s.shapeSize ≤ sc
    · rw [if_pos h1]
      exact .inr ⟨s, rfl, rfl⟩
    · rw [if_neg h1]
      by_cases h2 : shapeBit s sc = true
      · rw [if_pos h2]
        rcases ih (sc + 1) lc (putNode s.nodeCnt deserInternal (allocNode s)) with ⟨l, t, ht, hl⟩ | ⟨t, ht, hf⟩
        · rw [run_bind_ok _ ht]
          rcases ih (sc + 1 + l.shape.length) (lc + l.leafCount) t with ⟨r, u, hu, hr⟩ | ⟨u, hu, hf⟩
          · left
            refine ⟨.node s.nodeCnt l r, linkChildren s.nodeCnt l.idx r.idx u, ?_, built_node h2 hl hr⟩
            rw [run_bind_ok _ hu, run_modify_bind, run_pure, hl.idx, hr.idx]
            simp only [Tree.shape, List.length_cons, List.length_append, Tree.leafCount_node]
            congr 2
            rw [Prod.mk.injEq]
            exact ⟨by omega, by omega⟩
          · right
            have hrd : t.rdByte = s.rdByte := by rw [hl.frame]; rfl
            refine ⟨u, ?_, ?_⟩
            · rw [run_bind_error _ hu, hrd]
            · rw [hf, hl.frame]
              rfl
        · right
          refine ⟨t, ?_, ?_⟩
          · rw [run_bind_error _ ht]
            rfl
          · rw [hf]
            rfl
      · rw [if_neg h2]
        by_cases h3 : s.leafCnt ≤ lc
        · rw [if_pos h3]
          exact .inr ⟨_, rfl, rfl⟩
        · rw [if_neg h3]
          refine .inl ⟨_, _, ?_, built_leaf (by omega) (by omega) (by simpa using h2)⟩
          simp [Tree.shape]

/-- R168: on the flattened form of a tree `Build1` comes to its end, having taken exactly the tree's bits and bytes. -/
theorem build1_good (T : Tree) {k sc lc : Nat} {s : State} (hk : T.shape.length ≤ k) (h1 : shapeBitsFrom s sc T.shape.length = T.shape)
    (h2 : sc + T.shape.length ≤ 8 * s.shapeSize) (h3 : leafBytesFrom s lc T.leafCount = T.leafBytes)
    (h4 : lc + T.leafCount ≤ s.leafCnt) :
    ∃ U t, build1 k sc lc s = .ok (s.nodeCnt, sc + T.shape.length, lc + T.leafCount) t ∧ Built s sc lc U t
      ∧ U.shape = T.shape ∧ U.leafBytes = T.leafBytes := by
  induction T generalizing k sc lc s with
  | leaf i x =>
    have hk' : 1 ≤ k := hk
    obtain ⟨k, rfl⟩ : ∃ j, k = j + 1 := ⟨k - 1, by omega⟩
    have hb : shapeBit s sc = false := by
      have : shapeBitsFrom s sc 1 = [false] := h1
      rw [shapeBitsFrom_one] at this
      simpa using this
    have hsc : ¬ 8 * s.shapeSize ≤ sc := by
      have : sc + 1 ≤ 8 * s.shapeSize := h2
      omega
    have hlc : ¬ s.leafCnt ≤ lc := by
      have : lc + 1 ≤ s.leafCnt := h4
      omega
    have hB := built_leaf (s := s) (sc := sc) (lc := lc) (by omega) (by omega) hb
    refine ⟨_, _, ?_, hB, rfl, ?_⟩
    · rw [build1_succ, if_neg hsc, if_neg (by simp [hb]), if_neg hlc]
      rfl
    · rw [← hB.leaves, ← h3]
      rfl
  | node i l r ihl ihr =>
    have hlen : (Tree.node i l r).shape.length = l.shape.length + r.shape.length + 1 := by simp [Tree.shape]
    rw [hlen] at hk h1 h2
    rw [Tree.leafCount_node] at h3 h4
    obtain ⟨k, rfl⟩ : ∃ j, k = j + 1 := ⟨k - 1, by omega⟩
    have e3 : l.shape.length + r.shape.length + 1 = 1 + l.shape.length + r.shape.length := by omega
    rw [e3, shapeBitsFrom_add, shapeBitsFrom_add, shapeBitsFrom_one, Tree.shape, List.cons_append, List.nil_append, List.cons_append,
      List.cons.injEq] at h1
    obtain ⟨hb, h1⟩ := h1
    have hbits := List.append_inj h1 (by simp [shapeBitsFrom])
    rw [leafBytesFrom_add, Tree.leafBytes_node] at h3
    have hbytes := List.append_inj h3 (by simp [leafBytesFrom])
    obtain ⟨L, t, ht, hL, hLs, hLb⟩ := ihl (k := k) (sc := sc + 1) (lc := lc) (s := putNode s.nodeCnt deserInternal (allocNode s))
      (by omega) hbits.1 (by change _ ≤ 8 * s.shapeSize; omega) hbytes.1 (by change _ ≤ s.leafCnt; omega)
    have hshape : t.shape = s.shape := by rw [hL.frame]; rfl
    have hleaves : t.leaves = s.leaves := by rw [hL.frame]; rfl
    have hsz : t.shapeSize = s.shapeSize := by rw [hL.frame]; rfl
    have hlc : t.leafCnt = s.leafCnt := by rw [hL.frame]; rfl
    have hsb : ∀ k, shapeBit t k = shapeBit s k := fun k => by unfold shapeBit State.shapeByte; rw [hshape]
    have hlb : ∀ k, t.leafByte k = s.leafByte k := fun k => by unfold State.leafByte; rw [hleaves]
    have hbits2 : shapeBitsFrom t (sc + 1 + l.shape.length) r.shape.length = r.shape := by
      have := hbits.2
      rw [show sc + (1 + l.shape.length) = sc + 1 + l.shape.length by omega] at this
      rw [← this]
      simp [shapeBitsFrom, hsb]
    have hbytes2 : leafBytesFrom t (lc + l.leafCount) r.leafCount = r.leafBytes := by
      rw [← hbytes.2]
      simp [leafBytesFrom, hlb]
    obtain ⟨R, u, hu, hR, hRs, hRb⟩ := ihr (k := k) (sc := sc + 1 + l.shape.length) (lc := lc + l.leafCount) (s := t)
      (by omega) hbits2 (by rw [hsz]; omega) hbytes2 (by rw [hlc]; omega)
    have hLc : L.leafCount = l.leafCount := by rw [← Tree.length_leafBytes, hLb, Tree.length_leafBytes]
    refine ⟨.node s.nodeCnt L R, linkChildren s.nodeCnt L.idx R.idx u, ?_, built_node hb hL ?_, ?_, ?_⟩
    · rw [build1_succ, if_neg (by omega), if_pos hb, run_bind_ok _ ht, run_bind_ok _ hu, run_modify_bind, run_pure, hL.idx, hR.idx, hlen,
        Tree.leafCount_node]
      congr 2
      rw [Prod.mk.injEq]
      dsimp only
      exact ⟨by omega, by omega⟩
    · rw [hLs, hLc]
      exact hR
    · rw [Tree.shape, Tree.shape, hLs, hRs]
    · rw [Tree.leafBytes_node, Tree.leafBytes_node, hLb, hRb]

/-! ### `Deser` -/

/-- What a run of `Deser` that came to its end leaves: the tree `T`, whose flattened form the buffers are. -/
structure Rebuilt (s : State) (T : Tree) (t : State) : Prop where
  shape : (unpackMsb (Table.firstN 0#8 s.shape s.shapeSize)).take T.shape.length = T.shape
  leaves : Table.firstN 0#8 s.leaves s.leafCnt = T.leafBytes
  leafCnt : s.leafCnt = T.leafCount
  shapeSize : s.shapeSize = ceil8 T.shape.length
  two : 2 ≤ T.leafCount
  syms : ∀ x ∈ T.syms, x.toNat < 256
  tree : TreeAt t T
  root : T.idx = 0
  zero : ∀ j, (nodeAt t.arena j).w = 0 ∧ (nodeAt t.arena j).num = 0#10
  mode : t.tmode = .static
  codes : t.codesValid = false
  nodeCnt : t.nodeCnt = T.shape.length
  frame : t = { s with arena := t.arena, nodeCnt := t.nodeCnt, root := t.root, tmode := t.tmode, codesValid := t.codesValid }

theorem clearArena_frame (s : State) :
    clearArena s = { s with arena := [], nodeCnt := 0, root := none, tmode := .empty, codesValid := false } := rfl

/-- The tree `Build1` built becomes the tree of the context. -/
theorem rebuilt_of_built {s t : State} {T : Tree} (h : Built (clearArena s) 0 0 T t) (h1 : T.leafCount = s.leafCnt)
    (h2 : ceil8 T.shape.length = s.shapeSize) (h3 : 2 ≤ T.leafCount) :
    Rebuilt s T { t with root := some T.idx, tmode := .static } := by
  have hfr := h.frame
  have hcnt : t.nodeCnt = T.shape.length := by
    rw [hfr]
    simp [clearArena, setTree]
  have hidx : T.indices = List.range T.shape.length := by
    rw [h.indices, List.range_eq_range']
    rfl
  have hout : ∀ i, T.shape.length ≤ i → nodeAt t.arena i = Node.reset := by
    intro i hi
    rw [h.others i (.inr (by simp [clearArena, setTree]; omega))]
    rfl
  refine ⟨?_, ?_, h1.symm, h2.symm, h3, h.syms, ⟨rfl, h.holds, ?_, ?_⟩, h.idx, ?_, rfl, ?_, hcnt, ?_⟩
  · have e1 := h.shape
    have e2 := h.shapeLe
    rw [Nat.zero_add] at e2
    rw [shapeBitsFrom_eq _ e2] at e1
    exact e1
  · have e1 := h.leaves
    rw [h1] at e1
    rw [← e1]
    exact (leafBytesFrom_eq s).symm
  · change T.indices.Perm (List.range t.nodeCnt)
    rw [hidx, hcnt]
  · intro i hi
    exact hout i (by rw [← hcnt]; exact hi)
  · intro j
    by_cases hj : j ∈ T.indices
    · exact h.zero j hj
    · rw [hidx, List.mem_range] at hj
      change (nodeAt t.arena j).w = 0 ∧ (nodeAt t.arena j).num = 0#10
      rw [hout j (by omega)]
      exact ⟨rfl, rfl⟩
  · change t.codesValid = false
    rw [hfr]
    rfl
  · rw [hfr]
    rfl

/-- R168: `Deser` ends with a tree whose flattened form the buffers are, or raises `MalformedHeaderError` with `RD_BYTE` and leaves no
tree. -/
theorem deser_cases (s : State) :
    (∃ T t, deser s = .ok () t ∧ Rebuilt s T t)
    ∨ ∃ t, deser s = .error (.raised .malformedHeader s.rdByte) t
        ∧ t = { s with arena := t.arena, nodeCnt := t.nodeCnt, root := none, tmode := .empty, codesValid := false } := by
  unfold deser
  rw [run_modify_bind, run_get_bind]
  rcases build1_cases (8 * (clearArena s).shapeSize + 1) 0 0 (clearArena s) with ⟨T, t, ht, hB⟩ | ⟨t, ht, hf⟩
  · have hfr : t = { s with arena := t.arena, nodeCnt := t.nodeCnt, root := none, tmode := .empty, codesValid := false } := by
      rw [hB.frame]
      rfl
    simp only [Nat.zero_add] at ht
    rw [run_bind_ok _ ht]
    by_cases h1 : T.leafCount ≠ (clearArena s).leafCnt
    · right
      exact ⟨t, by rw [run_bind_error _ (raiseIf_pos _ _ _ h1)]; rfl, hfr⟩
    · rw [run_bind_ok _ (raiseIf_neg _ _ _ h1)]
      by_cases h2 : ceil8 T.shape.length ≠ (clearArena s).shapeSize
      · right
        exact ⟨t, by rw [run_bind_error _ (raiseIf_pos _ _ _ h2)]; rfl, hfr⟩
      · rw [run_bind_ok _ (raiseIf_neg _ _ _ h2), run_get_bind]
        have hidx := hB.idx
        have hk := kind_idx hB.holds
        by_cases h3 : (t.node (clearArena s).nodeCnt).kind = .leaf
        · right
          exact ⟨t, by rw [run_bind_error _ (raiseIf_pos _ _ _ h3)]; rfl, hfr⟩
        · left
          rw [run_bind_ok _ (raiseIf_neg _ _ _ h3), run_modify]
          have h4 : 2 ≤ T.leafCount := by
            cases T with
            | leaf i x =>
              exfalso
              apply h3
              rw [← hidx]
              exact hB.holds.1
            | node i l r =>
              have := l.leafCount_pos
              have := r.leafCount_pos
              simp
              omega
          refine ⟨T, _, rfl, ?_⟩
          rw [← hidx]
          exact rebuilt_of_built hB (not_not.mp h1) (not_not.mp h2) h4
  · right
    refine ⟨t, ?_, ?_⟩
    · rw [run_bind_error _ ht]
      rfl
    · rw [hf]
      rfl

/-- R168: `Deser` on the flattened form of a tree of at least two leaves, the pad bits whatever they are. -/
theorem deser_good {s : State} {T : Tree} (h1 : s.shapeSize = ceil8 T.shape.length) (h2 : s.leafCnt = T.leafCount) (h3 : 2 ≤ T.leafCount)
    (h4 : (unpackMsb (Table.firstN 0#8 s.shape s.shapeSize)).take T.shape.length = T.shape)
    (h5 : Table.firstN 0#8 s.leaves s.leafCnt = T.leafBytes) :
    ∃ U t, deser s = .ok () t ∧ Rebuilt s U t ∧ U.shape = T.shape ∧ U.leafBytes = T.leafBytes := by
  have hle : T.shape.length ≤ 8 * s.shapeSize := by
    rw [h1]
    unfold ceil8
    omega
  obtain ⟨U, t, ht, hB, hs, hb⟩ := build1_good T (k := 8 * (clearArena s).shapeSize + 1) (sc := 0) (lc := 0) (s := clearArena s)
    (by change _ ≤ 8 * s.shapeSize + 1; omega)
    ((shapeBitsFrom_eq (clearArena s) (by simpa using hle)).trans h4) (by simpa using hle)
    (by rw [← h2, ← h5]; exact leafBytesFrom_eq s) (by rw [Nat.zero_add, ← h2]; rfl)
  have hUc : U.leafCount = T.leafCount := by rw [← Tree.length_leafBytes, hb, Tree.length_leafBytes]
  refine ⟨U, { t with root := some U.idx, tmode := .static }, ?_,
    rebuilt_of_built hB (by rw [hUc, h2]) (by rw [hs, h1]) (by rw [hUc]; exact h3), hs, hb⟩
  simp only [Nat.zero_add] at ht
  unfold deser
  rw [run_modify_bind, run_get_bind, run_bind_ok _ ht]
  have e1 : ¬ T.leafCount ≠ (clearArena s).leafCnt := not_not.mpr h2.symm
  have e2 : ¬ ceil8 T.shape.length ≠ (clearArena s).shapeSize := not_not.mpr h1.symm
  have e3 : ¬ (t.node (clearArena s).nodeCnt).kind = .leaf := by
    rw [← hB.idx]
    cases U with
    | leaf i x =>
      simp at hUc
      omega
    | node i l r =>
      have : (t.node (Tree.node i l r).idx).kind = .internal := hB.holds.1
      rw [this]
      decide
  rw [run_bind_ok _ (raiseIf_neg _ _ _ e1), run_bind_ok _ (raiseIf_neg _ _ _ e2), run_get_bind, run_bind_ok _ (raiseIf_neg _ _ _ e3),
    run_modify, hB.idx]

end Sys2Proof.Machine
end

