-- ==== Sys2Proof/Laws/Frame.lean ====
section
/-! SUPPORT. What the rules can do to the state, said once: a relation that every elementary change keeps relates the states before and
after the rule of every command, however the rule ends (`Closed.rule`). -/

namespace Sys2Proof.Machine

/-- The relation is kept by every elementary change of the state that a rule makes, but for `Init`. A change that a rule makes only
under a condition comes with the condition. -/
structure Closed (R : State → State → Prop) : Prop where
  refl : ∀ s, R s s
  trans : ∀ s t u, R s t → R t u → R s u
  /-- R64. -/
  port : ∀ s, R s (usePort s)
  /-- R131. -/
  emit : ∀ b, Steps R (emitByte b)
  /-- R132. -/
  flush : Steps R flushOut
  /-- R215, R216. -/
  fix : ∀ ig, Steps R (fixup ig)
  /-- R133, R135. -/
  acc : ∀ s x n, n < 8 → R s { s with acc := BitVec.ofNat 7 (x % 2 ^ n), accCnt := BitVec.ofNat 3 n }
  /-- R140. -/
  bit : ∀ s, s.rdByte < s.src.length → R s (advanceBit s)
  /-- R142. -/
  byte : ∀ s, s.rdByte < s.src.length → R s { s with rdByte := s.rdByte + 1 }
  /-- R161. -/
  flat : ∀ s f, flattened s = some f → R s (storeFlat f.1 f.2 s)
  /-- R164, R211. -/
  header : ∀ s ig sig, R s { s with hdrIgnore := ig, hdrSig := sig }
  /-- R252. -/
  signature : ∀ s sig, R s { s with hdrSig := sig }
  /-- R211. -/
  sizes : ∀ s ss lm, lm < 256 → ss = ceil8 (shapeBits (lm + 1)) → R s { s with shapeSize := ss, leafCnt := lm + 1 }
  shape : ∀ s k b, R s { s with shape := Table.set 0#8 s.shape k b }
  shapeEnd : ∀ s k, R s { s with shape := Table.clearFrom s.shape k }
  leaf : ∀ s k b, R s { s with leaves := Table.set 0#8 s.leaves k b }
  flatValid : ∀ s, R s (setFlatValid s)
  /-- R168. -/
  clear : ∀ s, R s (clearArena s)
  alloc : ∀ s, R s (allocNode s)
  put : ∀ s i n, R s (putNode i n s)
  link : ∀ s i l r, R s (linkChildren i l r s)
  root : ∀ s r, R s { s with root := some r, tmode := .static }
  /-- R180. -/
  count : ∀ s b, R s (accSymbol b s)
  /-- R185. -/
  built : ∀ s r, builtTree s.freq = some r → R s { s with arena := r.1, nodeCnt := r.2.1, root := some r.2.2, tmode := .static }
  /-- R201. -/
  codes : ∀ s c, derivedCodes s = some c → R s (setCodesValid { s with codeBits := c })
  /-- R235. -/
  ahInit : ∀ s, R s (ahInitTree s)
  /-- R238. -/
  growth : ∀ s p b, s.ahNyt = some p → R s (growAt p b s)
  /-- R244. -/
  update : ∀ s n t, updateUp Config.arenaSize n s.arena = some t → R s { s with arena := t }
  /-- R29. -/
  bytes : ∀ s n, R s (countBytes n s)

/-- The output procedures of a relation that is kept by the changes they are made of. -/
theorem steps_memWrite {R : State → State → Prop} (ht : ∀ s t u, R s t → R t u → R s u) (hp : ∀ s, R s (usePort s))
    (hs : ∀ s off v, R s { s with snk := Memory.storeBytes s.snk off v }) (off : Nat) (v : List Byte) :
    Steps R (memWrite off v) := by
  intro s
  by_cases hd : s.ports.headD .done = .done
  · exact stepsAt_ok ((memWrite_eq off v s).trans (if_pos hd)) (ht _ _ _ (hp s) (hs (usePort s) off v))
  · exact stepsAt_error ((memWrite_eq off v s).trans (if_neg hd)) (hp s)

theorem steps_flushOut {R : State → State → Prop} (hr : ∀ s, R s s) (ht : ∀ s t u, R s t → R t u → R s u)
    (hp : ∀ s, R s (usePort s)) (hs : ∀ s off v, R s { s with snk := Memory.storeBytes s.snk off v })
    (hf : ∀ s n, R s { s with sinkPos := n, obuf := [] }) : Steps R flushOut :=
  fun s => stepsAt_bind ht (steps_get hr s) fun a t h => by
    cases h
    exact stepsAt_ite (fun _ => steps_pure hr () s) fun _ =>
      stepsAt_bind ht (steps_memWrite ht hp hs _ _ s) fun _ t _ => stepsAt_ok (run_modify _ t) (hf t _)

theorem steps_emitByte {R : State → State → Prop} (hr : ∀ s, R s s) (ht : ∀ s t u, R s t → R t u → R s u)
    (hf : Steps R flushOut) (hb : ∀ s x, R s { s with obuf := x }) (b : Byte) : Steps R (emitByte b) :=
  fun s => stepsAt_bind ht (stepsAt_ok (run_modify _ s) (hb s _)) fun _ t _ =>
    stepsAt_bind ht (steps_get hr t) fun a u h => by
      cases h
      exact stepsAt_ite (fun _ => hf t) fun _ => steps_pure hr () t

theorem steps_fixup {R : State → State → Prop} (ht : ∀ s t u, R s t → R t u → R s u) (hp : ∀ s, R s (usePort s))
    (hs : ∀ s off v, R s { s with snk := Memory.storeBytes s.snk off v }) (hi : ∀ s ig, R s { s with hdrIgnore := ig })
    (ig : Byte) : Steps R (fixup ig) :=
  steps_bind ht (steps_memWrite ht hp hs 0 [ig]) fun _ => steps_modify fun s => hi s ig

/-- Where a source byte came from. -/
theorem srcByte_ok {off : Nat} {onEnd : ErrKind} {s t : State} {b : Byte} (hb : srcByte off onEnd s = .ok b t) :
    off < s.src.length ∧ t = usePort s := by
  rw [srcByte_eq] at hb
  split at hb
  · cases hb
  · split at hb
    · cases hb
      exact ⟨by omega, rfl⟩
    · cases hb

section
variable {R : State → State → Prop} (h : Closed R)
include h

namespace Closed

theorem then_ {α β : Type} {c : Cmd α} {f : α → Cmd β} (hc : Steps R c) (hf : ∀ a, Steps R (f a)) : Steps R (c >>= f) :=
  steps_bind h.trans hc hf

theorem srcByte (off : Nat) (onEnd : ErrKind) : Steps R (srcByte off onEnd) := by
  intro s
  by_cases hl : s.src.length ≤ off
  · exact stepsAt_error ((srcByte_eq off onEnd s).trans (if_pos hl)) (h.refl s)
  · by_cases hd : s.ports.headD .done = .done
    · exact stepsAt_ok (((srcByte_eq off onEnd s).trans (if_neg hl)).trans (if_pos hd)) (h.port s)
    · exact stepsAt_error (((srcByte_eq off onEnd s).trans (if_neg hl)).trans (if_neg hd)) (h.port s)

theorem readBit : Steps R readBit := fun s =>
  stepsAt_bind h.trans (steps_get h.refl s) fun a t ha => by
    cases ha
    refine stepsAt_bind h.trans (h.srcByte _ _ s) fun b u hb => ?_
    obtain ⟨hl, rfl⟩ := srcByte_ok hb
    exact stepsAt_bind h.trans (stepsAt_ok (run_modify _ _) (h.bit _ hl)) fun _ v _ => steps_pure h.refl _ v

theorem takeByte (onEnd : ErrKind) : Steps R (takeByte onEnd) := fun s =>
  stepsAt_bind h.trans (steps_get h.refl s) fun a t ha => by
    cases ha
    refine stepsAt_bind h.trans (h.srcByte _ _ s) fun b u hb => ?_
    obtain ⟨hl, rfl⟩ := srcByte_ok hb
    exact stepsAt_bind h.trans (stepsAt_ok (run_modify _ _) (h.byte _ hl)) fun _ v _ => steps_pure h.refl _ v

theorem emitBytes (bs : List Byte) : Steps R (emitBytes bs) := by
  induction bs with
  | nil => exact steps_pure h.refl ()
  | cons b bs ih => exact h.then_ (h.emit b) fun _ => ih

theorem emitWhole (x k n : Nat) : Steps R (emitWhole x k n) := by
  induction k generalizing n with
  | zero => exact steps_pure h.refl ()
  | succ k ih => exact h.then_ (h.emit _) fun _ => ih _

theorem writeBits (v w : Nat) : Steps R (writeBits v w) :=
  h.then_ (steps_get h.refl) fun _ => h.then_ (h.emitWhole _ _ _) fun _ =>
    steps_modify fun s => h.acc s _ _ (Nat.mod_lt _ (by omega))

theorem emitChunks (k : Nat) (b : Bits) : Steps R (emitChunks k b) := by
  induction k generalizing b with
  | zero => exact steps_pure h.refl ()
  | succ k ih =>
    exact fun s => stepsAt_ite (fun _ => steps_pure h.refl () s) fun _ => h.then_ (h.writeBits _ _) (fun _ => ih _) s

theorem emitBits (b : Bits) : Steps R (emitBits b) := h.emitChunks _ b

theorem finish : Steps R finish :=
  h.then_ (steps_get h.refl) fun _ s => stepsAt_ite
    (fun _ => h.then_ h.flush (fun _ => steps_pure h.refl _) s)
    (fun _ => h.then_ (h.emit _) (fun _ => h.then_ (steps_modify fun s => h.acc s 0 0 (by omega)) fun _ =>
      h.then_ h.flush fun _ => steps_pure h.refl _) s)

theorem flatten : Steps R flatten := fun s =>
  stepsAt_bind h.trans (steps_get h.refl s) fun a t ha => by
    cases ha
    refine stepsAt_bind h.trans (steps_fromTree h.refl _ s) fun f u hf => ?_
    obtain ⟨h1, rfl⟩ := fromTree_ok hf
    exact stepsAt_ok (run_modify _ _) (h.flat _ f h1)

theorem serHdr (ig sig : Byte) : Steps R (serHdr ig sig) :=
  h.then_ h.flatten fun _ => h.then_ (steps_get h.refl) fun _ => h.then_ (h.emitBytes _) fun _ =>
    steps_modify fun s => h.header s ig sig

theorem build1 (k sc lc : Nat) : Steps R (build1 k sc lc) := by
  induction k generalizing sc lc with
  | zero => exact h.then_ (steps_get h.refl) fun _ => steps_raise h.refl _ _
  | succ k ih =>
    refine h.then_ (steps_get h.refl) fun a => h.then_ (steps_raiseIf h.refl _ _ _) fun _ =>
      h.then_ (steps_modify h.alloc) fun _ s => stepsAt_ite (fun _ => ?_) fun _ => ?_
    · exact h.then_ (steps_modify fun s => h.put s _ _) (fun _ => h.then_ (ih _ _) fun _ => h.then_ (ih _ _) fun _ =>
        h.then_ (steps_modify fun s => h.link s _ _ _) fun _ => steps_pure h.refl _) s
    · exact h.then_ (steps_raiseIf h.refl _ _ _) (fun _ => h.then_ (steps_modify fun s => h.put s _ _) fun _ =>
        steps_pure h.refl _) s

theorem deser : Steps R deser :=
  h.then_ (steps_modify h.clear) fun _ => h.then_ (steps_get h.refl) fun _ => h.then_ (h.build1 _ _ _) fun _ =>
    h.then_ (steps_raiseIf h.refl _ _ _) fun _ => h.then_ (steps_raiseIf h.refl _ _ _) fun _ =>
      h.then_ (steps_get h.refl) fun _ => h.then_ (steps_raiseIf h.refl _ _ _) fun _ => steps_modify fun s => h.root s _

theorem scan : Steps R scan :=
  h.then_ (steps_get h.refl) fun _ => steps_upFrom h.refl h.trans
    (fun _ => h.then_ (h.srcByte _ _) fun b => steps_modify fun s => h.count s b) _ _

theorem checkDistinct : Steps R checkDistinct := h.then_ (steps_get h.refl) fun _ => steps_raiseIf h.refl _ _ _

theorem build : Steps R build :=
  h.then_ h.checkDistinct fun _ => h.then_ (steps_modify h.clear) fun _ s =>
    stepsAt_bind h.trans (steps_get h.refl s) fun a t ha => by
      cases ha
      refine stepsAt_bind h.trans (steps_fromTree h.refl _ s) fun r u hr => ?_
      obtain ⟨h1, rfl⟩ := fromTree_ok hr
      exact stepsAt_ok (run_modify _ _) (h.built _ r h1)

theorem mkCodes : Steps R mkCodes := fun s =>
  stepsAt_bind h.trans (steps_get h.refl s) fun a t ha => by
    cases ha
    refine stepsAt_bind h.trans (steps_fromTree h.refl _ s) fun c u hc => ?_
    obtain ⟨h1, rfl⟩ := fromTree_ok hc
    exact stepsAt_ok (run_modify _ _) (h.codes _ c h1)

theorem encSym (b : Byte) : Steps R (encSym b) :=
  h.then_ (steps_get h.refl) fun _ s => stepsAt_ite (fun _ => steps_stick h.refl _ s) fun _ => h.emitBits _ s

theorem decLoop (ig k n : Nat) : Steps R (decLoop ig k n) := by
  induction k generalizing n with
  | zero => exact steps_stick h.refl _
  | succ k ih =>
    refine h.then_ (steps_get h.refl) fun a s => stepsAt_ite (fun _ => steps_pure h.refl _ s) fun _ => ?_
    exact h.then_ h.readBit (fun _ => h.then_ (steps_fromTree h.refl _) fun m s =>
      stepsAt_ite (fun _ => h.then_ (h.emit _) (fun _ => steps_pure h.refl _) s) fun _ => ih m s) s

theorem decSym (ig : Nat) : Steps R (decSym ig) :=
  h.then_ (steps_get h.refl) fun _ => h.then_ (steps_fromTree h.refl _) fun n => h.decLoop _ _ n

theorem rdHdr : Steps R rdHdr := by
  refine h.then_ (h.takeByte _) fun ig => h.then_ (h.takeByte _) fun sig => h.then_ (steps_modify fun s => h.header s ig sig) fun _ =>
    h.then_ (steps_get h.refl) fun _ => h.then_ (steps_raiseIf h.refl _ _ _) fun _ => h.then_ (h.takeByte _) fun ss =>
      h.then_ (h.takeByte _) fun lm => h.then_ (steps_get h.refl) fun a => h.then_ (steps_raiseIf h.refl _ _ _) fun _ s => ?_
  by_cases hs : ss.toNat = ceil8 (shapeBits (lm.toNat + 1))
  · refine h.then_ (steps_raiseIf h.refl _ _ _) (fun _ => h.then_ (steps_modify fun s => h.sizes s _ _ lm.isLt hs) fun _ => ?_) s
    refine h.then_ (steps_upFrom h.refl h.trans (fun k => h.then_ (h.takeByte _) fun b => steps_modify fun s => h.shape s k b) _ _)
      fun _ => h.then_ (steps_modify fun s => h.shapeEnd s _) fun _ => ?_
    exact h.then_ (steps_upFrom h.refl h.trans (fun k => h.then_ (h.takeByte _) fun b => steps_modify fun s => h.leaf s k b) _ _)
      fun _ => h.then_ (steps_modify h.flatValid) fun _ => h.deser
  · exact stepsAt_error (run_bind_error _ (raiseIf_pos _ _ s hs)) (h.refl s)

theorem decAll (k : Nat) : Steps R (decAll k) := by
  induction k with
  | zero => exact steps_stick h.refl _
  | succ k ih =>
    exact h.then_ (steps_get h.refl) fun _ => h.then_ (h.decSym _) fun r s =>
      stepsAt_ite (fun _ => steps_pure h.refl _ s) fun _ => ih s

theorem grow (b : Byte) : Steps R (grow b) := fun s =>
  stepsAt_bind h.trans (steps_get h.refl s) fun a t ha => by
    cases ha
    refine stepsAt_bind h.trans (steps_fromTree h.refl _ s) fun p u hp => ?_
    obtain ⟨h1, rfl⟩ := fromTree_ok hp
    exact stepsAt_ok (run_modify _ _) (h.growth _ p b h1)

theorem updateSymbol (b : Byte) : Steps R (updateSymbol b) := fun s =>
  stepsAt_bind h.trans (steps_get h.refl s) fun a t ha => by
    cases ha
    refine stepsAt_bind h.trans (steps_fromTree h.refl _ s) fun n u hn => ?_
    obtain ⟨-, rfl⟩ := fromTree_ok hn
    refine stepsAt_bind h.trans (steps_fromTree h.refl _ _) fun t v ht => ?_
    obtain ⟨h1, rfl⟩ := fromTree_ok ht
    exact stepsAt_ok (run_modify _ _) (h.update _ n t h1)

theorem path (n : Nat) : Steps R (path n) := h.then_ (steps_get h.refl) fun _ => steps_fromTree h.refl _

theorem ahEncSym (b : Byte) : Steps R (ahEncSym b) := by
  refine h.then_ (steps_get h.refl) fun a => ?_
  cases a.mapOf b with
  | some n => exact h.then_ (h.path n) fun p => h.then_ (h.emitBits p) fun _ => h.then_ (h.updateSymbol b) fun _ => steps_pure h.refl _
  | none =>
    exact h.then_ (steps_fromTree h.refl _) fun y => h.then_ (h.path y) fun p => h.then_ (h.emitBits p) fun _ =>
      h.then_ (h.writeBits _ _) fun _ => h.then_ (h.grow b) fun _ => h.then_ (h.updateSymbol b) fun _ => steps_pure h.refl _

theorem descend (k n : Nat) : Steps R (descend k n) := by
  induction k generalizing n with
  | zero => exact steps_stick h.refl _
  | succ k ih =>
    exact h.then_ (steps_get h.refl) fun a s => stepsAt_ite
      (fun _ => h.then_ h.readBit (fun _ => h.then_ (steps_fromTree h.refl _) fun m => ih m) s) fun _ => steps_pure h.refl _ s

theorem readRaw (k v : Nat) : Steps R (readRaw k v) := by
  induction k generalizing v with
  | zero => exact steps_pure h.refl _
  | succ k ih => exact h.then_ h.readBit fun _ => ih _

theorem readNewSymbol : Steps R readNewSymbol :=
  h.then_ (h.readRaw _ _) fun _ => h.then_ (steps_get h.refl) fun _ => h.then_ (steps_raiseIf h.refl _ _ _) fun _ =>
    h.then_ (h.grow _) fun _ => steps_pure h.refl _

theorem ahDecSym : Steps R ahDecSym := by
  refine h.then_ (steps_get h.refl) fun a => h.then_ (steps_fromTree h.refl _) fun r => h.then_ (h.descend _ r) fun n => ?_
  have tail : ∀ b : Byte, Steps R (do emitByte b; Machine.updateSymbol b; pure b) := fun b =>
    h.then_ (h.emit b) fun _ => h.then_ (h.updateSymbol b) fun _ => steps_pure h.refl _
  exact fun s => stepsAt_ite (fun _ => h.then_ h.readNewSymbol tail s) fun _ => tail _ s

theorem ahUpdateSym (b : Byte) : Steps R (ahUpdateSym b) :=
  h.then_ (steps_get h.refl) fun _ s => stepsAt_ite (fun _ => h.then_ (h.grow b) (fun _ => h.updateSymbol b) s) fun _ =>
    h.updateSymbol b s

theorem archiveStatic (hi : ∀ s, R s (initContext s)) : Steps R archiveStatic :=
  h.then_ (steps_modify hi) fun _ => h.then_ h.scan fun _ => h.then_ h.checkDistinct fun _ => h.then_ h.build fun _ =>
    h.then_ h.mkCodes fun _ => h.then_ (steps_get h.refl) fun _ => h.then_ (h.serHdr _ _) fun _ =>
      h.then_ (steps_upFrom h.refl h.trans (fun _ => h.then_ (h.srcByte _ _) fun b => h.encSym b) _ _) fun _ =>
        h.then_ h.finish fun _ => h.then_ (h.fix _) fun _ => h.then_ (steps_modify fun s => h.bytes s _) fun _ => steps_pure h.refl _

theorem unarchiveStatic (hi : ∀ s, R s (initContext s)) : Steps R unarchiveStatic :=
  h.then_ (steps_modify hi) fun _ => h.then_ h.rdHdr fun _ => h.then_ (steps_get h.refl) fun _ => h.then_ (h.decAll _) fun _ =>
    h.then_ h.flush fun _ => h.then_ (steps_modify fun s => h.bytes s _) fun _ => h.then_ (steps_get h.refl) fun _ =>
      steps_pure h.refl _

theorem archiveAdaptive (hi : ∀ s, R s (initContext s)) : Steps R archiveAdaptive :=
  h.then_ (steps_modify hi) fun _ => h.then_ (steps_modify h.ahInit) fun _ => h.then_ (steps_get h.refl) fun _ =>
    h.then_ (h.emit _) fun _ => h.then_ (steps_upFrom h.refl h.trans
      (fun _ => h.then_ (h.srcByte _ _) fun b => steps_discard (h.ahEncSym b)) _ _) fun _ => h.then_ h.finish fun _ =>
        h.then_ (steps_modify fun s => h.bytes s _) fun _ => steps_pure h.refl _

theorem unarchiveAdaptive (hi : ∀ s, R s (initContext s)) (n : Nat) : Steps R (unarchiveAdaptive n) :=
  h.then_ (steps_modify hi) fun _ => h.then_ (steps_modify h.ahInit) fun _ => h.then_ (h.takeByte _) fun sig =>
    h.then_ (steps_modify fun s => h.signature s sig) fun _ => h.then_ (steps_get h.refl) fun _ =>
      h.then_ (steps_raiseIf h.refl _ _ _) fun _ => h.then_ (steps_repeatTimes h.refl h.trans (steps_discard h.ahDecSym) _) fun _ =>
        h.then_ h.flush fun _ => h.then_ (steps_modify fun s => h.bytes s _) fun _ => h.then_ (steps_get h.refl) fun _ =>
          steps_pure h.refl _

/-- Every command's rule keeps a relation that every elementary change keeps; `Init` is asked of the commands that run it. -/
theorem rule (i : Instr) (hi : i = .ctxInit ∨ isComposite i = true → ∀ s, R s (initContext s)) : Steps R (ruleOf i) := by
  have fin : ∀ {c : Cmd Unit} {f : State → Word}, Steps R c → Steps R (do c; let t ← get; pure (f t)) := fun hc =>
    h.then_ hc fun _ => h.then_ (steps_get h.refl) fun _ => steps_pure h.refl _
  cases i with
  | ctxInit => exact h.then_ (steps_modify (hi (.inl rfl))) fun _ => steps_pure h.refl _
  | ctxRdreg r => exact h.then_ (steps_get h.refl) fun _ => steps_pure h.refl _
  | bsWrite w v => exact h.then_ (h.writeBits _ _) fun _ => steps_pure h.refl _
  | bsFinish => exact h.then_ h.finish fun _ => steps_pure h.refl _
  | bsRdbit => exact h.then_ h.readBit fun _ => steps_pure h.refl _
  | bsAtend ig => exact h.then_ (steps_get h.refl) fun _ => steps_pure h.refl _
  | tcFlatten => exact fin h.flatten
  | tcSerhdr ig sig => exact fin (h.serHdr ig sig)
  | tcDeser => exact fin h.deser
  | fbAcc b => exact fin (steps_modify fun s => h.count s b)
  | fbScan => exact h.then_ h.scan fun _ => fin h.checkDistinct
  | fbBuild => exact fin h.build
  | shMkcodes => exact fin h.mkCodes
  | shEncsym b => exact fin (h.encSym b)
  | shDecsym ig => exact h.then_ (h.decSym _) fun _ => steps_pure h.refl _
  | shRdhdr => exact fin h.rdHdr
  | shFixup ig => exact h.then_ (h.fix ig) fun _ => steps_pure h.refl _
  | shArchive => exact h.then_ (h.archiveStatic (hi (.inr rfl))) fun _ => steps_pure h.refl _
  | shUnarchive => exact h.then_ (h.unarchiveStatic (hi (.inr rfl))) fun _ => steps_pure h.refl _
  | ahInit => exact h.then_ (steps_modify h.ahInit) fun _ => steps_pure h.refl _
  | ahUpdate b => exact fin (h.ahUpdateSym b)
  | ahEncsym b => exact h.then_ (h.ahEncSym b) fun _ => steps_pure h.refl _
  | ahDecsym => exact h.then_ h.ahDecSym fun _ => steps_pure h.refl _
  | ahArchive => exact h.then_ (h.archiveAdaptive (hi (.inr rfl))) fun _ => steps_pure h.refl _
  | ahUnarchive n => exact h.then_ (h.unarchiveAdaptive (hi (.inr rfl)) _) fun _ => steps_pure h.refl _

end Closed

end

/-! ### What no rule writes -/

/-- The host's side but for the answers and the sink, the counter, and the last response are the same; some answers were used up. -/
def KeepsHost (s t : State) : Prop :=
  t.params = s.params ∧ t.src = s.src ∧ t.cmds = s.cmds ∧ t.cseq = s.cseq ∧ t.rsp = s.rsp ∧ ∃ k, t.ports = s.ports.drop k

theorem KeepsHost.same {s t : State} (h1 : t.params = s.params) (h2 : t.src = s.src) (h3 : t.cmds = s.cmds) (h4 : t.cseq = s.cseq)
    (h5 : t.rsp = s.rsp) (h6 : t.ports = s.ports) : KeepsHost s t := ⟨h1, h2, h3, h4, h5, 0, by simpa using h6⟩

theorem KeepsHost.trans {s t u : State} (h1 : KeepsHost s t) (h2 : KeepsHost t u) : KeepsHost s u := by
  obtain ⟨a1, a2, a3, a4, a5, k, a6⟩ := h1
  obtain ⟨b1, b2, b3, b4, b5, l, b6⟩ := h2
  exact ⟨b1.trans a1, b2.trans a2, b3.trans a3, b4.trans a4, b5.trans a5, k + l, by rw [b6, a6, List.drop_drop]⟩

theorem keepsHost_closed : Closed KeepsHost := by
  have hr : ∀ s, KeepsHost s s := fun s => .same rfl rfl rfl rfl rfl rfl
  have ht : ∀ s t u, KeepsHost s t → KeepsHost t u → KeepsHost s u := fun _ _ _ => KeepsHost.trans
  have hp : ∀ s, KeepsHost s (usePort s) := fun s => ⟨rfl, rfl, rfl, rfl, rfl, 1, rfl⟩
  have hs : ∀ s off v, KeepsHost s { s with snk := Memory.storeBytes s.snk off v } := fun s _ _ => .same rfl rfl rfl rfl rfl rfl
  have hf : Steps KeepsHost flushOut := steps_flushOut hr ht hp hs fun s _ => .same rfl rfl rfl rfl rfl rfl
  constructor
  case refl => exact hr
  case trans => exact ht
  case port => exact hp
  case emit => exact steps_emitByte hr ht hf fun s _ => .same rfl rfl rfl rfl rfl rfl
  case flush => exact hf
  case fix => exact steps_fixup ht hp hs fun s _ => .same rfl rfl rfl rfl rfl rfl
  case bit => exact fun s _ => .same (by simp) (by simp) (by simp) (by simp) (by simp) (by simp)
  case link => exact fun s _ _ _ => .same (by simp) (by simp) (by simp) (by simp) (by simp) (by simp)
  all_goals
    intros
    exact .same rfl rfl rfl rfl rfl rfl

/-- R26, R45, R60: no rule writes `CSEQ`, SRC, a parameter, the commands to come or the last response. -/
theorem rule_keepsHost (i : Instr) : Steps KeepsHost (ruleOf i) :=
  keepsHost_closed.rule i fun _ _ => .same rfl rfl rfl rfl rfl rfl

end Sys2Proof.Machine
end

