-- ==== Sys2Proof/Laws/Model.lean ====
section
/-! SUPPORT. The adaptive tree as plain data (R115, R244, R245): what `touch`, `next` and `payload` do, and the data of a tree in the
arena. -/

namespace Sys2Proof.Machine

/-! ### `Update` and the payload -/

theorem Model.touch_isSome (sym : BitVec 9) (m : Model) : (m.touch sym).isSome = (m.pathTo sym).isSome := by
  induction m with
  | leaf s w => by_cases h : s = sym <;> simp [Model.touch, Model.pathTo, h]
  | node l r ihl ihr =>
    rw [Model.touch, Model.pathTo]
    cases hl : l.touch sym with
    | some l' =>
      rw [hl] at ihl
      obtain ⟨p, hp⟩ := Option.isSome_iff_exists.mp ihl.symm
      simp [hp]
    | none =>
      rw [hl] at ihl
      have hp : l.pathTo sym = none := by simpa using ihl.symm
      simp [hp, ihr]

/-- "gains exactly 1": the root's weight after `Update` (R244, R245). -/
theorem Model.weight_touch {sym : BitVec 9} {m m' : Model} (h : m.touch sym = some m') : m'.weight = m.weight + 1 := by
  induction m generalizing m' with
  | leaf s w =>
    rw [Model.touch] at h
    split at h
    · cases h
      rfl
    · cases h
  | node l r ihl ihr =>
    rw [Model.touch] at h
    split at h
    · next l' hl =>
      have := ihl hl
      cases h
      split <;> simp only [Model.weight] <;> omega
    · obtain ⟨r', hr, rfl⟩ := Option.map_eq_some_iff.mp h
      have := ihr hr
      simp only [Model.weight]
      omega

@[simp] theorem Model.payload_nil (m : Model) : m.payload [] = [] := by cases m <;> rfl

@[simp] theorem Model.payload_cons (m : Model) (b : Byte) (x : List Byte) :
    m.payload (b :: x) = m.code b ++ (m.next b).payload x := by cases m <;> rfl

/-- The payload of `x ++ y`: that of `x`, then that of `y` from the tree `x` leaves. -/
theorem Model.payload_append (m : Model) (x y : List Byte) : m.payload (x ++ y) = m.payload x ++ (x.foldl Model.next m).payload y := by
  induction x generalizing m with
  | nil => simp
  | cons b x ih => simp [ih]

/-! ### The data of a tree in the arena -/

/-- The symbols and weights of the tree `T`, the weights of its leaves as the arena has them. -/
def Tree.model (t : Table Node) : Tree → Model
  | .leaf i s => .leaf s (nodeAt t i).w
  | .node _ l r => .node (l.model t) (r.model t)

@[simp] theorem Tree.model_leaf (t : Table Node) (i : Nat) (s : BitVec 9) : (Tree.leaf i s).model t = .leaf s (nodeAt t i).w := rfl

@[simp] theorem Tree.model_node (t : Table Node) (i : Nat) (l r : Tree) :
    (Tree.node i l r).model t = .node (l.model t) (r.model t) := rfl

/-- R37: the weight of the data is the weight the arena has at the root. -/
theorem Weighted.weight_model {t : Table Node} {T : Tree} (h : Weighted t T) : (T.model t).weight = (nodeAt t T.idx).w := by
  induction T with
  | leaf i s => rfl
  | node i l r ihl ihr =>
    obtain ⟨hw, hl, hr⟩ := h
    rw [Tree.model_node, Model.weight, ihl hl, ihr hr]
    exact hw.symm

/-- A leaf's entry is one of the tree's entries. -/
theorem Tree.mem_of_hasLeaf {T : Tree} {j : Nat} {sym : BitVec 9} (h : T.HasLeaf j sym) : j ∈ T.indices := by
  induction T with
  | leaf k s => simp [Tree.indices, h.1]
  | node k l r ihl ihr =>
    rcases h with h | h
    · simp [Tree.indices, ihl h]
    · simp [Tree.indices, ihr h]

/-- The codes of the data are those of `Tree.pathTo` at the symbol's leaf (R237). -/
theorem Tree.model_pathTo {t : Table Node} {T : Tree} {sym : BitVec 9} {n : Nat} (h : ∀ i, T.HasLeaf i sym ↔ i = n)
    (hd : T.indices.Nodup) : (T.model t).pathTo sym = T.pathTo n := by
  have key : ∀ T : Tree, (∀ i, T.HasLeaf i sym → i = n) → T.indices.Nodup → (n ∈ T.indices → T.HasLeaf n sym) →
      (T.model t).pathTo sym = T.pathTo n := by
    intro T
    induction T with
    | leaf i s =>
      intro h _ hm
      by_cases hs : s = sym
      · have : i = n := h i ⟨rfl, hs⟩
        simp [Model.pathTo, Tree.pathTo, hs, this]
      · have : i ≠ n := fun e => hs (hm (by simp [Tree.indices, e])).2
        simp [Model.pathTo, Tree.pathTo, hs, this]
    | node i l r ihl ihr =>
      intro h hd hm
      rw [Tree.indices, List.nodup_cons, List.nodup_append] at hd
      obtain ⟨hi, hdl, hdr, hne⟩ := hd
      have hin : i ≠ n := by
        rintro rfl
        rcases hm (by simp [Tree.indices]) with hj | hj
        · exact hi (List.mem_append_left _ (Tree.mem_of_hasLeaf hj))
        · exact hi (List.mem_append_right _ (Tree.mem_of_hasLeaf hj))
      rw [Tree.model_node, Model.pathTo, Tree.pathTo, if_neg hin, ihl (fun j hj => h j (.inl hj)) hdl ?_,
        ihr (fun j hj => h j (.inr hj)) hdr ?_]
      · intro hn
        rcases hm (by simp [Tree.indices, hn]) with hj | hj
        · exact absurd rfl (hne n (Tree.mem_of_hasLeaf hj) n hn)
        · exact hj
      · intro hn
        rcases hm (by simp [Tree.indices, hn]) with hj | hj
        · exact hj
        · exact absurd rfl (hne n hn n (Tree.mem_of_hasLeaf hj))
  exact key T (fun i hi => (h i).mp hi) hd fun _ => (h n).mpr rfl

/-- R243: from the numbers of the slots, the order of numbers at every node below one whose number is high enough. -/
theorem Numbered.lt {t : Table Node} {i d : Nat} {l r : Tree} (h : Numbered t d (.node i l r))
    (hi : 512 ≤ (nodeAt t i).num.toNat + 2 * d) :
    (nodeAt t l.idx).num.toNat < (nodeAt t r.idx).num.toNat ∧ (nodeAt t r.idx).num.toNat < (nodeAt t i).num.toNat := by
  obtain ⟨hr, hl, -, -⟩ := h
  omega

end Sys2Proof.Machine
end

