-- ==== Sys2Proof/Laws/PerInstr.lean ====
section
/-! SUPPORT. One statement per command, about the command as syntax: the fields of its word are its opcode and its operands (R92). -/

namespace Sys2Proof

/-- R92: the bits of a word put together from three fields. -/
theorem getLsbD_packWord (op a : Byte) (v : BitVec 48) (k : Nat) :
    (packWord op a v).getLsbD k = if k < 48 then v.getLsbD k
      else if k - 48 < 8 then a.getLsbD (k - 48) else op.getLsbD (k - 48 - 8) := by
  have h : (packWord op a v).getLsbD k = if k < 48 then v.getLsbD k else (op ++ a).getLsbD (k - 48) :=
    BitVec.getLsbD_append
  rw [h, BitVec.getLsbD_append]

/-- R92: the fields of a word put together from three fields are those fields. -/
theorem fields_packWord (op a : Byte) (v : BitVec 48) :
    fieldOp (packWord op a v) = op ∧ fieldA (packWord op a v) = a ∧ fieldV (packWord op a v) = v := by
  refine ⟨?_, ?_, ?_⟩ <;> (apply BitVec.eq_of_getLsbD_eq; intro i hi)
  · rw [fieldOp, BitVec.getLsbD_extractLsb', getLsbD_packWord]
    have h1 : ¬ 56 + i < 48 := by omega
    have h2 : ¬ 56 + i - 48 < 8 := by omega
    have h3 : 56 + i - 48 - 8 = i := by omega
    simp [hi, h1, h2, h3]
  · rw [fieldA, BitVec.getLsbD_extractLsb', getLsbD_packWord]
    have h1 : ¬ 48 + i < 48 := by omega
    have h2 : 48 + i - 48 = i := by omega
    simp [hi, h1, h2]
  · rw [fieldV, BitVec.getLsbD_extractLsb', getLsbD_packWord]
    simp [hi]

namespace Laws.EncodeFields

/-- R92: the fields of the word of `i` are the opcode and the operands of `i`. -/
def Statement (i : Instr) : Prop :=
  fieldOp (encode i) = i.opcode ∧ fieldA (encode i) = i.operandA ∧ fieldV (encode i) = i.operandV

theorem ctxInit : Statement .ctxInit := fields_packWord _ _ _

theorem ctxRdreg (r : Byte) : Statement (.ctxRdreg r) := fields_packWord _ _ _

theorem bsWrite (w : Byte) (v : BitVec 32) : Statement (.bsWrite w v) := fields_packWord _ _ _

theorem bsFinish : Statement .bsFinish := fields_packWord _ _ _

theorem bsRdbit : Statement .bsRdbit := fields_packWord _ _ _

theorem bsAtend (ig : Byte) : Statement (.bsAtend ig) := fields_packWord _ _ _

theorem tcFlatten : Statement .tcFlatten := fields_packWord _ _ _

theorem tcSerhdr (ig : Byte) (sig : Byte) : Statement (.tcSerhdr ig sig) := fields_packWord _ _ _

theorem tcDeser : Statement .tcDeser := fields_packWord _ _ _

theorem fbAcc (sym : Byte) : Statement (.fbAcc sym) := fields_packWord _ _ _

theorem fbScan : Statement .fbScan := fields_packWord _ _ _

theorem fbBuild : Statement .fbBuild := fields_packWord _ _ _

theorem shMkcodes : Statement .shMkcodes := fields_packWord _ _ _

theorem shEncsym (sym : Byte) : Statement (.shEncsym sym) := fields_packWord _ _ _

theorem shDecsym (ig : Byte) : Statement (.shDecsym ig) := fields_packWord _ _ _

theorem shRdhdr : Statement .shRdhdr := fields_packWord _ _ _

theorem shFixup (ig : Byte) : Statement (.shFixup ig) := fields_packWord _ _ _

theorem shArchive : Statement .shArchive := fields_packWord _ _ _

theorem shUnarchive : Statement .shUnarchive := fields_packWord _ _ _

theorem ahInit : Statement .ahInit := fields_packWord _ _ _

theorem ahUpdate (sym : Byte) : Statement (.ahUpdate sym) := fields_packWord _ _ _

theorem ahEncsym (sym : Byte) : Statement (.ahEncsym sym) := fields_packWord _ _ _

theorem ahDecsym : Statement .ahDecsym := fields_packWord _ _ _

theorem ahArchive : Statement .ahArchive := fields_packWord _ _ _

theorem ahUnarchive (n : BitVec 48) : Statement (.ahUnarchive n) := fields_packWord _ _ _

end Laws.EncodeFields

end Sys2Proof
end

