-- ==== Sys2Proof/Tests/Slice0.lean ====
section
/-! SUPPORT. The model's own tests: the operand checks, every command's word written out from the encoding table, at most two one-step tests
for a command with the values of spec/95_test_vectors.md, and for every statement with hypotheses a state and operands that meet them. -/

namespace Sys2Proof.Tests

set_option Elab.async false

open Sys2Proof Sys2Proof.Machine

/-! ### Helpers -/

/-- The outcome is a next state with the property `p`. -/
def ran (o : Host.Outcome State Fault Refusal) (p : State → Bool) : Bool :=
  match o with
  | .next t => p t
  | .fault _ => false
  | .refused _ => false

theorem of_ran {o : Host.Outcome State Fault Refusal} {p : State → Bool} (h : ran o p = true) : ∃ t, o = .next t ∧ p t = true := by
  cases o with
  | next t => exact ⟨t, rfl, h⟩
  | fault f => cases h
  | refused r => cases h

/-- The response is `(st, val)`. -/
def said (t : State) (st : Byte) (val : Word) : Bool := decide (t.rsp = some { st := st, val := val })

/-- Bytes from numbers. -/
def bytes (l : List Nat) : List Byte := l.map (BitVec.ofNat 8)

/-- The reset state with the source `l`. -/
def withSrc (l : List Nat) : State := { State.reset with src := bytes l }

/-- The bytes in SNK below `SINK_POS` are `l`. -/
def sunk (t : State) (l : List Nat) : Bool := decide (sinkBytes t = (bytes l).map some)

/-- A leaf of a static tree. -/
def leafNode (sym : BitVec 9) (w parent : Nat) : Node :=
  { Node.reset with kind := .leaf, sym := sym, w := w, parent := some parent }

/-- A node of an adaptive tree. -/
def numbered (n : Node) (num : BitVec 10) : Node := { n with num := num }

/-- An internal node. -/
def innerNode (w l r : Nat) (parent : Option Nat) : Node :=
  { Node.reset with kind := .internal, w := w, left := some l, right := some r, parent := parent }

/-- The tree that `FB.BUILD` builds for `"AB"` (95 section 1.1, each counted once). -/
def treeAB : Tree := .node 2 (.leaf 0 0x41#9) (.leaf 1 0x42#9)

/-- A static context with `treeAB`. -/
def stAB : State :=
  { State.reset with
    tmode := .static, nodeCnt := 3, root := some 2, distinct := 2, freq := [(0x41, 1), (0x42, 1)]
    arena := [(0, leafNode 0x41#9 1 2), (1, leafNode 0x42#9 1 2), (2, innerNode 2 0 1 none)] }

/-- `stAB` with its codes. -/
def stABcoded : State := { stAB with codesValid := true, codeBits := [(0x41, [false]), (0x42, [true])] }

/-- `stAB` with the flattened tree of 95 section 3.1. -/
def stABflat : State :=
  { stAB with flatValid := true, shape := [(0, 0x80#8)], shapeSize := 1, leaves := [(0, 0x41#8), (1, 0x42#8)], leafCnt := 2 }

/-- The adaptive context after `AH.INIT`. -/
def treeNyt : Tree := .leaf 0 256#9

def stNyt : State :=
  { State.reset with
    tmode := .adaptive, nodeCnt := 1, root := some 0, ahNyt := some 0, ahNextnum := 511#10
    arena := [(0, { Node.reset with kind := .leaf, sym := 256#9, num := 512#10 })] }

/-- The adaptive tree after one `'a'` (95 section 5.1, step 1). -/
def treeA : Tree := .node 0 (.leaf 1 256#9) (.leaf 2 0x61#9)

def stA : State :=
  { State.reset with
    tmode := .adaptive, nodeCnt := 3, root := some 0, ahNyt := some 1, ahS := 1, ahNextnum := 509#10, map := [(0x61, some 2)]
    arena := [(0, numbered (innerNode 1 1 2 none) 512#10), (1, numbered (leafNode 256#9 0 0) 510#10),
      (2, numbered (leafNode 0x61#9 1 0) 511#10)] }

/-- The adaptive context after `"ab"` (95 section 5.3, step 2). -/
def stAb : State :=
  { State.reset with
    tmode := .adaptive, nodeCnt := 5, root := some 0, ahNyt := some 3, ahS := 2, ahNextnum := 507#10
    map := [(0x61, some 2), (0x62, some 4)]
    arena := [(0, numbered (innerNode 2 1 2 none) 512#10), (1, numbered (innerNode 1 3 4 (some 0)) 510#10),
      (2, numbered (leafNode 0x61#9 1 0) 511#10), (3, numbered (leafNode 256#9 0 1) 508#10),
      (4, numbered (leafNode 0x62#9 1 1) 509#10)] }

/-- A context faulted by an `InvalidInputError` (95 section 1.2). -/
def stFaulted : State := { State.reset with err := some .invalidInput, faulted := true, errinfo := 1#64, cseq := 7#64 }

/-! ### Operand checks (R93) -/

theorem test_wf_refuses_width_zero : (Instr.bsWrite 0#8 5#32).wf = false := by decide
theorem test_wf_refuses_width_33 : (Instr.bsWrite 33#8 5#32).wf = false := by decide
theorem test_wf_refuses_register_17 : (Instr.ctxRdreg 0x17#8).wf = false := by decide
theorem test_wf_refuses_ignore_8 : (Instr.bsAtend 8#8).wf = false ∧ (Instr.tcSerhdr 8#8 0x53#8).wf = false
    ∧ (Instr.shDecsym 8#8).wf = false ∧ (Instr.shFixup 8#8).wf = false := by decide
theorem test_wf_accepts_bounds : (Instr.bsWrite 32#8 0#32).wf = true ∧ (Instr.bsWrite 1#8 0#32).wf = true
    ∧ (Instr.ctxRdreg 0x16#8).wf = true ∧ (Instr.bsAtend 7#8).wf = true := by decide

/-! ### Words written out from the encoding table (R92, R93) -/

theorem test_decode_ctx : decode 0x0100000000000000#64 = .ok .ctxInit
    ∧ decode 0x020E000000000000#64 = .ok (.ctxRdreg 0x0E#8) := by decide
theorem test_decode_bs : decode 0x10200000DEADBEEF#64 = .ok (.bsWrite 32#8 0xDEADBEEF#32)
    ∧ decode 0x1100000000000000#64 = .ok .bsFinish ∧ decode 0x1200000000000000#64 = .ok .bsRdbit
    ∧ decode 0x1306000000000000#64 = .ok (.bsAtend 6#8) := by decide
theorem test_decode_tc : decode 0x2000000000000000#64 = .ok .tcFlatten
    ∧ decode 0x21030000000000AA#64 = .ok (.tcSerhdr 3#8 0xAA#8) ∧ decode 0x2200000000000000#64 = .ok .tcDeser := by decide
theorem test_decode_fb : decode 0x30FF000000000000#64 = .ok (.fbAcc 0xFF#8) ∧ decode 0x3100000000000000#64 = .ok .fbScan
    ∧ decode 0x3200000000000000#64 = .ok .fbBuild := by decide
theorem test_decode_sh : decode 0x4000000000000000#64 = .ok .shMkcodes ∧ decode 0x4142000000000000#64 = .ok (.shEncsym 0x42#8)
    ∧ decode 0x4206000000000000#64 = .ok (.shDecsym 6#8) ∧ decode 0x4300000000000000#64 = .ok .shRdhdr
    ∧ decode 0x4406000000000000#64 = .ok (.shFixup 6#8) ∧ decode 0x4800000000000000#64 = .ok .shArchive
    ∧ decode 0x4900000000000000#64 = .ok .shUnarchive := by decide
theorem test_decode_ah : decode 0x5000000000000000#64 = .ok .ahInit ∧ decode 0x5161000000000000#64 = .ok (.ahUpdate 0x61#8)
    ∧ decode 0x5262000000000000#64 = .ok (.ahEncsym 0x62#8) ∧ decode 0x5300000000000000#64 = .ok .ahDecsym
    ∧ decode 0x5800000000000000#64 = .ok .ahArchive ∧ decode 0x5900000000000006#64 = .ok (.ahUnarchive 6#48) := by decide
/-- 95 section 8, the rows with an opcode that is not assigned. -/
theorem test_decode_unassigned : decode 0x0000000000000000#64 = .error .unassignedOpcode
    ∧ decode 0xFF00000000000000#64 = .error .unassignedOpcode := by decide
/-- 95 section 8, the rows with a bit that must be zero. -/
theorem test_decode_unused_bits : decode 0x1003000100000005#64 = .error .unusedFieldNonzero
    ∧ decode 0x0100000000000001#64 = .error .unusedFieldNonzero ∧ decode 0x2100000000000153#64 = .error .unusedFieldNonzero
    ∧ decode 0x5901000000000006#64 = .error .unusedFieldNonzero ∧ decode 0x1100010000000000#64 = .error .unusedFieldNonzero
    ∧ decode 0x3041000000000001#64 = .error .unusedFieldNonzero := by decide
/-- 95 section 8, the rows with an operand out of range. -/
theorem test_decode_operand_range : decode 0x1000000000000001#64 = .error .operandOutOfRange
    ∧ decode 0x1021000000000001#64 = .error .operandOutOfRange ∧ decode 0x1308000000000000#64 = .error .operandOutOfRange
    ∧ decode 0x0217000000000000#64 = .error .operandOutOfRange ∧ decode 0x2108000000000053#64 = .error .operandOutOfRange := by
  decide
theorem test_decodeTableWord : decodeTableWord 64 0x5900FFFFFFFFFFFF = some (.ahUnarchive 0xFFFFFFFFFFFF#48) := by decide
theorem test_encode : encode (.tcSerhdr 7#8 0xFF#8) = 0x21070000000000FF#64 := by decide

/-! ### One step -/

/-- The word that `withFetchWord` puts first runs as the first command after reset. -/
theorem test_step_runs_fetch_word :
    ran (step (State.reset.withFetchWord 64 0x1003000000000005)) (fun t => said t 0#8 0#64 && decide (t.acc = 5#7)
      && decide (t.accCnt = 3#3) && decide (t.cseq = 1#64)) = true := by decide +kernel
/-- 95 section 6.3: an illegal word in a faulted context. -/
theorem test_step_illegal_word :
    ran (step { stFaulted with cmds := [0#64] }) (fun t => said t 0x10#8 0#64 && t.faulted && decide (t.cseq = 8#64)) = true := by
  decide +kernel
/-- R271's example. -/
theorem test_ctxInit : ran (exec .ctxInit stFaulted) (fun t => said t 0#8 0#64 && decide (statusWord t = 0#16)
    && decide (t.errinfo = 0#64) && decide (t.cseq = 8#64)) = true := by decide +kernel
/-- R272: `CTX.RDREG 0x02` answers its own index. -/
theorem test_ctxRdreg_cseq : ran (exec (.ctxRdreg 0x02#8) stFaulted) (fun t => said t 0#8 7#64 && decide (t.cseq = 8#64)) = true := by
  decide +kernel
/-- 95 P5. -/
theorem test_ctxRdreg_status : ran (exec (.ctxRdreg 0x00#8) stFaulted) (fun t => said t 0#8 9#64 && decide (t.res = 9#64)) = true := by
  decide +kernel
/-- 95 section 2.1, row 7. -/
theorem test_bsWrite_32_on_7 : ran (exec (.bsWrite 32#8 0x80000001#32) { State.reset with acc := 0x7F#7, accCnt := 7#3 })
    (fun t => decide (t.obuf = bytes [0xFF, 0, 0, 0]) && decide (t.acc = 1#7) && decide (t.accCnt = 7#3)) = true := by decide +kernel
/-- 95 section 2.2: the environment fails the flush inside a `BS.WRITE`. -/
theorem test_bsWrite_failed_flush : ran (exec (.bsWrite 8#8 0x13#32)
      { State.reset with params := ⟨4, 0x53#8, 0x41#8⟩, obuf := bytes [0x10, 0x11, 0x12], ports := [.failed] })
    (fun t => said t 0x04#8 0#64 && decide (t.sinkPos = 0) && decide (t.obuf.length = 4) && decide (statusWord t = 0x000C#16))
    = true := by decide +kernel
/-- 95 section 2.1, row 4. -/
theorem test_bsFinish : ran (exec .bsFinish { State.reset with acc := 7#7, accCnt := 3#3 })
    (fun t => said t 0#8 5#64 && sunk t [0xE0] && decide (t.acc = 0#7) && decide (t.accCnt = 0#3)) = true := by decide +kernel
/-- 95 section 2.1, row 5: no transaction. -/
theorem test_bsFinish_empty : ran (exec .bsFinish { State.reset with ports := [.failed] })
    (fun t => said t 0#8 0#64 && decide (t.ports = [.failed]) && decide (t.sinkPos = 0)) = true := by decide +kernel
/-- 95 section 2.3, rows 2 and 3. -/
theorem test_bsRdbit : ran (exec .bsRdbit { withSrc [0xFF] with rdBit := 7#3 })
    (fun t => said t 0#8 1#64 && decide (t.rdByte = 1) && decide (t.rdBit = 0#3)) = true := by decide +kernel
theorem test_bsRdbit_end : ran (exec .bsRdbit { withSrc [0xFF] with rdByte := 1 })
    (fun t => said t 0x04#8 1#64 && decide (t.rdByte = 1) && decide (statusWord t = 0x000C#16)) = true := by decide +kernel
/-- 95 section 2.3, rows 5 and 7. -/
theorem test_bsAtend : ran (exec (.bsAtend 6#8) { withSrc [0x55, 0x40] with rdByte := 1, rdBit := 2#3 })
    (fun t => said t 0#8 1#64) = true := by decide +kernel
theorem test_bsAtend_past : ran (exec (.bsAtend 6#8) { withSrc [0x55, 0x40] with rdByte := 1, rdBit := 3#3 })
    (fun t => said t 0#8 0#64) = true := by decide +kernel
/-- 95 section 3.1, row 1. -/
theorem test_tcFlatten : ran (exec .tcFlatten stAB) (fun t => said t 0#8 3#64 && decide (t.shape = [(0, 0x80#8)])
    && decide (t.shapeSize = 1) && decide (t.leaves = [(0, 0x41#8), (1, 0x42#8)]) && decide (t.leafCnt = 2) && t.flatValid) = true := by
  decide +kernel
/-- 95 section 3.1. -/
theorem test_tcSerhdr : ran (exec (.tcSerhdr 0#8 0x53#8) stAB) (fun t => said t 0#8 7#64
    && decide (t.obuf = bytes [0x00, 0x53, 0x01, 0x01, 0x80, 0x41, 0x42]) && decide (t.hdrSig = 0x53#8)) = true := by decide +kernel
theorem test_tcSerhdr_not_aligned : ran (exec (.tcSerhdr 0#8 0x53#8) { stAB with accCnt := 1#3 })
    (fun t => said t 0x11#8 0#64 && decide (t.obuf = [])) = true := by decide +kernel
/-- 95 section 3.2, rows 1 and 4. -/
theorem test_tcDeser : ran (exec .tcDeser stABflat) (fun t => said t 0#8 3#64 && decide (t.root = some 0)
    && decide (t.node 0 = innerNode 0 1 2 none) && decide (t.node 1 = leafNode 0x41#9 0 0) && decide (t.node 2 = leafNode 0x42#9 0 0))
    = true := by decide +kernel
theorem test_tcDeser_leaves_run_out : ran (exec .tcDeser { stABflat with shape := [(0, 0xE0#8)] })
    (fun t => said t 0x03#8 0#64 && decide (t.nodeCnt = 6) && decide (t.tmode = .empty)) = true := by decide +kernel
theorem test_fbAcc : ran (exec (.fbAcc 0x41#8) State.reset)
    (fun t => said t 0#8 1#64 && decide (t.freqOf 0x41#8 = 1) && decide (t.distinct = 1)) = true := by decide +kernel
/-- 95 section 4.3, row 0. -/
theorem test_fbScan : ran (exec .fbScan (withSrc [0x61, 0x62, 0x72, 0x61, 0x63, 0x61, 0x64, 0x61, 0x62, 0x72, 0x61]))
    (fun t => said t 0#8 5#64 && decide (t.freq = [(0x61, 5), (0x62, 2), (0x63, 1), (0x64, 1), (0x72, 2)])
      && decide (t.rdByte = 0)) = true := by decide +kernel
/-- 95 section 1.2. -/
theorem test_fbScan_one_symbol : ran (exec .fbScan (withSrc [0x41, 0x41]))
    (fun t => said t 0x01#8 1#64 && decide (statusWord t = 0x0009#16)) = true := by decide +kernel
/-- 95 section 4.2, `"abccdd"`: the two leaves of weight 2 go before the internal node of weight 2. -/
theorem test_fbBuild : ran (exec .fbBuild { State.reset with freq := [(0x61, 1), (0x62, 1), (0x63, 2), (0x64, 2)], distinct := 4 })
    (fun t => said t 0#8 7#64 && decide (t.root = some 6) && decide (t.node 6 = innerNode 6 4 5 none)
      && decide (t.node 5 = innerNode 4 2 3 (some 6)) && decide (t.node 4 = innerNode 2 0 1 (some 6))) = true := by decide +kernel
theorem test_fbBuild_one_symbol : ran (exec .fbBuild { State.reset with freq := [(0x41, 1)], distinct := 1 })
    (fun t => said t 0x01#8 1#64 && decide (t.arena = [])) = true := by decide +kernel
/-- 95 section 1.1. -/
theorem test_shMkcodes : ran (exec .shMkcodes stAB) (fun t => said t 0#8 2#64 && decide (t.codeBits = [(0x41, [false]), (0x42, [true])])
    && decide (statusWord t = 0x0050#16)) = true := by decide +kernel
/-- 95 section 3.2, row 6: the later leaf in pre-order wins. -/
theorem test_shMkcodes_duplicate : ran (exec .shMkcodes { stAB with
      arena := [(0, leafNode 0x41#9 0 2), (1, leafNode 0x41#9 0 2), (2, innerNode 0 0 1 none)] })
    (fun t => said t 0#8 1#64 && decide (t.codeBits = [(0x41, [true])])) = true := by decide +kernel
/-- 95 P2, `CSEQ` 6. -/
theorem test_shEncsym : ran (exec (.shEncsym 0x42#8) { stABcoded with accCnt := 1#3 })
    (fun t => said t 0#8 1#64 && decide (t.acc = 1#7) && decide (t.accCnt = 2#3)) = true := by decide +kernel
/-- 95 section 4.5: no codes. -/
theorem test_shEncsym_no_codes : ran (exec (.shEncsym 0x41#8) State.reset) (fun t => said t 0x11#8 0#64) = true := by decide +kernel
/-- 95 section 4.4. -/
theorem test_shDecsym : ran (exec (.shDecsym 6#8) { stAB with src := bytes [0x55, 0x40], rdBit := 1#3 })
    (fun t => said t 0#8 0x42#64 && decide (t.obuf = bytes [0x42]) && decide (t.rdBit = 2#3)) = true := by decide +kernel
theorem test_shDecsym_end : ran (exec (.shDecsym 6#8) { stAB with src := bytes [0x55, 0x40], rdByte := 1, rdBit := 2#3 })
    (fun t => said t 0#8 0x100#64 && decide (t.obuf = []) && decide (t.rdByte = 1) && decide (t.rdBit = 2#3)) = true := by
  decide +kernel
/-- 95 section 4.4. -/
theorem test_shRdhdr : ran (exec .shRdhdr (withSrc [0x06, 0x53, 0x01, 0x01, 0x80, 0x41, 0x42, 0x55, 0x40]))
    (fun t => said t 0#8 6#64 && decide (t.rdByte = 7) && decide (statusWord t = 0x0090#16) && decide (t.hdrIgnore = 6#8)
      && decide (t.leafCnt = 2)) = true := by decide +kernel
/-- 95 section 6.1. -/
theorem test_shRdhdr_bad_signature : ran (exec .shRdhdr (withSrc [0x06, 0x41]))
    (fun t => said t 0x02#8 0x41#64 && decide (statusWord t = 0x000A#16) && decide (t.rdByte = 2) && decide (t.hdrSig = 0x41#8))
    = true := by decide +kernel
/-- 95 section 4.3, row 16. -/
theorem test_shFixup : ran (exec (.shFixup 1#8) { State.reset with snk := [(0, 0x00#8), (1, 0x53#8)], sinkPos := 2 })
    (fun t => said t 0#8 0#64 && sunk t [0x01, 0x53] && decide (t.hdrIgnore = 1#8)) = true := by decide +kernel
/-- 95 section 4.5: nothing emitted yet. -/
theorem test_shFixup_empty : ran (exec (.shFixup 0#8) State.reset) (fun t => said t 0x11#8 0#64 && decide (t.snk = [])) = true := by
  decide +kernel
/-- 95 section 4.1, `"aab"`. -/
theorem test_shArchive : ran (exec .shArchive (withSrc [0x61, 0x61, 0x62]))
    (fun t => said t 0#8 5#64 && sunk t [0x05, 0x53, 0x01, 0x01, 0x80, 0x62, 0x61, 0xC0] && decide (t.bytesIn = 3)
      && decide (t.bytesOut = 8) && decide (statusWord t = 0x00D0#16)) = true := by decide +kernel
/-- 95 section 1.2. -/
theorem test_shArchive_empty : ran (exec .shArchive State.reset)
    (fun t => said t 0x01#8 0#64 && decide (statusWord t = 0x0009#16) && decide (t.snk = [])) = true := by decide +kernel
/-- 95 section 4.4, the container whose leaf symbols are equal. -/
theorem test_shUnarchive : ran (exec .shUnarchive (withSrc [0x06, 0x53, 0x01, 0x01, 0x80, 0x41, 0x41, 0x55, 0xC0]))
    (fun t => said t 0#8 10#64 && sunk t [0x41, 0x41, 0x41, 0x41, 0x41, 0x41, 0x41, 0x41, 0x41, 0x41]) = true := by decide +kernel
/-- 95 section 6.1: no payload but pad bits declared. -/
theorem test_shUnarchive_short : ran (exec .shUnarchive (withSrc [0x06, 0x53, 0x01, 0x01, 0x80, 0x41, 0x42]))
    (fun t => said t 0x04#8 7#64 && decide (statusWord t = 0x009C#16) && decide (t.sinkPos = 0)) = true := by decide +kernel
/-- R235. -/
theorem test_ahInit : ran (exec .ahInit stAB)
    (fun t => decide ({ t with rsp := none, cseq := 0#64, distinct := 0, freq := [] } = stNyt)) = true := by decide +kernel
/-- 95 section 5.3, step 3: the swap. -/
theorem test_ahUpdate_swap : ran (exec (.ahUpdate 0x62#8) stAb) (fun t => said t 0#8 2#64
    && decide (t.node 0 = numbered (innerNode 3 2 1 none) 512#10) && decide (t.node 1 = numbered (innerNode 2 3 4 (some 0)) 511#10)
    && decide (t.node 2 = numbered (leafNode 0x61#9 1 0) 510#10)) = true := by decide +kernel
/-- 95 section 5.1, step 1. -/
theorem test_ahUpdate_new : ran (exec (.ahUpdate 0x61#8) stNyt)
    (fun t => said t 0#8 1#64 && decide (t.arena = stA.arena) && decide (t.map = stA.map) && decide (t.ahNextnum = 509#10)) = true := by
  decide +kernel
/-- 95 P3, `CSEQ` 4. -/
theorem test_ahEncsym : ran (exec (.ahEncsym 0x62#8) stA)
    (fun t => said t 0#8 9#64 && decide (t.obuf = bytes [0x31]) && decide (t.accCnt = 1#3) && decide (t.arena = stAb.arena)) = true := by
  decide +kernel
/-- 95 P3, `CSEQ` 5. -/
theorem test_ahEncsym_known : ran (exec (.ahEncsym 0x62#8) { stAb with accCnt := 1#3 })
    (fun t => said t 0#8 2#64 && decide (t.acc = 1#7) && decide (t.accCnt = 3#3)) = true := by decide +kernel
/-- 95 section 5.4: the second `'a'` of `61 CC 48 C6`. -/
theorem test_ahDecsym : ran (exec .ahDecsym { stA with src := bytes [0x41, 0x61, 0xCC], rdByte := 2 })
    (fun t => said t 0#8 0x61#64 && decide (t.rdBit = 1#3) && decide (t.obuf = bytes [0x61])) = true := by decide +kernel
/-- 95 section 6.2, the last row. -/
theorem test_ahDecsym_corrupt : ran (exec .ahDecsym { stA with src := bytes [0x41, 0x61, 0x30, 0x80], rdByte := 2 })
    (fun t => said t 0x05#8 0x61#64 && decide (t.rdByte = 3) && decide (t.rdBit = 1#3) && decide (statusWord t = 0x002D#16)) = true := by
  decide +kernel
/-- 95 section 5.3. -/
theorem test_ahArchive : ran (exec .ahArchive (withSrc [0x61, 0x62, 0x62]))
    (fun t => said t 0#8 5#64 && sunk t [0x41, 0x61, 0x31, 0x20] && decide (t.bytesIn = 3) && decide (t.bytesOut = 4)) = true := by
  decide +kernel
/-- 95 section 5.2, row 1. -/
theorem test_ahArchive_empty : ran (exec .ahArchive State.reset)
    (fun t => said t 0#8 0#64 && sunk t [0x41] && decide (statusWord t = 0x0020#16)) = true := by decide +kernel
/-- 95 section 5.4, trailing data ignored. -/
theorem test_ahUnarchive : ran (exec (.ahUnarchive 3#48) (withSrc [0x41, 0x61, 0xCC, 0x48, 0xC6]))
    (fun t => said t 0#8 3#64 && sunk t [0x61, 0x61, 0x61] && decide (t.rdByte = 2) && decide (t.rdBit = 2#3) && decide (t.bytesIn = 3))
    = true := by decide +kernel
/-- 95 section 6.2, row 2. -/
theorem test_ahUnarchive_bad_signature : ran (exec (.ahUnarchive 0#48) (withSrc [0x53]))
    (fun t => said t 0x02#8 0x53#64 && decide (statusWord t = 0x002A#16) && decide (t.rdByte = 1)) = true := by decide +kernel

/-! ### The trees of the witnesses -/

theorem get_past {α : Type} {d : α} {t : Table α} {k i : Nat} (h : ∀ e ∈ t, e.1 < k) (hi : k ≤ i) : Table.get d t i = d := by
  induction t with
  | nil => rfl
  | cons e t ih =>
    have h0 := h e (by simp)
    rw [Table.get, if_neg (by omega)]
    exact ih fun e' he => h e' (by simp [he])

/-- The arena of `s` holds `T` once its entries are listed below `NODE_CNT`. -/
theorem treeAt_of {s : State} {T : Tree} (hr : s.root = some T.idx) (hh : Holds s.arena none T)
    (hp : T.indices.Perm (List.range s.nodeCnt)) (hg : ∀ e ∈ s.arena, e.1 < s.nodeCnt) : TreeAt s T :=
  ⟨hr, hh, hp, fun _ hi => get_past hg hi⟩

theorem holds_AB : Holds stAB.arena none treeAB := by
  simp only [treeAB, Holds]
  decide

/-- Every state with the arena of `stAB` holds `treeAB`. -/
theorem treeAt_AB {s : State} (ha : s.arena = stAB.arena) (hr : s.root = some 2) (hn : s.nodeCnt = 3) : TreeAt s treeAB := by
  refine treeAt_of hr (ha ▸ holds_AB) ?_ ?_
  · rw [hn]
    decide
  · rw [ha, hn]
    decide

theorem static_AB : treeAB.Static := by
  unfold Tree.Static
  decide

theorem weighted_AB : Weighted stAB.arena treeAB := by
  simp only [treeAB, Weighted]
  decide

theorem adaptive_Nyt : AdaptiveAt stNyt treeNyt := by
  refine ⟨treeAt_of rfl ?_ (by decide) (by decide), ⟨0, rfl, ⟨rfl, rfl⟩, by decide⟩, rfl, fun b i => ?_, rfl, by decide, by decide,
    trivial, trivial, rfl, trivial⟩
  · simp only [treeNyt, Holds]
    decide
  · have hb := b.isLt
    constructor
    · intro h
      exact absurd h (by simp [stNyt, State.mapOf, State.reset])
    · rintro ⟨-, h⟩
      have := congrArg BitVec.toNat h
      simp at this
      omega

theorem holds_A : Holds stA.arena none treeA := by
  simp only [treeA, Holds]
  decide

theorem adaptive_A : AdaptiveAt stA treeA := by
  refine ⟨treeAt_of rfl holds_A (by decide) (by decide), ⟨1, rfl, .inl ⟨rfl, rfl⟩, by decide⟩, .inl ⟨rfl, by decide⟩, fun b i => ?_,
    rfl, by decide, by decide, ?_, ?_, rfl, ?_⟩
  · have hb := b.isLt
    constructor
    · intro h
      by_cases hc : 0x61 = b.toNat
      · have hi : i = 2 := by
          have h' : (if 0x61 = b.toNat then some 2 else none) = some i := h
          rw [if_pos hc] at h'
          exact (Option.some.inj h').symm
        refine .inr ⟨hi.symm, BitVec.eq_of_toNat_eq ?_⟩
        simp
        omega
      · have h' : (if 0x61 = b.toNat then some 2 else none) = some i := h
        rw [if_neg hc] at h'
        cases h'
    · rintro (⟨-, h⟩ | ⟨rfl, h⟩)
      · have := congrArg BitVec.toNat h
        simp at this
        omega
      · have := congrArg BitVec.toNat h
        simp at this
        show (if 0x61 = b.toNat then some 2 else none) = some 2
        rw [if_pos (by omega)]
  · simp only [treeA, Weighted]
    decide
  · simp only [treeA, Ordered]
    decide
  · simp only [treeA, Numbered]
    decide

/-- `AdaptiveAt` reads the tree and the adaptive registers alone. -/
theorem adaptive_congr {s : State} {T : Tree} (h : AdaptiveAt s T) (src : List Byte) (rb : Nat) :
    AdaptiveAt { s with src := src, rdByte := rb } T := h

/-! ### Witnesses: for every statement with hypotheses, a state and operands that meet all of them together -/

/-- No answer listed: every transaction succeeds. -/
theorem portsGood_of_nil {s : State} (h : s.ports = []) : PortsGood s := by
  intro a ha
  rw [h] at ha
  cases ha

theorem test_witness_DecodeEncodeRoundTrip : (Instr.bsWrite 32#8 0xDEADBEEF#32).wf = true := by decide

theorem test_witness_LegalWordsAreEncodings : decode 0x5900FFFFFFFFFFFF#64 = .ok (.ahUnarchive 0xFFFFFFFFFFFF#48) := by decide

theorem test_witness_StepRunsDecoded : { State.reset with cmds := [0x5800000000000000#64] }.cmds = 0x5800000000000000#64 :: []
    ∧ decode 0x5800000000000000#64 = .ok .ahArchive := by decide

theorem test_witness_IllegalWordChangesOnlyCseq : { stFaulted with cmds := [0x1000000000000001#64] }.cmds = 0x1000000000000001#64 :: []
    ∧ decode 0x1000000000000001#64 = .error .operandOutOfRange := by decide

theorem test_witness_EveryCommandCountsOnce : ∃ t, exec .bsRdbit State.reset = .next t ∧ t.faulted = true := by
  obtain ⟨t, h, hp⟩ := of_ran (by decide +kernel : ran (exec .bsRdbit State.reset) (fun t => t.faulted) = true)
  exact ⟨t, h, hp⟩

theorem test_witness_HostSideIsReadOnly : ∃ t, exec .bsRdbit { withSrc [0xFF] with ports := [.done, .failed] } = .next t
    ∧ t.ports = [.failed] := by
  obtain ⟨t, h, hp⟩ := of_ran (by decide +kernel :
    ran (exec .bsRdbit { withSrc [0xFF] with ports := [.done, .failed] }) (fun t => decide (t.ports = [.failed])) = true)
  exact ⟨t, h, of_decide_eq_true hp⟩

/-- The three clauses. -/
theorem test_witness_FaultedContextRefuses :
    (Instr.shArchive.wf = true ∧ stFaulted.faulted = true ∧ isContextCommand .shArchive = false)
    ∧ ({ stFaulted with cmds := [0#64] }.faulted = true ∧ decode 0#64 = .error .unassignedOpcode)
    ∧ ∃ t, exec .ctxInit stFaulted = .next t ∧ stFaulted.faulted = true ∧ t.faulted = false := by
  refine ⟨by decide, by decide, ?_⟩
  obtain ⟨t, h, hp⟩ := of_ran (by decide +kernel : ran (exec .ctxInit stFaulted) (fun t => !t.faulted) = true)
  exact ⟨t, h, rfl, by simpa using hp⟩

/-- Both clauses; the second one on a command that sets `CODES_VALID`. -/
theorem test_witness_NotAdmittedIsRefused :
    ((Instr.shFixup 0#8).wf = true ∧ State.reset.faulted = false ∧ admitted (.shFixup 0#8) State.reset = false)
    ∧ ∃ t, (stAB.codesValid = true → stAB.tmode = .static) ∧ exec .shMkcodes stAB = .next t ∧ t.codesValid = true := by
  refine ⟨by decide, ?_⟩
  obtain ⟨t, h, hp⟩ := of_ran (by decide +kernel : ran (exec .shMkcodes stAB) (fun t => t.codesValid) = true)
  exact ⟨t, by decide, h, hp⟩

/-- A primitive and a composite. -/
theorem test_witness_FaultIsRecorded :
    (∃ t, exec .bsRdbit State.reset = .next t ∧ State.reset.faulted = false ∧ t.faulted = true)
    ∧ ∃ t, exec .shUnarchive State.reset = .next t ∧ State.reset.faulted = false ∧ t.faulted = true := by
  obtain ⟨t, h, hp⟩ := of_ran (by decide +kernel : ran (exec .bsRdbit State.reset) (fun t => t.faulted) = true)
  obtain ⟨u, h', hp'⟩ := of_ran (by decide +kernel : ran (exec .shUnarchive State.reset) (fun t => t.faulted) = true)
  exact ⟨⟨t, h, rfl, hp⟩, ⟨u, h', rfl, hp'⟩⟩

theorem test_witness_OnlyListedKindsAreRaised : ∃ t, exec .tcDeser { stABflat with leafCnt := 1 } = .next t
    ∧ { stABflat with leafCnt := 1 }.faulted = false ∧ { stABflat with leafCnt := 1 }.err = none ∧ t.err = some .malformedHeader := by
  obtain ⟨t, h, hp⟩ := of_ran (by decide +kernel :
    ran (exec .tcDeser { stABflat with leafCnt := 1 }) (fun t => decide (t.err = some .malformedHeader)) = true)
  exact ⟨t, h, rfl, rfl, of_decide_eq_true hp⟩

/-- Each of the three kinds, with bytes in SNK and in `OBUF` before. -/
theorem test_witness_RejectionEmitsNothing :
    (∃ t, exec .shArchive { withSrc [0x41] with obuf := [1#8], sinkPos := 1, snk := [(0, 1#8)] } = .next t ∧ t.err = some .invalidInput)
    ∧ (∃ t, exec (.ahUnarchive 1#48) (withSrc [0x53]) = .next t ∧ t.err = some .badSignature)
    ∧ ∃ t, exec .shUnarchive (withSrc [0x06, 0x53]) = .next t ∧ t.err = some .malformedHeader := by
  obtain ⟨t, h, hp⟩ := of_ran (by decide +kernel :
    ran (exec .shArchive { withSrc [0x41] with obuf := [1#8], sinkPos := 1, snk := [(0, 1#8)] })
      (fun t => decide (t.err = some .invalidInput)) = true)
  obtain ⟨u, h', hp'⟩ := of_ran (by decide +kernel :
    ran (exec (.ahUnarchive 1#48) (withSrc [0x53])) (fun t => decide (t.err = some .badSignature)) = true)
  obtain ⟨v, h'', hp''⟩ := of_ran (by decide +kernel :
    ran (exec .shUnarchive (withSrc [0x06, 0x53])) (fun t => decide (t.err = some .malformedHeader)) = true)
  exact ⟨⟨t, h, of_decide_eq_true hp⟩, ⟨u, h', of_decide_eq_true hp'⟩, ⟨v, h'', of_decide_eq_true hp''⟩⟩

theorem test_witness_CseqInfluencesNothing : Instr.ctxRdreg 0x03#8 ≠ .ctxRdreg 0x02#8
    ∧ ∃ t, exec (.ctxRdreg 0x03#8) stFaulted = .next t ∧ t.faulted = true := by
  obtain ⟨t, h, hp⟩ := of_ran (by decide +kernel : ran (exec (.ctxRdreg 0x03#8) stFaulted) (fun t => t.faulted) = true)
  exact ⟨by decide, t, h, hp⟩

/-- A primitive that stores at `SINK_POS`, a composite, and `SH.FIXUP`. -/
theorem test_witness_SinkWritesAreBounded :
    (∃ t, exec .bsFinish { State.reset with sinkPos := 3, obuf := [7#8] } = .next t
      ∧ Memory.read t.snk 3 ≠ Memory.read { State.reset with sinkPos := 3, obuf := [7#8] }.snk 3)
    ∧ (∃ t, exec .ahArchive State.reset = .next t ∧ Memory.read t.snk 0 ≠ Memory.read State.reset.snk 0)
    ∧ ∃ t, exec (.shFixup 1#8) { State.reset with sinkPos := 1, snk := [(0, 0#8)] } = .next t
      ∧ Memory.read t.snk 0 ≠ Memory.read { State.reset with sinkPos := 1, snk := [(0, 0#8)] }.snk 0 := by
  obtain ⟨t, h, hp⟩ := of_ran (by decide +kernel :
    ran (exec .bsFinish { State.reset with sinkPos := 3, obuf := [7#8] }) (fun t => decide (Memory.read t.snk 3 ≠ none)) = true)
  obtain ⟨u, h', hp'⟩ := of_ran (by decide +kernel :
    ran (exec .ahArchive State.reset) (fun t => decide (Memory.read t.snk 0 ≠ none)) = true)
  obtain ⟨v, h'', hp''⟩ := of_ran (by decide +kernel :
    ran (exec (.shFixup 1#8) { State.reset with sinkPos := 1, snk := [(0, 0#8)] })
      (fun t => decide (Memory.read t.snk 0 ≠ some 0#8)) = true)
  exact ⟨⟨t, h, of_decide_eq_true hp⟩, ⟨u, h', of_decide_eq_true hp'⟩, ⟨v, h'', of_decide_eq_true hp''⟩⟩

/-- The last legal register number and the first illegal one. -/
theorem test_witness_CtxRdregReadsRegister : (0x16#8).toNat ≤ 0x16 ∧ 0x16 < (0x17#8).toNat := by decide

/-- Both bounds of the width. -/
theorem test_witness_BsWriteAppendsBits : (1 ≤ (1#8).toNat ∧ (1#8).toNat ≤ 32) ∧ (1 ≤ (32#8).toNat ∧ (32#8).toNat ≤ 32)
    ∧ State.reset.faulted = false ∧ PortsGood State.reset := ⟨by decide, by decide, rfl, portsGood_of_nil rfl⟩

theorem test_witness_BsFinishPadsAndFlushes : { stABcoded with acc := 5#7, accCnt := 3#3 }.faulted = false
    ∧ PortsGood { stABcoded with acc := 5#7, accCnt := 3#3 }
    ∧ (5#7).toNat < 2 ^ (3#3).toNat := ⟨rfl, portsGood_of_nil rfl, by decide⟩

/-- Each half of the disjunction. -/
theorem test_witness_BsFinishFailedFlush :
    ({ State.reset with ports := [.failed], obuf := [1#8] }.ports = .failed :: []
      ∧ { State.reset with ports := [.failed], obuf := [1#8] }.obuf ≠ [])
    ∧ ({ State.reset with ports := [.failed], accCnt := 1#3 }.ports = .failed :: []
      ∧ { State.reset with ports := [.failed], accCnt := 1#3 }.accCnt ≠ 0#3) ∧ State.reset.faulted = false := by decide

/-- A context of blocks of two bytes, one byte and seven bits waiting, whose second flush fails. -/
def stBlocks : State :=
  { State.reset with
    params := { Params.initial with blockSize := 2 }, obuf := [1#8], acc := 0x55#7, accCnt := 7#3, ports := [.done, .failed] }

/-- The second clause, at the widest write: the last of the four bytes it emits fills the second block or not (`j = 1`, `j = 0`). -/
theorem test_witness_BsFinishFailedFlush_write : 1 ≤ (32#8).toNat ∧ (32#8).toNat ≤ 32 ∧ stBlocks.faulted = false
    ∧ stBlocks.obuf.length < stBlocks.params.blockSize
    ∧ (1 + 1) * stBlocks.params.blockSize ≤ stBlocks.obuf.length + (stBlocks.accCnt.toNat + (32#8).toNat) / 8
    ∧ stBlocks.ports = List.replicate 1 .done ++ .failed :: []
    ∧ { stBlocks with ports := [.failed] }.ports = List.replicate 0 .done ++ .failed :: [] := by decide

/-- The three clauses: the last byte of SRC, the first offset past it, and a transaction that fails. -/
theorem test_witness_BsRdbitReadsNextBit :
    ({ withSrc [0xFF] with rdBit := 7#3 }.rdByte < (withSrc [0xFF]).src.length ∧ PortsGood { withSrc [0xFF] with rdBit := 7#3 })
    ∧ ((withSrc [0xFF]).src.length ≤ { withSrc [0xFF] with rdByte := 1 }.rdByte)
    ∧ ((withSrc [0xFF]).rdByte < (withSrc [0xFF]).src.length ∧ { withSrc [0xFF] with ports := [.failed] }.ports = .failed :: [])
    ∧ (withSrc [0xFF]).faulted = false := ⟨⟨by decide, portsGood_of_nil rfl⟩, by decide, by decide, rfl⟩

theorem test_witness_BsAtendTestsLogicalEnd : (7#8).toNat ≤ 7 ∧ (withSrc [0x55, 0x40]).faulted = false := by decide

theorem test_witness_WriterLaw : State.reset.faulted = false ∧ PortsGood State.reset ∧ State.reset.acc = 0#7
    ∧ State.reset.accCnt = 0#3 ∧ State.reset.obuf = [] ∧ State.reset.sinkPos = 0
    ∧ ∀ x ∈ [((3#8 : Byte), (5#32 : BitVec 32)), (32#8, 0xDEADBEEF#32)], 1 ≤ x.1.toNat ∧ x.1.toNat ≤ 32 :=
  ⟨rfl, portsGood_of_nil rfl, rfl, rfl, rfl, rfl, fun x hx => by
    rcases List.mem_cons.mp hx with rfl | hx
    · decide
    · rw [List.mem_singleton.mp hx]
      decide⟩

/-- The sink content of 95 section 2.1 as a source, before the last of its 43 bits. -/
def stReader : State := { withSrc [0xBF, 0xFB, 0xD5, 0xB7, 0xDD, 0xE0] with rdByte := 5, rdBit := 2#3 }

/-- The 43 bits of 95 section 2.3. -/
def readerBits : Bits := bitsOf 5 3 ++ bitsOf 0xFF 8 ++ bitsOf 0xDEADBEEF 32

/-- Before the last bit, and at the end. -/
theorem test_witness_ReaderMirrorsWriter : (stReader.src = packMsb readerBits ∧ cursor stReader < readerBits.length
      ∧ stReader.faulted = false ∧ PortsGood stReader)
    ∧ ({ stReader with rdBit := 3#3 }.src = packMsb readerBits ∧ cursor { stReader with rdBit := 3#3 } = readerBits.length
      ∧ { stReader with rdBit := 3#3 }.faulted = false ∧ PortsGood { stReader with rdBit := 3#3 }) :=
  ⟨⟨by decide +kernel, by decide, rfl, portsGood_of_nil rfl⟩, by decide +kernel, by decide, rfl, portsGood_of_nil rfl⟩

theorem test_witness_TcFlattenStoresShapeAndLeaves : stAB.faulted = false ∧ stAB.tmode = .static ∧ TreeAt stAB treeAB
    ∧ treeAB.leafCount ≤ 256 := ⟨rfl, rfl, treeAt_AB rfl rfl rfl, static_AB.2.1⟩

theorem test_witness_TcSerhdrEmitsHeader : (7#8).toNat ≤ 7 ∧ stAB.faulted = false ∧ stAB.tmode = .static ∧ stAB.accCnt = 0#3
    ∧ TreeAt stAB treeAB ∧ treeAB.leafCount ≤ 256 ∧ PortsGood stAB :=
  ⟨by decide, rfl, rfl, rfl, treeAt_AB rfl rfl rfl, static_AB.2.1, portsGood_of_nil rfl⟩

theorem test_witness_TcDeserRebuildsTree : stABflat.faulted = false ∧ stABflat.flatValid = true ∧ treeAB.Static
    ∧ stABflat.shapeSize = ceil8 (2 * treeAB.leafCount - 1) ∧ stABflat.leafCnt = treeAB.leafCount
    ∧ (unpackMsb (Table.firstN 0#8 stABflat.shape stABflat.shapeSize)).take (2 * treeAB.leafCount - 1) = treeAB.shape
    ∧ Table.firstN 0#8 stABflat.leaves stABflat.leafCnt = treeAB.leafBytes :=
  ⟨rfl, rfl, static_AB, by decide, by decide, by decide, by decide⟩

/-- An end of each kind. -/
theorem test_witness_TcDeserAcceptsOnlyTrees :
    (∃ t, exec .tcDeser stABflat = .next t ∧ stABflat.faulted = false ∧ stABflat.flatValid = true ∧ t.faulted = false)
    ∧ ∃ t, exec .tcDeser { stABflat with leafCnt := 1 } = .next t ∧ t.faulted = true := by
  obtain ⟨t, h, hp⟩ := of_ran (by decide +kernel : ran (exec .tcDeser stABflat) (fun t => !t.faulted) = true)
  obtain ⟨u, h', hp'⟩ := of_ran (by decide +kernel : ran (exec .tcDeser { stABflat with leafCnt := 1 }) (fun t => t.faulted) = true)
  exact ⟨⟨t, h, rfl, rfl, by simpa using hp⟩, u, h', hp'⟩

theorem test_witness_FlattenDeserSelfConsistent : stAB.faulted = false ∧ stAB.tmode = .static ∧ TreeAt stAB treeAB ∧ treeAB.Static :=
  ⟨rfl, rfl, treeAt_AB rfl rfl rfl, static_AB⟩

theorem test_witness_FbAccCountsSymbol : stAB.faulted = false := rfl

theorem test_witness_FbScanCountsSource : (withSrc [0x61, 0x62]).faulted = false ∧ PortsGood (withSrc [0x61, 0x62])
    ∧ (withSrc [0x61, 0x62]).distinct = nonzeroCount (withSrc [0x61, 0x62])
    ∧ 2 ≤ ((List.range 256).countP fun k => decide (0 < (withSrc [0x61, 0x62]).freqOf (BitVec.ofNat 8 k)
      + (withSrc [0x61, 0x62]).src.count (BitVec.ofNat 8 k))) :=
  ⟨rfl, portsGood_of_nil rfl, by decide +kernel, by decide +kernel⟩

/-- Both clauses at the boundary: one distinct symbol. -/
theorem test_witness_TooFewSymbolsFault :
    ({ State.reset with freq := [(0x41, 1)], distinct := 1 }.faulted = false
      ∧ { State.reset with freq := [(0x41, 1)], distinct := 1 }.distinct < 2)
    ∧ (PortsGood (withSrc [0x41, 0x41]) ∧ (withSrc [0x41, 0x41]).distinct = nonzeroCount (withSrc [0x41, 0x41])
      ∧ ((List.range 256).countP fun k => decide (0 < (withSrc [0x41, 0x41]).freqOf (BitVec.ofNat 8 k)
        + (withSrc [0x41, 0x41]).src.count (BitVec.ofNat 8 k))) < 2) :=
  ⟨by decide, portsGood_of_nil rfl, by decide +kernel, by decide +kernel⟩

theorem test_witness_FbBuildBuildsTree : stAB.faulted = false ∧ stAB.distinct = nonzeroCount stAB ∧ 2 ≤ stAB.distinct :=
  ⟨rfl, by decide +kernel, by decide⟩

theorem test_witness_ShMkcodesDerivesPaths : stAB.faulted = false ∧ stAB.tmode = .static ∧ TreeAt stAB treeAB ∧ treeAB.Static :=
  ⟨rfl, rfl, treeAt_AB rfl rfl rfl, static_AB⟩

theorem test_witness_CodesArePrefixFree : ∃ t, stAB.faulted = false ∧ stAB.tmode = .static ∧ TreeAt stAB treeAB ∧ treeAB.Static ∧ exec .shMkcodes stAB = .next t
    ∧ t.codeLen 0x41#8 ≠ 0 ∧ t.codeLen 0x42#8 ≠ 0 := by
  obtain ⟨t, h, hp⟩ := of_ran (by decide +kernel :
    ran (exec .shMkcodes stAB) (fun t => decide (t.codeLen 0x41#8 ≠ 0) && decide (t.codeLen 0x42#8 ≠ 0)) = true)
  simp only [Bool.and_eq_true, decide_eq_true_eq] at hp
  exact ⟨t, rfl, rfl, treeAt_AB rfl rfl rfl, static_AB, h, hp.1, hp.2⟩

theorem test_witness_ShEncsymWritesCode : stABcoded.faulted = false ∧ stABcoded.codesValid = true ∧ 0 < stABcoded.codeLen 0x42#8
    ∧ PortsGood stABcoded := ⟨rfl, rfl, by decide, portsGood_of_nil rfl⟩

/-- The code `1` with exactly `ig` bits after it. -/
theorem test_witness_ShDecsymDecodesSymbol : (7#8).toNat ≤ 7 ∧ { stAB with src := [0x80#8] }.faulted = false
    ∧ { stAB with src := [0x80#8] }.tmode = .static ∧ TreeAt { stAB with src := [0x80#8] } treeAB ∧ 2 ≤ treeAB.leafCount
    ∧ PortsGood { stAB with src := [0x80#8] } ∧ unread { stAB with src := [0x80#8] } = [true] ++ List.replicate 7 false
    ∧ treeAB.leafAt [true] = some 0x42#9 ∧ (7#8).toNat ≤ (List.replicate 7 false).length :=
  ⟨by decide, rfl, rfl, treeAt_AB rfl rfl rfl, by decide, portsGood_of_nil rfl, by decide, by decide, by decide⟩

/-- The code `1` with fewer than `ig` bits unread. -/
theorem test_witness_ShDecsymDecodesSymbol_short : { stAB with src := [0x05#8], rdBit := 5#3 }.faulted = false
    ∧ TreeAt { stAB with src := [0x05#8], rdBit := 5#3 } treeAB ∧ PortsGood { stAB with src := [0x05#8], rdBit := 5#3 }
    ∧ unread { stAB with src := [0x05#8], rdBit := 5#3 } = [true] ++ [false, true] ∧ treeAB.leafAt [true] = some 0x42#9
    ∧ (unread { stAB with src := [0x05#8], rdBit := 5#3 }).length < (7#8).toNat :=
  ⟨rfl, treeAt_AB rfl rfl rfl, portsGood_of_nil rfl, by decide, by decide, by decide⟩

/-- The second clause: no bit at all is left, and one was asked to remain. -/
theorem test_witness_ShDecsymDecodesSymbol_end : (1#8).toNat ≤ 7 ∧ { stAB with src := [0x80#8], rdByte := 1 }.faulted = false
    ∧ { stAB with src := [0x80#8], rdByte := 1 }.tmode = .static ∧ TreeAt { stAB with src := [0x80#8], rdByte := 1 } treeAB
    ∧ PortsGood { stAB with src := [0x80#8], rdByte := 1 }
    ∧ cursor { stAB with src := [0x80#8], rdByte := 1 } ≤ 8 * { stAB with src := [0x80#8], rdByte := 1 }.src.length
    ∧ (unread { stAB with src := [0x80#8], rdByte := 1 }).length < (1#8).toNat
    ∧ ∀ q, q <+: unread { stAB with src := [0x80#8], rdByte := 1 } → treeAB.leafAt q = none :=
  ⟨by decide, rfl, rfl, treeAt_AB rfl rfl rfl, portsGood_of_nil rfl, by decide, by decide, fun q hq => by
    rw [show unread { stAB with src := [0x80#8], rdByte := 1 } = [] by decide, List.prefix_nil] at hq
    rw [hq]
    rfl⟩

/-- The walk stops before its first bit. -/
theorem test_witness_ShDecsymStopsAtLogicalEnd : (7#8).toNat ≤ 7 ∧ { stAB with src := [0x80#8], rdBit := 1#3 }.faulted = false
    ∧ { stAB with src := [0x80#8], rdBit := 1#3 }.tmode = .static ∧ TreeAt { stAB with src := [0x80#8], rdBit := 1#3 } treeAB
    ∧ PortsGood { stAB with src := [0x80#8], rdBit := 1#3 }
    ∧ cursor { stAB with src := [0x80#8], rdBit := 1#3 } ≤ 8 * { stAB with src := [0x80#8], rdBit := 1#3 }.src.length
    ∧ unread { stAB with src := [0x80#8], rdBit := 1#3 } = [] ++ List.replicate 7 false
    ∧ (List.replicate 7 false).length = (7#8).toNat ∧ ∀ q, q <+: [] → treeAB.leafAt q = none :=
  ⟨by decide, rfl, rfl, treeAt_AB rfl rfl rfl, portsGood_of_nil rfl, by decide, by decide, by decide,
    fun q hq => by rw [List.prefix_nil.mp hq]; rfl⟩

/-- A header that starts at offset 1 of SRC, with a payload byte behind it. -/
theorem test_witness_ShRdhdrReadsHeader : (7#8).toNat ≤ 7
    ∧ { withSrc [9, 7, 0x53, 1, 1, 0x80, 0x41, 0x42, 0x55] with rdByte := 1 }.faulted = false
    ∧ { withSrc [9, 7, 0x53, 1, 1, 0x80, 0x41, 0x42, 0x55] with rdByte := 1 }.rdBit = 0#3
    ∧ PortsGood { withSrc [9, 7, 0x53, 1, 1, 0x80, 0x41, 0x42, 0x55] with rdByte := 1 } ∧ treeAB.Static
    ∧ (withSrc [9, 7, 0x53, 1, 1, 0x80, 0x41, 0x42, 0x55]).src.drop 1
      = staticHeader 7#8 State.reset.params.sigStatic treeAB ++ [0x55#8] :=
  ⟨by decide, rfl, rfl, portsGood_of_nil rfl, static_AB, by decide⟩

/-- A source for each clause: no byte, one byte, a wrong signature, two bytes, three bytes, `ignoreBits = 8`, a wrong size, one leaf byte missing,
shape bits that are no tree of two leaves, all right. -/
theorem test_witness_ShRdhdrCheckOrder : ∀ x ∈ [[], [6], [6, 0x41], [6, 0x53], [6, 0x53, 1], [8, 0x53, 1, 1], [7, 0x53, 2, 1],
      [7, 0x53, 1, 1, 0x80, 0x41], [7, 0x53, 1, 1, 0x00, 0x41, 0x42], [7, 0x53, 1, 1, 0x80, 0x41, 0x42]],
    (withSrc x).faulted = false ∧ (withSrc x).rdBit = 0#3 ∧ PortsGood (withSrc x) ∧ (withSrc x).rdByte ≤ (withSrc x).src.length :=
  fun _ _ => ⟨rfl, rfl, portsGood_of_nil rfl, Nat.zero_le _⟩

theorem test_witness_ShFixupOverwritesByteZero : (7#8).toNat ≤ 7 ∧ { State.reset with sinkPos := 1 }.faulted = false
    ∧ { State.reset with sinkPos := 1 }.obuf = [] ∧ 1 ≤ { State.reset with sinkPos := 1 }.sinkPos
    ∧ PortsGood { State.reset with sinkPos := 1 } := ⟨by decide, rfl, rfl, by decide, portsGood_of_nil rfl⟩

theorem test_witness_ShArchiveWritesContainer : (withSrc [0x61, 0x62]).faulted = false ∧ PortsGood (withSrc [0x61, 0x62])
    ∧ 2 ≤ (distinctBytes (withSrc [0x61, 0x62]).src).length := ⟨rfl, portsGood_of_nil rfl, by decide⟩

theorem test_witness_ShArchiveRejectsFewSymbols : (withSrc [0x41, 0x41]).faulted = false ∧ PortsGood (withSrc [0x41, 0x41])
    ∧ (distinctBytes (withSrc [0x41, 0x41]).src).length < 2 := ⟨rfl, portsGood_of_nil rfl, by decide⟩

/-- 95 section 4.4. -/
theorem test_witness_ShUnarchiveDecodesContainer :
    (withSrc [6, 0x53, 1, 1, 0x80, 0x41, 0x42, 0x55, 0x40]).faulted = false
    ∧ PortsGood (withSrc [6, 0x53, 1, 1, 0x80, 0x41, 0x42, 0x55, 0x40]) ∧ treeAB.Static
    ∧ (∀ b ∈ bytes [0x41, 0x42, 0x41, 0x42, 0x41, 0x42, 0x41, 0x42, 0x41, 0x42], b.setWidth 9 ∈ treeAB.syms)
    ∧ (withSrc [6, 0x53, 1, 1, 0x80, 0x41, 0x42, 0x55, 0x40]).src = staticContainer State.reset.params.sigStatic treeAB
        (bytes [0x41, 0x42, 0x41, 0x42, 0x41, 0x42, 0x41, 0x42, 0x41, 0x42]) :=
  ⟨rfl, portsGood_of_nil rfl, static_AB, by decide, by decide +kernel⟩

theorem test_witness_StaticRoundTrip : ∃ t, (withSrc [0x61, 0x62]).faulted = false ∧ PortsGood (withSrc [0x61, 0x62])
    ∧ 2 ≤ (distinctBytes (withSrc [0x61, 0x62]).src).length
    ∧ exec .shArchive (withSrc [0x61, 0x62]) = .next t ∧ t.faulted = false
    ∧ sinkBytes t = (bytes [6, 0x53, 1, 1, 0x80, 0x61, 0x62, 0x40]).map some
    ∧ (withSrc [6, 0x53, 1, 1, 0x80, 0x61, 0x62, 0x40]).faulted = false
    ∧ PortsGood (withSrc [6, 0x53, 1, 1, 0x80, 0x61, 0x62, 0x40])
    ∧ (withSrc [6, 0x53, 1, 1, 0x80, 0x61, 0x62, 0x40]).params = (withSrc [0x61, 0x62]).params
    ∧ (withSrc [6, 0x53, 1, 1, 0x80, 0x61, 0x62, 0x40]).src = bytes [6, 0x53, 1, 1, 0x80, 0x61, 0x62, 0x40] := by
  obtain ⟨t, h, hp⟩ := of_ran (by decide +kernel :
    ran (exec .shArchive (withSrc [0x61, 0x62])) (fun t => !t.faulted && sunk t [6, 0x53, 1, 1, 0x80, 0x61, 0x62, 0x40]) = true)
  simp only [Bool.and_eq_true, Bool.not_eq_true', sunk, decide_eq_true_eq] at hp
  exact ⟨t, rfl, portsGood_of_nil rfl, by decide, h, hp.1, hp.2, rfl, portsGood_of_nil rfl, rfl, rfl⟩

theorem test_witness_ShArchiveEqualsPrimitives : (withSrc [0x61, 0x62, 0x61]).faulted = false
    ∧ PortsGood (withSrc [0x61, 0x62, 0x61]) ∧ 2 ≤ (distinctBytes (withSrc [0x61, 0x62, 0x61]).src).length :=
  ⟨rfl, portsGood_of_nil rfl, by decide⟩

theorem test_witness_AhInitCreatesNytLeaf : stAB.faulted = false := rfl

theorem test_witness_AhUpdateReweights : stA.faulted = false ∧ stA.tmode = .adaptive ∧ AdaptiveAt stA treeA := ⟨rfl, rfl, adaptive_A⟩

theorem test_witness_AhEncsymWritesPath : stA.faulted = false ∧ stA.tmode = .adaptive ∧ AdaptiveAt stA treeA ∧ PortsGood stA :=
  ⟨rfl, rfl, adaptive_A, portsGood_of_nil rfl⟩

/-- A known symbol: the path `1`. -/
theorem test_witness_AhDecsymMirrorsEncsym : stA.faulted = false ∧ stA.tmode = .adaptive
    ∧ AdaptiveAt { stA with src := [0x80#8] } treeA ∧ PortsGood { stA with src := [0x80#8] }
    ∧ CodeIn { stA with src := [0x80#8] } treeA 0x61#8 [true]
    ∧ unread { stA with src := [0x80#8] } = [true] ++ List.replicate 7 false :=
  ⟨rfl, rfl, adaptive_congr adaptive_A [0x80#8] 0, portsGood_of_nil rfl, (by decide : treeA.pathTo 2 = some [true]), by decide⟩

/-- A new symbol: the path of the NYT leaf and the raw value. -/
theorem test_witness_AhDecsymMirrorsEncsym_new : stA.faulted = false ∧ stA.tmode = .adaptive
    ∧ AdaptiveAt { stA with src := bytes [0x31, 0x00] } treeA ∧ PortsGood { stA with src := bytes [0x31, 0x00] }
    ∧ CodeIn { stA with src := bytes [0x31, 0x00] } treeA 0x62#8 ([false] ++ bitsOf 0x62 8)
    ∧ unread { stA with src := bytes [0x31, 0x00] } = ([false] ++ bitsOf 0x62 8) ++ List.replicate 7 false :=
  ⟨rfl, rfl, adaptive_congr adaptive_A _ 0, portsGood_of_nil rfl, ⟨1, [false], rfl, by decide, rfl⟩, by decide⟩

/-- 95 section 6.2, the last row. -/
theorem test_witness_AhDecsymCorruptStream : stA.faulted = false ∧ stA.tmode = .adaptive
    ∧ AdaptiveAt { stA with src := bytes [0x30, 0x80] } treeA
    ∧ PortsGood { stA with src := bytes [0x30, 0x80] } ∧ stA.ahNyt = some 1 ∧ treeA.pathTo 1 = some [false]
    ∧ stA.mapOf 0x61#8 = some 2
    ∧ unread { stA with src := bytes [0x30, 0x80] } = [false] ++ bitsOf (0x61#8 : Byte).toNat 8 ++ List.replicate 7 false :=
  ⟨rfl, rfl, adaptive_congr adaptive_A _ 0, portsGood_of_nil rfl, rfl, by decide, by decide, by decide⟩

/-- The second clause: no bit left for the walk, and seven raw bits after the path of the NYT leaf. -/
theorem test_witness_AhDecsymCorruptStream_end : stA.faulted = false ∧ stA.tmode = .adaptive
    ∧ (AdaptiveAt { stA with src := [] } treeA ∧ PortsGood { stA with src := [] } ∧ cursor { stA with src := [] } ≤ 0
      ∧ ∀ q, q <+: unread { stA with src := [] } → treeA.leafAt q = none)
    ∧ AdaptiveAt { stA with src := [0x31#8] } treeA ∧ PortsGood { stA with src := [0x31#8] } ∧ cursor { stA with src := [0x31#8] } ≤ 8
    ∧ ∃ p raw, unread { stA with src := [0x31#8] } = p ++ raw ∧ treeA.leafAt p = some Config.nytMark ∧ raw.length < 8 :=
  ⟨rfl, rfl, ⟨adaptive_congr adaptive_A _ 0, portsGood_of_nil rfl, by decide, fun q hq => by
      rw [show unread { stA with src := [] } = [] by decide, List.prefix_nil] at hq
      rw [hq]
      rfl⟩,
    adaptive_congr adaptive_A _ 0, portsGood_of_nil rfl, by decide, [false], bitsOf 0x31 7, by decide, by decide, by decide⟩

theorem test_witness_AhArchiveEqualsPrimitives : (withSrc [0x41, 0x41]).faulted = false ∧ PortsGood (withSrc [0x41, 0x41]) :=
  ⟨rfl, portsGood_of_nil rfl⟩

theorem test_witness_AhArchiveWritesContainer : (withSrc []).faulted = false ∧ PortsGood (withSrc []) := ⟨rfl, portsGood_of_nil rfl⟩

/-- R256: the bits of the worked trace; 95 section 5.3: a trace with a swap. -/
theorem test_adaptivePayload_trace :
    packMsb (adaptivePayload (bytes [0x61, 0x61, 0x61, 0x62, 0x62, 0x63])) = bytes [0x61, 0xCC, 0x48, 0xC6]
      ∧ (adaptivePayload (bytes [0x61, 0x61, 0x61, 0x62, 0x62, 0x63])).length = 31
      ∧ packMsb (adaptivePayload (bytes [0x61, 0x62, 0x62])) = bytes [0x61, 0x31, 0x20] := by decide

/-- The first clause: R252's example with its pad bit set and a byte behind it. -/
theorem test_witness_AhUnarchiveDecodesContainer :
    (withSrc [0x41, 0x61, 0xCC, 0x48, 0xC7, 0xFF]).faulted = false ∧ PortsGood (withSrc [0x41, 0x61, 0xCC, 0x48, 0xC7, 0xFF])
    ∧ (bytes [0x61, 0x61, 0x61, 0x62, 0x62, 0x63]).length < 2 ^ 48
    ∧ (withSrc [0x41, 0x61, 0xCC, 0x48, 0xC7, 0xFF]).src = State.reset.params.sigAdaptive :: bytes [0x61, 0xCC, 0x48, 0xC7, 0xFF]
    ∧ adaptivePayload (bytes [0x61, 0x61, 0x61, 0x62, 0x62, 0x63]) <+: unpackMsb (bytes [0x61, 0xCC, 0x48, 0xC7, 0xFF]) :=
  ⟨rfl, portsGood_of_nil rfl, by decide, by decide, by decide⟩

/-- The second clause. -/
theorem test_witness_AhUnarchiveDecodesContainer_payload : ∃ u, State.reset.faulted = false ∧ exec .ahInit State.reset = .next u
    ∧ AdaptiveCode u [0x61#8] ([] ++ bitsOf 0x61 8 ++ []) := by
  obtain ⟨u, h, hp⟩ := of_ran (by decide +kernel :
    ran (exec .ahInit State.reset)
      (fun u => decide (u = { stNyt with rsp := some { st := 0#8, val := 0#64 }, cseq := 1#64 })) = true)
  obtain rfl := of_decide_eq_true hp
  obtain ⟨v, hv, -⟩ := of_ran (by decide +kernel :
    ran (exec (.ahUpdate 0x61#8) { stNyt with rsp := some { st := 0#8, val := 0#64 }, cseq := 1#64 }) (fun _ => true) = true)
  exact ⟨_, rfl, h, .cons _ v treeNyt 0x61#8 [] _ [] adaptive_Nyt ⟨0, [], rfl, by decide, rfl⟩ hv (.nil v)⟩

theorem test_witness_AdaptiveRoundTrip : ∃ t, (withSrc [0x61, 0x62, 0x62]).faulted = false
    ∧ PortsGood (withSrc [0x61, 0x62, 0x62]) ∧ exec .ahArchive (withSrc [0x61, 0x62, 0x62]) = .next t
    ∧ sinkBytes t = (bytes [0x41, 0x61, 0x31, 0x20]).map some ∧ (withSrc [0x61, 0x62, 0x62]).src.length < 2 ^ 48
    ∧ (withSrc [0x41, 0x61, 0x31, 0x20]).faulted = false ∧ PortsGood (withSrc [0x41, 0x61, 0x31, 0x20])
    ∧ (withSrc [0x41, 0x61, 0x31, 0x20]).params = (withSrc [0x61, 0x62, 0x62]).params
    ∧ (withSrc [0x41, 0x61, 0x31, 0x20]).src = bytes [0x41, 0x61, 0x31, 0x20] := by
  obtain ⟨t, h, hp⟩ := of_ran (by decide +kernel :
    ran (exec .ahArchive (withSrc [0x61, 0x62, 0x62])) (fun t => sunk t [0x41, 0x61, 0x31, 0x20]) = true)
  exact ⟨t, rfl, portsGood_of_nil rfl, h, of_decide_eq_true hp, by decide, rfl, portsGood_of_nil rfl, rfl, rfl⟩

/-- Both clauses: an empty source, and another first byte. -/
theorem test_witness_AhUnarchiveChecksSignature : (withSrc []).faulted = false ∧ PortsGood (withSrc []) ∧ (withSrc []).src = []
    ∧ PortsGood (withSrc [0x53]) ∧ (withSrc [0x53]).src = 0x53#8 :: [] ∧ (0x53#8) ≠ (withSrc [0x53]).params.sigAdaptive :=
  ⟨rfl, portsGood_of_nil rfl, rfl, portsGood_of_nil rfl, rfl, by decide⟩

theorem inv_AB : Inv stABcoded where
  params := by decide
  sink := List.Pairwise.nil
  freq := by decide
  arena := by decide
  codeBits := by decide
  map := Table.wf_nil _
  shape := Table.wf_nil _
  leaves := Table.wf_nil _
  acc := by decide
  err := rfl
  obuf := by decide
  codes := by decide
  root := by decide
  distinct := by decide +kernel
  leafCnt := by decide
  shapeSize := by decide
  flat := by decide
  cursor := by decide

/-- A state with a tree and codes, which is not the reset state, and its next one. -/
theorem test_witness_StepKeepsInv : ∃ t, Inv { stABcoded with cmds := [0x4141000000000000#64] }
    ∧ step { stABcoded with cmds := [0x4141000000000000#64] } = .next t ∧ t.accCnt = 1#3 := by
  obtain ⟨t, h, hp⟩ := of_ran (by decide +kernel :
    ran (step { stABcoded with cmds := [0x4141000000000000#64] }) (fun t => decide (t.accCnt = 1#3)) = true)
  exact ⟨t, { inv_AB with }, h, of_decide_eq_true hp⟩

theorem test_witness_StepKeepsTreeAndNeverSticks : Inv stABcoded ∧ TreeInv stABcoded := by
  refine ⟨inv_AB, treeAB, treeAt_AB rfl rfl rfl, static_AB, weighted_AB, fun _ b => ?_⟩
  revert b
  decide +kernel

end Sys2Proof.Tests
end

section
namespace Sys2Proof.Machine

/-! ## The small statements -/

/-- Settles O6: no rule writes `CSEQ` (`rule_keepsHost`), and each of the five ways a command can end counts it on and responds. -/
theorem everyCommandCountsOnce : Obligations.EveryCommandCountsOnce := by
  intro i s t h
  rcases exec_cases h with ⟨-, rfl⟩ | ⟨-, -, -, rfl⟩ | ⟨-, -, -, rfl⟩ | ⟨-, -, -, ⟨v, u, hr, rfl⟩ | ⟨e, info, u, hr, rfl⟩⟩
  · exact ⟨rfl, rfl⟩
  · exact ⟨rfl, rfl⟩
  · exact ⟨rfl, rfl⟩
  · obtain ⟨-, -, -, hc, -⟩ := (rule_keepsHost i s).1 v u hr
    exact ⟨congrArg (· + 1#64) hc, rfl⟩
  · obtain ⟨-, -, -, hc, -⟩ := (rule_keepsHost i s).2 _ u hr
    exact ⟨congrArg (· + 1#64) hc, rfl⟩

/-- R27: the places of the fields of a word put together as `STATUS` is. -/
theorem statusFields (fv cv fa : Bool) (m : BitVec 2) (e : BitVec 3) :
    let w := 0#8 ++ BitVec.ofBool fv ++ BitVec.ofBool cv ++ m ++ BitVec.ofBool fa ++ e
    w.extractLsb' 0 3 = e ∧ w.getLsbD 3 = fa ∧ w.extractLsb' 4 2 = m ∧ w.getLsbD 6 = cv ∧ w.getLsbD 7 = fv
      ∧ w.extractLsb' 8 8 = 0#8 := by
  revert fv cv fa m e
  decide

/-- Settles O15: the fields stand at their places whatever their values are (`statusFields`). -/
theorem statusLayout : Obligations.StatusLayout := by
  intro s
  obtain ⟨herr, hfaulted, hmode, hcodes, hflat, hzero⟩ :=
    statusFields s.flatValid s.codesValid s.faulted (tmodeField s) (errField s)
  refine ⟨herr.trans ?_, hfaulted, hmode.trans ?_, hcodes, hflat, hzero⟩
  · unfold errField
    cases s.err with
    | none => rfl
    | some e => cases e <;> rfl
  · unfold tmodeField
    cases s.tmode <;> rfl

/-- Settles O16: the registers are read from the table, the tables are empty lists. -/
theorem resetValues : Obligations.ResetValues :=
  ⟨by decide, fun _ => ⟨rfl, rfl, rfl⟩, fun _ => rfl, fun _ => ⟨rfl, rfl⟩, rfl⟩

/-- Settles O58. -/
theorem resetMeetsInv : Obligations.ResetMeetsInv := by
  refine ⟨?_, rfl⟩
  constructor
  case distinct => decide +kernel
  all_goals decide

end Sys2Proof.Machine
end

section
namespace Sys2Proof.Machine

/-! ## The part of the invariant that every elementary change keeps -/

/-! ### What the walks and the mutators of the arena give -/

/-- R41: a walk that comes to an end has seen `2L - 1` shape bits and `L` leaf bytes, `L ≥ 1`, whatever the arena holds. -/
theorem walk_length {t : Table Node} {k i : Nat} {f : Bits × List Byte} (h : walk t k i = some f) :
    1 ≤ f.2.length ∧ f.1.length = shapeBits f.2.length := by
  induction k generalizing i f with
  | zero => cases h
  | succ k ih =>
    rw [walk] at h
    split at h
    · cases h
      exact ⟨Nat.le_refl 1, rfl⟩
    · split at h
      · next hl hr =>
        cases h
        have hlen1 := ih hl
        have hlen2 := ih hr
        simp only [shapeBits, List.length_append, List.length_cons] at hlen1 hlen2 ⊢
        omega
      · cases h
    · cases h

/-- R161: what `Flatten` stores has between 1 and 256 leaves and their number of shape bits. -/
theorem flattened_length {s : State} {f : Bits × List Byte} (h : flattened s = some f) :
    1 ≤ f.2.length ∧ f.2.length ≤ 256 ∧ f.1.length = shapeBits f.2.length := by
  unfold flattened at h
  split at h
  · cases h
  · split at h
    · cases h
    · next hw =>
      split at h
      · next hle =>
        cases h
        exact ⟨(walk_length hw).1, hle, (walk_length hw).2⟩
      · cases h

/-- R201: the code table is canonical. -/
theorem wf_walkC {t : Table Node} {k i : Nat} {p : Bits} {c c' : Table Bits} (h : walkC t k i p c = some c')
    (hc : Table.wf [] c) : Table.wf [] c' := by
  induction k generalizing i p c c' with
  | zero => cases h
  | succ k ih =>
    rw [walkC] at h
    split at h
    · cases h
      exact Table.wf_set _ _ _ hc
    · split at h
      · next hl => exact ih h (ih hl hc)
      · cases h
    · cases h

theorem wf_derivedCodes {s : State} {c : Table Bits} (h : derivedCodes s = some c) : Table.wf [] c := by
  unfold derivedCodes at h
  split at h
  · cases h
  · exact wf_walkC h (Table.wf_nil _)

theorem wf_setParent {t : Table Node} (i p : Nat) (h : Table.wf Node.reset t) : Table.wf Node.reset (setParent t i p) :=
  wf_setNode _ _ h

theorem wf_linkNodes {t : Table Node} (i l r : Nat) (h : Table.wf Node.reset t) : Table.wf Node.reset (linkNodes t i l r) :=
  wf_setParent _ _ (wf_setParent _ _ (wf_setNode _ _ h))

theorem wf_mergeNodes {t : Table Node} (n x y : Nat) (h : Table.wf Node.reset t) : Table.wf Node.reset (mergeNodes t n x y) :=
  wf_setParent _ _ (wf_setParent _ _ (wf_setNode _ _ h))

/-! The end and the round of the `while` loop of `Build` (R185). -/

theorem mergeAll_one (k : Nat) (x : Nat × Nat) (t : Table Node) (n : Nat) : mergeAll k [x] t n = some (t, n, x.2) := by
  cases k <;> rfl

theorem mergeAll_succ (k : Nat) (x y : Nat × Nat) (rest : List (Nat × Nat)) (t : Table Node) (n : Nat) :
    mergeAll (k + 1) (x :: y :: rest) t n = mergeAll k (addLive (x.1 + y.1, n) rest) (mergeNodes t n x.2 y.2) (n + 1) := rfl

theorem wf_mergeAll {k : Nat} {live : List (Nat × Nat)} {t : Table Node} {n : Nat} {r : Table Node × Nat × Nat}
    (h : mergeAll k live t n = some r) (ht : Table.wf Node.reset t) : Table.wf Node.reset r.1 := by
  induction k generalizing live t n with
  | zero =>
    rcases live with _ | ⟨x, _ | ⟨y, rest⟩⟩
    · cases h
    · cases h
      exact ht
    · cases h
  | succ k ih =>
    rcases live with _ | ⟨x, _ | ⟨y, rest⟩⟩
    · cases h
    · cases h
      exact ht
    · exact ih h (wf_mergeNodes _ _ _ ht)

theorem wf_builtTree {freq : Table Nat} {r : Table Node × Nat × Nat} (h : builtTree freq = some r) : Table.wf Node.reset r.1 :=
  wf_mergeAll h (Table.wf_setFrom _ _ _ (Table.wf_nil _))

theorem wf_growNodes {t : Table Node} (p a : Nat) (b : Byte) (num : BitVec 10) (h : Table.wf Node.reset t) :
    Table.wf Node.reset (growNodes t p a b num) :=
  wf_setNode _ _ (wf_setNode _ _ (wf_setNode _ _ h))

theorem wf_swapChildren {t : Table Node} (q n m : Nat) (h : Table.wf Node.reset t) : Table.wf Node.reset (swapChildren t q n m) :=
  wf_setNode _ _ (wf_setNode _ _ (wf_setNode _ _ h))

theorem wf_updateUp {k n : Nat} {t u : Table Node} (h : updateUp k n t = some u) (ht : Table.wf Node.reset t) :
    Table.wf Node.reset u := by
  induction k generalizing n t with
  | zero => cases h
  | succ k ih =>
    rw [updateUp] at h
    split at h
    · cases h
      exact wf_setNode _ _ ht
    · split at h
      · cases h
      · refine ih h (wf_setNode _ _ ?_)
        split
        · exact wf_swapChildren _ _ _ ht
        · exact ht

/-! ### The relation -/

/-- The fields of `Inv` that every elementary change of a rule keeps, under its own condition alone. -/
structure Steady (s : State) : Prop where
  sink : Memory.wf s.snk
  freq : Table.wf 0 s.freq
  arena : Table.wf Node.reset s.arena
  codeBits : Table.wf [] s.codeBits
  map : Table.wf none s.map
  shape : Table.wf 0#8 s.shape
  leaves : Table.wf 0#8 s.leaves
  acc : s.acc.toNat < 2 ^ s.accCnt.toNat
  err : s.faulted = s.err.isSome
  root : s.tmode = .empty → s.root = none
  leafCnt : s.leafCnt ≤ 256
  shapeSize : s.shapeSize ≤ 64

theorem Inv.steady {s : State} (h : Inv s) : Steady s := { h with }

/-- R30, R41: a size of `L ≤ 256` leaves fits the buffers. -/
theorem ceil8_shapeBits_le {n : Nat} (h : n ≤ 256) : ceil8 (shapeBits n) ≤ 64 := by
  unfold ceil8 shapeBits
  omega

/-- R22: what `WriteBits` and `Finish` leave in the accumulator. -/
theorem acc_lt_of_mod (x n : Nat) (h : n < 8) : (BitVec.ofNat 7 (x % 2 ^ n)).toNat < 2 ^ (BitVec.ofNat 3 n).toNat := by
  have hx : x % 2 ^ n < 2 ^ n := Nat.mod_lt _ (by positivity)
  have hn : (BitVec.ofNat 3 n).toNat = n := by
    rw [BitVec.toNat_ofNat]
    omega
  rw [hn, BitVec.toNat_ofNat]
  exact Nat.lt_of_le_of_lt (Nat.mod_le _ _) hx

theorem steady_storeFlat {s : State} {f : Bits × List Byte} (hf : flattened s = some f) (h : Steady s) :
    Steady (storeFlat f.1 f.2 s) := by
  obtain ⟨-, hle, hbits⟩ := flattened_length hf
  exact { h with
    shape := Table.wf_setFrom _ _ _ (Table.wf_nil _)
    leaves := Table.wf_setFrom _ _ _ h.leaves
    leafCnt := hle
    shapeSize := (congrArg ceil8 hbits).trans_le (ceil8_shapeBits_le hle) }

theorem steady_initContext {s : State} (h : Steady s) : Steady (initContext s) where
  sink := h.sink
  freq := Table.wf_nil _
  arena := Table.wf_nil _
  codeBits := Table.wf_nil _
  map := Table.wf_nil _
  shape := Table.wf_nil _
  leaves := Table.wf_nil _
  acc := Nat.one_pos
  err := rfl
  root := fun _ => rfl
  leafCnt := Nat.zero_le _
  shapeSize := Nat.zero_le _

/-- Every elementary change keeps `Steady`. -/
theorem steady_closed : Closed fun s t => Steady s → Steady t := by
  have hr : ∀ s, Steady s → Steady s := fun _ => id
  have ht : ∀ s t u, (Steady s → Steady t) → (Steady t → Steady u) → Steady s → Steady u := fun _ _ _ h1 h2 h => h2 (h1 h)
  have hp : ∀ s, Steady s → Steady (usePort s) := fun _ h => { h with }
  have hs : ∀ s off v, Steady s → Steady { s with snk := Memory.storeBytes s.snk off v } :=
    fun _ _ _ h => { h with sink := Memory.wf_storeBytes _ _ h.sink }
  have hf : Steps (fun s t => Steady s → Steady t) flushOut := steps_flushOut hr ht hp hs fun _ _ h => { h with }
  constructor
  case refl => exact hr
  case trans => exact ht
  case port => exact hp
  case emit => exact steps_emitByte hr ht hf fun _ _ h => { h with }
  case flush => exact hf
  case fix => exact steps_fixup ht hp hs fun _ _ h => { h with }
  case acc => exact fun _ x n hn h => { h with acc := acc_lt_of_mod x n hn }
  case bit =>
    intro s _ h
    rw [advanceBit_frame]
    exact { h with }
  case byte => exact fun _ _ h => { h with }
  case flat => exact fun _ _ hf h => steady_storeFlat hf h
  case header => exact fun _ _ _ h => { h with }
  case signature => exact fun _ _ h => { h with }
  case sizes =>
    exact fun _ _ lm hlm hss h => { h with
      leafCnt := hlm
      shapeSize := hss.trans_le (ceil8_shapeBits_le hlm) }
  case shape => exact fun _ _ _ h => { h with shape := Table.wf_set _ _ _ h.shape }
  case shapeEnd => exact fun _ _ h => { h with shape := Table.wf_clearFrom _ _ h.shape }
  case leaf => exact fun _ _ _ h => { h with leaves := Table.wf_set _ _ _ h.leaves }
  case flatValid => exact fun _ h => { h with }
  case clear => exact fun _ h => { h with arena := Table.wf_nil _, root := fun _ => rfl }
  case alloc => exact fun _ h => { h with }
  case put => exact fun _ _ _ h => { h with arena := wf_setNode _ _ h.arena }
  case link => exact fun _ _ _ _ h => { h with arena := wf_linkNodes _ _ _ h.arena }
  case root => exact fun _ _ h => { h with root := nofun }
  case count => exact fun s b h => { h with freq := Table.wf_set 0 b.toNat (s.freqOf b + 1) h.freq }
  case built => exact fun _ _ hb h => { h with arena := wf_builtTree hb, root := nofun }
  case codes => exact fun _ _ hc h => { h with codeBits := wf_derivedCodes hc }
  case ahInit => exact fun _ h => { h with
      arena := wf_setNode 0 (adaptiveLeaf Config.nytMark none Config.numRoot) (Table.wf_nil _)
      map := Table.wf_nil _
      root := nofun }
  case growth => exact fun s p b _ h => { h with
      arena := wf_growNodes p s.nodeCnt b s.ahNextnum h.arena
      map := Table.wf_set none b.toNat (some (s.nodeCnt + 1)) h.map }
  case update => exact fun _ _ _ hu h => { h with arena := wf_updateUp hu h.arena }
  case bytes => exact fun _ _ h => { h with }

end Sys2Proof.Machine
end

section
namespace Sys2Proof.Machine

/-! ## How the run of a rule ends, when transactions may fail -/

section
variable {α β : Type} {s t : State} {E : Stop → State → Prop}

/-- The run came to its end with what `Q` says, or stopped with what `E` says. -/
def Ends (Q : α → State → Prop) (E : Stop → State → Prop) : EStateM.Result Stop State α → Prop
  | .ok a t => Q a t
  | .error e t => E e t

variable {Q : α → State → Prop} {P : β → State → Prop}

theorem Ends.mono {Q' : α → State → Prop} {E' : Stop → State → Prop} {r : EStateM.Result Stop State α} (h : Ends Q E r)
    (hq : ∀ a t, r = .ok a t → Q a t → Q' a t) (he : ∀ e t, E e t → E' e t) : Ends Q' E' r := by
  cases r with
  | ok a t => exact hq a t rfl h
  | error e t => exact he e t h

theorem Ends.imp {Q' : α → State → Prop} {r : EStateM.Result Stop State α} (h : Ends Q E r)
    (hq : ∀ a t, r = .ok a t → Q a t → Q' a t) : Ends Q' E r :=
  h.mono hq fun _ _ => id

theorem ends_of_ok {r : EStateM.Result Stop State α} {a : α} (h : r = .ok a t) (hq : Q a t) : Ends Q E r := by
  rw [h]
  exact hq

theorem ends_of_error {r : EStateM.Result Stop State α} {e : Stop} (h : r = .error e t) (he : E e t) : Ends Q E r := by
  rw [h]
  exact he

theorem ends_bind {c : Cmd α} {f : α → Cmd β} (hc : Ends Q E (c s)) (hf : ∀ a t, c s = .ok a t → Q a t → Ends P E (f a t)) :
    Ends P E ((c >>= f) s) := by
  cases h : c s with
  | ok a t =>
    rw [h] at hc
    rw [run_bind_ok f h]
    exact hf a t h hc
  | error e t =>
    rw [h] at hc
    rw [run_bind_error f h]
    exact hc

theorem ends_get {f : State → Cmd β} (h : Ends P E (f s s)) : Ends P E (((get : Cmd State) >>= f) s) := h

theorem ends_modify {g : State → State} {f : PUnit → Cmd β} (h : Ends P E (f ⟨⟩ (g s))) :
    Ends P E (((modify g : Cmd PUnit) >>= f) s) := h

theorem ends_ite {c : Prop} [Decidable c] {x y : Cmd α} (hx : c → Ends Q E (x s)) (hy : ¬ c → Ends Q E (y s)) :
    Ends Q E ((if c then x else y) s) := by
  split
  · exact hx ‹_›
  · exact hy ‹_›

theorem ends_raiseIf {c : Prop} [Decidable c] {e : ErrKind} {info : Nat} {Q : Unit → State → Prop}
    (he : E (.raised e info) s) (hq : ¬ c → Q () s) : Ends Q E (raiseIf c e info s) := by
  by_cases hc : c
  · exact ends_of_error (raiseIf_pos e info s hc) he
  · exact ends_of_ok (raiseIf_neg e info s hc) (hq hc)

theorem ends_fromTree {o : Option α} (hn : o = none → E (.stuck .brokenTree) s) (hs : ∀ a, o = some a → Q a s) :
    Ends Q E (fromTree o s) := by
  cases o with
  | none => exact hn rfl
  | some a => exact hs a rfl

theorem ends_discard {c : Cmd α} {I : State → Prop} (h : Ends (fun _ => I) E (c s)) :
    Ends (fun _ => I) E ((discard c : Cmd PUnit) s) := by
  rw [run_discard]
  cases hc : c s with
  | ok a t =>
    rw [hc] at h
    exact h
  | error e t =>
    rw [hc] at h
    exact h

/-- A loop that keeps an invariant of its index. -/
theorem ends_upFrom {I : Nat → State → Prop} {f : Nat → Cmd Unit}
    (hf : ∀ j t, I j t → Ends (fun _ => I (j + 1)) E (f j t)) {n i : Nat} (h : I i s) :
    Ends (fun _ => I (i + n)) E (upFrom f n i s) := by
  induction n generalizing i s with
  | zero => exact h
  | succ n ih =>
    refine ends_bind (hf i s h) fun _ t _ ht => ?_
    rw [show i + (n + 1) = i + 1 + n by omega]
    exact ih ht

theorem ends_repeatTimes {I : State → Prop} {c : Cmd Unit} (hc : ∀ t, I t → Ends (fun _ => I) E (c t)) {n : Nat} (h : I s) :
    Ends (fun _ => I) E (repeatTimes c n s) := by
  induction n generalizing s with
  | zero => exact h
  | succ n ih => exact ends_bind (hc s h) fun _ t _ => ih

end

/-! ## The port side of the invariant -/

/-- The part of the state that no port transaction, no bit written or read and no count changes: the tree, its codes, the sizes of the
flatten buffers, and SRC. -/
def treePart (s : State) : State :=
  { State.reset with
    tmode := s.tmode, root := s.root, arena := s.arena, nodeCnt := s.nodeCnt, codesValid := s.codesValid, codeBits := s.codeBits
    ahNyt := s.ahNyt, map := s.map, ahS := s.ahS, ahNextnum := s.ahNextnum
    flatValid := s.flatValid, leafCnt := s.leafCnt, shapeSize := s.shapeSize, src := s.src }

/-- The port side of `Inv` where a rule stopped: the block buffer may be full (R70). -/
structure Halted (s : State) : Prop where
  params : s.params.wf
  room : s.obuf.length ≤ s.params.blockSize
  cursor : s.rdByte < s.srcLen ∨ (s.rdByte = s.srcLen ∧ s.rdBit = 0#3)
  distinct : s.distinct = nonzeroCount s

/-- The port side of `Inv` while a rule runs. -/
structure Live (s : State) : Prop extends Halted s where
  space : s.obuf.length < s.params.blockSize

/-- A rule runs, and the tree side is as `X` says. -/
structure Running (X : State → Prop) (s : State) : Prop where
  live : Live s
  part : X (treePart s)

/-- A rule stopped: by a fault, with the tree side as `X` says, or at a stuck state, which cannot be when `strict` holds. The
invariants are proved together: of every state with `strict` false, of the states with a well-formed tree with `strict` true. -/
def Stops (strict : Prop) (X : State → Prop) : Stop → State → Prop
  | .raised _ _, t => Halted t ∧ X (treePart t)
  | .stuck _, _ => ¬ strict

section
variable {strict : Prop} {X : State → Prop} {s t : State}

theorem Running.stopped (h : Running X s) : Halted s ∧ X (treePart s) := ⟨h.live.toHalted, h.part⟩

theorem Stops.imp {Y : State → Prop} {e : Stop} (h : Stops strict X e t) (hy : ∀ u, X u → Y u) : Stops strict Y e t := by
  cases e with
  | raised k i => exact ⟨h.1, hy _ h.2⟩
  | stuck f => exact h

theorem Running.imp {Y : State → Prop} (h : Running X s) (hy : ∀ u, X u → Y u) : Running Y s := ⟨h.live, hy _ h.part⟩

theorem Halted.use (h : Halted s) : Halted (usePort s) := { h with }

theorem Live.use (h : Live s) : Live (usePort s) := { h with }

theorem Running.use (h : Running X s) : Running X (usePort s) := ⟨h.live.use, h.part⟩

/-! ### Output -/

/-- R132: the block buffer is empty after a flush; one that fails leaves it as it was. -/
theorem ends_flushOut (h : Halted s) (hx : X (treePart s)) : Ends (fun _ => Running X) (Stops strict X) (flushOut s) := by
  rw [flushOut_eq]
  split
  · next h0 => exact ⟨{ h with space := by rw [h0]; exact h.params.1 }, hx⟩
  · split
    · exact ⟨{ h with room := Nat.zero_le _, space := h.params.1 }, hx⟩
    · exact ⟨h.use, hx⟩

/-- R131: the flush comes as soon as the buffer is full. -/
theorem ends_emitByte (b : Byte) (h : Running X s) : Ends (fun _ => Running X) (Stops strict X) (emitByte b s) := by
  have hlen : (s.obuf ++ [b]).length = s.obuf.length + 1 := List.length_append
  have hspace := h.live.space
  have hh : Halted { s with obuf := s.obuf ++ [b] } := { h.live with room := hlen.trans_le hspace }
  rw [emitByte_eq]
  split
  · exact ends_flushOut hh h.part
  · next hne => exact ⟨{ hh with space := hlen.trans_lt (Nat.lt_of_le_of_ne hspace hne) }, h.part⟩

/-- R131: an output byte reads nothing. -/
theorem remaining_emitByte {b : Byte} (h : emitByte b s = .ok () t) : remaining t = remaining s :=
  have hr : ∀ s : State, remaining s = remaining s := fun _ => rfl
  have ht : ∀ s t u : State, remaining t = remaining s → remaining u = remaining t → remaining u = remaining s :=
    fun _ _ _ h1 h2 => h2.trans h1
  (steps_emitByte (R := fun s t => remaining t = remaining s) hr ht
    (steps_flushOut hr ht (fun _ => rfl) (fun _ _ _ => rfl) fun _ _ => rfl) (fun _ _ => rfl) b s).1 () t h

theorem ends_emitBytes (bs : List Byte) (h : Running X s) : Ends (fun _ => Running X) (Stops strict X) (emitBytes bs s) := by
  induction bs generalizing s with
  | nil => exact h
  | cons b bs ih => exact ends_bind (ends_emitByte b h) fun _ _ _ => ih

theorem ends_emitWhole (x k n : Nat) (h : Running X s) : Ends (fun _ => Running X) (Stops strict X) (emitWhole x k n s) := by
  induction k generalizing n s with
  | zero => exact h
  | succ k ih => exact ends_bind (ends_emitByte _ h) fun _ _ _ => ih _

/-- A change of the accumulator alone. -/
theorem Running.setAcc (h : Running X s) (a : BitVec 7) (n : BitVec 3) : Running X { s with acc := a, accCnt := n } :=
  ⟨{ h.live with }, h.part⟩

theorem ends_writeBits (v w : Nat) (h : Running X s) : Ends (fun _ => Running X) (Stops strict X) (writeBits v w s) :=
  ends_get (ends_bind (ends_emitWhole _ _ _ h) fun _ _ _ ht => ht.setAcc _ _)

theorem ends_emitChunks (k : Nat) (b : Bits) (h : Running X s) : Ends (fun _ => Running X) (Stops strict X) (emitChunks k b s) := by
  induction k generalizing b s with
  | zero => exact h
  | succ k ih => exact ends_ite (fun _ => h) fun _ => ends_bind (ends_writeBits _ _ h) fun _ _ _ => ih _

theorem ends_emitBits (b : Bits) (h : Running X s) : Ends (fun _ => Running X) (Stops strict X) (emitBits b s) :=
  ends_emitChunks _ b h

theorem ends_finish (h : Running X s) : Ends (fun _ => Running X) (Stops strict X) (finish s) := by
  have flush : ∀ {u : State}, Running X u → Ends (fun _ => Running X) (Stops strict X) (flushOut u) :=
    fun hu => ends_flushOut hu.live.toHalted hu.part
  refine ends_get (ends_ite (fun _ => ?_) fun _ => ?_)
  · exact ends_bind (flush h) fun _ _ _ => id
  · exact ends_bind (ends_emitByte _ h) fun _ _ _ ht => ends_modify (ends_bind (flush (ht.setAcc _ _)) fun _ _ _ => id)

/-- R215: one byte at offset 0, and `HDR_IGNORE`. -/
theorem ends_fixup (ig : Byte) (h : Running X s) : Ends (fun _ => Running X) (Stops strict X) (fixup ig s) := by
  have hw : Ends (fun _ => Running X) (Stops strict X) (memWrite 0 [ig] s) := by
    rw [memWrite_eq]
    split
    · exact ⟨{ h.live with }, h.part⟩
    · exact h.use.stopped
  exact ends_bind hw fun _ t _ ht => ⟨{ ht.live with }, ht.part⟩

/-! ### Input -/

/-- R65: a byte of SRC inside it; the state changes by the answer used up. -/
theorem ends_srcByte (off : Nat) (onEnd : ErrKind) (h : Running X s) :
    Ends (fun b t => t = usePort s ∧ off < s.src.length ∧ b = s.src.getD off 0#8) (Stops strict X) (srcByte off onEnd s) := by
  rw [srcByte_eq]
  split
  · exact h.stopped
  · next hl =>
    split
    · exact ⟨rfl, Nat.lt_of_not_le hl, rfl⟩
    · exact h.use.stopped

/-- R23: the cursor one bit further stays inside SRC or stands at its end. -/
theorem Running.advanceBit (h : Running X s) (hl : s.rdByte < s.src.length) : Running X (advanceBit s) := by
  have hc : (Machine.advanceBit s).rdByte < s.srcLen ∨ ((Machine.advanceBit s).rdByte = s.srcLen ∧ (Machine.advanceBit s).rdBit = 0#3) := by
    unfold Machine.advanceBit State.srcLen
    split
    · exact (Nat.lt_or_eq_of_le hl).imp_right fun he => ⟨he, rfl⟩
    · exact .inl hl
  rw [advanceBit_frame]
  exact ⟨{ h.live with cursor := hc }, h.part⟩

theorem treePart_advanceBit (s : State) : treePart (advanceBit s) = treePart s := by
  rw [advanceBit_frame]
  rfl

/-- R23: one bit fewer is unread. -/
theorem remaining_advanceBit (hl : s.rdByte < s.src.length) : remaining (advanceBit s) + 1 = remaining s := by
  have hc : 8 * (advanceBit s).rdByte + (advanceBit s).rdBit.toNat = 8 * s.rdByte + s.rdBit.toNat + 1 := advanceBit_cursor s
  have hb := s.rdBit.isLt
  unfold remaining State.srcLen
  rw [hc, advanceBit_src]
  omega

/-- R140: a bit read is one unread bit fewer. -/
theorem ends_readBit (h : Running X s) :
    Ends (fun _ t => Running X t ∧ treePart t = treePart s ∧ remaining t + 1 = remaining s) (Stops strict X) (readBit s) := by
  refine ends_get (ends_bind (ends_srcByte _ _ h) fun b t _ ht => ?_)
  obtain ⟨rfl, hl, -⟩ := ht
  exact ⟨h.use.advanceBit hl, treePart_advanceBit (usePort s), remaining_advanceBit (s := usePort s) hl⟩

theorem ends_readRaw (k v : Nat) (h : Running X s) : Ends (fun _ => Running X) (Stops strict X) (readRaw k v s) := by
  induction k generalizing v s with
  | zero => exact h
  | succ k ih => exact ends_bind (ends_readBit h) fun _ _ _ ht => ih _ ht.1

/-- A reader at a byte boundary (R142). -/
def Aligned (X : State → Prop) (s : State) : Prop := Running X s ∧ s.rdBit = 0#3

theorem ends_takeByte (onEnd : ErrKind) (h : Aligned X s) : Ends (fun _ => Aligned X) (Stops strict X) (takeByte onEnd s) := by
  rw [takeByte_eq]
  split
  · exact h.1.stopped
  · next hl =>
    split
    · exact ⟨⟨{ h.1.live with cursor := (Nat.lt_or_eq_of_le (Nat.lt_of_not_le hl)).imp_right fun he => ⟨he, h.2⟩ }, h.1.part⟩, h.2⟩
    · exact h.1.use.stopped

/-! ### Counts -/

/-- R180: a count keeps `DISTINCT` the number of symbols counted. -/
theorem Running.accSymbol (b : Byte) (h : Running X s) : Running X (accSymbol b s) :=
  ⟨{ h.live with distinct := accSymbol_nonzeroCount b h.live.distinct }, h.part⟩

/-- R182: after the scan every byte of SRC is counted. -/
theorem ends_scan (h : Running X s) :
    Ends (fun _ t => Running X t ∧ ∀ b ∈ t.src, 0 < t.freqOf b) (Stops strict X) (scan s) := by
  have hstep : ∀ j t, (Running X t ∧ ∀ i, i < j → ∀ hi : i < t.src.length, 0 < t.freqOf t.src[i]) →
      Ends (fun _ t => Running X t ∧ ∀ i, i < j + 1 → ∀ hi : i < t.src.length, 0 < t.freqOf t.src[i]) (Stops strict X)
        (scanByte j t) := by
    intro j t ⟨ht, hcount⟩
    refine ends_bind (ends_srcByte _ _ ht) fun b u _ hu => ?_
    obtain ⟨rfl, hl, rfl⟩ := hu
    refine ⟨ht.use.accSymbol _, fun i hi hil => ?_⟩
    change 0 < (Machine.accSymbol _ (usePort t)).freqOf t.src[i]
    rw [accSymbol_freqOf]
    split
    · exact Nat.succ_pos _
    · next hne =>
      rcases Nat.lt_or_eq_of_le (Nat.le_of_lt_succ hi) with hlt | rfl
      · exact hcount i hlt hil
      · exact absurd (List.getD_eq_getElem _ _ hl).symm hne
  have hloop := ends_upFrom (E := Stops strict X) hstep (s := s) (n := s.srcLen) (i := 0) ⟨h, fun _ hi => absurd hi (Nat.not_lt_zero _)⟩
  refine ends_get (hloop.imp fun _ t hrun ⟨ht, hcount⟩ => ⟨ht, fun b hb => ?_⟩)
  obtain ⟨i, hi, rfl⟩ := List.getElem_of_mem hb
  have hsrc : t.src = s.src := ((keepsHost_closed.scan s).1 () t hrun).2.1
  refine hcount i ?_ hi
  change i < 0 + s.src.length
  rwa [Nat.zero_add, ← hsrc]

/-- R184. -/
theorem ends_checkDistinct (h : Running X s) :
    Ends (fun _ t => t = s ∧ 2 ≤ s.distinct) (Stops strict X) (checkDistinct s) :=
  ends_get (ends_raiseIf (h.stopped) fun hd => ⟨rfl, Nat.le_of_not_lt hd⟩)

theorem Running.countBytes (n : Nat) (h : Running X s) : Running X (countBytes n s) := ⟨{ h.live with }, h.part⟩

/-- R31: no symbol is counted after reset. -/
theorem nonzeroCount_reset : nonzeroCount State.reset = 0 := by decide +kernel

/-- R270: the context a composite starts from. -/
theorem Running.initContext {Y : State → Prop} (hp : s.params.wf) (hy : Y (treePart (initContext s))) :
    Running Y (initContext s) where
  live := {
    params := hp
    room := Nat.zero_le _
    cursor := (Nat.eq_zero_or_pos s.src.length).symm.imp_right fun h0 => ⟨h0.symm, rfl⟩
    distinct := nonzeroCount_reset.symm
    space := hp.1 }
  part := hy

end

end Sys2Proof.Machine
end

section
namespace Sys2Proof.Machine

/-! ## The tree side of the invariant, static trees -/

/-- The tree side of `Inv`, and of `TreeInv` when `strict` holds. -/
structure Sound (strict : Prop) (u : State) : Prop where
  codes : u.codesValid = true → u.tmode = .static
  flat : u.flatValid = true → 1 ≤ u.leafCnt ∧ u.shapeSize = ceil8 (shapeBits u.leafCnt)
  tree : strict → TreeInv u

/-- `Sound`, in STATIC mode. -/
structure SoundStatic (strict : Prop) (u : State) : Prop extends Sound strict u where
  mode : u.tmode = .static

/-- The arena holds the static tree `T` (R36, R37). -/
structure StaticTree (u : State) (T : Tree) : Prop where
  tree : TreeAt u T
  static : T.Static
  weighted : Weighted u.arena T

/-- The code table is the one of the tree `T` (R201). -/
def CodesOf (u : State) (T : Tree) : Prop := ∀ b : Byte, u.codeOf b = (T.codeOf (b.setWidth 9)).getD []

/-- A tree without valid codes is as `TreeInv` says. -/
theorem StaticTree.treeInv {u : State} {T : Tree} (h : StaticTree u T) (hm : u.tmode = .static) (hc : u.codesValid = true → CodesOf u T) :
    TreeInv u := by
  unfold TreeInv
  rw [hm]
  exact ⟨T, h.tree, h.static, h.weighted, hc⟩

/-- What `TreeInv` says in STATIC mode. -/
theorem TreeInv.static {u : State} (h : TreeInv u) (hm : u.tmode = .static) :
    ∃ T, StaticTree u T ∧ (u.codesValid = true → CodesOf u T) := by
  unfold TreeInv at h
  rw [hm] at h
  obtain ⟨T, htree, hstatic, hweighted, hcodes⟩ := h
  exact ⟨T, ⟨htree, hstatic, hweighted⟩, hcodes⟩

section
variable {strict : Prop} {X : State → Prop} {s t : State}

theorem SoundStatic.staticTree (h : SoundStatic strict (treePart s)) (hs : strict) : ∃ T, StaticTree s T :=
  let ⟨T, hT, _⟩ := (h.tree hs).static h.mode
  ⟨T, hT.tree, hT.static, hT.weighted⟩

/-- R44: the context after `Init` has no tree. -/
theorem sound_initContext (s : State) : Sound strict (treePart (initContext s)) := ⟨nofun, nofun, fun _ => rfl⟩

theorem Running.toSound (h : Running (SoundStatic strict) s) : Running (Sound strict) s := h.imp fun _ hu => hu.toSound

theorem Stops.toSound {e : Stop} (h : Stops strict (SoundStatic strict) e t) : Stops strict (Sound strict) e t :=
  h.imp fun _ hu => hu.toSound

/-! ### `Flatten` and the header -/

/-- R36, R161: a static tree can be flattened. -/
theorem StaticTree.flattened_ne_none {T : Tree} (h : StaticTree s T) : flattened s ≠ none := by
  have hle : T.leafCount ≤ 256 := h.static.2.1
  have hw := walk_holds h.tree.2.1 (k := Config.arenaSize) (Nat.le_trans hle (by decide))
  simp [flattened, h.tree.1, hw, Config.leafMax, hle]

theorem SoundStatic.flattened_ne_none (h : SoundStatic strict (treePart s)) (hs : strict) : flattened s ≠ none :=
  let ⟨_, hT⟩ := h.staticTree hs
  hT.flattened_ne_none

theorem Sound.storeFlat {f : Bits × List Byte} (h : Sound strict (treePart s)) (hf : flattened s = some f) :
    Sound strict (treePart (storeFlat f.1 f.2 s)) :=
  ⟨h.codes, fun _ => ⟨(flattened_length hf).1, congrArg ceil8 (flattened_length hf).2.2⟩, h.tree⟩

theorem ends_flatten (h : Running X s) (hx : ∀ f, flattened s = some f → X (treePart (storeFlat f.1 f.2 s)))
    (hf : strict → flattened s ≠ none) : Ends (fun _ => Running X) (Stops strict X) (flatten s) := by
  refine ends_get (ends_bind (Q := fun f u => flattened s = some f ∧ u = s)
    (ends_fromTree (fun hn hs => hf hs hn) fun f hf => ⟨hf, rfl⟩) fun f u _ hu => ?_)
  obtain ⟨hf, rfl⟩ := hu
  exact ⟨{ h.live with }, hx f hf⟩

/-- R164: the header registers are no part of the tree. -/
theorem Running.setHeader (h : Running X s) (ig sig : Byte) : Running X { s with hdrIgnore := ig, hdrSig := sig } :=
  ⟨{ h.live with }, h.part⟩

theorem ends_serHdr (ig sig : Byte) (h : Running X s) (hx : ∀ f, flattened s = some f → X (treePart (storeFlat f.1 f.2 s)))
    (hf : strict → flattened s ≠ none) : Ends (fun _ => Running X) (Stops strict X) (serHdr ig sig s) :=
  ends_bind (ends_flatten h hx hf) fun _ _ _ ht => ends_get (ends_bind (ends_emitBytes _ ht) fun _ _ _ hu => hu.setHeader ig sig)

/-! ### `Deser` -/

/-- The tree side after `Deser` built the tree `T`: all weights are 0. -/
theorem Rebuilt.staticTree {T : Tree} (h : Rebuilt s T t) (hl : s.leafCnt ≤ 256) : StaticTree t T where
  tree := h.tree
  static := ⟨h.two, h.leafCnt ▸ hl, h.syms⟩
  weighted := by
    have hz : ∀ j, (nodeAt t.arena j).w = 0 := fun j => (h.zero j).1
    have key : ∀ U : Tree, Weighted t.arena U := by
      intro U
      induction U with
      | leaf i x => trivial
      | node i l r ihl ihr => exact ⟨by simp [hz], ihl, ihr⟩
    exact key T

/-- R168: `Deser` leaves a static tree, or raises and leaves none. -/
theorem ends_deser (h : Running (Sound strict) s) (hl : strict → s.leafCnt ≤ 256) :
    Ends (fun _ => Running (SoundStatic strict)) (Stops strict (Sound strict)) (deser s) := by
  rcases deser_cases s with ⟨T, t, ht, hT⟩ | ⟨t, ht, hf⟩
  · refine ends_of_ok ht ⟨?_, ⟨?_, ?_, fun hs => (hT.staticTree (hl hs)).treeInv hT.mode ?_⟩, hT.mode⟩
    · rw [hT.frame]
      exact { h.live with }
    · exact fun _ => hT.mode
    · rw [hT.frame]
      exact h.part.flat
    · rw [hT.codes]
      nofun
  · refine ends_of_error ht ?_
    rw [hf]
    exact ⟨{ h.live.toHalted with }, nofun, h.part.flat, fun _ => rfl⟩

/-! ### `RdHdr` -/

/-- `Sound`, with the sizes of a header that passed the checks (R212). -/
structure Sized (strict : Prop) (u : State) : Prop extends Sound strict u where
  leafCnt : u.leafCnt ≤ 256
  sizes : 1 ≤ u.leafCnt ∧ u.shapeSize = ceil8 (shapeBits u.leafCnt)

/-- Taking bytes into a buffer (R211). -/
theorem ends_takeBytes {put : Nat → Byte → State → State} (hput : ∀ k b u, Aligned X u → Aligned X (put k b u)) {n i : Nat}
    (h : Aligned X s) :
    Ends (fun _ => Aligned X) (Stops strict X)
      (upFrom (fun k => do let b ← takeByte .malformedHeader; modify (put k b)) n i s) := by
  refine ends_upFrom (I := fun _ => Aligned X) (fun k t ht => ?_) h
  exact ends_bind (ends_takeByte _ ht) fun b u _ hu => hput k b u hu

/-- R211, R212: `RdHdr` leaves a static tree, or raises. -/
theorem ends_rdHdr (h : Aligned (Sound strict) s) :
    Ends (fun _ => Running (SoundStatic strict)) (Stops strict (Sound strict)) (rdHdr s) := by
  refine ends_bind (ends_takeByte _ h) fun ig s1 _ h1 => ends_bind (ends_takeByte _ h1) fun sig s2 _ h2 => ?_
  have h3 : Aligned (Sound strict) { s2 with hdrIgnore := ig, hdrSig := sig } := ⟨h2.1.setHeader ig sig, h2.2⟩
  refine ends_modify (ends_get (ends_bind (Q := fun _ => Aligned (Sound strict)) (ends_raiseIf h3.1.stopped fun _ => h3)
    fun _ s4 _ h4 => ends_bind (ends_takeByte _ h4) fun ss s5 _ h5 => ends_bind (ends_takeByte _ h5) fun lm s6 _ h6 => ?_))
  refine ends_get (ends_bind (Q := fun _ => Aligned (Sound strict)) (ends_raiseIf h6.1.stopped fun _ => h6) fun _ s7 _ h7 => ?_)
  refine ends_bind (Q := fun _ u => u = s7 ∧ ss.toNat = ceil8 (shapeBits (lm.toNat + 1)))
    (ends_raiseIf h7.1.stopped fun hss => ⟨rfl, not_not.mp hss⟩) fun _ s8 _ h8 => ?_
  obtain ⟨rfl, hss⟩ := h8
  have hsized : Aligned (Sized strict) { s8 with shapeSize := ss.toNat, leafCnt := lm.toNat + 1 } :=
    ⟨⟨{ h7.1.live with }, ⟨h7.1.part.codes, fun _ => ⟨Nat.succ_pos _, hss⟩, h7.1.part.tree⟩, lm.isLt, Nat.succ_pos _, hss⟩, h7.2⟩
  have toSound : ∀ e t, Stops strict (Sized strict) e t → Stops strict (Sound strict) e t :=
    fun _ _ he => he.imp fun _ hu => hu.toSound
  refine ends_modify (ends_bind ((ends_takeBytes (X := Sized strict) (put := fun k b s => { s with shape := Table.set 0#8 s.shape k b })
    (fun _ _ _ hu => ⟨⟨{ hu.1.live with }, hu.1.part⟩, hu.2⟩) hsized).mono (fun _ _ _ => id) toSound) fun _ s9 _ h9 => ends_modify ?_)
  have h10 : Aligned (Sized strict) { s9 with shape := Table.clearFrom s9.shape ss.toNat } :=
    ⟨⟨{ h9.1.live with }, h9.1.part⟩, h9.2⟩
  refine ends_bind ((ends_takeBytes (X := Sized strict) (put := fun k b s => { s with leaves := Table.set 0#8 s.leaves k b })
    (fun _ _ _ hu => ⟨⟨{ hu.1.live with }, hu.1.part⟩, hu.2⟩) h10).mono (fun _ _ _ => id) toSound) fun _ s11 _ h11 => ends_modify ?_
  exact ends_deser ⟨{ h11.1.live with }, h11.1.part.codes, fun _ => h11.1.part.sizes, h11.1.part.tree⟩ fun _ => h11.1.part.leafCnt

/-! ### `MkCodes` and `EncSym` -/

/-- The codes are those of a static tree with the property `C`. -/
structure Coded (strict : Prop) (C : Tree → Prop) (u : State) : Prop extends SoundStatic strict u where
  coded : strict → ∃ T, StaticTree u T ∧ CodesOf u T ∧ C T

/-- R201: `MkCodes` on a static tree. -/
theorem ends_mkCodes (C : Tree → Prop) (h : Running (SoundStatic strict) s) (hT : strict → ∃ T, StaticTree s T ∧ C T) :
    Ends (fun _ => Running (Coded strict C)) (Stops strict (Sound strict)) (mkCodes s) := by
  by_cases hs : strict
  · obtain ⟨T, hT, hC⟩ := hT hs
    obtain ⟨c, hc, hcodes⟩ := mkCodes_good hT.tree hT.static
    have hT' : StaticTree (treePart (setCodesValid { s with codeBits := c })) T := ⟨hT.tree, hT.static, hT.weighted⟩
    have hmode : (treePart (setCodesValid { s with codeBits := c })).tmode = .static := h.part.mode
    exact ends_of_ok hc ⟨{ h.live with }, ⟨⟨fun _ => hmode, h.part.flat, fun _ => hT'.treeInv hmode fun _ => hcodes⟩, hmode⟩,
      fun _ => ⟨T, hT', hcodes, hC⟩⟩
  · refine ends_get (ends_bind (Q := fun _ u => u = s) (ends_fromTree (fun _ => hs) fun _ _ => rfl) fun c u _ hu => ?_)
    obtain rfl := hu
    exact ⟨{ h.live with }, ⟨⟨fun _ => h.part.mode, h.part.flat, fun h => absurd h hs⟩, h.part.mode⟩, fun h => absurd h hs⟩

/-- R200: a symbol of a tree with at least two leaves has a code that is not empty. -/
theorem Tree.codeOf_ne_nil {T : Tree} {a : BitVec 9} {p : Bits} (h2 : 2 ≤ T.leafCount) (h : T.codeOf a = some p) : p ≠ [] := by
  rintro rfl
  cases T with
  | leaf i x => exact absurd h2 (by simp)
  | node i l r => exact absurd (Tree.leafAt_codeOf h) (by simp [Tree.leafAt])

/-- R39: the code length of a symbol of the tree. -/
theorem CodesOf.codeLen_pos {T : Tree} (h : CodesOf s T) (h2 : 2 ≤ T.leafCount) {b : Byte} (hb : b.setWidth 9 ∈ T.syms) :
    0 < s.codeLen b := by
  obtain ⟨p, hp⟩ := Option.isSome_iff_exists.mp (Tree.codeOf_isSome.mpr hb)
  rw [State.codeLen, h b, hp]
  exact List.length_pos_iff.mpr (Tree.codeOf_ne_nil h2 hp)

theorem ends_encSym (b : Byte) (h : Running X s) (hb : strict → 0 < s.codeLen b) :
    Ends (fun _ => Running X) (Stops strict X) (encSym b s) :=
  ends_get (ends_ite (fun h0 hs => absurd h0 (Nat.ne_of_gt (hb hs))) fun _ => ends_emitBits _ h)

/-! ### `DecSym` -/

/-- R205: each round of the loop reads a bit, so the count is not used up; below an internal node of the tree there is a child for
each bit. A symbol costs at least one bit. -/
theorem ends_decLoop {ig k n : Nat} (h : Running X s)
    (hn : strict → remaining s < k ∧ ∃ p l r, Holds s.arena p (.node n l r)) :
    Ends (fun a t => Running X t ∧ (a ≠ endOfStream → remaining t < remaining s)) (Stops strict X) (decLoop ig k n s) := by
  induction k generalizing n s with
  | zero => exact fun hs => absurd (hn hs).1 (Nat.not_lt_zero _)
  | succ k ih =>
    refine ends_get (ends_ite (fun _ => ⟨h, fun hne => absurd rfl hne⟩) fun _ => ends_bind (ends_readBit h) fun bit t _ ht => ?_)
    obtain ⟨ht, hpart, hrem⟩ := ht
    have harena : t.arena = s.arena := by
      change (treePart t).arena = (treePart s).arena
      rw [hpart]
    have hchild : strict → ∃ U, childOf (s.node n) bit = some (Tree.idx U) ∧ Holds s.arena (some n) U := by
      intro hs
      obtain ⟨-, p, l, r, hT⟩ := hn hs
      refine ⟨if bit then r else l, childOf_holds hT bit, ?_⟩
      obtain ⟨-, -, -, -, -, hl, hr⟩ := hT
      cases bit
      · exact hl
      · exact hr
    refine ends_bind (Q := fun m u => u = t ∧ childOf (s.node n) bit = some m)
      (ends_fromTree (fun hnone hs => ?_) fun m hm => ⟨rfl, hm⟩) fun m u _ hm => ?_
    · obtain ⟨U, hU, -⟩ := hchild hs
      rw [hU] at hnone
      cases hnone
    · obtain ⟨rfl, hm⟩ := hm
      refine ends_ite (fun _ => ends_bind (ends_emitByte _ ht) fun _ v hv hrun => ⟨hrun, fun _ => ?_⟩) fun hkind => ?_
      · rw [remaining_emitByte hv]
        omega
      · refine (ih ht fun hs => ⟨by have := (hn hs).1; omega, ?_⟩).imp fun _ v _ hv => ⟨hv.1, fun hne => ?_⟩
        · obtain ⟨U, hU, hold⟩ := hchild hs
          obtain rfl : U.idx = m := Option.some.inj (hU.symm.trans hm)
          cases U with
          | leaf i x => exact absurd hold.1 hkind
          | node i l r => exact ⟨_, l, r, harena ▸ hold⟩
        · have := hv.2 hne
          omega

/-- A tree of two leaves or more has an internal root. -/
theorem Tree.eq_node_of_two_le {T : Tree} (h : 2 ≤ T.leafCount) : ∃ l r, T = .node T.idx l r := by
  cases T with
  | leaf i x => exact absurd h (by simp)
  | node i l r => exact ⟨l, r, rfl⟩

theorem ends_decSym (ig : Nat) (h : Running (SoundStatic strict) s) :
    Ends (fun a t => Running (SoundStatic strict) t ∧ (a ≠ endOfStream → remaining t < remaining s))
      (Stops strict (SoundStatic strict)) (decSym ig s) := by
  have hroot : strict → ∃ T, StaticTree s T := h.part.staticTree
  refine ends_get (ends_bind (Q := fun n u => u = s ∧ s.root = some n) (ends_fromTree (fun hnone hs => ?_) fun n hn => ⟨rfl, hn⟩)
    fun n u _ hn => ?_)
  · obtain ⟨T, hT⟩ := hroot hs
    rw [hT.tree.1] at hnone
    cases hnone
  · obtain ⟨rfl, hn⟩ := hn
    refine ends_decLoop h fun hs => ⟨Nat.lt_succ_self _, ?_⟩
    obtain ⟨T, hT⟩ := hroot hs
    obtain ⟨l, r, hnode⟩ := Tree.eq_node_of_two_le hT.static.1
    obtain rfl : T.idx = n := Option.some.inj (hT.tree.1.symm.trans hn)
    exact ⟨none, l, r, hnode ▸ hT.tree.2.1⟩

theorem ends_decAll {k : Nat} (h : Running (SoundStatic strict) s) (hk : strict → remaining s < k) :
    Ends (fun _ => Running (SoundStatic strict)) (Stops strict (SoundStatic strict)) (decAll k s) := by
  induction k generalizing s with
  | zero => exact fun hs => absurd (hk hs) (Nat.not_lt_zero _)
  | succ k ih =>
    refine ends_get (ends_bind (ends_decSym _ h) fun a t _ ht => ends_ite (fun _ => ht.1) fun hne => ih ht.1 fun hs => ?_)
    have := hk hs
    have := ht.2 hne
    omega

/-- R217: `SH.UNARCHIVE`'s rule. -/
theorem ends_unarchiveStatic (hp : s.params.wf) :
    Ends (fun _ => Running (SoundStatic strict)) (Stops strict (Sound strict)) (unarchiveStatic s) := by
  have toSound : ∀ e t, Stops strict (SoundStatic strict) e t → Stops strict (Sound strict) e t := fun _ _ he => he.toSound
  have h0 : Aligned (Sound strict) (initContext s) := ⟨.initContext hp (sound_initContext s), rfl⟩
  refine ends_modify (ends_bind (ends_rdHdr h0) fun _ t _ ht => ends_get ?_)
  refine ends_bind ((ends_decAll ht fun _ => Nat.lt_succ_self _).mono (fun _ _ _ => id) toSound) fun _ u _ hu => ?_
  refine ends_bind ((ends_flushOut hu.live.toHalted hu.part).mono (fun _ _ _ => id) toSound) fun _ v _ hv => ?_
  exact hv.countBytes _

end

end Sys2Proof.Machine
end

section
namespace Sys2Proof.Machine

/-! ## The tree `Build` makes (R185) -/

/-- The weights of a tree depend on the weights of its entries alone. -/
theorem Weighted.congr {t u : Table Node} {T : Tree} (h : Weighted t T) (hw : ∀ i ∈ T.indices, (nodeAt u i).w = (nodeAt t i).w) :
    Weighted u T := by
  induction T with
  | leaf i s => trivial
  | node i l r ihl ihr =>
    obtain ⟨hsum, hl, hr⟩ := h
    have hwl : ∀ j ∈ l.indices, (nodeAt u j).w = (nodeAt t j).w := fun j hj => hw j (by simp [Tree.indices, hj])
    have hwr : ∀ j ∈ r.indices, (nodeAt u j).w = (nodeAt t j).w := fun j hj => hw j (by simp [Tree.indices, hj])
    refine ⟨?_, ihl hl hwl, ihr hr hwr⟩
    rw [hw i (by simp [Tree.indices]), hwl _ l.idx_mem_indices, hwr _ r.idx_mem_indices, hsum]

/-! ### The leaves -/

/-- The leaves of `Build` as trees, with their indices from `i`. -/
def seedTrees (i : Nat) : List Node → List Tree
  | [] => []
  | n :: ns => .leaf i n.sym :: seedTrees (i + 1) ns

theorem indices_seedTrees (i : Nat) (ns : List Node) : (seedTrees i ns).flatMap Tree.indices = List.range' i ns.length := by
  induction ns generalizing i with
  | nil => rfl
  | cons n ns ih => simp [seedTrees, Tree.indices, ih, List.range'_succ]

theorem syms_seedTrees (i : Nat) (ns : List Node) : (seedTrees i ns).flatMap Tree.syms = ns.map Node.sym := by
  induction ns generalizing i with
  | nil => rfl
  | cons n ns ih => simp [seedTrees, Tree.syms, ih]

theorem length_seedTrees (i : Nat) (ns : List Node) : (seedTrees i ns).length = ns.length := by
  induction ns generalizing i with
  | nil => rfl
  | cons n ns ih => simp [seedTrees, ih]

theorem mem_seedTrees {i : Nat} {ns : List Node} {T : Tree} (h : T ∈ seedTrees i ns) :
    ∃ j, ∃ hj : j < ns.length, T = .leaf (i + j) ns[j].sym := by
  induction ns generalizing i with
  | nil => cases h
  | cons n ns ih =>
    rcases List.mem_cons.mp h with rfl | h
    · exact ⟨0, Nat.succ_pos _, rfl⟩
    · obtain ⟨j, hj, rfl⟩ := ih h
      exact ⟨j + 1, Nat.succ_lt_succ hj, by rw [Nat.add_right_comm]; rfl⟩

/-- A node of the first `live` set: a leaf of a byte symbol without a parent. -/
def IsSeed (n : Node) : Prop := n.kind = .leaf ∧ n.left = none ∧ n.right = none ∧ n.parent = none ∧ n.sym.toNat < 256

theorem isSeed_of_mem_seedLeaves {b : Nat} {fs : List Nat} (hb : b + fs.length ≤ 256) {n : Node} (h : n ∈ seedLeaves b fs) : IsSeed n := by
  induction fs generalizing b with
  | nil => cases h
  | cons f fs ih =>
    rw [List.length_cons] at hb
    have ih' := ih (b := b + 1) (by omega)
    unfold seedLeaves at h
    split at h
    · rcases List.mem_cons.mp h with rfl | h
      · refine ⟨rfl, rfl, rfl, rfl, ?_⟩
        simp only [BitVec.toNat_ofNat]
        omega
      · exact ih' h
    · exact ih' h

theorem length_seedLeaves (b : Nat) (fs : List Nat) : (seedLeaves b fs).length = fs.countP fun f => decide (0 < f) := by
  induction fs generalizing b with
  | nil => rfl
  | cons f fs ih =>
    unfold seedLeaves
    by_cases hf : 0 < f <;> simp [hf, ih]

/-- R185: every symbol counted has a leaf. -/
theorem sym_mem_seedLeaves {b : Nat} {fs : List Nat} {k : Nat} (hk : k < fs.length) (hf : 0 < fs[k]) :
    BitVec.ofNat 9 (b + k) ∈ (seedLeaves b fs).map Node.sym := by
  induction fs generalizing b k with
  | nil => cases hk
  | cons f fs ih =>
    unfold seedLeaves
    cases k with
    | zero =>
      rw [if_pos (by exact hf)]
      exact List.mem_cons_self
    | succ k =>
      have hmem := ih (b := b + 1) (Nat.lt_of_succ_lt_succ hk) hf
      rw [Nat.add_right_comm] at hmem
      split
      · exact List.mem_cons_of_mem _ hmem
      · exact hmem

/-! ### The priority structure -/

/-- The entry of the priority structure for the tree `T`. -/
def liveOf (t : Table Node) (T : Tree) : Nat × Nat := ((nodeAt t T.idx).w, T.idx)

/-- Adding a tree to a priority structure of trees. -/
theorem addLive_map (f : Tree → Nat × Nat) (T : Tree) (ts : List Tree) :
    ∃ ts' : List Tree, addLive (f T) (ts.map f) = ts'.map f ∧ ts'.Perm (T :: ts) := by
  induction ts with
  | nil => exact ⟨[T], rfl, List.Perm.refl _⟩
  | cons U ts ih =>
    rw [List.map_cons, addLive]
    split
    · exact ⟨T :: U :: ts, rfl, List.Perm.refl _⟩
    · obtain ⟨ts', h, hp⟩ := ih
      exact ⟨U :: ts', by rw [h, List.map_cons], (hp.cons U).trans (List.Perm.swap T U ts)⟩

theorem seedLive_map {t : Table Node} {i : Nat} {ns : List Node} (h : ∀ j, ∀ hj : j < ns.length, nodeAt t (i + j) = ns[j]) :
    ∃ ts : List Tree, seedLive i ns = ts.map (liveOf t) ∧ ts.Perm (seedTrees i ns) := by
  induction ns generalizing i with
  | nil => exact ⟨[], rfl, List.Perm.refl _⟩
  | cons n ns ih =>
    obtain ⟨ts, hts, hp⟩ := ih (i := i + 1) fun j hj => by
      rw [Nat.add_assoc, Nat.add_comm 1 j]
      exact h (j + 1) (Nat.succ_lt_succ hj)
    obtain ⟨ts', hts', hp'⟩ := addLive_map (liveOf t) (.leaf i n.sym) ts
    refine ⟨ts', ?_, hp'.trans (hp.cons _)⟩
    have hw : liveOf t (.leaf i n.sym) = (n.w, i) := by
      have h0 := h 0 (Nat.succ_pos _)
      rw [Nat.add_zero] at h0
      simp [liveOf, h0]
    rw [seedLive, hts, ← hw, hts']

/-! ### One merge -/

/-- The trees `ts` take up the entries `0 .. n - 1` of the arena, the other entries are `FREE`. -/
structure Forest (t : Table Node) (n : Nat) (ts : List Tree) : Prop where
  held : ∀ T ∈ ts, Holds t none T ∧ Weighted t T
  indices : (ts.flatMap Tree.indices).Perm (List.range n)
  free : ∀ i, n ≤ i → nodeAt t i = Node.reset

theorem Forest.perm {t : Table Node} {n : Nat} {ts us : List Tree} (h : Forest t n ts) (hp : us.Perm ts) : Forest t n us where
  held := fun T hT => h.held T (hp.mem_iff.mp hT)
  indices := (hp.flatMap_right _).trans h.indices
  free := h.free

/-- Everything one merge does to the entries (R185). -/
theorem nodeAt_mergeNodes (t : Table Node) {n x y : Nat} (hnx : n ≠ x) (hny : n ≠ y) (hxy : x ≠ y) (j : Nat) :
    nodeAt (mergeNodes t n x y) j =
      if j = n then
        { Node.reset with kind := .internal, w := (nodeAt t x).w + (nodeAt t y).w, left := some x, right := some y }
      else if j = x ∨ j = y then { nodeAt t j with parent := some n }
      else nodeAt t j := by
  unfold mergeNodes
  simp only [nodeAt_setParent, nodeAt_setNode]
  by_cases h1 : j = y
  · subst h1
    simp [hny.symm, hxy.symm]
  · by_cases h2 : j = x
    · subst h2
      simp [hnx.symm, h1]
    · by_cases h3 : j = n
      · subst h3
        simp [hnx, hny]
      · simp [h1, h2, h3]

/-- R185: the two trees removed are joined under the fresh entry; the others stay. -/
theorem Forest.merge {t : Table Node} {n : Nat} {x y : Tree} {ts : List Tree} (h : Forest t n (x :: y :: ts)) :
    Forest (mergeNodes t n x.idx y.idx) (n + 1) (.node n x y :: ts)
      ∧ liveOf (mergeNodes t n x.idx y.idx) (.node n x y) = ((liveOf t x).1 + (liveOf t y).1, n)
      ∧ ts.map (liveOf (mergeNodes t n x.idx y.idx)) = ts.map (liveOf t) := by
  have hall : x.indices ++ (y.indices ++ ts.flatMap Tree.indices) = (x :: y :: ts).flatMap Tree.indices := by simp
  have hnd : (x.indices ++ (y.indices ++ ts.flatMap Tree.indices)).Nodup := by
    rw [hall]
    exact h.indices.nodup_iff.mpr List.nodup_range
  have hlt : ∀ j ∈ x.indices ++ (y.indices ++ ts.flatMap Tree.indices), j < n := by
    intro j hj
    rw [hall] at hj
    exact List.mem_range.mp (h.indices.mem_iff.mp hj)
  obtain ⟨hxnd, hrest, hxother⟩ := List.nodup_append.mp hnd
  obtain ⟨hynd, -, hyother⟩ := List.nodup_append.mp hrest
  have hxlt : ∀ j ∈ x.indices, j < n := fun j hj => hlt j (List.mem_append_left _ hj)
  have hylt : ∀ j ∈ y.indices, j < n := fun j hj => hlt j (List.mem_append_right _ (List.mem_append_left _ hj))
  have hxy : x.idx ≠ y.idx := hxother _ x.idx_mem_indices _ (List.mem_append_left _ y.idx_mem_indices)
  have hnx : n ≠ x.idx := (Nat.ne_of_lt (hxlt _ x.idx_mem_indices)).symm
  have hny : n ≠ y.idx := (Nat.ne_of_lt (hylt _ y.idx_mem_indices)).symm
  have hat := nodeAt_mergeNodes t hnx hny hxy
  have hroot := (hat n).trans (if_pos rfl)
  have hw : ∀ j, j < n → (nodeAt (mergeNodes t n x.idx y.idx) j).w = (nodeAt t j).w := by
    intro j hj
    rw [hat, if_neg (Nat.ne_of_lt hj)]
    split <;> rfl
  have hkeep : ∀ U ∈ ts, ∀ j ∈ U.indices, nodeAt (mergeNodes t n x.idx y.idx) j = nodeAt t j := by
    intro U hU j hj
    have hmem : j ∈ ts.flatMap Tree.indices := List.mem_flatMap.mpr ⟨U, hU, hj⟩
    have hjx : x.idx ≠ j := hxother _ x.idx_mem_indices _ (List.mem_append_right _ hmem)
    have hjy : y.idx ≠ j := hyother _ y.idx_mem_indices _ hmem
    have hjn : j < n := hlt j (List.mem_append_right _ (List.mem_append_right _ hmem))
    rw [hat, if_neg (Nat.ne_of_lt hjn), if_neg (by simp [hjx.symm, hjy.symm])]
  obtain ⟨hx, hwx⟩ := h.held x List.mem_cons_self
  obtain ⟨hy, hwy⟩ := h.held y (List.mem_cons_of_mem _ List.mem_cons_self)
  have hxheld : Holds (mergeNodes t n x.idx y.idx) (some n) x := (hx.setParent hxnd n).congr fun j hj => by
    have hjy : j ≠ y.idx := hxother _ hj _ (List.mem_append_left _ y.idx_mem_indices)
    rw [hat, if_neg (Nat.ne_of_lt (hxlt j hj)), nodeAt_setParent]
    by_cases hjx : j = x.idx <;> simp [hjx, hjy, hxy]
  have hyheld : Holds (mergeNodes t n x.idx y.idx) (some n) y := (hy.setParent hynd n).congr fun j hj => by
    have hjx : j ≠ x.idx := (hxother _ x.idx_mem_indices _ (List.mem_append_left _ hj)).symm
    rw [hat, if_neg (Nat.ne_of_lt (hylt j hj)), nodeAt_setParent]
    by_cases hjy : j = y.idx <;> simp [hjx, hjy, hxy.symm]
  refine ⟨⟨fun T hT => ?_, ?_, fun i hi => ?_⟩, ?_, ?_⟩
  · rcases List.mem_cons.mp hT with rfl | hT
    · refine ⟨⟨by rw [hroot], by rw [hroot]; rfl, by rw [hroot], by rw [hroot], by rw [hroot]; rfl, hxheld, hyheld⟩, ?_, ?_, ?_⟩
      · rw [hroot, hw _ (hxlt _ x.idx_mem_indices), hw _ (hylt _ y.idx_mem_indices)]
      · exact hwx.congr fun j hj => hw j (hxlt j hj)
      · exact hwy.congr fun j hj => hw j (hylt j hj)
    · obtain ⟨hT1, hT2⟩ := h.held T (List.mem_cons_of_mem _ (List.mem_cons_of_mem _ hT))
      exact ⟨hT1.congr (hkeep T hT), hT2.congr fun j hj => by rw [hkeep T hT j hj]⟩
  · have hp : (n :: (x.indices ++ (y.indices ++ ts.flatMap Tree.indices))).Perm (List.range (n + 1)) := by
      rw [hall, List.range_succ]
      exact (h.indices.cons n).trans (List.perm_append_singleton n _).symm
    simpa [Tree.indices] using hp
  · have hxi : i ≠ x.idx := by
      have := hxlt _ x.idx_mem_indices
      omega
    have hyi : i ≠ y.idx := by
      have := hylt _ y.idx_mem_indices
      omega
    rw [hat, if_neg (by omega), if_neg (by simp [hxi, hyi])]
    exact h.free i (by omega)
  · simp only [liveOf, Tree.idx_node, hroot]
  · refine List.map_congr_left fun U hU => ?_
    simp only [liveOf, hkeep U hU _ U.idx_mem_indices]

/-! ### The loop -/

/-- R185: the loop leaves one tree, with the symbols of all trees it began with. -/
theorem mergeAll_forest {k n : Nat} {t : Table Node} {ts : List Tree} (h : Forest t n ts) (hne : ts ≠ []) (hk : ts.length ≤ k + 1) :
    ∃ r T, mergeAll k (ts.map (liveOf t)) t n = some r ∧ r.2.2 = T.idx ∧ Forest r.1 r.2.1 [T]
      ∧ T.syms.Perm (ts.flatMap Tree.syms) := by
  induction k generalizing n t ts with
  | zero =>
    obtain ⟨T, rfl⟩ := List.length_eq_one_iff.mp (Nat.le_antisymm hk (List.length_pos_iff.mpr hne))
    exact ⟨_, T, mergeAll_one _ _ _ _, rfl, h, by simp⟩
  | succ k ih =>
    rcases ts with _ | ⟨x, _ | ⟨y, ts⟩⟩
    · exact absurd rfl hne
    · exact ⟨_, x, mergeAll_one _ _ _ _, rfl, h, by simp⟩
    · obtain ⟨hforest, hlive, hrest⟩ := h.merge
      obtain ⟨us, hus, hp⟩ := addLive_map (liveOf (mergeNodes t n x.idx y.idx)) (.node n x y) ts
      have hlen : us.length = ts.length + 1 := by rw [hp.length_eq, List.length_cons]
      rw [hlive, hrest] at hus
      rw [List.length_cons, List.length_cons] at hk
      obtain ⟨r, T, hr, hidx, hT, hsyms⟩ := ih (hforest.perm hp) (List.ne_nil_of_length_pos (by omega)) (by omega)
      refine ⟨r, T, ?_, hidx, hT, hsyms.trans ((hp.flatMap_right _).trans ?_)⟩
      · rw [List.map_cons, List.map_cons, mergeAll_succ, ← hr]
        exact congrArg (fun live => mergeAll k live _ _) hus
      · simp [Tree.syms]

/-- What `Build` found: one static tree with a leaf for every symbol counted. -/
structure BuiltFrom (freq : Table Nat) (r : Table Node × Nat × Nat) (T : Tree) : Prop where
  root : r.2.2 = T.idx
  forest : Forest r.1 r.2.1 [T]
  static : T.Static
  syms : ∀ b : Byte, 0 < Table.get 0 freq b.toNat → b.setWidth 9 ∈ T.syms

/-- The arena `Build` starts from: the leaves in the entries from 0 on. -/
def seedArena (ns : List Node) : Table Node := Table.setFrom Node.reset [] 0 ns

theorem nodeAt_seedArena (ns : List Node) (j : Nat) : nodeAt (seedArena ns) j = ns.getD j Node.reset := by
  unfold nodeAt seedArena
  rw [Table.get_setFrom]
  split
  · rw [Nat.sub_zero]
  · rw [Table.get_nil, List.getD_eq_default _ _ (by omega)]

/-- R185: the loop starts with one tree for each leaf. -/
theorem forest_seedTrees {ns : List Node} (h : ∀ n ∈ ns, IsSeed n) : Forest (seedArena ns) ns.length (seedTrees 0 ns) where
  held := by
    intro T hT
    obtain ⟨j, hj, rfl⟩ := mem_seedTrees hT
    obtain ⟨hk, hl, hr, hp, -⟩ := h _ (List.getElem_mem hj)
    have hn : nodeAt (seedArena ns) (0 + j) = ns[j] := by rw [Nat.zero_add, nodeAt_seedArena, List.getD_eq_getElem _ _ hj]
    exact ⟨⟨by rw [hn, hk], by rw [hn], by rw [hn, hl], by rw [hn, hr], by rw [hn, hp]⟩, trivial⟩
  indices := by rw [indices_seedTrees, ← List.range_eq_range']
  free := fun i hi => by rw [nodeAt_seedArena, List.getD_eq_default _ _ hi]

theorem seedLive_seedArena (ns : List Node) :
    ∃ ts : List Tree, seedLive 0 ns = ts.map (liveOf (seedArena ns)) ∧ ts.Perm (seedTrees 0 ns) :=
  seedLive_map fun j hj => by rw [Nat.zero_add, nodeAt_seedArena, List.getD_eq_getElem _ _ hj]

/-- R185: with two symbols counted `Build` finds a tree. -/
theorem builtTree_spec {freq : Table Nat} (h : 2 ≤ (Table.firstN 0 freq 256).countP fun f => decide (0 < f)) :
    ∃ r T, builtTree freq = some r ∧ BuiltFrom freq r T := by
  have hlen := length_seedLeaves 0 (Table.firstN 0 freq 256)
  have hseed : ∀ n ∈ seedLeaves 0 (Table.firstN 0 freq 256), IsSeed n := fun n => isSeed_of_mem_seedLeaves (by simp)
  have hmem : ∀ b : Byte, 0 < Table.get 0 freq b.toNat →
      b.setWidth 9 ∈ (seedLeaves 0 (Table.firstN 0 freq 256)).map Node.sym := by
    intro b hb
    have hsym := sym_mem_seedLeaves (b := 0) (fs := Table.firstN 0 freq 256) (k := b.toNat) (by simp [b.isLt]) (by simpa using hb)
    rwa [Nat.zero_add, BitVec.ofNat_toNat] at hsym
  have hle := List.countP_le_length (p := fun f => decide (0 < f)) (l := Table.firstN 0 freq 256)
  rw [Table.length_firstN] at hle
  have hdef : builtTree freq = mergeAll (seedLeaves 0 (Table.firstN 0 freq 256)).length
      (seedLive 0 (seedLeaves 0 (Table.firstN 0 freq 256))) (seedArena (seedLeaves 0 (Table.firstN 0 freq 256)))
      (seedLeaves 0 (Table.firstN 0 freq 256)).length := rfl
  rw [hdef]
  generalize seedLeaves 0 (Table.firstN 0 freq 256) = ns at hlen hseed hmem
  obtain ⟨ts, hts, hp⟩ := seedLive_seedArena ns
  have hcount : ts.length = ns.length := hp.length_eq.trans (length_seedTrees 0 ns)
  obtain ⟨r, T, hr, hidx, hT, hsyms⟩ := mergeAll_forest (k := ns.length) ((forest_seedTrees hseed).perm hp)
    (List.ne_nil_of_length_pos (by omega)) (by omega)
  rw [← hts] at hr
  have hsyms' : T.syms.Perm (ns.map Node.sym) := by
    rw [← syms_seedTrees 0 ns]
    exact hsyms.trans (hp.flatMap_right _)
  have hleaves : T.leafCount = ns.length := by rw [Tree.leafCount, hsyms'.length_eq, List.length_map]
  refine ⟨r, T, hr, hidx, hT, ⟨by omega, by rw [hleaves, hlen]; exact hle, fun s hs => ?_⟩,
    fun b hb => hsyms'.mem_iff.mpr (hmem b hb)⟩
  obtain ⟨n, hn, rfl⟩ := List.mem_map.mp (hsyms'.mem_iff.mp hs)
  obtain ⟨-, -, -, -, hlt⟩ := hseed n hn
  exact hlt

/-! ### `Build` and `SH.ARCHIVE` -/

section
variable {strict : Prop} {s : State}

/-- R185: `Build` leaves a static tree with a leaf for every symbol counted. -/
theorem ends_build (h : Running (Sound strict) s) :
    Ends (fun _ t => Running (SoundStatic strict) t
        ∧ (strict → ∃ T, StaticTree t T ∧ ∀ b, 0 < s.freqOf b → b.setWidth 9 ∈ T.syms) ∧ t.src = s.src)
      (Stops strict (Sound strict)) (build s) := by
  refine ends_bind (ends_checkDistinct h) fun _ u _ hu => ?_
  obtain ⟨rfl, hd⟩ := hu
  have hspec := builtTree_spec (freq := u.freq) (hd.trans_eq h.live.distinct)
  refine ends_modify (ends_get (ends_bind (Q := fun r v => builtTree u.freq = some r ∧ v = clearArena u)
    (ends_fromTree (fun hnone => ?_) fun r hr => ⟨hr, rfl⟩) fun r v _ hr => ?_))
  · obtain ⟨r, T, hr, -⟩ := hspec
    cases hr.symm.trans hnone
  · obtain ⟨hr, rfl⟩ := hr
    obtain ⟨r', T, hr', hT⟩ := hspec
    obtain rfl : r = r' := Option.some.inj (hr.symm.trans hr')
    obtain ⟨hheld, hweighted⟩ := hT.forest.held T List.mem_cons_self
    have htree : ∀ v : State, v.arena = r.1 → v.nodeCnt = r.2.1 → v.root = some r.2.2 → StaticTree v T := by
      intro v ha hn hroot
      refine ⟨⟨by rw [hroot, hT.root], ha ▸ hheld, ?_, fun i hi => ?_⟩, hT.static, ha ▸ hweighted⟩
      · rw [hn]
        simpa using hT.forest.indices
      · rw [State.node, ha]
        exact hT.forest.free i (hn ▸ hi)
    refine ⟨⟨{ h.live with }, ⟨fun _ => rfl, h.part.flat, fun _ => ?_⟩, rfl⟩, fun _ => ⟨T, htree _ rfl rfl rfl, hT.syms⟩, rfl⟩
    exact (htree _ rfl rfl rfl).treeInv rfl nofun

/-- In STATIC mode every byte of SRC has a code, as the second pass of `SH.ARCHIVE` needs it (R203, R216). -/
structure Encodable (strict : Prop) (u : State) : Prop extends SoundStatic strict u where
  codeLen : strict → ∀ b ∈ u.src, 0 < u.codeLen b

theorem Encodable.storeFlat {f : Bits × List Byte} (h : Encodable strict (treePart s)) (hf : flattened s = some f) :
    Encodable strict (treePart (storeFlat f.1 f.2 s)) :=
  ⟨⟨h.toSound.storeFlat hf, h.mode⟩, h.codeLen⟩

/-- R203, R216: one round of the second pass. -/
theorem ends_archiveByte (i : Nat) (h : Running (Encodable strict) s) :
    Ends (fun _ => Running (Encodable strict)) (Stops strict (Encodable strict)) (archiveByte i s) := by
  refine ends_bind (ends_srcByte _ _ h) fun b t _ ht => ?_
  obtain ⟨rfl, hi, rfl⟩ := ht
  refine ends_encSym _ h.use fun hs => h.part.codeLen hs _ ?_
  rw [List.getD_eq_getElem _ _ hi]
  exact List.getElem_mem hi

/-- R216: `SH.ARCHIVE`'s rule. -/
theorem ends_archiveStatic (hp : s.params.wf) :
    Ends (fun _ => Running (SoundStatic strict)) (Stops strict (Sound strict)) (archiveStatic s) := by
  have h0 : Running (Sound strict) (initContext s) := .initContext hp (sound_initContext s)
  refine ends_modify (ends_bind (ends_scan h0) fun _ s1 _ h1 => ends_bind (ends_checkDistinct h1.1) fun _ s2 _ h2 => ?_)
  obtain ⟨rfl, -⟩ := h2
  refine ends_bind (ends_build h1.1) fun _ s3 _ h3 => ?_
  obtain ⟨h3, hT, hsrc⟩ := h3
  have hcover : strict → ∃ T, StaticTree s3 T ∧ ∀ b ∈ s3.src, b.setWidth 9 ∈ T.syms := by
    intro hs
    obtain ⟨T, hT, hsyms⟩ := hT hs
    exact ⟨T, hT, fun b hb => hsyms b (h1.2 b (hsrc ▸ hb))⟩
  refine ends_bind (ends_mkCodes _ h3 hcover) fun _ s4 hrun h4 => ends_get ?_
  have hsrc4 : s4.src = s3.src := ((keepsHost_closed.mkCodes s3).1 () s4 hrun).2.1
  have h5 : Running (Encodable strict) s4 := by
    refine ⟨h4.live, h4.part.toSoundStatic, fun hs b hb => ?_⟩
    obtain ⟨T, hT, hcodes, hsyms⟩ := h4.part.coded hs
    exact hcodes.codeLen_pos hT.static.1 (hsyms b (hsrc4 ▸ hb))
  have hweak : ∀ e t, Stops strict (Encodable strict) e t → Stops strict (Sound strict) e t :=
    fun _ _ he => he.imp fun _ hu => hu.toSound
  refine Ends.mono (Q := fun _ => Running (Encodable strict)) ?_ (fun _ _ _ ht => ht.imp fun _ hu => hu.toSoundStatic) hweak
  refine ends_bind (ends_serHdr _ _ h5 (fun _ => h5.part.storeFlat) h5.part.flattened_ne_none) fun _ s6 _ h6 => ?_
  refine ends_bind (ends_upFrom (I := fun _ => Running (Encodable strict)) (fun j t => ends_archiveByte j) h6) fun _ s7 _ h7 => ?_
  exact ends_bind (ends_finish h7) fun pad s8 _ h8 => ends_bind (ends_fixup _ h8) fun _ s9 _ h9 => h9.countBytes _

end

end Sys2Proof.Machine
end

section
namespace Sys2Proof.Machine

/-! ## The adaptive tree under `Update` and `Grow` -/

/-! ### Entries that differ in weight and number alone -/

/-- Only the weight and the number of an entry changed. -/
def SameLinks (x y : Node) : Prop := y = { x with w := y.w, num := y.num }

theorem SameLinks.trans {x y z : Node} (h1 : SameLinks x y) (h2 : SameLinks y z) : SameLinks x z := by
  unfold SameLinks at *
  rw [h2, h1]

/-- A tree is held where the links of its entries are the same. -/
theorem Holds.congr_links {t u : Table Node} {p : Option Nat} {T : Tree} (h : Holds t p T)
    (hn : ∀ i ∈ T.indices, SameLinks (nodeAt t i) (nodeAt u i)) : Holds u p T := by
  induction T generalizing p with
  | leaf i s =>
    have h0 := hn i (by simp [Tree.indices])
    obtain ⟨hk, hs, hl, hr, hp⟩ := h
    refine ⟨?_, ?_, ?_, ?_, ?_⟩ <;> (rw [h0]; assumption)
  | node i l r ihl ihr =>
    have h0 := hn i (by simp [Tree.indices])
    obtain ⟨hk, hs, hl, hr, hp, hl', hr'⟩ := h
    refine ⟨?_, ?_, ?_, ?_, ?_, ihl hl' fun j hj => hn j (by simp [Tree.indices, hj]),
      ihr hr' fun j hj => hn j (by simp [Tree.indices, hj])⟩ <;> (rw [h0]; assumption)

theorem Holds.parent {t : Table Node} {p : Option Nat} {T : Tree} (h : Holds t p T) : (nodeAt t T.idx).parent = p := by
  cases T with
  | leaf i s => exact h.2.2.2.2
  | node i l r => exact h.2.2.2.2.1

theorem Tree.indices_eq_cons (T : Tree) : T.indices = T.idx :: T.indices.tail := by cases T <;> rfl

theorem Tree.ne_idx_of_mem_tail {T : Tree} (hd : T.indices.Nodup) {j : Nat} (h : j ∈ T.indices.tail) : j ≠ T.idx := by
  rw [T.indices_eq_cons] at hd
  rintro rfl
  exact (List.nodup_cons.mp hd).1 h

/-! ### Weights and numbers of an adaptive tree -/

/-- At every internal node the right child's weight is not less than the left child's (R246). -/
def Rising (t : Table Node) : Tree → Prop
  | .leaf _ _ => True
  | .node _ l r => (nodeAt t l.idx).w ≤ (nodeAt t r.idx).w ∧ Rising t l ∧ Rising t r

/-- The weights and numbers of an adaptive tree whose root is `d` levels down (R37, R243, R246). -/
structure Slots (t : Table Node) (d : Nat) (T : Tree) : Prop where
  weighted : Weighted t T
  rising : Rising t T
  numbered : Numbered t d T

theorem Ordered.rising {t : Table Node} {T : Tree} (h : Ordered t T) : Rising t T := by
  induction T with
  | leaf i s => trivial
  | node i l r ihl ihr =>
    obtain ⟨-, -, hw, hl, hr⟩ := h
    exact ⟨hw, ihl hl, ihr hr⟩

/-- R243: the order of the numbers follows from the slots (`Numbered.lt`). -/
theorem Slots.ordered {t : Table Node} {d : Nat} {T : Tree} (h : Slots t d T) (hroot : 512 ≤ (nodeAt t T.idx).num.toNat + 2 * d) :
    Ordered t T := by
  obtain ⟨-, hrise, hnum⟩ := h
  induction T generalizing d with
  | leaf i s => trivial
  | node i l r ihl ihr =>
    obtain ⟨hlr, hri⟩ := hnum.lt hroot
    obtain ⟨hw, hwl, hwr⟩ := hrise
    obtain ⟨hr, hl, hnl, hnr⟩ := hnum
    exact ⟨hlr, hri, hw, ihl (by omega) hwl hnl, ihr (by omega) hwr hnr⟩

theorem Rising.congr {t u : Table Node} {T : Tree} (h : Rising t T) (hw : ∀ i ∈ T.indices, (nodeAt u i).w = (nodeAt t i).w) :
    Rising u T := by
  induction T with
  | leaf i s => trivial
  | node i l r ihl ihr =>
    obtain ⟨hle, hl, hr⟩ := h
    have hwl : ∀ j ∈ l.indices, (nodeAt u j).w = (nodeAt t j).w := fun j hj => hw j (by simp [Tree.indices, hj])
    have hwr : ∀ j ∈ r.indices, (nodeAt u j).w = (nodeAt t j).w := fun j hj => hw j (by simp [Tree.indices, hj])
    exact ⟨by rwa [hwl _ l.idx_mem_indices, hwr _ r.idx_mem_indices], ihl hl hwl, ihr hr hwr⟩

/-- The numbers of a tree say nothing of its root's own number. -/
theorem Numbered.congr {t u : Table Node} {d : Nat} {T : Tree} (h : Numbered t d T)
    (hn : ∀ i ∈ T.indices.tail, (nodeAt u i).num = (nodeAt t i).num) : Numbered u d T := by
  induction T generalizing d with
  | leaf i s => trivial
  | node i l r ihl ihr =>
    obtain ⟨hr, hl, hnl, hnr⟩ := h
    have hml : ∀ j ∈ l.indices, (nodeAt u j).num = (nodeAt t j).num := fun j hj => hn j (List.mem_append_left _ hj)
    have hmr : ∀ j ∈ r.indices, (nodeAt u j).num = (nodeAt t j).num := fun j hj => hn j (List.mem_append_right _ hj)
    exact ⟨by rw [hmr _ r.idx_mem_indices, hr], by rw [hml _ l.idx_mem_indices, hl], ihl hnl fun j hj => hml j (List.mem_of_mem_tail hj),
      ihr hnr fun j hj => hmr j (List.mem_of_mem_tail hj)⟩

theorem Slots.congr {t u : Table Node} {d : Nat} {T : Tree} (h : Slots t d T)
    (hw : ∀ i ∈ T.indices, (nodeAt u i).w = (nodeAt t i).w) (hn : ∀ i ∈ T.indices.tail, (nodeAt u i).num = (nodeAt t i).num) :
    Slots u d T :=
  ⟨h.weighted.congr hw, h.rising.congr hw, h.numbered.congr hn⟩

/-! ### Chains (R247) -/

theorem setWidth_ne_nytMark (b : Byte) : b.setWidth 9 ≠ Config.nytMark := by
  intro h
  have hb := b.isLt
  have := congrArg BitVec.toNat h
  simp [Config.nytMark] at this
  omega

/-- A symbol leaf holds no NYT leaf. -/
theorem Tree.not_hasLeaf_nyt {T : Tree} (h : T.IsSymbolLeaf = true) (y : Nat) : ¬ T.HasLeaf y Config.nytMark := by
  cases T with
  | leaf i s =>
    rintro ⟨-, rfl⟩
    simp [Tree.IsSymbolLeaf, Config.nytMark] at h
  | node i l r => cases h

/-- A chain that has a leaf of a symbol has an internal root. -/
theorem Tree.IsChain.eq_node {T : Tree} (h : T.IsChain) {n : Nat} {sym : BitVec 9} (hl : T.HasLeaf n sym) (hs : sym ≠ Config.nytMark) :
    ∃ i a b, T = .node i a b := by
  cases T with
  | leaf i s =>
    obtain ⟨-, rfl⟩ := hl
    exact absurd h hs
  | node i l r => exact ⟨i, l, r, rfl⟩

/-! ### `Update` (R244) -/

theorem nodeAt_addWeight (t : Table Node) (n j : Nat) :
    nodeAt (addWeight t n) j = if j = n then { nodeAt t n with w := (nodeAt t n).w + 1 } else nodeAt t j := nodeAt_setNode t n j _

theorem nodeAt_addWeight_same (t : Table Node) (n : Nat) :
    nodeAt (addWeight t n) n = { nodeAt t n with w := (nodeAt t n).w + 1 } := nodeAt_setNode_same t n _

theorem nodeAt_addWeight_ne (t : Table Node) {n j : Nat} (h : j ≠ n) : nodeAt (addWeight t n) j = nodeAt t j :=
  nodeAt_setNode_ne t _ h

theorem num_addWeight (t : Table Node) (n j : Nat) : (nodeAt (addWeight t n) j).num = (nodeAt t j).num := by
  rw [nodeAt_addWeight]
  split
  · next h => rw [h]
  · rfl

theorem sameLinks_addWeight (t : Table Node) (n j : Nat) : SameLinks (nodeAt t j) (nodeAt (addWeight t n) j) := by
  rw [nodeAt_addWeight]
  split
  · next h =>
    rw [h]
    rfl
  · rfl

/-- Everything the two swaps do to the entries (R244). -/
theorem nodeAt_swapChildren (t : Table Node) {q n m : Nat} (hqn : q ≠ n) (hqm : q ≠ m) (hnm : n ≠ m) (j : Nat) :
    nodeAt (swapChildren t q n m) j =
      if j = q then { nodeAt t q with left := (nodeAt t q).right, right := (nodeAt t q).left }
      else if j = n then { nodeAt t n with num := (nodeAt t m).num }
      else if j = m then { nodeAt t m with num := (nodeAt t n).num }
      else nodeAt t j := by
  unfold swapChildren
  simp only [nodeAt_setNode]
  by_cases h1 : j = q
  · subst h1
    simp [hqn, hqm]
  · by_cases h2 : j = n
    · subst h2
      simp [hnm, h1]
    · by_cases h3 : j = m
      · subst h3
        simp [h1, h2]
      · simp [h1, h2, h3]

/-- What the part of `Update` strictly below the root of `T` does, from the arena `t` to `u`, the leaf `n` being the one it starts from:
the tree is `T'`, and the root's own increment will make it what rules R37, R243 and R246 ask for. -/
structure Touched (t u : Table Node) (d n : Nat) (sym : BitVec 9) (T T' : Tree) : Prop where
  idx : T'.idx = T.idx
  held : ∀ p, Holds t p T → Holds u p T'
  indices : T'.indices.Perm T.indices
  others : ∀ j, j ∉ T.indices → nodeAt u j = nodeAt t j
  root : (nodeAt u T.idx).w = (nodeAt t T.idx).w ∧ (nodeAt u T.idx).num = (nodeAt t T.idx).num
  slots : Slots (addWeight u T.idx) d T'
  leaves : ∀ i s, T'.HasLeaf i s ↔ T.HasLeaf i s
  weight : ∀ i s, T.HasLeaf i s → i ≠ n → (nodeAt u i).w = (nodeAt t i).w
  chain : T.IsChain → T'.IsChain
  single : T'.IsSymbolLeaf = T.IsSymbolLeaf

/-- At the leaf itself nothing is below. -/
theorem touched_leaf (t : Table Node) (d i : Nat) (sym s : BitVec 9) : Touched t t d i sym (.leaf i s) (.leaf i s) where
  idx := rfl
  held := fun _ => id
  indices := List.Perm.refl _
  others := fun _ _ => rfl
  root := ⟨rfl, rfl⟩
  slots := ⟨trivial, trivial, trivial⟩
  leaves := fun _ _ => Iff.rfl
  weight := fun _ _ _ _ => rfl
  chain := id
  single := rfl

/-- The round of `Update` at the child `c` of node `i` with the sibling `m`, as far as it does not depend on which side `c` is: from `t1`,
the arena when the round begins, to `u`, the arena after it. -/
structure Round (t1 u : Table Node) (i c m : Nat) : Prop where
  child : (nodeAt u c).w = (nodeAt t1 c).w + 1
  links : ∀ j, j ≠ i → SameLinks (nodeAt t1 j) (nodeAt u j)
  weights : ∀ j, j ≠ c → (nodeAt u j).w = (nodeAt t1 j).w
  nums : ∀ j, j ≠ c → j ≠ m → (nodeAt u j).num = (nodeAt t1 j).num
  others : ∀ j, j ≠ i → j ≠ c → j ≠ m → nodeAt u j = nodeAt t1 j

theorem round_addWeight (t1 : Table Node) (i c m : Nat) : Round t1 (addWeight t1 c) i c m where
  child := by rw [nodeAt_addWeight_same]
  links := fun j _ => sameLinks_addWeight t1 c j
  weights := fun j hj => by rw [nodeAt_addWeight_ne t1 hj]
  nums := fun j _ _ => num_addWeight t1 c j
  others := fun j _ hj _ => nodeAt_addWeight_ne t1 hj

theorem round_swap (t1 : Table Node) {i c m : Nat} (hic : i ≠ c) (him : i ≠ m) (hcm : c ≠ m) :
    Round t1 (addWeight (swapChildren t1 i c m) c) i c m := by
  have hat := nodeAt_swapChildren t1 hic him hcm
  have hw : ∀ j, (nodeAt (swapChildren t1 i c m) j).w = (nodeAt t1 j).w := by
    intro j
    rw [hat]
    split
    · next h => rw [h]
    · split
      · next h => rw [h]
      · split
        · next h => rw [h]
        · rfl
  refine ⟨?_, fun j hj => ?_, fun j hj => ?_, fun j hc hm => ?_, fun j hi hc hm => ?_⟩
  · rw [nodeAt_addWeight_same, hw]
  · refine SameLinks.trans ?_ (sameLinks_addWeight _ _ _)
    rw [hat, if_neg hj]
    split
    · next h =>
      rw [h]
      rfl
    · split
      · next h =>
        rw [h]
        rfl
      · rfl
  · rw [nodeAt_addWeight_ne _ hj, hw]
  · rw [num_addWeight, hat, if_neg hc, if_neg hm]
    split
    · next h => rw [h]
    · rfl
  · rw [nodeAt_addWeight_ne _ hc, hat, if_neg hi, if_neg hc, if_neg hm]

section
variable {t t1 u : Table Node} {d n i : Nat} {sym : BitVec 9} {c c' m : Tree}

/-- The root of a tree is a leaf only when the tree is that leaf. -/
theorem Tree.eq_idx_of_hasLeaf_idx {T : Tree} (hd : T.indices.Nodup) {s sym : BitVec 9} (h : T.HasLeaf T.idx s) (hn : T.HasLeaf n sym) :
    n = T.idx := by
  cases T with
  | leaf i x => exact hn.1.symm
  | node i l r =>
    refine absurd ?_ (List.nodup_cons.mp hd).1
    rcases h with h | h
    · exact List.mem_append_left _ (Tree.mem_of_hasLeaf h)
    · exact List.mem_append_right _ (Tree.mem_of_hasLeaf h)

/-- The node `i` and its two subtrees share no entry, nor do the subtrees. -/
structure Apart (i : Nat) (c m : Tree) : Prop where
  childNodup : c.indices.Nodup
  siblingNodup : m.indices.Nodup
  child : i ∉ c.indices
  sibling : i ∉ m.indices
  disjoint : ∀ j ∈ c.indices, j ∉ m.indices

theorem apart_of_nodup {l r : Tree} (h : (Tree.node i l r).indices.Nodup) : Apart i l r :=
  have ⟨hi, hlr⟩ := List.nodup_cons.mp h
  have ⟨hl, hr, hdisj⟩ := List.nodup_append.mp hlr
  ⟨hl, hr, fun h => hi (List.mem_append_left _ h), fun h => hi (List.mem_append_right _ h), fun j hj hj' => hdisj j hj j hj' rfl⟩

theorem Apart.symm (h : Apart i c m) : Apart i m c :=
  ⟨h.siblingNodup, h.childNodup, h.sibling, h.child, fun j hj hj' => h.disjoint j hj' hj⟩

theorem Apart.child_ne (h : Apart i c m) : i ≠ c.idx := fun he => h.child (he ▸ c.idx_mem_indices)

theorem Apart.sibling_ne (h : Apart i c m) : i ≠ m.idx := h.symm.child_ne

theorem Apart.ne (h : Apart i c m) : c.idx ≠ m.idx := fun he => h.disjoint _ c.idx_mem_indices (he ▸ m.idx_mem_indices)

/-- What a round leaves of the child's subtree and of the sibling's. -/
structure Parts (t u : Table Node) (d n i : Nat) (c c' m : Tree) : Prop where
  child : Holds u (some i) c'
  sibling : Holds u (some i) m
  childSlots : Slots (addWeight u i) (d + 1) c'
  siblingSlots : Slots (addWeight u i) (d + 1) m
  childWeight : (nodeAt u c.idx).w = (nodeAt t c.idx).w + 1
  siblingWeight : ∀ j ∈ m.indices, (nodeAt u j).w = (nodeAt t j).w
  leafWeight : ∀ j s, c.HasLeaf j s → j ≠ n → (nodeAt u j).w = (nodeAt t j).w
  others : ∀ j, j ≠ i → j ∉ c.indices → j ∉ m.indices → nodeAt u j = nodeAt t j

theorem Touched.parts (h : Touched t t1 (d + 1) n sym c c') (hc : Holds t (some i) c) (hm : Holds t (some i) m)
    (hs : Slots t (d + 1) m) (hleaf : c.HasLeaf n sym) (hap : Apart i c m) (hr : Round t1 u i c.idx m.idx) :
    Parts t u d n i c c' m := by
  obtain ⟨hcd, hmd, hic, him, hcm⟩ := hap
  have hc' : ∀ j, j ∈ c'.indices → j ∈ c.indices := fun j => h.indices.mem_iff.mp
  have hidx := h.idx
  have hcd' : c'.indices.Nodup := h.indices.nodup_iff.mpr hcd
  have hmt : ∀ j ∈ m.indices, nodeAt t1 j = nodeAt t j := fun j hj => h.others j fun hjc => hcm j hjc hj
  have hne : ∀ j ∈ c.indices, j ≠ i ∧ j ≠ m.idx := fun j hj =>
    ⟨fun he => hic (he ▸ hj), fun he => hcm j hj (he ▸ m.idx_mem_indices)⟩
  have hne' : ∀ j ∈ m.indices, j ≠ i ∧ j ≠ c.idx := fun j hj =>
    ⟨fun he => him (he ▸ hj), fun he => hcm j (he ▸ c.idx_mem_indices) hj⟩
  refine ⟨?_, ?_, ?_, ?_, ?_, ?_, ?_, ?_⟩
  · exact (h.held _ hc).congr_links fun j hj => hr.links j (hne j (hc' j hj)).1
  · exact hm.congr_links fun j hj => hmt j hj ▸ hr.links j (hne' j hj).1
  · refine h.slots.congr (fun j hj => ?_) fun j hj => ?_
    · rw [nodeAt_addWeight_ne u (hne j (hc' j hj)).1]
      by_cases hj' : j = c.idx
      · rw [hj', nodeAt_addWeight_same, hr.child]
      · rw [nodeAt_addWeight_ne t1 hj', hr.weights j hj']
    · have hj' : j ≠ c.idx := hidx ▸ Tree.ne_idx_of_mem_tail hcd' hj
      rw [num_addWeight, num_addWeight, hr.nums j hj' (hne j (hc' j (List.mem_of_mem_tail hj))).2]
  · refine hs.congr (fun j hj => ?_) fun j hj => ?_
    · rw [nodeAt_addWeight_ne u (hne' j hj).1, hr.weights j (hne' j hj).2, hmt j hj]
    · have hjm := List.mem_of_mem_tail hj
      rw [num_addWeight, hr.nums j (hne' j hjm).2 (Tree.ne_idx_of_mem_tail hmd hj), hmt j hjm]
  · rw [hr.child, h.root.1]
  · intro j hj
    rw [hr.weights j (hne' j hj).2, hmt j hj]
  · intro j s hj hjn
    have hjc : j ≠ c.idx := by
      rintro rfl
      exact hjn (Tree.eq_idx_of_hasLeaf_idx hcd hj hleaf).symm
    rw [hr.weights j hjc, h.weight j s hj hjn]
  · intro j hji hjc hjm
    rw [hr.others j hji (fun he => hjc (he ▸ c.idx_mem_indices)) (fun he => hjm (he ▸ m.idx_mem_indices)), h.others j hjc]

/-- The subtree of a node after the round of `Update` at one of its children, its children then being `a` and `b`. -/
theorem touched_node {l r a b : Tree} (hroot : nodeAt u i = { nodeAt t i with left := some a.idx, right := some b.idx })
    (ha : Holds u (some i) a) (hb : Holds u (some i) b) (hsa : Slots (addWeight u i) (d + 1) a) (hsb : Slots (addWeight u i) (d + 1) b)
    (hsum : (nodeAt t i).w + 1 = (nodeAt u a.idx).w + (nodeAt u b.idx).w) (hle : (nodeAt u a.idx).w ≤ (nodeAt u b.idx).w)
    (hnb : (nodeAt u b.idx).num.toNat + 2 * d = 511) (hna : (nodeAt u a.idx).num.toNat + 2 * d = 510)
    (hperm : (a.indices ++ b.indices).Perm (l.indices ++ r.indices)) (hap : Apart i l r)
    (hothers : ∀ j, j ≠ i → j ∉ l.indices → j ∉ r.indices → nodeAt u j = nodeAt t j)
    (hleaves : ∀ j s, (a.HasLeaf j s ∨ b.HasLeaf j s) ↔ (l.HasLeaf j s ∨ r.HasLeaf j s))
    (hweight : ∀ j s, l.HasLeaf j s ∨ r.HasLeaf j s → j ≠ n → (nodeAt u j).w = (nodeAt t j).w)
    (hchain : (Tree.node i l r).IsChain → (Tree.node i a b).IsChain) :
    Touched t u d n sym (.node i l r) (.node i a b) := by
  have hi : i ∉ l.indices ++ r.indices := fun h => (List.mem_append.mp h).elim hap.child hap.sibling
  have hia : a.idx ≠ i := fun h => hi (hperm.mem_iff.mp (List.mem_append_left _ (h ▸ a.idx_mem_indices)))
  have hib : b.idx ≠ i := fun h => hi (hperm.mem_iff.mp (List.mem_append_right _ (h ▸ b.idx_mem_indices)))
  refine ⟨rfl, ?_, hperm.cons i, fun j hj => ?_, ?_, ⟨⟨?_, hsa.weighted, hsb.weighted⟩, ⟨?_, hsa.rising, hsb.rising⟩,
    ⟨?_, ?_, hsa.numbered, hsb.numbered⟩⟩, hleaves, hweight, hchain, rfl⟩
  · rintro p ⟨hk, hs, -, -, hp, -, -⟩
    exact ⟨by rw [hroot, hk], by rw [hroot, hs], by rw [hroot], by rw [hroot], by rw [hroot, hp], ha, hb⟩
  · rw [Tree.indices, List.mem_cons, List.mem_append, not_or, not_or] at hj
    exact hothers j hj.1 hj.2.1 hj.2.2
  · rw [Tree.idx_node, hroot]
    exact ⟨rfl, rfl⟩
  · rw [Tree.idx_node, nodeAt_addWeight_same, nodeAt_addWeight_ne u hia, nodeAt_addWeight_ne u hib, ← hsum, hroot]
  · rw [Tree.idx_node, nodeAt_addWeight_ne u hia, nodeAt_addWeight_ne u hib]
    exact hle
  · rw [num_addWeight]
    exact hnb
  · rw [num_addWeight]
    exact hna

end

/-- R244: one round of `Update`. -/
theorem updateUp_round {t : Table Node} {n q m : Nat} (k : Nat) (hp : (nodeAt t n).parent = some q) (hs : sibling t q n = some m) :
    updateUp (k + 1) n t = updateUp k q (addWeight (if mustSwap t n m then swapChildren t q n m else t) n) := by
  rw [updateUp, hp]
  simp only [hs]

/-- R244: the rounds below `c` and the one at `c`. -/
theorem updateUp_above {t t1 : Table Node} {n q c i m : Nat} (hrun : ∀ k, updateUp (q + k) n t = updateUp k c t1)
    (hp : (nodeAt t1 c).parent = some i) (hs : sibling t1 i c = some m) (k : Nat) :
    updateUp (q + 1 + k) n t = updateUp k i (addWeight (if mustSwap t1 c m then swapChildren t1 i c m else t1) c) := by
  rw [Nat.add_assoc, Nat.add_comm 1 k, hrun, updateUp_round k hp hs]

/-- R243, R244: siblings change sides only when the left one, with the lower number, is touched. -/
theorem mustSwap_iff (t : Table Node) (n m : Nat) :
    mustSwap t n m = true ↔ (nodeAt t n).w = (nodeAt t m).w ∧ (nodeAt t n).num.toNat < (nodeAt t m).num.toNat := by
  simp [mustSwap]

section
variable {t t1 : Table Node} {p : Option Nat} {d n i : Nat} {sym : BitVec 9} {l r l' r' : Tree}

/-- R244, R247: the left child is touched and has its sibling's weight: they change sides. -/
theorem touched_swap (h : Touched t t1 (d + 1) n sym l l') (hheld : Holds t p (.node i l r)) (hs : Slots t d (.node i l r))
    (hap : Apart i l r) (hleaf : l.HasLeaf n sym) (hsym : sym ≠ Config.nytMark) (hw : (nodeAt t l.idx).w = (nodeAt t r.idx).w) :
    Touched t (addWeight (swapChildren t1 i l.idx r.idx) l.idx) d n sym (.node i l r) (.node i r l') := by
  obtain ⟨-, -, hleft, hright, -, hl, hr⟩ := hheld
  obtain ⟨⟨hsum, -, hwr⟩, ⟨-, -, hrr⟩, hnr, hnl, -, hnr'⟩ := hs
  have P := h.parts hl hr ⟨hwr, hrr, hnr'⟩ hleaf hap (round_swap t1 hap.child_ne hap.sibling_ne hap.ne)
  have hat := nodeAt_swapChildren t1 hap.child_ne hap.sibling_ne hap.ne
  have hwl := P.childWeight
  have hwr := P.siblingWeight _ r.idx_mem_indices
  have htr : nodeAt t1 r.idx = nodeAt t r.idx := h.others _ fun hj => hap.disjoint _ hj r.idx_mem_indices
  refine touched_node ?_ P.sibling P.child P.siblingSlots P.childSlots ?_ ?_ ?_ ?_ ?_ hap P.others ?_ ?_ ?_
  · rw [nodeAt_addWeight_ne _ hap.child_ne, hat, if_pos rfl, h.others i hap.child, hleft, hright, h.idx]
  · rw [h.idx]
    omega
  · rw [h.idx]
    omega
  · rw [h.idx, num_addWeight, hat, if_neg hap.child_ne.symm, if_pos rfl, htr, hnr]
  · rw [num_addWeight, hat, if_neg hap.sibling_ne.symm, if_neg hap.ne.symm, if_pos rfl, h.root.2, hnl]
  · exact List.perm_append_comm.trans (h.indices.append_right _)
  · intro j s
    rw [h.leaves, or_comm]
  · rintro j s (hj | hj) hjn
    · exact P.leafWeight j s hj hjn
    · exact P.siblingWeight j (Tree.mem_of_hasLeaf hj)
  · rintro (⟨hc, hb⟩ | ⟨hb, hc, -⟩)
    · exact .inr ⟨hb, h.chain hc, (h.chain hc).eq_node ((h.leaves _ _).mpr hleaf) hsym⟩
    · exact .inl ⟨hc, h.single.trans hb⟩

/-- R244: the left child is touched and is lighter than its sibling: nothing changes sides. -/
theorem touched_left (h : Touched t t1 (d + 1) n sym l l') (hheld : Holds t p (.node i l r)) (hs : Slots t d (.node i l r))
    (hap : Apart i l r) (hleaf : l.HasLeaf n sym) (hw : (nodeAt t l.idx).w ≠ (nodeAt t r.idx).w) :
    Touched t (addWeight t1 l.idx) d n sym (.node i l r) (.node i l' r) := by
  obtain ⟨-, -, hleft, hright, -, hl, hr⟩ := hheld
  obtain ⟨⟨hsum, -, hwr⟩, ⟨hle, -, hrr⟩, hnr, hnl, -, hnr'⟩ := hs
  have P := h.parts hl hr ⟨hwr, hrr, hnr'⟩ hleaf hap (round_addWeight t1 i l.idx r.idx)
  have hwl := P.childWeight
  have hwr := P.siblingWeight _ r.idx_mem_indices
  have htr : nodeAt t1 r.idx = nodeAt t r.idx := h.others _ fun hj => hap.disjoint _ hj r.idx_mem_indices
  refine touched_node ?_ P.child P.sibling P.childSlots P.siblingSlots ?_ ?_ ?_ ?_ ?_ hap P.others ?_ ?_ ?_
  · rw [nodeAt_addWeight_ne _ hap.child_ne, h.others i hap.child, h.idx, ← hleft, ← hright]
  · rw [h.idx]
    omega
  · rw [h.idx]
    omega
  · rw [num_addWeight, htr, hnr]
  · rw [h.idx, num_addWeight, h.root.2, hnl]
  · exact h.indices.append_right _
  · intro j s
    rw [h.leaves]
  · rintro j s (hj | hj) hjn
    · exact P.leafWeight j s hj hjn
    · exact P.siblingWeight j (Tree.mem_of_hasLeaf hj)
  · rintro (⟨hc, hb⟩ | ⟨hb, hc, hnode⟩)
    · exact .inl ⟨h.chain hc, hb⟩
    · exact .inr ⟨h.single.trans hb, hc, hnode⟩

/-- R244: the right child is touched, which has the higher number: nothing changes sides. -/
theorem touched_right (h : Touched t t1 (d + 1) n sym r r') (hheld : Holds t p (.node i l r)) (hs : Slots t d (.node i l r))
    (hap : Apart i l r) (hleaf : r.HasLeaf n sym) (hsym : sym ≠ Config.nytMark) :
    Touched t (addWeight t1 r.idx) d n sym (.node i l r) (.node i l r') := by
  obtain ⟨-, -, hleft, hright, -, hl, hr⟩ := hheld
  obtain ⟨⟨hsum, hwl, -⟩, ⟨hle, hrl, -⟩, hnr, hnl, hnl', -⟩ := hs
  have P := h.parts hr hl ⟨hwl, hrl, hnl'⟩ hleaf hap.symm (round_addWeight t1 i r.idx l.idx)
  have hwr := P.childWeight
  have hwl := P.siblingWeight _ l.idx_mem_indices
  have htl : nodeAt t1 l.idx = nodeAt t l.idx := h.others _ fun hj => hap.disjoint _ l.idx_mem_indices hj
  refine touched_node ?_ P.sibling P.child P.siblingSlots P.childSlots ?_ ?_ ?_ ?_ ?_ hap (fun j hi hl hr => P.others j hi hr hl) ?_ ?_ ?_
  · rw [nodeAt_addWeight_ne _ hap.sibling_ne, h.others i hap.sibling, h.idx, ← hleft, ← hright]
  · rw [h.idx]
    omega
  · rw [h.idx]
    omega
  · rw [h.idx, num_addWeight, h.root.2, hnr]
  · rw [num_addWeight, htl, hnl]
  · exact h.indices.append_left _
  · intro j s
    rw [h.leaves]
  · rintro j s (hj | hj) hjn
    · exact P.siblingWeight j (Tree.mem_of_hasLeaf hj)
    · exact P.leafWeight j s hj hjn
  · rintro (⟨hc, hb⟩ | ⟨hb, hc, -⟩)
    · exact .inl ⟨hc, h.single.trans hb⟩
    · exact .inr ⟨hb, h.chain hc, (h.chain hc).eq_node ((h.leaves _ _).mpr hleaf) hsym⟩

end

/-- R244, R247: `Update` from a symbol's leaf up to the root of a held tree. -/
theorem updateUp_touched {t : Table Node} {p : Option Nat} {d n : Nat} {sym : BitVec 9} {T : Tree} (hheld : Holds t p T)
    (hd : T.indices.Nodup) (hs : Slots t d T) (hleaf : T.HasLeaf n sym) (hsym : sym ≠ Config.nytMark) :
    ∃ q u T', q < T.leafCount ∧ (∀ k, updateUp (q + k) n t = updateUp k T.idx u) ∧ Touched t u d n sym T T' := by
  induction T generalizing p d with
  | leaf i s =>
    obtain ⟨rfl, rfl⟩ := hleaf
    exact ⟨0, t, .leaf i s, Nat.one_pos, fun k => by rw [Nat.zero_add]; rfl, touched_leaf t d i s s⟩
  | node i l r ihl ihr =>
    have hap := apart_of_nodup hd
    obtain ⟨-, -, hleft, hright, -, hl, hr⟩ := id hheld
    obtain ⟨⟨-, hwl, hwr⟩, ⟨-, hrl, hrr⟩, hnr, hnl, hnl', hnr'⟩ := id hs
    have hlc := l.leafCount_pos
    have hrc := r.leafCount_pos
    rw [Tree.leafCount_node]
    rcases hleaf with hleaf | hleaf
    · obtain ⟨q, t1, l', hq, hrun, ht⟩ := ihl hl hap.childNodup ⟨hwl, hrl, hnl'⟩ hleaf
      have htr : nodeAt t1 r.idx = nodeAt t r.idx := ht.others _ fun hj => hap.disjoint _ hj r.idx_mem_indices
      have hpar : (nodeAt t1 l.idx).parent = some i := ht.idx ▸ (ht.held _ hl).parent
      have hsib : sibling t1 i l.idx = some r.idx := by simp [sibling, ht.others i hap.child, hleft, hright]
      have hswap : mustSwap t1 l.idx r.idx = true ↔ (nodeAt t l.idx).w = (nodeAt t r.idx).w := by
        rw [mustSwap_iff, htr, ht.root.1, ht.root.2]
        exact and_iff_left (by omega)
      have hstep := fun k => updateUp_above hrun hpar hsib k
      by_cases hw : (nodeAt t l.idx).w = (nodeAt t r.idx).w
      · rw [if_pos (hswap.mpr hw)] at hstep
        exact ⟨q + 1, _, _, by omega, hstep, touched_swap ht hheld hs hap hleaf hsym hw⟩
      · rw [if_neg (mt hswap.mp hw)] at hstep
        exact ⟨q + 1, _, _, by omega, hstep, touched_left ht hheld hs hap hleaf hw⟩
    · obtain ⟨q, t1, r', hq, hrun, ht⟩ := ihr hr hap.siblingNodup ⟨hwr, hrr, hnr'⟩ hleaf
      have htl : nodeAt t1 l.idx = nodeAt t l.idx := ht.others _ fun hj => hap.disjoint _ l.idx_mem_indices hj
      have hpar : (nodeAt t1 r.idx).parent = some i := ht.idx ▸ (ht.held _ hr).parent
      have hsib : sibling t1 i r.idx = some l.idx := by simp [sibling, ht.others i hap.sibling, hleft, hap.ne]
      have hswap : ¬ mustSwap t1 r.idx l.idx = true := by
        rw [mustSwap_iff, htl, ht.root.2]
        omega
      have hstep := fun k => updateUp_above hrun hpar hsib k
      rw [if_neg hswap] at hstep
      exact ⟨q + 1, _, _, by omega, hstep, touched_right ht hheld hs hap hleaf hsym⟩

end Sys2Proof.Machine
end

section
namespace Sys2Proof.Machine

/-! ### The adaptive tree after `Update` -/

theorem Holds.sym_of_hasLeaf {t : Table Node} {p : Option Nat} {T : Tree} (h : Holds t p T) {i : Nat} {s : BitVec 9}
    (hl : T.HasLeaf i s) : (nodeAt t i).sym = s := by
  induction T generalizing p with
  | leaf j x =>
    obtain ⟨rfl, rfl⟩ := hl
    exact h.2.1
  | node j l r ihl ihr =>
    obtain ⟨-, -, -, -, -, h1, h2⟩ := h
    exact hl.elim (ihl h1) (ihr h2)

theorem TreeAt.nodup {s : State} {T : Tree} (h : TreeAt s T) : T.indices.Nodup := h.2.2.1.nodup_iff.mpr List.nodup_range

theorem TreeAt.mem_indices {s : State} {T : Tree} (h : TreeAt s T) {i : Nat} : i ∈ T.indices ↔ i < s.nodeCnt := by
  rw [h.2.2.1.mem_iff, List.mem_range]

/-- R32, R245: `AH_S` symbols have a leaf, and there is the NYT leaf. -/
theorem AdaptiveAt.leafCount {s : State} {T : Tree} (h : AdaptiveAt s T) : T.leafCount = s.ahS + 1 := by
  obtain ⟨⟨-, -, hperm, -⟩, -, -, -, hcnt, -⟩ := h
  have hlen := hperm.length_eq
  rw [Tree.length_indices, List.length_range, hcnt] at hlen
  have := T.leafCount_pos
  omega

theorem AdaptiveAt.leafCount_le {s : State} {T : Tree} (h : AdaptiveAt s T) : T.leafCount ≤ 257 := by
  have hl := h.leafCount
  obtain ⟨-, -, -, -, -, -, hS, -⟩ := h
  omega

theorem AdaptiveAt.slots {s : State} {T : Tree} (h : AdaptiveAt s T) : Slots s.arena 0 T := by
  obtain ⟨-, -, -, -, -, -, -, hw, ho, -, hn⟩ := h
  exact ⟨hw, ho.rising, hn⟩

/-- R244: `Update` at the root. -/
theorem updateUp_root {t : Table Node} {n : Nat} (k : Nat) (h : (nodeAt t n).parent = none) :
    updateUp (k + 1) n t = some (addWeight t n) := by rw [updateUp, h]

/-- R244, R246, R247: `Update` from a symbol's leaf comes to its end, and the tree is adaptive again. -/
theorem AdaptiveAt.update {s : State} {T : Tree} (h : AdaptiveAt s T) {b : Byte} {n : Nat} (hb : s.mapOf b = some n) :
    ∃ u T', updateUp Config.arenaSize n s.arena = some u ∧ AdaptiveAt { s with arena := u } T' := by
  have hcount := h.leafCount_le
  have hslots := h.slots
  obtain ⟨htree, ⟨y, hy, hyleaf, hyw⟩, hchain, hmap, hcnt, hnext, hS, -, -, hroot, -⟩ := h
  have hsym := setWidth_ne_nytMark b
  have hleaf := (hmap b n).mp hb
  have hd := htree.nodup
  obtain ⟨q, u, T', hq, hrun, ht⟩ := updateUp_touched htree.2.1 hd hslots hleaf hsym
  have hheld := ht.held none htree.2.1
  have hpar : (nodeAt u T.idx).parent = none := ht.idx ▸ hheld.parent
  have hyn : y ≠ n := fun he => hsym ((htree.2.1.sym_of_hasLeaf hleaf).symm.trans (he ▸ htree.2.1.sym_of_hasLeaf hyleaf))
  have hyT : y ≠ T.idx := fun he => hyn (he.trans (Tree.eq_idx_of_hasLeaf_idx hd (he ▸ hyleaf) hleaf).symm)
  have hnum : (nodeAt (addWeight u T.idx) T'.idx).num = Config.numRoot := by
    rw [num_addWeight, ht.idx, ht.root.2]
    exact hroot
  refine ⟨addWeight u T.idx, T', ?_, ⟨?_, ?_, ?_, fun i hi => ?_⟩, ⟨y, hy, (ht.leaves _ _).mpr hyleaf, ?_⟩, ht.chain hchain,
    fun c i => (hmap c i).trans (ht.leaves _ _).symm, hcnt, hnext, hS, ht.slots.weighted, ht.slots.ordered ?_, hnum, ht.slots.numbered⟩
  · obtain ⟨k, hk⟩ : ∃ k, Config.arenaSize = q + (k + 1) := ⟨Config.arenaSize - q - 1, by unfold Config.arenaSize; omega⟩
    rw [hk, hrun, updateUp_root k hpar]
  · rw [ht.idx]
    exact htree.1
  · exact hheld.congr_links fun j _ => sameLinks_addWeight u _ j
  · exact ht.indices.trans htree.2.2.1
  · have hiT : i ∉ T.indices := fun hm => Nat.not_lt_of_le hi (htree.mem_indices.mp hm)
    change nodeAt (addWeight u T.idx) i = Node.reset
    have hne : i ≠ T.idx := by
      rintro rfl
      exact hiT T.idx_mem_indices
    rw [nodeAt_addWeight_ne u hne, ht.others i hiT]
    exact htree.2.2.2 i hi
  · change (nodeAt (addWeight u T.idx) y).w = 0
    rw [nodeAt_addWeight_ne u hyT, ht.weight y _ hyleaf hyn]
    exact hyw
  · rw [hnum]
    decide

/-! ### `Grow` (R238) -/

theorem Tree.eq_leaf_of_isSymbolLeaf {T : Tree} (h : T.IsSymbolLeaf = true) : ∃ j, ∃ c : Byte, T = .leaf j (c.setWidth 9) := by
  cases T with
  | leaf j x =>
    refine ⟨j, x.setWidth 8, ?_⟩
    have hx : x.toNat < 256 := of_decide_eq_true h
    congr 1
    apply BitVec.eq_of_toNat_eq
    simp only [BitVec.toNat_setWidth]
    omega
  | node i l r => cases h

theorem Tree.leafCount_of_isSymbolLeaf {T : Tree} (h : T.IsSymbolLeaf = true) : T.leafCount = 1 := by
  obtain ⟨j, c, rfl⟩ := Tree.eq_leaf_of_isSymbolLeaf h
  rfl

/-- R245, R247: a chain whose symbols are in `S`, each once, has at most one leaf for each of them and the NYT leaf. -/
theorem Tree.IsChain.leafCount_le {T : Tree} (hc : T.IsChain) (hd : T.indices.Nodup) (S : Finset Byte)
    (hS : ∀ i (c : Byte), T.HasLeaf i (c.setWidth 9) → c ∈ S)
    (hu : ∀ i j (c : Byte), T.HasLeaf i (c.setWidth 9) → T.HasLeaf j (c.setWidth 9) → i = j) : T.leafCount ≤ S.card + 1 := by
  induction T generalizing S with
  | leaf i s => simp
  | node i l r ihl ihr =>
    have hap := apart_of_nodup hd
    rcases hc with ⟨hcl, hr⟩ | ⟨hl, hcr, -⟩
    · obtain ⟨j, c, rfl⟩ := Tree.eq_leaf_of_isSymbolLeaf hr
      have hcS : c ∈ S := hS j c (.inr ⟨rfl, rfl⟩)
      have hle := ihl hcl hap.childNodup (S.erase c) (fun k c' hk => Finset.mem_erase.mpr ⟨?_, hS k c' (.inl hk)⟩)
        fun k k' c' h h' => hu k k' c' (.inl h) (.inl h')
      · have hpos := Finset.card_pos.mpr ⟨c, hcS⟩
        rw [Finset.card_erase_of_mem hcS] at hle
        rw [Tree.leafCount_node, Tree.leafCount_leaf]
        omega
      · rintro rfl
        obtain rfl := hu k j c' (.inl hk) (.inr ⟨rfl, rfl⟩)
        exact hap.disjoint k (Tree.mem_of_hasLeaf hk) (by simp [Tree.indices])
    · obtain ⟨j, c, rfl⟩ := Tree.eq_leaf_of_isSymbolLeaf hl
      have hcS : c ∈ S := hS j c (.inl ⟨rfl, rfl⟩)
      have hle := ihr hcr hap.siblingNodup (S.erase c) (fun k c' hk => Finset.mem_erase.mpr ⟨?_, hS k c' (.inr hk)⟩)
        fun k k' c' h h' => hu k k' c' (.inr h) (.inr h')
      · have hpos := Finset.card_pos.mpr ⟨c, hcS⟩
        rw [Finset.card_erase_of_mem hcS] at hle
        rw [Tree.leafCount_node, Tree.leafCount_leaf]
        omega
      · rintro rfl
        obtain rfl := hu k j c' (.inr hk) (.inl ⟨rfl, rfl⟩)
        exact hap.disjoint k (by simp [Tree.indices]) (Tree.mem_of_hasLeaf hk)

/-- R245: while a symbol has no leaf, fewer than 256 have one. -/
theorem AdaptiveAt.ahS_lt {s : State} {T : Tree} (h : AdaptiveAt s T) {b : Byte} (hb : s.mapOf b = none) : s.ahS < 256 := by
  have hcount := h.leafCount
  obtain ⟨htree, -, hchain, hmap, -⟩ := h
  have hle := hchain.leafCount_le htree.nodup (Finset.univ.erase b) (fun i c hi => ?_) fun i j c hi hj => ?_
  · rw [Finset.card_erase_of_mem (Finset.mem_univ b), Finset.card_univ, ← FinEnum.card_eq_fintypeCard, FinEnum.card_bitVec] at hle
    omega
  · refine Finset.mem_erase.mpr ⟨?_, Finset.mem_univ c⟩
    rintro rfl
    rw [(hmap c i).mpr hi] at hb
    cases hb
  · exact Option.some.inj (((hmap c i).mpr hi).symm.trans ((hmap c j).mpr hj))

/-- Everything `Grow` does to the entries (R238). -/
theorem nodeAt_growNodes (t : Table Node) {y a : Nat} (b : Byte) (num : BitVec 10) (hya : y ≠ a) (hya' : y ≠ a + 1) (j : Nat) :
    nodeAt (growNodes t y a b num) j =
      if j = y then { nodeAt t y with kind := .internal, sym := 0#9, left := some a, right := some (a + 1) }
      else if j = a then adaptiveLeaf Config.nytMark (some y) (num - 1#10)
      else if j = a + 1 then adaptiveLeaf (b.setWidth 9) (some y) num
      else nodeAt t j := by
  unfold growNodes
  simp only [nodeAt_setNode]
  by_cases h1 : j = y
  · subst h1
    simp [hya, hya']
  · simp [h1]

/-- The tree after `Grow` under the NYT leaf `y`, the fresh entries being `a` and `a + 1`. -/
structure Grown (u : Table Node) (p : Option Nat) (d y a : Nat) (b : Byte) (T T' : Tree) : Prop where
  idx : T'.idx = T.idx
  held : Holds u p T'
  indices : T'.indices.Perm (a :: (a + 1) :: T.indices)
  slots : Slots u d T'
  leaves : ∀ i s, T'.HasLeaf i s ↔ (T.HasLeaf i s ∧ i ≠ y) ∨ (i = a ∧ s = Config.nytMark) ∨ (i = a + 1 ∧ s = b.setWidth 9)
  chain : T'.IsChain
  node : ∃ i l r, T' = .node i l r

section
variable {t : Table Node} {y a : Nat} {b : Byte} {num : BitVec 10}

/-- R238: in the old entries only the NYT leaf changes, and not its weight nor its number. -/
theorem growNodes_keeps (hya : y ≠ a) (hya' : y ≠ a + 1) {j : Nat} (ha : j ≠ a) (ha' : j ≠ a + 1) :
    (nodeAt (growNodes t y a b num) j).w = (nodeAt t j).w ∧ (nodeAt (growNodes t y a b num) j).num = (nodeAt t j).num
      ∧ (j ≠ y → nodeAt (growNodes t y a b num) j = nodeAt t j) := by
  rw [nodeAt_growNodes t b num hya hya']
  split
  · next h =>
    rw [h]
    exact ⟨rfl, rfl, fun hne => absurd rfl hne⟩
  · exact ⟨rfl, rfl, fun _ => rfl⟩

/-- R238, R239: at the NYT leaf itself. -/
theorem grown_leaf {p : Option Nat} {d : Nat} (h : Holds t p (.leaf y Config.nytMark)) (hw : (nodeAt t y).w = 0) (hya : y ≠ a)
    (hya' : y ≠ a + 1) (hnum : num.toNat + 2 * d = 511) :
    Grown (growNodes t y a b num) p d y a b (.leaf y Config.nytMark)
      (.node y (.leaf a Config.nytMark) (.leaf (a + 1) (b.setWidth 9))) := by
  have hat := nodeAt_growNodes t b num hya hya'
  have hy := (hat y).trans (if_pos rfl)
  have ha : nodeAt (growNodes t y a b num) a = adaptiveLeaf Config.nytMark (some y) (num - 1#10) := by
    rw [hat, if_neg hya.symm, if_pos rfl]
  have ha' : nodeAt (growNodes t y a b num) (a + 1) = adaptiveLeaf (b.setWidth 9) (some y) num := by
    rw [hat, if_neg hya'.symm, if_neg (Nat.succ_ne_self a), if_pos rfl]
  have hnum' : (num - 1#10).toNat = num.toNat - 1 := by
    rw [BitVec.toNat_sub_of_le (by rw [BitVec.le_def]; simp; omega)]
    rfl
  obtain ⟨-, -, -, -, hp⟩ := h
  refine ⟨rfl, ⟨by rw [hy], by rw [hy], by rw [hy]; rfl, by rw [hy]; rfl, by rw [hy, hp], ?_, ?_⟩, ?_, ⟨?_, ?_, ?_⟩, ?_, ?_, _, _, _, rfl⟩
  · exact ⟨by rw [ha]; rfl, by rw [ha]; rfl, by rw [ha]; rfl, by rw [ha]; rfl, by rw [ha]; rfl⟩
  · exact ⟨by rw [ha']; rfl, by rw [ha']; rfl, by rw [ha']; rfl, by rw [ha']; rfl, by rw [ha']; rfl⟩
  · exact (List.perm_append_comm (l₁ := [y]) (l₂ := [a, a + 1]))
  · refine ⟨?_, trivial, trivial⟩
    rw [hy, Tree.idx_leaf, Tree.idx_leaf, ha, ha']
    exact hw
  · refine ⟨?_, trivial, trivial⟩
    rw [Tree.idx_leaf, Tree.idx_leaf, ha, ha']
    exact Nat.le_refl _
  · refine ⟨?_, ?_, trivial, trivial⟩
    · rw [Tree.idx_leaf, ha']
      exact hnum
    · rw [Tree.idx_leaf, ha]
      change (num - 1#10).toNat + 2 * d = 510
      omega
  · intro i s
    simp only [Tree.HasLeaf]
    constructor
    · rintro (⟨rfl, rfl⟩ | ⟨rfl, rfl⟩)
      · exact .inr (.inl ⟨rfl, rfl⟩)
      · exact .inr (.inr ⟨rfl, rfl⟩)
    · rintro (⟨⟨rfl, -⟩, hne⟩ | ⟨rfl, rfl⟩ | ⟨rfl, rfl⟩)
      · exact absurd rfl hne
      · exact .inl ⟨rfl, rfl⟩
      · exact .inr ⟨rfl, rfl⟩
  · refine .inl ⟨rfl, ?_⟩
    have hb := b.isLt
    simp [Tree.IsSymbolLeaf]
    omega

/-- Where `Grow` changes nothing, the tree and its weights and numbers stay. -/
theorem growNodes_unchanged {q : Option Nat} {d : Nat} {m : Tree} (hm : Holds t q m) (hs : Slots t d m) (hya : y ≠ a) (hya' : y ≠ a + 1)
    (hy : y ∉ m.indices) (ha : a ∉ m.indices) (ha' : a + 1 ∉ m.indices) :
    Holds (growNodes t y a b num) q m ∧ Slots (growNodes t y a b num) d m := by
  have hkeep : ∀ j ∈ m.indices, nodeAt (growNodes t y a b num) j = nodeAt t j := by
    intro j hj
    have hja : j ≠ a := fun he => ha (he ▸ hj)
    have hja' : j ≠ a + 1 := fun he => ha' (he ▸ hj)
    exact (growNodes_keeps hya hya' hja hja').2.2 fun he => hy (he ▸ hj)
  exact ⟨hm.congr hkeep, hs.congr (fun j hj => by rw [hkeep j hj]) fun j hj => by rw [hkeep j (List.mem_of_mem_tail hj)]⟩

/-- The node above the subtree in which `Grow` works, from the arena `t` to `u`: its own entry, and the weights and numbers of its
children, stay. -/
structure Above (t u : Table Node) (i : Nat) (l r : Tree) : Prop where
  root : nodeAt u i = nodeAt t i
  left : (nodeAt u l.idx).w = (nodeAt t l.idx).w ∧ (nodeAt u l.idx).num = (nodeAt t l.idx).num
  right : (nodeAt u r.idx).w = (nodeAt t r.idx).w ∧ (nodeAt u r.idx).num = (nodeAt t r.idx).num

theorem growNodes_above {i : Nat} {l r : Tree} (hya : y ≠ a) (hya' : y ≠ a + 1) (hiy : i ≠ y) (ha : a ∉ (Tree.node i l r).indices)
    (ha' : a + 1 ∉ (Tree.node i l r).indices) : Above t (growNodes t y a b num) i l r := by
  have hkeep : ∀ j ∈ (Tree.node i l r).indices, (nodeAt (growNodes t y a b num) j).w = (nodeAt t j).w
      ∧ (nodeAt (growNodes t y a b num) j).num = (nodeAt t j).num ∧ (j ≠ y → nodeAt (growNodes t y a b num) j = nodeAt t j) :=
    fun j hj => growNodes_keeps hya hya' (fun he => ha (he ▸ hj)) fun he => ha' (he ▸ hj)
  obtain ⟨hwl, hnl, -⟩ := hkeep l.idx (List.mem_cons_of_mem _ (List.mem_append_left _ l.idx_mem_indices))
  obtain ⟨hwr, hnr, -⟩ := hkeep r.idx (List.mem_cons_of_mem _ (List.mem_append_right _ r.idx_mem_indices))
  exact ⟨(hkeep i List.mem_cons_self).2.2 hiy, ⟨hwl, hnl⟩, hwr, hnr⟩

section
variable {u : Table Node} {p : Option Nat} {d i : Nat} {l r l' r' : Tree}

/-- R239, R247: `Grow` in the left subtree. -/
theorem grown_left (h : Grown u (some i) (d + 1) y a b l l') (hheld : Holds t p (.node i l r)) (hs : Slots t d (.node i l r))
    (hab : Above t u i l r) (hr : Holds u (some i) r) (hsr : Slots u (d + 1) r) (hsym : r.IsSymbolLeaf = true) (hy : y ∉ r.indices) :
    Grown u p d y a b (.node i l r) (.node i l' r) := by
  obtain ⟨hi, ⟨hwl, hnl⟩, hwr, hnr⟩ := hab
  obtain ⟨hk, hz, hleft, hright, hp, -, -⟩ := hheld
  obtain ⟨⟨hsum, -, -⟩, ⟨hle, -, -⟩, hnr0, hnl0, -, -⟩ := hs
  refine ⟨rfl, ?_, ?_, ⟨⟨?_, h.slots.weighted, hsr.weighted⟩, ⟨?_, h.slots.rising, hsr.rising⟩, ?_, ?_, h.slots.numbered, hsr.numbered⟩,
    fun j s => ?_, .inl ⟨h.chain, hsym⟩, _, _, _, rfl⟩
  · exact ⟨by rw [hi, hk], by rw [hi, hz], by rw [hi, hleft, h.idx], by rw [hi, hright], by rw [hi, hp], h.held, hr⟩
  · exact ((h.indices.append_right _).cons i).trans ((List.perm_append_comm (l₁ := [i]) (l₂ := [a, a + 1])).append_right _)
  · rw [hi, h.idx, hwl, hwr, hsum]
  · rw [h.idx, hwl, hwr]
    exact hle
  · rw [hnr, hnr0]
  · rw [h.idx, hnl, hnl0]
  · have hne : r.HasLeaf j s → j ≠ y := fun hj he => hy (he ▸ Tree.mem_of_hasLeaf hj)
    rw [Tree.HasLeaf, Tree.HasLeaf, h.leaves]
    constructor
    · rintro ((⟨hj, hjy⟩ | hnew) | hj)
      · exact .inl ⟨.inl hj, hjy⟩
      · exact .inr hnew
      · exact .inl ⟨.inr hj, hne hj⟩
    · rintro (⟨hj | hj, hjy⟩ | hnew)
      · exact .inl (.inl ⟨hj, hjy⟩)
      · exact .inr hj
      · exact .inl (.inr hnew)

/-- R239, R247: `Grow` in the right subtree. -/
theorem grown_right (h : Grown u (some i) (d + 1) y a b r r') (hheld : Holds t p (.node i l r)) (hs : Slots t d (.node i l r))
    (hab : Above t u i l r) (hl : Holds u (some i) l) (hsl : Slots u (d + 1) l) (hsym : l.IsSymbolLeaf = true) (hy : y ∉ l.indices) :
    Grown u p d y a b (.node i l r) (.node i l r') := by
  obtain ⟨hi, ⟨hwl, hnl⟩, hwr, hnr⟩ := hab
  obtain ⟨hk, hz, hleft, hright, hp, -, -⟩ := hheld
  obtain ⟨⟨hsum, -, -⟩, ⟨hle, -, -⟩, hnr0, hnl0, -, -⟩ := hs
  refine ⟨rfl, ?_, ?_, ⟨⟨?_, hsl.weighted, h.slots.weighted⟩, ⟨?_, hsl.rising, h.slots.rising⟩, ?_, ?_, hsl.numbered, h.slots.numbered⟩,
    fun j s => ?_, .inr ⟨hsym, h.chain, h.node⟩, _, _, _, rfl⟩
  · exact ⟨by rw [hi, hk], by rw [hi, hz], by rw [hi, hleft], by rw [hi, hright, h.idx], by rw [hi, hp], hl, h.held⟩
  · refine ((h.indices.append_left l.indices).cons i).trans ?_
    have hcomm := (List.perm_append_comm (l₁ := i :: l.indices) (l₂ := [a, a + 1])).append_right r.indices
    rw [List.append_assoc, List.append_assoc] at hcomm
    exact hcomm
  · rw [hi, h.idx, hwl, hwr, hsum]
  · rw [h.idx, hwl, hwr]
    exact hle
  · rw [h.idx, hnr, hnr0]
  · rw [hnl, hnl0]
  · have hne : l.HasLeaf j s → j ≠ y := fun hj he => hy (he ▸ Tree.mem_of_hasLeaf hj)
    rw [Tree.HasLeaf, Tree.HasLeaf, h.leaves]
    constructor
    · rintro (hj | ⟨hj, hjy⟩ | hnew)
      · exact .inl ⟨.inl hj, hne hj⟩
      · exact .inl ⟨.inr hj, hjy⟩
      · exact .inr hnew
    · rintro (⟨hj | hj, hjy⟩ | hnew)
      · exact .inl hj
      · exact .inr (.inl ⟨hj, hjy⟩)
      · exact .inr (.inr hnew)

end

/-- R238, R239, R247: `Grow` under the NYT leaf of a chain. -/
theorem growNodes_grown {p : Option Nat} {d : Nat} {T : Tree} (hheld : Holds t p T) (hd : T.indices.Nodup) (hs : Slots t d T)
    (hchain : T.IsChain) (hleaf : T.HasLeaf y Config.nytMark) (hw : (nodeAt t y).w = 0) (ha : a ∉ T.indices) (ha' : a + 1 ∉ T.indices)
    (hnum : num.toNat + 2 * (d + T.leafCount) = 513) : ∃ T', Grown (growNodes t y a b num) p d y a b T T' := by
  have hymem := Tree.mem_of_hasLeaf hleaf
  have hya : y ≠ a := fun he => ha (he ▸ hymem)
  have hya' : y ≠ a + 1 := fun he => ha' (he ▸ hymem)
  clear hymem
  induction T generalizing p d with
  | leaf i s =>
    obtain ⟨rfl, rfl⟩ := hleaf
    rw [Tree.leafCount_leaf] at hnum
    exact ⟨_, grown_leaf hheld hw hya hya' (by omega)⟩
  | node i l r ihl ihr =>
    have hap := apart_of_nodup hd
    have hiy : i ≠ y := by
      rintro rfl
      exact hleaf.elim (fun h => hap.child (Tree.mem_of_hasLeaf h)) fun h => hap.sibling (Tree.mem_of_hasLeaf h)
    have hab : Above t (growNodes t y a b num) i l r := growNodes_above hya hya' hiy ha ha'
    rw [Tree.indices, List.mem_cons, List.mem_append, not_or, not_or] at ha ha'
    obtain ⟨-, -, -, -, -, hl, hr⟩ := id hheld
    obtain ⟨⟨-, hwl, hwr⟩, ⟨-, hrl, hrr⟩, -, -, hnl, hnr⟩ := id hs
    rw [Tree.leafCount_node] at hnum
    rcases hchain with ⟨hc, hsym⟩ | ⟨hsym, hc, -⟩
    · have hyl : l.HasLeaf y Config.nytMark := hleaf.resolve_right (Tree.not_hasLeaf_nyt hsym y)
      have hyr : y ∉ r.indices := hap.disjoint y (Tree.mem_of_hasLeaf hyl)
      have hone : r.leafCount = 1 := Tree.leafCount_of_isSymbolLeaf hsym
      obtain ⟨l', hL⟩ := ihl hl hap.childNodup ⟨hwl, hrl, hnl⟩ hc hyl ha.2.1 ha'.2.1 (by omega)
      obtain ⟨hr', hsr⟩ := growNodes_unchanged hr ⟨hwr, hrr, hnr⟩ hya hya' hyr ha.2.2 ha'.2.2
      exact ⟨_, grown_left hL hheld hs hab hr' hsr hsym hyr⟩
    · have hyr : r.HasLeaf y Config.nytMark := hleaf.resolve_left (Tree.not_hasLeaf_nyt hsym y)
      have hyl : y ∉ l.indices := hap.symm.disjoint y (Tree.mem_of_hasLeaf hyr)
      have hone : l.leafCount = 1 := Tree.leafCount_of_isSymbolLeaf hsym
      obtain ⟨r', hR⟩ := ihr hr hap.siblingNodup ⟨hwr, hrr, hnr⟩ hc hyr ha.2.2 ha'.2.2 (by omega)
      obtain ⟨hl', hsl⟩ := growNodes_unchanged hl ⟨hwl, hrl, hnl⟩ hya hya' hyl ha.2.1 ha'.2.1
      exact ⟨_, grown_right hR hheld hs hab hl' hsl hsym hyl⟩

end

/-- R40: the entry of a symbol after `Grow`. -/
theorem growAt_mapOf (y : Nat) (b c : Byte) (s : State) :
    (growAt y b s).mapOf c = if c = b then some (s.nodeCnt + 1) else s.mapOf c := by
  unfold State.mapOf
  rw [growAt_map, Table.get_set]
  by_cases h : c = b
  · simp [h]
  · have : c.toNat ≠ b.toNat := fun hn => h (BitVec.eq_of_toNat_eq hn)
    simp [h, this]

theorem setWidth_nine_injective {b c : Byte} (h : b.setWidth 9 = c.setWidth 9) : b = c := by
  have hb := b.isLt
  have hc := c.isLt
  have := congrArg BitVec.toNat h
  apply BitVec.eq_of_toNat_eq
  simp at this
  omega

/-- R238: the next number to give after `AH_S` growths. -/
theorem ahNextnum_sub {k : Nat} (h : k ≤ 255) :
    (Config.numRoot - 1#10 - BitVec.ofNat 10 (2 * k)).toNat + 2 * (0 + (k + 1)) = 513 := by
  have hk : (BitVec.ofNat 10 (2 * k)).toNat = 2 * k := by
    rw [BitVec.toNat_ofNat]
    omega
  have h511 : Config.numRoot - 1#10 = 511#10 := rfl
  rw [h511, BitVec.toNat_sub_of_le (by rw [BitVec.le_def, hk]; simp; omega), hk]
  simp
  omega

/-- R238, R239: `Grow` for a symbol without a leaf leaves an adaptive tree with a leaf of it. -/
theorem AdaptiveAt.grow {s : State} {T : Tree} (h : AdaptiveAt s T) {b : Byte} {y : Nat} (hb : s.mapOf b = none) (hy : s.ahNyt = some y) :
    ∃ T', AdaptiveAt (growAt y b s) T' := by
  have hS := h.ahS_lt hb
  have hcount := h.leafCount
  have hslots := h.slots
  obtain ⟨htree, ⟨y', hy', hleaf, hyw⟩, hchain, hmap, hcnt, hnext, -, -, -, hroot, -⟩ := h
  obtain rfl : y' = y := Option.some.inj (hy'.symm.trans hy)
  have hfresh : ∀ j, s.nodeCnt ≤ j → j ∉ T.indices := fun j hj hm => Nat.not_lt_of_le hj (htree.mem_indices.mp hm)
  obtain ⟨T', hT⟩ := growNodes_grown (a := s.nodeCnt) (b := b) (num := s.ahNextnum) htree.2.1 htree.nodup hslots hchain hleaf hyw
    (hfresh _ (Nat.le_refl _)) (hfresh _ (Nat.le_succ _)) (by rw [hnext, hcount]; exact ahNextnum_sub (by omega))
  have hynt := htree.mem_indices.mp (Tree.mem_of_hasLeaf hleaf)
  have hat := nodeAt_growNodes s.arena b s.ahNextnum (Nat.ne_of_lt hynt) (Nat.ne_of_lt (Nat.lt_succ_of_lt hynt))
  have hnum : (nodeAt (growNodes s.arena y' s.nodeCnt b s.ahNextnum) T'.idx).num = Config.numRoot := by
    have hidx := htree.mem_indices.mp T.idx_mem_indices
    rw [hT.idx, (growNodes_keeps (Nat.ne_of_lt hynt) (Nat.ne_of_lt (Nat.lt_succ_of_lt hynt)) (Nat.ne_of_lt hidx)
      (Nat.ne_of_lt (Nat.lt_succ_of_lt hidx))).2.1]
    exact hroot
  refine ⟨T', ⟨?_, hT.held, ?_, fun i hi => ?_⟩, ⟨s.nodeCnt, rfl, (hT.leaves _ _).mpr (.inr (.inl ⟨rfl, rfl⟩)), ?_⟩, hT.chain,
    fun c i => ?_, ?_, ?_, hS, hT.slots.weighted, hT.slots.ordered ?_, hnum, hT.slots.numbered⟩
  · rw [hT.idx]
    exact htree.1
  · change T'.indices.Perm (List.range (s.nodeCnt + 2))
    refine hT.indices.trans (((htree.2.2.1.cons _).cons _).trans ?_)
    rw [List.range_succ, List.range_succ, List.append_assoc]
    exact List.perm_append_comm (l₁ := [s.nodeCnt, s.nodeCnt + 1])
  · change s.nodeCnt + 2 ≤ i at hi
    change nodeAt (growNodes s.arena y' s.nodeCnt b s.ahNextnum) i = Node.reset
    rw [hat, if_neg (by omega), if_neg (by omega), if_neg (by omega)]
    exact htree.2.2.2 i (by omega)
  · change (nodeAt (growNodes s.arena y' s.nodeCnt b s.ahNextnum) s.nodeCnt).w = 0
    rw [hat, if_neg (Nat.ne_of_gt hynt), if_pos rfl]
    rfl
  · have hnyt := setWidth_ne_nytMark c
    have hold : T.HasLeaf i (c.setWidth 9) → i ≠ y' := by
      rintro hi rfl
      exact hnyt ((htree.2.1.sym_of_hasLeaf hi).symm.trans (htree.2.1.sym_of_hasLeaf hleaf))
    rw [growAt_mapOf, hT.leaves]
    by_cases hcb : c = b
    · have hno : ¬ T.HasLeaf i (b.setWidth 9) := fun hi => by
        rw [(hmap b i).mpr hi] at hb
        cases hb
      simp [hcb, hno, setWidth_ne_nytMark b, eq_comm]
    · have hne : c.setWidth 9 ≠ b.setWidth 9 := fun he => hcb (setWidth_nine_injective he)
      simp only [hcb, if_false, hmap, hnyt, hne, and_false, or_false]
      exact ⟨fun hi => ⟨hi, hold hi⟩, And.left⟩
  · rw [growAt_nodeCnt, growAt_ahS, hcnt]
    omega
  · rw [growAt_ahNextnum, growAt_ahS, hnext, Nat.mul_add, BitVec.ofNat_add]
    bv_omega
  · rw [hnum]
    decide

end Sys2Proof.Machine
end

section
namespace Sys2Proof.Machine

/-! ## The tree side of the invariant, adaptive trees -/

/-- `Sound`, in ADAPTIVE mode. -/
structure SoundAdaptive (strict : Prop) (u : State) : Prop extends Sound strict u where
  mode : u.tmode = .adaptive

/-- `SoundAdaptive`, with a leaf of the symbol `b`. -/
structure Knows (strict : Prop) (b : Byte) (u : State) : Prop extends SoundAdaptive strict u where
  leaf : strict → u.mapOf b ≠ none

/-- What `TreeInv` says in ADAPTIVE mode. -/
theorem treeInv_iff_adaptive {u : State} (hm : u.tmode = .adaptive) : TreeInv u ↔ ∃ T, AdaptiveAt u T := by
  unfold TreeInv
  rw [hm]

/-- R237: an entry of the tree has a path. -/
theorem Tree.exists_pathTo {T : Tree} {n : Nat} (h : n ∈ T.indices) : ∃ q, T.pathTo n = some q := by
  induction T with
  | leaf i x => exact ⟨[], if_pos (List.mem_singleton.mp h).symm⟩
  | node i l r ihl ihr =>
    rw [Tree.pathTo]
    split
    · exact ⟨_, rfl⟩
    · next hne =>
      rw [Tree.indices, List.mem_cons, List.mem_append] at h
      split
      · exact ⟨_, rfl⟩
      · next hl =>
        have hr : n ∈ r.indices := (h.resolve_left (Ne.symm hne)).resolve_left fun hm => by
          obtain ⟨q, hq⟩ := ihl hm
          rw [hl] at hq
          cases hq
        obtain ⟨q, hq⟩ := ihr hr
        exact ⟨true :: q, by rw [hq]; rfl⟩

/-- R237: a path is shorter than the number of leaves. -/
theorem Tree.length_pathTo_lt {T : Tree} {n : Nat} {q : Bits} (h : T.pathTo n = some q) : q.length < T.leafCount := by
  induction T generalizing q with
  | leaf i x =>
    rw [Tree.pathTo] at h
    split at h
    · cases h
      exact Tree.leafCount_pos _
    · cases h
  | node i l r ihl ihr =>
    have hl := l.leafCount_pos
    have hr := r.leafCount_pos
    rw [Tree.leafCount_node]
    rw [Tree.pathTo] at h
    split at h
    · cases h
      exact Nat.add_pos_left hl _
    · split at h
      · next p hp =>
        cases h
        have := ihl hp
        rw [List.length_cons]
        omega
      · obtain ⟨p, hp, rfl⟩ := Option.map_eq_some_iff.mp h
        have := ihr hp
        rw [List.length_cons]
        omega

/-- R247: the leaves of a chain are the NYT leaf and symbols' leaves. -/
theorem Tree.IsChain.sym_of_hasLeaf {T : Tree} (h : T.IsChain) {i : Nat} {x : BitVec 9} (hl : T.HasLeaf i x) :
    x = Config.nytMark ∨ ∃ c : Byte, x = c.setWidth 9 := by
  have hsymbol : ∀ {U : Tree}, U.IsSymbolLeaf = true → U.HasLeaf i x → ∃ c : Byte, x = c.setWidth 9 := by
    intro U hU hx
    obtain ⟨j, c, rfl⟩ := Tree.eq_leaf_of_isSymbolLeaf hU
    exact ⟨c, hx.2.symm⟩
  induction T with
  | leaf j s => exact .inl (hl.2.symm.trans h)
  | node j l r ihl ihr =>
    rcases h with ⟨hc, hsym⟩ | ⟨hsym, hc, -⟩
    · exact hl.elim (ihl hc) fun hx => .inr (hsymbol hsym hx)
    · exact hl.elim (fun hx => .inr (hsymbol hsym hx)) (ihr hc)

/-- R235, R241: the tree of one NYT leaf. -/
theorem adaptiveAt_ahInitTree (s : State) : AdaptiveAt (ahInitTree s) (.leaf 0 Config.nytMark) := by
  have hnode : ∀ i, (ahInitTree s).node i = if i = 0 then adaptiveLeaf Config.nytMark none Config.numRoot else Node.reset :=
    fun i => nodeAt_setNode [] 0 i (adaptiveLeaf Config.nytMark none Config.numRoot)
  have hroot := hnode 0
  refine ⟨⟨rfl, ⟨?_, ?_, ?_, ?_, ?_⟩, .refl _, fun i hi => ?_⟩, ⟨0, rfl, ⟨rfl, rfl⟩, ?_⟩, rfl, fun b i => ?_, rfl, rfl, Nat.zero_le _,
    trivial, trivial, ?_, trivial⟩
  · exact congrArg Node.kind hroot
  · exact congrArg Node.sym hroot
  · exact congrArg Node.left hroot
  · exact congrArg Node.right hroot
  · exact congrArg Node.parent hroot
  · rw [hnode, if_neg (Nat.ne_of_gt hi)]
  · exact congrArg Node.w hroot
  · exact ⟨nofun, fun h => absurd h.2.symm (setWidth_ne_nytMark b)⟩
  · exact congrArg Node.num hroot

section
variable {strict : Prop} {X : State → Prop} {s t : State}

theorem SoundAdaptive.adaptiveAt (h : SoundAdaptive strict (treePart s)) (hs : strict) : ∃ T, AdaptiveAt s T :=
  (treeInv_iff_adaptive h.mode).mp (h.tree hs)

theorem Ends.ofAdaptive {α : Type} {r : EStateM.Result Stop State α}
    (h : Ends (fun _ => Running (SoundAdaptive strict)) (Stops strict (SoundAdaptive strict)) r) :
    Ends (fun _ => Running (Sound strict)) (Stops strict (Sound strict)) r :=
  h.mono (fun _ _ _ ht => ht.imp fun _ hu => hu.toSound) fun _ _ he => he.imp fun _ hu => hu.toSound

theorem Running.ahInitTree (h : Running (Sound strict) s) : Running (SoundAdaptive strict) (ahInitTree s) :=
  ⟨{ h.live with }, ⟨nofun, h.part.flat, fun _ => (treeInv_iff_adaptive rfl).mpr ⟨_, adaptiveAt_ahInitTree s⟩⟩, rfl⟩

theorem Stops.ofKnows {e : Stop} {b : Byte} (h : Stops strict (Knows strict b) e t) : Stops strict (SoundAdaptive strict) e t :=
  h.imp fun _ hu => hu.toSoundAdaptive

/-- What keeps the whole tree side keeps whatever is known of it. -/
theorem ends_pinned {α : Type} {c : Cmd α} (h : Running X s)
    (hc : Ends (fun _ => Running (· = treePart s)) (Stops strict (· = treePart s)) (c s)) :
    Ends (fun _ t => Running X t ∧ treePart t = treePart s) (Stops strict X) (c s) :=
  hc.mono (fun _ _ _ ht => ⟨⟨ht.live, ht.part ▸ h.part⟩, ht.part⟩) fun _ _ he => he.imp fun _ hu => hu ▸ h.part

theorem Running.pin (h : Running X s) : Running (· = treePart s) s := ⟨h.live, rfl⟩

/-! ### Paths, growth and `Update` -/

/-- R237: the path of a leaf of the adaptive tree. -/
theorem ends_path {n : Nat} (hn : strict → ∃ T x, AdaptiveAt s T ∧ T.HasLeaf n x) :
    Ends (fun _ t => t = s) (Stops strict X) (path n s) := by
  by_cases hs : strict
  · obtain ⟨T, x, hT, hleaf⟩ := hn hs
    obtain ⟨q, hq⟩ := Tree.exists_pathTo (Tree.mem_of_hasLeaf hleaf)
    have hlen := (Tree.length_pathTo_lt hq).trans_le hT.leafCount_le
    exact ends_of_ok (path_good hT.1 hq (hlen.trans (by decide))) rfl
  · exact ends_get (ends_fromTree (fun _ => hs) fun _ _ => rfl)

/-- R40: a symbol's entry in `MAP` is its leaf. -/
theorem SoundAdaptive.hasLeaf {b : Byte} {n : Nat} (h : SoundAdaptive strict (treePart s)) (hb : s.mapOf b = some n) (hs : strict) :
    ∃ T x, AdaptiveAt s T ∧ T.HasLeaf n x := by
  obtain ⟨T, hT⟩ := h.adaptiveAt hs
  have hleaf := hT
  obtain ⟨-, -, -, hmap, -⟩ := hleaf
  exact ⟨T, _, hT, (hmap b n).mp hb⟩

/-- R232: there is an NYT leaf. -/
theorem SoundAdaptive.ahNyt (h : SoundAdaptive strict (treePart s)) (hs : strict) :
    ∃ T y, AdaptiveAt s T ∧ s.ahNyt = some y ∧ T.HasLeaf y Config.nytMark := by
  obtain ⟨T, hT⟩ := h.adaptiveAt hs
  have hnyt := hT
  obtain ⟨-, ⟨y, hy, hleaf, -⟩, -⟩ := hnyt
  exact ⟨T, y, hT, hy, hleaf⟩

/-- `fromTree` of `AH_NYT`. -/
theorem ends_ahNyt (h : SoundAdaptive strict (treePart s)) :
    Ends (fun y t => t = s ∧ s.ahNyt = some y) (Stops strict X) ((fromTree s.ahNyt : Cmd Nat) s) := by
  refine ends_fromTree (fun hnone hs => ?_) fun y hy => ⟨rfl, hy⟩
  obtain ⟨T, y, -, hy, -⟩ := h.ahNyt hs
  cases hy.symm.trans hnone

/-- R238: `Grow` for a symbol without a leaf. -/
theorem ends_grow {b : Byte} (h : Running (SoundAdaptive strict) s) (hb : strict → s.mapOf b = none) :
    Ends (fun _ => Running (Knows strict b)) (Stops strict (SoundAdaptive strict)) (grow b s) := by
  refine ends_get (ends_bind (ends_ahNyt h.part) fun y t _ ht => ?_)
  obtain ⟨rfl, hy⟩ := ht
  have hmode : (growAt y b t).tmode = .adaptive := h.part.mode
  refine ⟨{ h.live with }, ⟨⟨h.part.codes, h.part.flat, fun hs => ?_⟩, hmode⟩, fun _ hnone => ?_⟩
  · obtain ⟨T, hT⟩ := h.part.adaptiveAt hs
    exact (treeInv_iff_adaptive (u := treePart (growAt y b t)) hmode).mpr (hT.grow (hb hs) hy)
  · have hmap := growAt_mapOf y b b t
    rw [if_pos rfl] at hmap
    cases hmap.symm.trans hnone

/-- R244: `Update` of a symbol that has a leaf. -/
theorem ends_updateSymbol {b : Byte} (h : Running (Knows strict b) s) :
    Ends (fun _ => Running (SoundAdaptive strict)) (Stops strict (SoundAdaptive strict)) (updateSymbol b s) := by
  refine ends_get (ends_bind (Q := fun n t => t = s ∧ s.mapOf b = some n)
    (ends_fromTree (fun hnone hs => h.part.leaf hs hnone) fun n hn => ⟨rfl, hn⟩) fun n t _ ht => ?_)
  obtain ⟨rfl, hn⟩ := ht
  have hupdate : strict → ∃ u T', updateUp Config.arenaSize n t.arena = some u ∧ AdaptiveAt { t with arena := u } T' := by
    intro hs
    obtain ⟨T, hT⟩ := h.part.adaptiveAt hs
    exact hT.update hn
  refine ends_bind (Q := fun u v => v = t ∧ updateUp Config.arenaSize n t.arena = some u)
    (ends_fromTree (fun hnone hs => ?_) fun u hu => ⟨rfl, hu⟩) fun u v _ hv => ?_
  · obtain ⟨u, T', hu, -⟩ := hupdate hs
    cases hu.symm.trans hnone
  · obtain ⟨rfl, hu⟩ := hv
    have hmode : (treePart { v with arena := u }).tmode = .adaptive := h.part.mode
    refine ⟨{ h.live with }, ⟨h.part.codes, h.part.flat, fun hs => (treeInv_iff_adaptive hmode).mpr ?_⟩, hmode⟩
    obtain ⟨u', T', hu', hT'⟩ := hupdate hs
    obtain rfl : u' = u := Option.some.inj (hu'.symm.trans hu)
    exact ⟨T', hT'⟩

/-- R238, R244: the two steps of the model for a new symbol. -/
theorem ends_growUpdate {b : Byte} {α : Type} (a : α) (h : Running (SoundAdaptive strict) s) (hb : strict → s.mapOf b = none) :
    Ends (fun _ => Running (SoundAdaptive strict)) (Stops strict (SoundAdaptive strict))
      ((do grow b; updateSymbol b; pure a) s) :=
  ends_bind (ends_grow h hb) fun _ _ _ ht => ends_bind (ends_updateSymbol ht) fun _ _ _ => id

/-! ### `AhEncSym` and `AhDecSym` -/

theorem Running.knows {b : Byte} {n : Nat} (h : Running (SoundAdaptive strict) s) (hb : s.mapOf b = some n) : Running (Knows strict b) s :=
  ⟨h.live, h.part, fun _ hnone => by cases hb.symm.trans hnone⟩

theorem mapOf_of_treePart (b : Byte) (h : treePart t = treePart s) : t.mapOf b = s.mapOf b := congrArg (fun u => u.mapOf b) h

theorem ends_ahEncSym (b : Byte) (h : Running (SoundAdaptive strict) s) :
    Ends (fun _ => Running (SoundAdaptive strict)) (Stops strict (SoundAdaptive strict)) (ahEncSym b s) := by
  rw [ahEncSym]
  refine ends_get ?_
  cases hn : s.mapOf b with
  | some n =>
    refine ends_bind (ends_path (h.part.hasLeaf hn)) fun p t _ ht => ?_
    obtain rfl := ht
    refine ends_bind ((ends_emitBits p (h.knows hn)).mono (fun _ _ _ => id) fun _ _ => Stops.ofKnows) fun _ u _ hu => ?_
    exact ends_bind (ends_updateSymbol hu) fun _ _ _ => id
  | none =>
    refine ends_bind (ends_ahNyt h.part) fun y t _ ht => ?_
    obtain ⟨rfl, hy⟩ := ht
    refine ends_bind (ends_path fun hs => ?_) fun p u _ hu => ?_
    · obtain ⟨T, y', hT, hy', hleaf⟩ := h.part.ahNyt hs
      obtain rfl : y' = y := Option.some.inj (hy'.symm.trans hy)
      exact ⟨T, _, hT, hleaf⟩
    · obtain rfl := hu
      refine ends_bind (ends_pinned h (ends_emitBits p h.pin)) fun _ v _ hv => ?_
      refine ends_bind (ends_pinned hv.1 (ends_writeBits _ _ hv.1.pin)) fun _ w _ hw => ?_
      exact ends_growUpdate _ hw.1 fun _ => (mapOf_of_treePart b (hw.2.trans hv.2)).trans hn

/-- R250: each round of the descent reads a bit, so the count is not used up; below an internal node of the tree there is a child for
each bit. `L` is what is known of the leaves of the tree. -/
theorem ends_descend {L : Nat → Prop} {k n : Nat} (h : Running X s)
    (hn : strict → remaining s < k ∧ ∃ p U, Holds s.arena p U ∧ U.idx = n ∧ ∀ m x, U.HasLeaf m x → L m) :
    Ends (fun m t => (Running X t ∧ treePart t = treePart s) ∧ (strict → L m)) (Stops strict X) (descend k n s) := by
  induction k generalizing n s with
  | zero => exact fun hs => absurd (hn hs).1 (Nat.not_lt_zero _)
  | succ k ih =>
    refine ends_get (ends_ite (fun hkind => ends_bind (ends_readBit h) fun bit t _ ht => ?_) fun hkind => ⟨⟨h, rfl⟩, fun hs => ?_⟩)
    · obtain ⟨ht, hpart, hrem⟩ := ht
      have harena : t.arena = s.arena := congrArg (fun u => u.arena) hpart
      have hchild : strict → ∃ q V, childOf (s.node n) bit = some (Tree.idx V) ∧ Holds s.arena q V
          ∧ ∀ m x, V.HasLeaf m x → L m := by
        intro hs
        obtain ⟨-, p, U, hU, rfl, hL⟩ := hn hs
        cases U with
        | leaf i x => exact absurd (hU.1.symm.trans hkind) (by decide)
        | node i l r =>
          refine ⟨some i, _, childOf_holds hU bit, ?_⟩
          obtain ⟨-, -, -, -, -, hl, hr⟩ := hU
          cases bit
          · exact ⟨hl, fun m x hm => hL m x (.inl hm)⟩
          · exact ⟨hr, fun m x hm => hL m x (.inr hm)⟩
      refine ends_bind (Q := fun m u => u = t ∧ childOf (s.node n) bit = some m)
        (ends_fromTree (fun hnone hs => ?_) fun m hm => ⟨rfl, hm⟩) fun m u _ hm => ?_
      · obtain ⟨q, V, hV, -⟩ := hchild hs
        cases hV.symm.trans hnone
      · obtain ⟨rfl, hm⟩ := hm
        refine (ih ht fun hs => ?_).imp fun _ v _ hv => ⟨⟨hv.1.1, hv.1.2.trans hpart⟩, hv.2⟩
        obtain ⟨q, V, hV, hold, hL⟩ := hchild hs
        have := (hn hs).1
        exact ⟨by omega, q, V, harena ▸ hold, Option.some.inj (hV.symm.trans hm), hL⟩
    · obtain ⟨-, p, U, hU, rfl, hL⟩ := hn hs
      cases U with
      | leaf i x => exact hL i x ⟨rfl, rfl⟩
      | node i l r => exact absurd hU.1 hkind

theorem ends_readNewSymbol (h : Running (SoundAdaptive strict) s) :
    Ends (fun b => Running (Knows strict b)) (Stops strict (SoundAdaptive strict)) (readNewSymbol s) := by
  refine ends_bind (ends_readRaw 8 0 h) fun v t _ ht => ends_get (ends_bind (Q := fun _ u => u = t ∧ t.mapOf (BitVec.ofNat 8 v) = none)
    (ends_raiseIf ht.stopped fun hnew => ⟨rfl, not_not.mp hnew⟩) fun _ u _ hu => ?_)
  obtain ⟨rfl, hnew⟩ := hu
  exact ends_bind (ends_grow ht fun _ => hnew) fun _ _ _ => id

/-- R247: a leaf that is not the NYT leaf is the leaf of the symbol it holds. -/
theorem AdaptiveAt.mapOf_of_hasLeaf {T : Tree} {n : Nat} {x : BitVec 9} (h : AdaptiveAt s T) (hl : T.HasLeaf n x)
    (hne : (s.node n).sym ≠ Config.nytMark) : s.mapOf ((s.node n).sym.setWidth 8) = some n := by
  obtain ⟨htree, -, hchain, hmap, -⟩ := h
  obtain rfl : (s.node n).sym = x := htree.2.1.sym_of_hasLeaf hl
  obtain ⟨c, hc⟩ := (hchain.sym_of_hasLeaf hl).resolve_left hne
  have hback : (c.setWidth 9).setWidth 8 = c := by simp
  rw [hc] at hl
  rw [hc, hback]
  exact (hmap c n).mpr hl

/-- R250: the end of `AhDecSym`, the symbol known. -/
theorem ends_symbol (b : Byte) (h : Running (Knows strict b) s) :
    Ends (fun _ => Running (SoundAdaptive strict)) (Stops strict (SoundAdaptive strict))
      ((do emitByte b; updateSymbol b; pure b) s) := by
  refine ends_bind ((ends_emitByte b h).mono (fun _ _ _ => id) fun _ _ => Stops.ofKnows) fun _ w _ hw => ?_
  exact ends_bind (ends_updateSymbol hw) fun _ _ _ => id

theorem ends_ahDecSym (h : Running (SoundAdaptive strict) s) :
    Ends (fun _ => Running (SoundAdaptive strict)) (Stops strict (SoundAdaptive strict)) (ahDecSym s) := by
  refine ends_get (ends_bind (Q := fun r t => t = s ∧ s.root = some r) (ends_fromTree (fun hnone hs => ?_) fun r hr => ⟨rfl, hr⟩)
    fun r t _ ht => ?_)
  · obtain ⟨T, hT⟩ := h.part.adaptiveAt hs
    cases hT.1.1.symm.trans hnone
  · obtain ⟨rfl, hr⟩ := ht
    refine ends_bind (ends_descend (L := fun n => ∃ T x, AdaptiveAt t T ∧ T.HasLeaf n x) h fun hs => ?_) fun n u _ hu => ?_
    · obtain ⟨T, hT⟩ := h.part.adaptiveAt hs
      exact ⟨Nat.lt_succ_self _, none, T, hT.1.2.1, Option.some.inj (hT.1.1.symm.trans hr), fun m x hm => ⟨T, x, hT, hm⟩⟩
    · obtain ⟨⟨hu, hpart⟩, hleaf⟩ := hu
      refine ends_ite (fun _ => ends_bind (ends_readNewSymbol hu) fun b v _ hv => ends_symbol b hv) fun hne =>
        ends_symbol _ ⟨hu.live, hu.part, fun hs hnone => ?_⟩
      obtain ⟨T, x, hT, hm⟩ := hleaf hs
      have hmap := hT.mapOf_of_hasLeaf hm hne
      cases hmap.symm.trans ((mapOf_of_treePart _ hpart).symm.trans hnone)

theorem ends_ahUpdateSym (b : Byte) (h : Running (SoundAdaptive strict) s) :
    Ends (fun _ => Running (SoundAdaptive strict)) (Stops strict (SoundAdaptive strict)) (ahUpdateSym b s) := by
  exact ends_get (ends_ite
    (fun hnew => ends_bind (ends_grow h fun _ => hnew) fun _ _ _ ht => ends_updateSymbol ht)
    fun hknown => ends_updateSymbol ⟨h.live, h.part, fun _ => hknown⟩)

/-! ### The composites -/

/-- R251: one round of the loop. -/
theorem ends_ahArchiveByte (i : Nat) (h : Running (SoundAdaptive strict) s) :
    Ends (fun _ => Running (SoundAdaptive strict)) (Stops strict (SoundAdaptive strict)) (ahArchiveByte i s) := by
  refine ends_bind (ends_srcByte _ _ h) fun b t _ ht => ?_
  obtain ⟨rfl, -, -⟩ := ht
  exact ends_discard (ends_ahEncSym b h.use)

/-- R241: the context a composite of the AH unit starts from. -/
theorem running_ahInit (hp : s.params.wf) : Running (SoundAdaptive strict) (ahInitTree (initContext s)) :=
  Running.ahInitTree (.initContext hp (sound_initContext s))

/-- R251: `AH.ARCHIVE`'s rule. -/
theorem ends_archiveAdaptive (hp : s.params.wf) :
    Ends (fun _ => Running (SoundAdaptive strict)) (Stops strict (SoundAdaptive strict)) (archiveAdaptive s) := by
  refine ends_modify (ends_modify (ends_get (ends_bind (ends_emitByte _ (running_ahInit hp)) fun _ s1 _ h1 => ?_)))
  refine ends_bind (ends_upFrom (I := fun _ => Running (SoundAdaptive strict)) (fun j t => ends_ahArchiveByte j) h1) fun _ s2 _ h2 => ?_
  exact ends_bind (ends_finish h2) fun pad s3 _ h3 => h3.countBytes _

/-- R252: `AH.UNARCHIVE`'s rule. -/
theorem ends_unarchiveAdaptive (n : Nat) (hp : s.params.wf) :
    Ends (fun _ => Running (SoundAdaptive strict)) (Stops strict (SoundAdaptive strict)) (unarchiveAdaptive n s) := by
  have h0 : Aligned (SoundAdaptive strict) (ahInitTree (initContext s)) := ⟨running_ahInit hp, rfl⟩
  refine ends_modify (ends_modify (ends_bind (ends_takeByte _ h0) fun sig s1 _ h1 => ends_modify (ends_get ?_)))
  have h2 : Running (SoundAdaptive strict) { s1 with hdrSig := sig } := h1.1.setHeader s1.hdrIgnore sig
  refine ends_bind (Q := fun _ => Running (SoundAdaptive strict)) (ends_raiseIf h2.stopped fun _ => h2) fun _ s3 _ h3 => ?_
  refine ends_bind (ends_repeatTimes (fun t ht => ends_discard (ends_ahDecSym ht)) h3) fun _ s4 _ h4 => ?_
  exact ends_bind (ends_flushOut h4.live.toHalted h4.part) fun _ s5 _ h5 => h5.countBytes _

end

end Sys2Proof.Machine
end

section
namespace Sys2Proof.Machine

/-! ## Every step keeps the invariants -/

section
variable {strict : Prop} {s t : State}

/-- R298: the rule of an admitted command other than the context commands. -/
theorem ends_rule {i : Instr} (h : Running (Sound strict) s) (hi : Inv s) (hc : isContextCommand i = false) (ha : admitted i s = true) :
    Ends (fun _ => Running (Sound strict)) (Stops strict (Sound strict)) (ruleOf i s) := by
  have hp := hi.params
  have static : s.tmode = .static → Running (SoundStatic strict) s := fun hm => ⟨h.live, h.part, hm⟩
  have adaptive : s.tmode = .adaptive → Running (SoundAdaptive strict) s := fun hm => ⟨h.live, h.part, hm⟩
  cases i with
  | ctxInit => cases hc
  | ctxRdreg r => cases hc
  | bsWrite w v => exact ends_bind (ends_writeBits _ _ h) fun _ _ _ => id
  | bsFinish => exact ends_bind (ends_finish h) fun _ _ _ => id
  | bsRdbit => exact ends_bind (ends_readBit h) fun _ _ _ ht => ht.1
  | bsAtend ig => exact h
  | tcFlatten =>
    have hm := static (of_decide_eq_true ha)
    exact ends_bind (ends_flatten h (fun _ => h.part.storeFlat) hm.part.flattened_ne_none) fun _ _ _ => id
  | tcSerhdr ig sig =>
    have hm := static (of_decide_eq_true (Bool.and_eq_true_iff.mp ha).1)
    exact ends_bind (ends_serHdr ig sig h (fun _ => h.part.storeFlat) hm.part.flattened_ne_none) fun _ _ _ => id
  | tcDeser => exact ends_bind (ends_deser h fun _ => hi.leafCnt) fun _ _ _ ht => ht.toSound
  | fbAcc sym => exact h.accSymbol sym
  | fbScan =>
    refine ends_bind (ends_scan h) fun _ u _ hu => ends_bind (ends_checkDistinct hu.1) fun _ v _ hv => ?_
    obtain ⟨rfl, -⟩ := hv
    exact hu.1
  | fbBuild => exact ends_bind (ends_build h) fun _ _ _ ht => ht.1.toSound
  | shMkcodes =>
    have hm := static (of_decide_eq_true ha)
    have hT : strict → ∃ T, StaticTree s T ∧ True := fun hs => (hm.part.staticTree hs).imp fun _ hT => ⟨hT, trivial⟩
    exact ends_bind (ends_mkCodes (fun _ => True) hm hT) fun _ _ _ ht => ht.imp fun _ hu => hu.toSound
  | shEncsym sym =>
    have hlen := of_decide_eq_true (Bool.and_eq_true_iff.mp ha).2
    exact ends_bind (ends_encSym sym h fun _ => hlen) fun _ _ _ => id
  | shDecsym ig =>
    refine ends_bind ((ends_decSym _ (static (of_decide_eq_true ha))).mono (fun _ _ _ ht => ht.1.toSound) fun _ _ => Stops.toSound) ?_
    exact fun _ _ _ => id
  | shRdhdr => exact ends_bind (ends_rdHdr ⟨h, of_decide_eq_true ha⟩) fun _ _ _ ht => ht.toSound
  | shFixup ig => exact ends_bind (ends_fixup ig h) fun _ _ _ => id
  | shArchive => exact ends_bind (ends_archiveStatic hp) fun _ _ _ ht => ht.toSound
  | shUnarchive => exact ends_bind (ends_unarchiveStatic hp) fun _ _ _ ht => ht.toSound
  | ahInit => exact h.ahInitTree.imp fun _ hu => hu.toSound
  | ahUpdate sym => exact ends_bind (ends_ahUpdateSym sym (adaptive (of_decide_eq_true ha))).ofAdaptive fun _ _ _ => id
  | ahEncsym sym => exact ends_bind (ends_ahEncSym sym (adaptive (of_decide_eq_true ha))).ofAdaptive fun _ _ _ => id
  | ahDecsym => exact ends_bind (ends_ahDecSym (adaptive (of_decide_eq_true ha))).ofAdaptive fun _ _ _ => id
  | ahArchive => exact ends_bind (ends_archiveAdaptive hp).ofAdaptive fun _ _ _ => id
  | ahUnarchive n => exact ends_bind (ends_unarchiveAdaptive n.toNat hp).ofAdaptive fun _ _ _ => id

/-! ### The end of a command -/

/-- The two invariants of a state between commands, the second one when `strict` holds. -/
structure Good (strict : Prop) (s : State) : Prop where
  inv : Inv s
  tree : strict → TreeInv s

theorem Good.sound (h : Good strict s) : Sound strict (treePart s) := ⟨h.inv.codes, h.inv.flat, h.tree⟩

/-- R70, R296: a context that is not faulted has room in its block buffer. -/
theorem Good.running (h : Good strict s) (hf : s.faulted = false) : Running (Sound strict) s := by
  have hspace : s.obuf.length < s.params.blockSize := h.inv.obuf.resolve_right fun ⟨hfault, _⟩ => by cases hf.symm.trans hfault
  exact ⟨{ h.inv with room := Nat.le_of_lt hspace, space := hspace }, h.sound⟩

/-- R91: a rule that came to its end. -/
theorem good_finishOk (hs : Steady s) (h : Running (Sound strict) s) (v : Word) : Good strict (finishOk v s) :=
  ⟨{ hs, h.live, h.part with obuf := .inl h.live.space }, h.part.tree⟩

/-- R70, R296: a rule that raised. -/
theorem good_takeFault (hs : Steady s) (hh : Halted s) (h : Sound strict (treePart s)) (e : ErrKind) (info : Nat) :
    Good strict (takeFault e info s) :=
  ⟨{ hs, hh, h with
      err := rfl
      obuf := (Nat.lt_or_eq_of_le hh.room).imp_right fun hfull => ⟨rfl, hfull⟩ }, h.tree⟩

/-- R297. -/
theorem Good.refuse (h : Good strict s) (st : Byte) : Good strict (refuse st s) := ⟨{ h.inv with }, h.tree⟩

/-- A command answers a state between commands; only without a well-formed tree can it be stuck. -/
def Answers (strict : Prop) : Host.Outcome State Fault Refusal → Prop
  | .next t => Good strict t
  | .fault _ => ¬ strict
  | .refused _ => False

/-- What a relation kept by every step says of the end of a run. -/
theorem Ends.and_steps {α : Type} {R : State → State → Prop} {c : Cmd α} {Q : α → State → Prop} {E : Stop → State → Prop}
    (h : Ends Q E (c s)) (hR : StepsAt R c s) : Ends (fun a t => Q a t ∧ R s t) (fun e t => E e t ∧ R s t) (c s) := by
  cases hc : c s with
  | ok a t =>
    rw [hc] at h
    exact ⟨h, hR.1 a t hc⟩
  | error e t =>
    rw [hc] at h
    exact ⟨h, hR.2 e t hc⟩

theorem answers_settle {r : EStateM.Result Stop State Word}
    (h : Ends (fun _ t => Running (Sound strict) t ∧ Steady t) (fun e t => Stops strict (Sound strict) e t ∧ Steady t) r) :
    Answers strict (settle r) := by
  cases r with
  | ok v t => exact good_finishOk h.2 h.1 v
  | error e t =>
    cases e with
    | raised e info => exact good_takeFault h.2 h.1.1 h.1.2 e info
    | stuck f => exact h.1

/-- R271, R272, R299: the context commands, in any state. -/
theorem answers_contextCommand {i : Instr} (h : Good strict s) (hc : isContextCommand i = true) : Answers strict (settle (ruleOf i s)) := by
  cases i with
  | ctxInit => exact good_finishOk (steady_initContext h.inv.steady) (.initContext h.inv.params (sound_initContext s)) _
  | ctxRdreg r => exact ⟨{ h.inv with }, h.tree⟩
  | _ => cases hc

/-- R302: the tests, and then the rule. -/
theorem answers_exec (i : Instr) (h : Good strict s) : Answers strict (exec i s) := by
  rw [exec_eq]
  cases i.wf with
  | false =>
    rw [command_illegal]
    exact h.refuse _
  | true =>
    by_cases hf : s.faulted = true → isContextCommand i = true
    · cases ha : admitted i s with
      | false =>
        rw [command_notAdmitted _ hf]
        exact h.refuse _
      | true =>
        rw [command_runs _ hf]
        cases hc : isContextCommand i with
        | true => exact answers_contextCommand h hc
        | false =>
          have hsteady := steady_closed.rule i (fun _ _ => steady_initContext) s
          have hfaulted : s.faulted = false := Bool.eq_false_iff.mpr fun hfault => by cases hc.symm.trans (hf hfault)
          refine answers_settle (((ends_rule (h.running hfaulted) h.inv hc ha).and_steps hsteady).mono ?_ ?_)
          · exact fun _ _ _ ⟨ht, hst⟩ => ⟨ht, hst h.inv.steady⟩
          · exact fun _ _ ⟨ht, hst⟩ => ⟨ht, hst h.inv.steady⟩
    · obtain ⟨hfault, hc⟩ := Classical.not_imp.mp hf
      rw [Bool.eq_false_iff.mpr hc, command_faulted _ _ hfault]
      exact h.refuse _

/-- R90, R97: the words still to come are no part of the invariants. -/
theorem Good.takeWord (h : Good strict s) (rest : List Word) : Good strict { s with cmds := rest } := ⟨{ h.inv with }, h.tree⟩

theorem answers_step (h : Good strict s) : Answers strict (step s) := by
  unfold step
  split
  · exact h
  · next c rest _ =>
    have h' := h.takeWord rest
    unfold stepWord
    split
    · next i _ => exact answers_exec i h'
    · exact h'.refuse _

end

/-- Settles O59: the port side and the tree side of the invariant are kept by every procedure (`ends_rule`), the rest by every
elementary change (`steady_closed`). A step that gets stuck answers no state. -/
theorem stepKeepsInv : Obligations.StepKeepsInv := by
  intro s t h hstep
  have hanswer := answers_step (strict := False) ⟨h, nofun⟩
  rw [hstep] at hanswer
  exact hanswer.inv

/-- Settles O60: with a well-formed tree (`strict` true) no rule of an admitted command gets stuck, and the tree it leaves is
well-formed (`ends_build`, `ends_deser`, `AdaptiveAt.grow`, `AdaptiveAt.update`). -/
theorem stepKeepsTreeAndNeverSticks : Obligations.StepKeepsTreeAndNeverSticks := by
  intro s h htree
  have hanswer := answers_step (strict := True) ⟨h, fun _ => htree⟩
  cases hstep : step s with
  | next t =>
    rw [hstep] at hanswer
    exact ⟨t, rfl, hanswer.tree trivial⟩
  | fault f =>
    rw [hstep] at hanswer
    exact absurd trivial hanswer
  | refused r =>
    rw [hstep] at hanswer
    exact hanswer.elim

end Sys2Proof.Machine
end

section
namespace Sys2Proof.Machine

/-! ## The host's side of the ports -/

/-- Settles O7: the rule of a command keeps the host's side (`rule_keepsHost`), and none of the five ways a command can end writes
it. -/
theorem hostSideIsReadOnly : Obligations.HostSideIsReadOnly := by
  intro i s t h
  rcases exec_cases h with ⟨-, rfl⟩ | ⟨-, -, -, rfl⟩ | ⟨-, -, -, rfl⟩ | ⟨-, -, -, ⟨v, u, hr, rfl⟩ | ⟨e, info, u, hr, rfl⟩⟩
  · exact ⟨rfl, rfl, rfl, 0, rfl⟩
  · exact ⟨rfl, rfl, rfl, 0, rfl⟩
  · exact ⟨rfl, rfl, rfl, 0, rfl⟩
  · obtain ⟨hparams, hsrc, hcmds, -, -, hports⟩ := (rule_keepsHost i s).1 v u hr
    exact ⟨hsrc, hparams, hcmds, hports⟩
  · obtain ⟨hparams, hsrc, hcmds, -, -, hports⟩ := (rule_keepsHost i s).2 _ u hr
    exact ⟨hsrc, hparams, hcmds, hports⟩

end Sys2Proof.Machine
end

section
namespace Sys2Proof.Machine

/-! ## One flush, done or failed -/

/-- The state after a flush whose transaction was done (R132). -/
def flushed (s : State) : State :=
  { usePort s with snk := Memory.storeBytes s.snk s.sinkPos s.obuf, sinkPos := s.sinkPos + s.obuf.length, obuf := [] }

theorem flushOut_empty {s : State} (h : s.obuf = []) : flushOut s = .ok () s := by rw [flushOut_eq, if_pos h]

theorem flushOut_done {s : State} (h : s.obuf ≠ []) (hd : s.ports.headD .done = .done) : flushOut s = .ok () (flushed s) := by
  rw [flushOut_eq, if_neg h, if_pos hd, flushed]

/-- R64: a failed transaction raises `IOError` with its offset, and nothing was stored. -/
theorem flushOut_failed {s : State} (h : s.obuf ≠ []) (hd : s.ports.headD .done ≠ .done) :
    flushOut s = .error (.raised .io s.sinkPos) (usePort s) := by
  rw [flushOut_eq, if_neg h, if_neg hd]

/-- R69: a flush moves bytes to the sink and leaves the emitted stream as it was. -/
theorem emitsBytes_flushed (s : State) : EmitsBytes s (flushed s) [] := by
  refine ⟨?_, Nat.le_add_right _ _, fun a ha => ?_⟩
  · simp only [emitted, sinkBytes, flushed, List.map_nil, List.append_nil]
    exact map_read_storeBytes s.snk s.sinkPos s.obuf
  · have hout : ¬ (s.sinkPos ≤ a ∧ a < s.sinkPos + s.obuf.length) := by
      simp only [flushed] at ha
      omega
    exact (Memory.read_storeBytes s.snk s.sinkPos a s.obuf).trans (if_neg hout)

/-- The state after a byte was put in the block buffer (R131). -/
def buffered (b : Byte) (s : State) : State := { s with obuf := s.obuf ++ [b] }

@[simp] theorem buffered_obuf (b : Byte) (s : State) : (buffered b s).obuf = s.obuf ++ [b] := rfl
@[simp] theorem buffered_params (b : Byte) (s : State) : (buffered b s).params = s.params := rfl
@[simp] theorem buffered_ports (b : Byte) (s : State) : (buffered b s).ports = s.ports := rfl
@[simp] theorem flushed_obuf (s : State) : (flushed s).obuf = [] := rfl
@[simp] theorem flushed_params (s : State) : (flushed s).params = s.params := rfl
@[simp] theorem flushed_ports (s : State) : (flushed s).ports = s.ports.drop 1 := rfl

theorem emitsBytes_buffered (b : Byte) (s : State) : EmitsBytes s (buffered b s) [b] :=
  ⟨by simp [emitted, sinkBytes, buffered], SinkGrows.refl s⟩

theorem buffered_ne_nil (b : Byte) (s : State) : (buffered b s).obuf ≠ [] :=
  List.append_ne_nil_of_right_ne_nil _ (List.cons_ne_nil b [])

theorem emitByte_room {b : Byte} {s : State} (h : s.obuf.length + 1 ≠ s.params.blockSize) : emitByte b s = .ok () (buffered b s) := by
  rw [emitByte_eq, if_neg h, buffered]

theorem emitByte_full {b : Byte} {s : State} (h : s.obuf.length + 1 = s.params.blockSize) :
    emitByte b s = flushOut (buffered b s) := by
  rw [emitByte_eq, if_pos h, buffered]

/-! ## The bytes of a write -/

/-- The whole bytes that `WriteBits` takes from an `n`-bit value, the first bits first (R133). -/
def wholeBytes (x : Nat) : Nat → Nat → List Byte
  | 0, _ => []
  | k + 1, n => BitVec.ofNat 8 (x / 2 ^ (n - 8)) :: wholeBytes x k (n - 8)

@[simp] theorem length_wholeBytes (x k n : Nat) : (wholeBytes x k n).length = k := by
  induction k generalizing n with
  | zero => rfl
  | succ k ih => simp [wholeBytes, ih]

theorem emitWhole_eq_emitBytes (x k n : Nat) : emitWhole x k n = emitBytes (wholeBytes x k n) := by
  induction k generalizing n with
  | zero => rfl
  | succ k ih => simp only [emitWhole, wholeBytes, emitBytes, ih]

theorem bitsOf_wholeBytes (x : Nat) {k n : Nat} (hn : 8 * k ≤ n) :
    bitsOf x n = unpackMsb (wholeBytes x k n) ++ bitsOf x (n - 8 * k) := by
  induction k generalizing n with
  | zero => simp [wholeBytes]
  | succ k ih =>
    obtain ⟨m, rfl⟩ : ∃ m, n = 8 + m := ⟨n - 8, by omega⟩
    have hm : 8 + m - 8 = m := by omega
    have hrest : 8 + m - 8 * (k + 1) = m - 8 * k := by omega
    simp only [wholeBytes, hm, hrest]
    rw [bitsOf_add, ih (by omega), unpackMsb_cons, BitVec.toNat_ofNat, bitsOf_mod, List.append_assoc]

/-- R12: whole bytes in front of a bit string are the first bytes of its packed form. -/
theorem packMsb_unpackMsb_append (bs : List Byte) (r : Bits) : packMsb (unpackMsb bs ++ r) = bs ++ packMsb r := by
  apply packMsb_unique
  have hpad : padCount (8 * bs.length + r.length) = padCount r.length := by
    unfold padCount
    omega
  simp [unpackMsb_packMsb, hpad]

/-- The bytes that `WriteBits` emits are the first ones of the packed form of the bits that wait and the bits written. -/
theorem take_packMsb_pending (s : State) (v w : Nat) {m : Nat} (hm : m ≤ (s.accCnt.toNat + w) / 8) :
    (packMsb (pending s ++ bitsOf v w)).take m
      = (wholeBytes (s.acc.toNat * 2 ^ w + v % 2 ^ w) ((s.accCnt.toNat + w) / 8) (s.accCnt.toNat + w)).take m := by
  rw [pending, ← bitsOf_mul_add, bitsOf_wholeBytes _ (Nat.mul_div_le _ 8), packMsb_unpackMsb_append,
    List.take_append_of_le_length (by simpa using hm)]

/-! ## A flush that fails inside a write -/

/-- From `s` the bytes `bs` were emitted and `j` blocks flushed, and then the flush of a full block failed: nothing of that block was
stored, and the rest of the answers is `rest` (R64, R131). -/
structure FailsFlush (s t : State) (j : Nat) (rest : List PortAnswer) (bs : List Byte) : Prop where
  pos : t.sinkPos = s.sinkPos + j * s.params.blockSize
  full : t.obuf.length = s.params.blockSize
  bytes : EmitsBytes s t bs
  frame : t = { s with ports := rest, obuf := t.obuf, sinkPos := t.sinkPos, snk := t.snk }

/-- A byte that does not fill the block goes before. -/
theorem FailsFlush.after_byte {s t : State} {b : Byte} {j : Nat} {rest : List PortAnswer} {bs : List Byte}
    (h : FailsFlush (buffered b s) t j rest bs) : FailsFlush s t j rest (b :: bs) where
  pos := h.pos
  full := h.full
  bytes := (emitsBytes_buffered b s).trans h.bytes
  frame := h.frame

/-- A byte that fills the block, whose flush is done, goes before. -/
theorem FailsFlush.after_block {s t : State} {b : Byte} {j : Nat} {rest : List PortAnswer} {bs : List Byte}
    (hfull : s.obuf.length + 1 = s.params.blockSize) (h : FailsFlush (flushed (buffered b s)) t j rest bs) :
    FailsFlush s t (j + 1) rest (b :: bs) where
  pos := by
    rw [h.pos]
    simp only [flushed, usePort, buffered, List.length_append, List.length_singleton, hfull]
    ring
  full := h.full
  bytes := (emitsBytes_buffered b s).trans ((emitsBytes_flushed _).trans h.bytes)
  frame := h.frame

/-- The first block is filled, and its flush fails. -/
theorem failsFlush_block {s : State} {b : Byte} {rest : List PortAnswer} (hfull : s.obuf.length + 1 = s.params.blockSize)
    (hp : s.ports = .failed :: rest) : FailsFlush s (usePort (buffered b s)) 0 rest [b] where
  pos := by simp [usePort, buffered]
  full := by simp [usePort, hfull]
  bytes := emitsBytes_buffered b s
  frame := by simp [usePort, buffered, hp]

/-- R64, R131: with `j` answers that are good and then a failed one, bytes that fill `j + 1` blocks stop at the flush of the last. -/
theorem emitBytes_failed {s : State} {j : Nat} {rest : List PortAnswer} {bs : List Byte} (hroom : s.obuf.length < s.params.blockSize)
    (hlen : (j + 1) * s.params.blockSize ≤ s.obuf.length + bs.length) (hp : s.ports = List.replicate j .done ++ .failed :: rest) :
    ∃ t, emitBytes bs s = .error (.raised .io t.sinkPos) t
      ∧ FailsFlush s t j rest (bs.take ((j + 1) * s.params.blockSize - s.obuf.length)) := by
  induction bs generalizing s j with
  | nil =>
    rw [Nat.add_mul] at hlen
    simp only [List.length_nil] at hlen
    omega
  | cons b bs ih =>
    rw [List.length_cons] at hlen
    by_cases hfull : s.obuf.length + 1 = s.params.blockSize
    · cases j with
      | zero =>
        have hfail := (emitByte_full hfull).trans (flushOut_failed (buffered_ne_nil b s) (by simp [hp]))
        have htake : (0 + 1) * s.params.blockSize - s.obuf.length = 0 + 1 := by omega
        refine ⟨usePort (buffered b s), run_bind_error _ hfail, ?_⟩
        rw [htake, List.take_succ_cons, List.take_zero]
        exact failsFlush_block hfull hp
      | succ j =>
        have hdone := (emitByte_full hfull).trans (flushOut_done (buffered_ne_nil b s) (by simp [hp, List.replicate_succ]))
        have htake : (j + 1 + 1) * s.params.blockSize - s.obuf.length = (j + 1) * s.params.blockSize + 1 := by
          rw [Nat.add_mul _ 1]
          omega
        obtain ⟨t, ht, hfails⟩ := ih (s := flushed (buffered b s)) (j := j) (by simp; omega)
          (by simp only [flushed_obuf, flushed_params, buffered_params, List.length_nil]; rw [Nat.add_mul _ 1] at hlen; omega)
          (by simp [hp, List.replicate_succ])
        refine ⟨t, (run_bind_ok _ hdone).trans ht, ?_⟩
        rw [htake, List.take_succ_cons]
        exact hfails.after_block hfull
    · have htake : (j + 1) * s.params.blockSize - s.obuf.length = (j + 1) * s.params.blockSize - (s.obuf.length + 1) + 1 := by
        rw [Nat.add_mul]
        omega
      obtain ⟨t, ht, hfails⟩ := ih (s := buffered b s) (j := j) (by simp; omega) (by simp; omega) hp
      refine ⟨t, (run_bind_ok _ (emitByte_room hfull)).trans ht, ?_⟩
      rw [htake, List.take_succ_cons]
      simpa using hfails.after_byte

/-- R133, R136: the accumulator is written after the last byte went out, so a write that fails leaves it. -/
theorem writeBits_failed {s : State} {j v w : Nat} {rest : List PortAnswer} (hroom : s.obuf.length < s.params.blockSize)
    (hlen : (j + 1) * s.params.blockSize ≤ s.obuf.length + (s.accCnt.toNat + w) / 8)
    (hp : s.ports = List.replicate j .done ++ .failed :: rest) :
    ∃ t, writeBits v w s = .error (.raised .io t.sinkPos) t
      ∧ FailsFlush s t j rest ((packMsb (pending s ++ bitsOf v w)).take ((j + 1) * s.params.blockSize - s.obuf.length)) := by
  rw [take_packMsb_pending s v w (by omega)]
  obtain ⟨t, ht, hfails⟩ := emitBytes_failed hroom
    (bs := wholeBytes (s.acc.toNat * 2 ^ w + v % 2 ^ w) ((s.accCnt.toNat + w) / 8) (s.accCnt.toNat + w))
    (by simpa using hlen) hp
  refine ⟨t, ?_, hfails⟩
  unfold writeBits
  rw [run_get_bind, emitWhole_eq_emitBytes]
  exact run_bind_error _ ht

/-- The last byte of `Finish`, if there is one (R135). -/
def lastByte (s : State) : List Byte :=
  if s.accCnt = 0#3 then [] else [BitVec.ofNat 8 (s.acc.toNat * 2 ^ padCount s.accCnt.toNat)]

/-- R135: the one flush of `Finish` fails, the one of the last byte or the one behind it. -/
theorem finish_failed {s : State} {rest : List PortAnswer} (hp : s.ports = .failed :: rest) (h : s.obuf ≠ [] ∨ s.accCnt ≠ 0#3) :
    ∃ t, finish s = .error (.raised .io s.sinkPos) t
      ∧ t = { s with ports := rest, acc := t.acc, accCnt := t.accCnt, obuf := s.obuf ++ lastByte s } := by
  have hfailed : s.ports.headD .done ≠ .done := by simp [hp]
  unfold finish lastByte
  rw [run_get_bind]
  by_cases hc : s.accCnt = 0#3
  · simp only [if_pos hc]
    have hflush := flushOut_failed (h.resolve_right (not_not_intro hc)) hfailed
    exact ⟨_, run_bind_error _ hflush, by simp [usePort, hp]⟩
  · simp only [if_neg hc, padCount_accCnt]
    generalize BitVec.ofNat 8 (s.acc.toNat * 2 ^ (8 - s.accCnt.toNat)) = b
    by_cases hfull : s.obuf.length + 1 = s.params.blockSize
    · have hbyte := (emitByte_full hfull).trans (flushOut_failed (buffered_ne_nil b s) hfailed)
      exact ⟨_, run_bind_error _ hbyte, by simp [usePort, buffered, hp]⟩
    · have hflush := flushOut_failed (s := { buffered b s with acc := 0#7, accCnt := 0#3 }) (buffered_ne_nil b s) hfailed
      refine ⟨_, (run_bind_ok _ (emitByte_room hfull)).trans ((run_modify_bind _ _ _).trans (run_bind_error _ hflush)), ?_⟩
      simp [usePort, buffered, hp]

/-- Settles O21: `BS.FINISH` has one flush (`finish_failed`); `BS.WRITE` emits whole bytes up to the block whose flush fails
(`emitBytes_failed`) and has not yet written the accumulator. -/
theorem bsFinishFailedFlush : Obligations.BsFinishFailedFlush := by
  constructor
  · intro s rest hf hp h
    obtain ⟨t, ht, hframe⟩ := finish_failed hp h
    have hrun : ruleOf .bsFinish s = .error (.raised .io s.sinkPos) t := run_bind_error _ ht
    have hcseq : t.cseq = s.cseq := by rw [hframe]
    refine ⟨_, exec_raised rfl (by simp [hf]) rfl hrun, endsFaulted_takeFault .io _ hcseq, ?_, ?_⟩
    · rw [takeFault_obuf, hframe, lastByte]
    · rw [hframe]
      rfl
  · intro s w v j rest hw1 hw32 hf hroom hlen hp
    obtain ⟨t, ht, hfails⟩ := writeBits_failed (v := v.toNat) hroom hlen hp
    have hrun : ruleOf (.bsWrite w v) s = .error (.raised .io t.sinkPos) t := run_bind_error _ ht
    have hlegal : (Instr.bsWrite w v).wf = true := by simp [Instr.wf, widthLegal, Config.widthMax, hw1, hw32]
    have hcseq : t.cseq = s.cseq := by rw [hfails.frame]
    refine ⟨_, exec_raised hlegal (by simp [hf]) rfl hrun, endsFaulted_takeFault .io _ hcseq, hfails.pos, hfails.full, hfails.bytes, ?_⟩
    rw [hfails.frame]
    rfl

end Sys2Proof.Machine
end

section
namespace Sys2Proof.Machine

/-! ## Where the rules store in the sink

`Closed` asks every relation to be kept by `fixup`, which stores at offset 0, so it cannot say that the other rules store at the append
position alone. The walk through their parts stands here, for this one relation. -/

/-- The sink is appended to at `SINK_POS` alone, and the emitted stream does not get shorter (R69, R73). -/
def Appends (s t : State) : Prop := SinkGrows s t ∧ (emitted s).length ≤ (emitted t).length

@[simp] theorem length_emitted (s : State) : (emitted s).length = s.sinkPos + s.obuf.length := by simp [emitted, sinkBytes]

theorem Appends.refl (s : State) : Appends s s := ⟨SinkGrows.refl s, Nat.le_refl _⟩

theorem Appends.trans (s t u : State) (h1 : Appends s t) (h2 : Appends t u) : Appends s u :=
  ⟨h1.1.trans h2.1, h1.2.trans h2.2⟩

/-- Bytes that are appended to the emitted stream. -/
theorem EmitsBytes.appends {s t : State} {bs : List Byte} (h : EmitsBytes s t bs) : Appends s t :=
  ⟨h.2, by rw [h.1]; simp⟩

/-- A change that leaves the sink and the block buffer alone. -/
theorem appends_of_eq {s t : State} (h : t.snk = s.snk ∧ t.sinkPos = s.sinkPos ∧ t.obuf = s.obuf) : Appends s t := by
  obtain ⟨hsnk, hpos, hobuf⟩ := h
  refine ⟨⟨hpos.ge, fun a _ => by rw [hsnk]⟩, ?_⟩
  rw [length_emitted, length_emitted, hpos, hobuf]

/-! ### The ways to build a rule -/

section
variable {α β : Type}

theorem appends_pure (a : α) : Steps Appends (pure a : Cmd α) := steps_pure Appends.refl a

theorem appends_get : Steps Appends (get : Cmd State) := steps_get Appends.refl

theorem appends_raiseIf (c : Prop) [Decidable c] (e : ErrKind) (info : Nat) : Steps Appends (raiseIf c e info) :=
  steps_raiseIf Appends.refl c e info

theorem appends_fromTree (o : Option α) : Steps Appends (fromTree o) := steps_fromTree Appends.refl o

/-- A change of other parts of the state; at most places the fields are the same by definition. -/
theorem appends_modify {f : State → State}
    (h : ∀ s, (f s).snk = s.snk ∧ (f s).sinkPos = s.sinkPos ∧ (f s).obuf = s.obuf := by exact fun _ => ⟨rfl, rfl, rfl⟩) :
    Steps Appends (modify f : Cmd PUnit) := steps_modify fun s => appends_of_eq (h s)

/-- Two parts that append, one after the other. -/
theorem Steps.seq {c : Cmd α} {f : α → Cmd β} (hc : Steps Appends c) (hf : ∀ a, Steps Appends (f a)) : Steps Appends (c >>= f) :=
  steps_bind Appends.trans hc hf

theorem appends_ite {c : Prop} [Decidable c] {x y : Cmd α} (hx : Steps Appends x) (hy : Steps Appends y) :
    Steps Appends (if c then x else y) := fun s => stepsAt_ite (fun _ => hx s) fun _ => hy s

theorem appends_upFrom {f : Nat → Cmd Unit} (hf : ∀ i, Steps Appends (f i)) (n i : Nat) : Steps Appends (upFrom f n i) :=
  steps_upFrom Appends.refl Appends.trans hf n i

/-- A rule that reads the state and then runs `c` from it. -/
theorem appends_withState {c : State → Cmd α} (hc : ∀ s, Steps Appends (c s)) : Steps Appends ((get : Cmd State) >>= c) :=
  appends_get.seq hc

end

/-! ### Output -/

theorem appends_flushOut : Steps Appends flushOut := by
  intro s
  by_cases hb : s.obuf = []
  · exact stepsAt_ok (flushOut_empty hb) (Appends.refl s)
  · by_cases hd : s.ports.headD .done = .done
    · exact stepsAt_ok (flushOut_done hb hd) (emitsBytes_flushed s).appends
    · exact stepsAt_error (flushOut_failed hb hd) (appends_of_eq ⟨rfl, rfl, rfl⟩)

theorem appends_emitByte (b : Byte) : Steps Appends (emitByte b) :=
  (steps_modify fun s => (emitsBytes_buffered b s).appends).seq fun _ => appends_withState fun _ =>
    appends_ite appends_flushOut (appends_pure _)

theorem appends_emitBytes (bs : List Byte) : Steps Appends (emitBytes bs) := by
  induction bs with
  | nil => exact appends_pure _
  | cons b bs ih => exact (appends_emitByte b).seq fun _ => ih

theorem appends_writeBits (v w : Nat) : Steps Appends (writeBits v w) :=
  appends_withState fun _ => (emitWhole_eq_emitBytes _ _ _ ▸ appends_emitBytes _).seq fun _ => appends_modify

theorem appends_emitBits (b : Bits) : Steps Appends (emitBits b) := by
  have chunks : ∀ k b, Steps Appends (emitChunks k b) := fun k => by
    induction k with
    | zero => exact fun _ => appends_pure _
    | succ k ih => exact fun b => appends_ite (appends_pure _) ((appends_writeBits _ _).seq fun _ => ih _)
  exact chunks _ b

theorem appends_finish : Steps Appends finish :=
  appends_withState fun _ => appends_ite (appends_flushOut.seq fun _ => appends_pure _)
    ((appends_emitByte _).seq fun _ => (appends_modify).seq fun _ =>
      appends_flushOut.seq fun _ => appends_pure _)

/-! ### Input -/

theorem appends_srcByte (off : Nat) (onEnd : ErrKind) : Steps Appends (srcByte off onEnd) := by
  intro s
  have husePort : Appends s (usePort s) := appends_of_eq ⟨rfl, rfl, rfl⟩
  by_cases hl : s.src.length ≤ off
  · exact stepsAt_error (srcByte_end onEnd hl) (Appends.refl s)
  · by_cases hd : s.ports.headD .done = .done
    · exact stepsAt_ok (((srcByte_eq off onEnd s).trans (if_neg hl)).trans (if_pos hd)) husePort
    · exact stepsAt_error (((srcByte_eq off onEnd s).trans (if_neg hl)).trans (if_neg hd)) husePort

theorem appends_readBit : Steps Appends readBit :=
  appends_withState fun _ => (appends_srcByte _ _).seq fun _ => (appends_modify fun s => by simp).seq fun _ => appends_pure _

theorem appends_takeByte (onEnd : ErrKind) : Steps Appends (takeByte onEnd) :=
  appends_withState fun _ => (appends_srcByte _ _).seq fun _ => (appends_modify).seq fun _ => appends_pure _

/-! ### The tree codec and the frequency builder -/

theorem appends_flatten : Steps Appends flatten :=
  appends_withState fun _ => (appends_fromTree _).seq fun _ => appends_modify

theorem appends_serHdr (ig sig : Byte) : Steps Appends (serHdr ig sig) :=
  appends_flatten.seq fun _ => appends_withState fun _ => (appends_emitBytes _).seq fun _ => appends_modify

theorem appends_build1 (k sc lc : Nat) : Steps Appends (build1 k sc lc) := by
  induction k generalizing sc lc with
  | zero => exact appends_withState fun _ => steps_raise Appends.refl _ _
  | succ k ih =>
    have put : ∀ i n, Steps Appends (modify (putNode i n) : Cmd PUnit) := fun _ _ => appends_modify
    refine appends_withState fun _ => (appends_raiseIf _ _ _).seq fun _ => (appends_modify).seq fun _ =>
      appends_ite ?_ ?_
    · exact (put _ _).seq fun _ => (ih _ _).seq fun _ => (ih _ _).seq fun _ =>
        (appends_modify).seq fun _ => appends_pure _
    · exact (appends_raiseIf _ _ _).seq fun _ => (put _ _).seq fun _ => appends_pure _

theorem appends_deser : Steps Appends deser :=
  (appends_modify).seq fun _ => appends_withState fun _ => (appends_build1 _ _ _).seq fun _ =>
    (appends_raiseIf _ _ _).seq fun _ => (appends_raiseIf _ _ _).seq fun _ => appends_withState fun _ =>
      (appends_raiseIf _ _ _).seq fun _ => appends_modify

theorem appends_scan : Steps Appends scan :=
  appends_withState fun _ => appends_upFrom (fun _ => (appends_srcByte _ _).seq fun _ => appends_modify) _ _

theorem appends_checkDistinct : Steps Appends checkDistinct := appends_withState fun _ => appends_raiseIf _ _ _

theorem appends_build : Steps Appends build :=
  appends_checkDistinct.seq fun _ => (appends_modify).seq fun _ => appends_withState fun _ =>
    (appends_fromTree _).seq fun _ => appends_modify

/-! ### The static coder -/

theorem appends_mkCodes : Steps Appends mkCodes :=
  appends_withState fun _ => (appends_fromTree _).seq fun _ => appends_modify

theorem appends_encSym (b : Byte) : Steps Appends (encSym b) :=
  appends_withState fun _ => appends_ite (steps_stick Appends.refl _) (appends_emitBits _)

theorem appends_decSym (ig : Nat) : Steps Appends (decSym ig) := by
  have loop : ∀ k n, Steps Appends (decLoop ig k n) := fun k => by
    induction k with
    | zero => exact fun _ => steps_stick Appends.refl _
    | succ k ih =>
      exact fun n => appends_withState fun _ => appends_ite (appends_pure _) (appends_readBit.seq fun _ =>
        (appends_fromTree _).seq fun m => appends_ite ((appends_emitByte _).seq fun _ => appends_pure _) (ih m))
  exact appends_withState fun _ => (appends_fromTree _).seq fun n => loop _ n

theorem appends_rdHdr : Steps Appends rdHdr := by
  refine (appends_takeByte _).seq fun _ => (appends_takeByte _).seq fun _ => (appends_modify).seq fun _ =>
    appends_withState fun _ => (appends_raiseIf _ _ _).seq fun _ => (appends_takeByte _).seq fun _ => (appends_takeByte _).seq fun _ =>
      appends_withState fun _ => (appends_raiseIf _ _ _).seq fun _ => (appends_raiseIf _ _ _).seq fun _ =>
        (appends_modify).seq fun _ => ?_
  exact (appends_upFrom (fun _ => (appends_takeByte _).seq fun _ => appends_modify) _ _).seq fun _ => (appends_modify).seq fun _ =>
    (appends_upFrom (fun _ => (appends_takeByte _).seq fun _ => appends_modify) _ _).seq fun _ =>
      (appends_modify).seq fun _ => appends_deser

theorem appends_decAll (k : Nat) : Steps Appends (decAll k) := by
  induction k with
  | zero => exact steps_stick Appends.refl _
  | succ k ih => exact appends_withState fun _ => (appends_decSym _).seq fun _ => appends_ite (appends_pure _) ih

/-! ### The adaptive coder -/

theorem appends_grow (b : Byte) : Steps Appends (grow b) :=
  appends_withState fun _ => (appends_fromTree _).seq fun _ => appends_modify

theorem appends_updateSymbol (b : Byte) : Steps Appends (updateSymbol b) :=
  appends_withState fun _ => (appends_fromTree _).seq fun _ => (appends_fromTree _).seq fun _ => appends_modify

theorem appends_path (n : Nat) : Steps Appends (path n) := appends_withState fun _ => appends_fromTree _

theorem appends_ahEncSym (b : Byte) : Steps Appends (ahEncSym b) := by
  refine appends_withState fun s => ?_
  cases s.mapOf b with
  | some n =>
    exact (appends_path n).seq fun p => (appends_emitBits p).seq fun _ => (appends_updateSymbol b).seq fun _ => appends_pure _
  | none =>
    exact (appends_fromTree _).seq fun y => (appends_path y).seq fun p => (appends_emitBits p).seq fun _ =>
      (appends_writeBits _ _).seq fun _ => (appends_grow b).seq fun _ => (appends_updateSymbol b).seq fun _ => appends_pure _

theorem appends_descend (k n : Nat) : Steps Appends (descend k n) := by
  induction k generalizing n with
  | zero => exact steps_stick Appends.refl _
  | succ k ih =>
    exact appends_withState fun _ => appends_ite (appends_readBit.seq fun _ => (appends_fromTree _).seq fun m => ih m) (appends_pure _)

theorem appends_readRaw (k v : Nat) : Steps Appends (readRaw k v) := by
  induction k generalizing v with
  | zero => exact appends_pure _
  | succ k ih => exact appends_readBit.seq fun _ => ih _

theorem appends_readNewSymbol : Steps Appends readNewSymbol :=
  (appends_readRaw _ _).seq fun _ => appends_withState fun _ => (appends_raiseIf _ _ _).seq fun _ => (appends_grow _).seq fun _ =>
    appends_pure _

theorem appends_ahDecSym : Steps Appends ahDecSym := by
  have tail : ∀ b : Byte, Steps Appends (do emitByte b; updateSymbol b; pure b) := fun b =>
    (appends_emitByte b).seq fun _ => (appends_updateSymbol b).seq fun _ => appends_pure _
  exact appends_withState fun _ => (appends_fromTree _).seq fun r => (appends_descend _ r).seq fun n =>
    appends_ite (appends_readNewSymbol.seq tail) (tail _)

theorem appends_ahUpdateSym (b : Byte) : Steps Appends (ahUpdateSym b) :=
  appends_withState fun _ => appends_ite ((appends_grow b).seq fun _ => appends_updateSymbol b) (appends_updateSymbol b)

/-! ### The fix-up of offset 0 -/

/-- At most offset 0 of the sink reads differently, and `SINK_POS` is as it was. -/
def FixesFirst (s t : State) : Prop := t.sinkPos = s.sinkPos ∧ ∀ a, a ≠ 0 → Memory.read t.snk a = Memory.read s.snk a

/-- R215, R216: everything the fix-up can do. -/
theorem fixup_eq (ig : Byte) (s : State) :
    fixup ig s = if s.ports.headD .done = .done then .ok () { usePort s with snk := Memory.storeBytes s.snk 0 [ig], hdrIgnore := ig }
      else .error (.raised .io 0) (usePort s) := by
  unfold fixup
  by_cases hd : s.ports.headD .done = .done
  · rw [if_pos hd, run_bind_ok _ ((memWrite_eq 0 [ig] s).trans (if_pos hd)), run_modify]
  · rw [if_neg hd, run_bind_error _ ((memWrite_eq 0 [ig] s).trans (if_neg hd))]

theorem FixesFirst.trans (s t u : State) (h1 : FixesFirst s t) (h2 : FixesFirst t u) : FixesFirst s u :=
  ⟨h2.1.trans h1.1, fun a ha => (h2.2 a ha).trans (h1.2 a ha)⟩

theorem fixesFirst_fixup (ig : Byte) : Steps FixesFirst (fixup ig) := by
  intro s
  by_cases hd : s.ports.headD .done = .done
  · refine stepsAt_ok ((fixup_eq ig s).trans (if_pos hd)) ⟨rfl, fun a ha => ?_⟩
    have hout : ¬ (0 ≤ a ∧ a < 0 + [ig].length) := by
      rw [List.length_singleton]
      omega
    exact (Memory.read_storeBytes s.snk 0 a [ig]).trans (if_neg hout)
  · exact stepsAt_error ((fixup_eq ig s).trans (if_neg hd)) ⟨rfl, fun _ _ => rfl⟩

/-! ### The composites -/

/-- The sink reads differently only below `SINK_POS`, which does not go back (R73). -/
def StaysBelow (s t : State) : Prop :=
  s.sinkPos ≤ t.sinkPos ∧ ∀ a, t.sinkPos ≤ a → Memory.read t.snk a = Memory.read s.snk a

theorem StaysBelow.trans (s t u : State) (h1 : StaysBelow s t) (h2 : StaysBelow t u) : StaysBelow s u :=
  ⟨h1.1.trans h2.1, fun a ha => (h2.2 a ha).trans (h1.2 a (h2.1.trans ha))⟩

theorem Appends.staysBelow {s t : State} (h : Appends s t) : StaysBelow s t := ⟨h.1.1, fun a ha => h.1.2 a (.inr ha)⟩

theorem FixesFirst.staysBelow {s t : State} (h : FixesFirst s t) (hpos : 0 < s.sinkPos) : StaysBelow s t :=
  ⟨h.1.ge, fun a ha => h.2 a (by rw [h.1] at ha; omega)⟩

theorem StepsAt.mono {α : Type} {R R' : State → State → Prop} {c : Cmd α} {s : State} (h : StepsAt R c s)
    (hr : ∀ t, R s t → R' s t) : StepsAt R' c s := ⟨fun a t ht => hr t (h.1 a t ht), fun e t ht => hr t (h.2 e t ht)⟩

theorem Steps.staysBelow {α : Type} {c : Cmd α} (h : Steps Appends c) : Steps StaysBelow c :=
  fun s => (h s).mono fun _ => Appends.staysBelow

/-- A part that appends, and then a part that stays below `SINK_POS` where the first one ended. -/
theorem Steps.thenBelow {α β : Type} {c : Cmd α} {f : α → Cmd β} {s : State} (hc : Steps Appends c)
    (hf : ∀ a t, c s = .ok a t → StepsAt StaysBelow (f a) t) : StepsAt StaysBelow (c >>= f) s :=
  stepsAt_bind StaysBelow.trans (hc.staysBelow s) hf

/-- R131: a byte that went out is in the emitted stream. -/
theorem emitByte_ok_length {b : Byte} {s t : State} (h : emitByte b s = .ok () t) : 0 < (emitted t).length := by
  have hbuf : 0 < (emitted (buffered b s)).length := by simp
  by_cases hfull : s.obuf.length + 1 = s.params.blockSize
  · rw [emitByte_full hfull] at h
    exact hbuf.trans_le ((appends_flushOut _).1 () t h).2
  · rw [emitByte_room hfull] at h
    cases h
    exact hbuf

/-- R163, R164: the header is not empty. -/
theorem serHdr_ok_length {ig sig : Byte} {s t : State} (h : serHdr ig sig s = .ok () t) : 0 < (emitted t).length := by
  obtain ⟨_, u, -, h⟩ := bind_ok_iff.mp h
  rw [run_get_bind] at h
  obtain ⟨_, v, hemit, hset⟩ := bind_ok_iff.mp h
  cases hset
  obtain ⟨_, w, hfirst, hrest⟩ := bind_ok_iff.mp hemit
  exact (emitByte_ok_length hfirst).trans_le ((appends_emitBytes _ w).1 () v hrest).2

theorem flushOut_ok_obuf {s t : State} (h : flushOut s = .ok () t) : t.obuf = [] := by
  rw [flushOut_eq] at h
  split at h
  · cases h
    assumption
  · split at h
    · cases h
      rfl
    · cases h

/-- R135: `Finish` leaves the block buffer empty. -/
theorem finish_ok_obuf {s t : State} {pad : Nat} (h : finish s = .ok pad t) : t.obuf = [] := by
  have last : ∀ {u : State} {p : Nat}, (flushOut >>= fun _ => pure p) u = .ok pad t → t.obuf = [] := fun hu => by
    obtain ⟨_, v, hflush, hend⟩ := bind_ok_iff.mp hu
    cases hend
    exact flushOut_ok_obuf hflush
  unfold finish at h
  rw [run_get_bind] at h
  dsimp only at h
  split at h
  · exact last h
  · obtain ⟨_, u, -, h⟩ := bind_ok_iff.mp h
    exact last h

/-- From the empty output side that `Init` leaves, the sink reads differently only below `SINK_POS`. -/
def FreshBelow (s t : State) : Prop := StaysBelow (initContext s) t

theorem freshBelow_init {α : Type} {c : PUnit → Cmd α} (h : Steps StaysBelow (c ⟨⟩)) : Steps FreshBelow (modify initContext >>= c) :=
  fun s => ⟨fun a t ht => (h (initContext s)).1 a t ht, fun e t ht => (h (initContext s)).2 e t ht⟩

theorem freshBelow_answer {α β : Type} {c : Cmd α} (f : α → β) (h : Steps FreshBelow c) :
    Steps FreshBelow (c >>= fun a => pure (f a)) := by
  intro s
  cases hc : c s with
  | ok a t => exact stepsAt_ok (run_bind_ok _ hc) ((h s).1 a t hc)
  | error e t => exact stepsAt_error (run_bind_error _ hc) ((h s).2 e t hc)

/-- R216: when the fix-up comes the header is in the sink, so offset 0 lies below `SINK_POS`. -/
theorem freshBelow_archiveStatic : Steps FreshBelow archiveStatic := by
  have loop : ∀ n i, Steps Appends (upFrom archiveByte n i) := fun n i =>
    appends_upFrom (fun _ => (appends_srcByte _ _).seq fun b => appends_encSym b) n i
  refine freshBelow_init fun s => appends_scan.thenBelow fun _ _ _ => appends_checkDistinct.thenBelow fun _ _ _ =>
    appends_build.thenBelow fun _ _ _ => appends_mkCodes.thenBelow fun _ _ _ => appends_get.thenBelow fun _ _ _ =>
      (appends_serHdr _ _).thenBelow fun _ t ht => (loop _ _).thenBelow fun _ u hu => appends_finish.thenBelow fun pad v hv => ?_
  have hpos : 0 < v.sinkPos := by
    have hlen := (serHdr_ok_length ht).trans_le (((loop _ _ t).1 _ u hu).2.trans ((appends_finish u).1 pad v hv).2)
    rwa [length_emitted, finish_ok_obuf hv, List.length_nil, Nat.add_zero] at hlen
  refine stepsAt_bind StaysBelow.trans ((fixesFirst_fixup _ v).mono fun _ h => h.staysBelow hpos) fun _ w _ => ?_
  exact ((appends_modify).seq fun _ => appends_pure pad).staysBelow w

theorem freshBelow_unarchiveStatic : Steps FreshBelow unarchiveStatic :=
  freshBelow_init (appends_rdHdr.seq fun _ => appends_withState fun _ => (appends_decAll _).seq fun _ => appends_flushOut.seq fun _ =>
    (appends_modify).seq fun _ => appends_withState fun _ => appends_pure _).staysBelow

theorem freshBelow_archiveAdaptive : Steps FreshBelow archiveAdaptive :=
  freshBelow_init ((appends_modify).seq fun _ => appends_withState fun _ => (appends_emitByte _).seq fun _ =>
    (appends_upFrom (fun _ => (appends_srcByte _ _).seq fun b => steps_discard (appends_ahEncSym b)) _ _).seq fun _ =>
      appends_finish.seq fun _ => (appends_modify).seq fun _ => appends_pure _).staysBelow

theorem freshBelow_unarchiveAdaptive (n : Nat) : Steps FreshBelow (unarchiveAdaptive n) :=
  freshBelow_init ((appends_modify).seq fun _ => (appends_takeByte _).seq fun _ => (appends_modify).seq fun _ =>
    appends_withState fun _ => (appends_raiseIf _ _ _).seq fun _ =>
      (steps_repeatTimes Appends.refl Appends.trans (steps_discard appends_ahDecSym) _).seq fun _ => appends_flushOut.seq fun _ =>
        (appends_modify).seq fun _ => appends_withState fun _ => appends_pure _).staysBelow

/-! ### The commands -/

/-- The sink before and after the command `i`: what reads differently lies at the append position, for a composite below `SINK_POS`, for
`SH.FIXUP` at offset 0 (R73, R306). -/
def SinkBound (i : Instr) (s t : State) : Prop :=
  ∀ a, Memory.read t.snk a ≠ Memory.read s.snk a →
    (isComposite i = true ∧ a < t.sinkPos) ∨ (isComposite i = false ∧ s.sinkPos ≤ a ∧ a < t.sinkPos) ∨ ∃ ig, i = .shFixup ig ∧ a = 0

theorem Appends.sinkBound {i : Instr} {s t : State} (hi : isComposite i = false) (h : Appends s t) : SinkBound i s t := by
  intro a hne
  have hin : ¬ (a < s.sinkPos ∨ t.sinkPos ≤ a) := fun hout => hne (h.1.2 a hout)
  exact .inr (.inl ⟨hi, by omega, by omega⟩)

theorem FreshBelow.sinkBound {i : Instr} {s t : State} (hi : isComposite i = true) (h : FreshBelow s t) : SinkBound i s t := by
  intro a hne
  exact .inl ⟨hi, Nat.lt_of_not_le fun hle => hne (h.2 a hle)⟩

theorem FixesFirst.sinkBound {ig : Byte} {s t : State} (h : FixesFirst s t) : SinkBound (.shFixup ig) s t := by
  intro a hne
  exact .inr (.inr ⟨ig, rfl, by_contra fun ha => hne (h.2 a ha)⟩)

/-- R306: where the rule of a command stores in the sink. -/
theorem rule_sinkBound (i : Instr) : Steps (SinkBound i) (ruleOf i) := by
  have primitive : isComposite i = false → Steps Appends (ruleOf i) → Steps (SinkBound i) (ruleOf i) :=
    fun hi h s => (h s).mono fun _ => Appends.sinkBound hi
  have composite : isComposite i = true → Steps FreshBelow (ruleOf i) → Steps (SinkBound i) (ruleOf i) :=
    fun hi h s => (h s).mono fun _ => FreshBelow.sinkBound hi
  have answer : ∀ {c : Cmd Unit} {f : State → Word}, Steps Appends c → Steps Appends (do c; let t ← get; pure (f t)) := fun hc =>
    hc.seq fun _ => appends_withState fun _ => appends_pure _
  cases i with
  | ctxInit => exact fun s => stepsAt_ok rfl fun a hne => absurd rfl hne
  | ctxRdreg r => exact primitive rfl (appends_withState fun _ => appends_pure _)
  | bsWrite w v => exact primitive rfl ((appends_writeBits _ _).seq fun _ => appends_pure _)
  | bsFinish => exact primitive rfl (appends_finish.seq fun _ => appends_pure _)
  | bsRdbit => exact primitive rfl (appends_readBit.seq fun _ => appends_pure _)
  | bsAtend ig => exact primitive rfl (appends_withState fun _ => appends_pure _)
  | tcFlatten => exact primitive rfl (answer appends_flatten)
  | tcSerhdr ig sig => exact primitive rfl (answer (appends_serHdr ig sig))
  | tcDeser => exact primitive rfl (answer appends_deser)
  | fbAcc b => exact primitive rfl (answer appends_modify)
  | fbScan => exact primitive rfl (appends_scan.seq fun _ => answer appends_checkDistinct)
  | fbBuild => exact primitive rfl (answer appends_build)
  | shMkcodes => exact primitive rfl (answer appends_mkCodes)
  | shEncsym b => exact primitive rfl (answer (appends_encSym b))
  | shDecsym ig => exact primitive rfl ((appends_decSym _).seq fun _ => appends_pure _)
  | shRdhdr => exact primitive rfl (answer appends_rdHdr)
  | shFixup ig =>
    have hfix : Steps FixesFirst (ruleOf (.shFixup ig)) := steps_bind FixesFirst.trans (fixesFirst_fixup ig) fun _ =>
      steps_pure (fun _ => ⟨rfl, fun _ _ => rfl⟩) _
    exact fun s => (hfix s).mono fun _ => FixesFirst.sinkBound
  | shArchive => exact composite rfl (freshBelow_answer _ freshBelow_archiveStatic)
  | shUnarchive => exact composite rfl (freshBelow_answer _ freshBelow_unarchiveStatic)
  | ahInit => exact primitive rfl ((appends_modify).seq fun _ => appends_pure _)
  | ahUpdate b => exact primitive rfl (answer (appends_ahUpdateSym b))
  | ahEncsym b => exact primitive rfl ((appends_ahEncSym b).seq fun _ => appends_pure _)
  | ahDecsym => exact primitive rfl (appends_ahDecSym.seq fun _ => appends_pure _)
  | ahArchive => exact composite rfl (freshBelow_answer _ freshBelow_archiveAdaptive)
  | ahUnarchive n => exact composite rfl (freshBelow_answer _ (freshBelow_unarchiveAdaptive _))

/-- Settles O14: the rule of a command stores where `rule_sinkBound` says, and none of the five ways a command can end writes SNK or
`SINK_POS`. -/
theorem sinkWritesAreBounded : Obligations.SinkWritesAreBounded := by
  intro i s t a h hne
  rcases exec_cases h with ⟨-, rfl⟩ | ⟨-, -, -, rfl⟩ | ⟨-, -, -, rfl⟩ | ⟨-, -, -, ⟨v, u, hr, rfl⟩ | ⟨e, info, u, hr, rfl⟩⟩
  · exact absurd rfl hne
  · exact absurd rfl hne
  · exact absurd rfl hne
  · exact (rule_sinkBound i s).1 v u hr a hne
  · exact (rule_sinkBound i s).2 _ u hr a hne

end Sys2Proof.Machine
end

section
namespace Sys2Proof

-- One declaration after the other: the threads of the whole text together would pass the check's memory limit.
set_option Elab.async false

/-! ## Command words and commands (R92, R93, R97)

`decode` reads a word through its three fields. The word of a command has the command's opcode and operands as its fields
(`fields_packWord`), and a word is put together from its fields again (`packWord_fields`). -/

/-! ### A word and its fields -/

@[simp] theorem fieldOp_encode (i : Instr) : fieldOp (encode i) = i.opcode := (fields_packWord _ _ _).1

@[simp] theorem fieldA_encode (i : Instr) : fieldA (encode i) = i.operandA := (fields_packWord _ _ _).2.1

@[simp] theorem fieldV_encode (i : Instr) : fieldV (encode i) = i.operandV := (fields_packWord _ _ _).2.2

/-- R92: the three fields leave no bit of a word out. -/
theorem packWord_fields (c : Word) : packWord (fieldOp c) (fieldA c) (fieldV c) = c := by
  have hOpA : fieldOp c ++ fieldA c = c.extractLsb' 48 16 := BitVec.extractLsb'_append_extractLsb'_eq_extractLsb' rfl
  unfold packWord
  rw [hOpA]
  exact BitVec.extractLsb'_append_extractLsb'

/-- A word with the opcode and the operands of a command in its fields is the command's word. -/
theorem encode_eq_of_fields {c : Word} {i : Instr} (hop : (fieldOp c).toNat = i.opcode.toNat) (hA : fieldA c = i.operandA)
    (hV : fieldV c = i.operandV) : encode i = c := by
  rw [encode, ← BitVec.eq_of_toNat_eq hop, ← hA, ← hV, packWord_fields]

theorem checked_eq_ok_iff {i j : Instr} : checked i = .ok j ↔ i.wf = true ∧ j = i := by
  cases hw : i.wf
  · simp [checked, hw]
  · simp [checked, hw, eq_comm]

/-! ### From the command to its word and back -/

theorem decodePlain_encode (i : Instr) (hA : i.operandA = 0#8) (hV : i.operandV = 0#48) : decodePlain (encode i) i = checked i := by
  simp [decodePlain, hA, hV]

theorem decodeA_encode (mk : Byte → Instr) (a : Byte) (hA : (mk a).operandA = a) (hV : (mk a).operandV = 0#48) :
    decodeA (encode (mk a)) mk = checked (mk a) := by
  simp [decodeA, hA, hV]

theorem decodeWrite_encode (w : Byte) (v : BitVec 32) : decodeWrite (encode (.bsWrite w v)) = checked (.bsWrite w v) := by
  have hv : fieldV (encode (.bsWrite w v)) = 0#16 ++ v := fieldV_encode _
  rw [decodeWrite, hv, BitVec.extractLsb'_append_eq_left, BitVec.extractLsb'_append_eq_right, if_pos rfl, fieldA_encode,
    Instr.operandA]

theorem decodeSerhdr_encode (ig sig : Byte) : decodeSerhdr (encode (.tcSerhdr ig sig)) = checked (.tcSerhdr ig sig) := by
  have hv : fieldV (encode (.tcSerhdr ig sig)) = 0#40 ++ sig := fieldV_encode _
  rw [decodeSerhdr, hv, BitVec.extractLsb'_append_eq_left, BitVec.extractLsb'_append_eq_right, if_pos rfl, fieldA_encode,
    Instr.operandA]

theorem decodeUnarchive_encode (n : BitVec 48) : decodeUnarchive (encode (.ahUnarchive n)) = checked (.ahUnarchive n) := by
  simp [decodeUnarchive, Instr.operandA, Instr.operandV]

/-- R93: the decoder finds the row of a command's opcode and reads the operands back; only their condition is left to test. -/
theorem decode_encode (i : Instr) : decode (encode i) = checked i := by
  unfold decode
  rw [fieldOp_encode]
  cases i with
  | ctxInit | bsFinish | bsRdbit | tcFlatten | tcDeser | fbScan | fbBuild | shMkcodes | shRdhdr | shArchive | shUnarchive | ahInit
  | ahDecsym | ahArchive => exact decodePlain_encode _ rfl rfl
  | ctxRdreg a | bsAtend a | fbAcc a | shEncsym a | shDecsym a | shFixup a | ahUpdate a | ahEncsym a =>
    exact decodeA_encode _ a rfl rfl
  | bsWrite w v => exact decodeWrite_encode w v
  | tcSerhdr ig sig => exact decodeSerhdr_encode ig sig
  | ahUnarchive n => exact decodeUnarchive_encode n

/-- Settles O1: the decoder reads every command's word back up to the operand condition, which `wf` gives. -/
theorem decodeEncodeRoundTrip : Obligations.DecodeEncodeRoundTrip := fun i hw =>
  (decode_encode i).trans (checked_eq_ok_iff.mpr ⟨hw, rfl⟩)

/-! ### From an accepted word to its command

One lemma for each of the five forms a word can have: it accepts only the word of a legal command, given that the opcode is the
one of the command the form builds. -/

/-- `c` is the word of the legal command `i`. -/
def IsWordOf (c : Word) (i : Instr) : Prop := i.wf = true ∧ encode i = c

/-- R97: what every form tests last. -/
theorem isWordOf_of_checked {c : Word} {i j : Instr} (h : checked i = .ok j) (hop : (fieldOp c).toNat = i.opcode.toNat)
    (hA : fieldA c = i.operandA) (hV : fieldV c = i.operandV) : IsWordOf c j := by
  obtain ⟨hw, rfl⟩ := checked_eq_ok_iff.mp h
  exact ⟨hw, encode_eq_of_fields hop hA hV⟩

section
variable {c : Word} {j : Instr}

theorem decodePlain_ok {i : Instr} (h : decodePlain c i = .ok j) (hop : (fieldOp c).toNat = i.opcode.toNat)
    (hA : i.operandA = 0#8) (hV : i.operandV = 0#48) : IsWordOf c j := by
  unfold decodePlain at h
  split at h
  · next hz => exact isWordOf_of_checked h hop (hz.1.trans hA.symm) (hz.2.trans hV.symm)
  · cases h

theorem decodeA_ok {mk : Byte → Instr} (h : decodeA c mk = .ok j) (hop : (fieldOp c).toNat = (mk (fieldA c)).opcode.toNat)
    (hA : (mk (fieldA c)).operandA = fieldA c) (hV : (mk (fieldA c)).operandV = 0#48) : IsWordOf c j := by
  unfold decodeA at h
  split at h
  · next hz => exact isWordOf_of_checked h hop hA.symm (hz.trans hV.symm)
  · cases h

theorem decodeWrite_ok (h : decodeWrite c = .ok j) (hop : (fieldOp c).toNat = 0x10) : IsWordOf c j := by
  unfold decodeWrite at h
  split at h
  · next hz =>
    have hV : 0#16 ++ (fieldV c).extractLsb' 0 32 = fieldV c := hz ▸ BitVec.extractLsb'_append_extractLsb'
    exact isWordOf_of_checked h hop rfl hV.symm
  · cases h

theorem decodeSerhdr_ok (h : decodeSerhdr c = .ok j) (hop : (fieldOp c).toNat = 0x21) : IsWordOf c j := by
  unfold decodeSerhdr at h
  split at h
  · next hz =>
    have hV : 0#40 ++ (fieldV c).extractLsb' 0 8 = fieldV c := hz ▸ BitVec.extractLsb'_append_extractLsb'
    exact isWordOf_of_checked h hop rfl hV.symm
  · cases h

theorem decodeUnarchive_ok (h : decodeUnarchive c = .ok j) (hop : (fieldOp c).toNat = 0x59) : IsWordOf c j := by
  unfold decodeUnarchive at h
  split at h
  · next hz => exact isWordOf_of_checked h hop hz rfl
  · cases h

end

/-- R97, R98: the row the decoder took names the opcode, and the row's form gives the rest of the word. The cases are the rows of
rule R93's table in its order, together by form, and the last one is every other opcode. -/
theorem isWordOf_of_decode {c : Word} {i : Instr} (h : decode c = .ok i) : IsWordOf c i := by
  unfold decode at h
  split at h
  case h_1 hop | h_4 hop | h_5 hop | h_7 hop | h_9 hop | h_11 hop | h_12 hop | h_13 hop | h_16 hop | h_18 hop | h_19 hop
    | h_20 hop | h_23 hop | h_24 hop => exact decodePlain_ok h hop rfl rfl
  case h_2 hop | h_6 hop | h_10 hop | h_14 hop | h_15 hop | h_17 hop | h_21 hop | h_22 hop =>
    exact decodeA_ok h hop rfl rfl
  case h_3 hop => exact decodeWrite_ok h hop
  case h_8 hop => exact decodeSerhdr_ok h hop
  case h_25 hop => exact decodeUnarchive_ok h hop
  case h_26 => cases h

/-- Settles O2: `isWordOf_of_decode`, for each row of the opcode table. -/
theorem legalWordsAreEncodings : Obligations.LegalWordsAreEncodings := fun _ _ => isWordOf_of_decode

/-- Settles O3: the decoder evaluated on the seven words. -/
theorem specWordsDecode : Obligations.SpecWordsDecode := by
  unfold Obligations.SpecWordsDecode
  decide

end Sys2Proof
end

section
namespace Sys2Proof.Machine

-- One declaration after the other: the threads of the whole text together would pass the check's memory limit.
set_option Elab.async false

/-! ## One step on a presented word (R90, R91) -/

section
variable {s : State} {c : Word} {rest : List Word}

theorem step_of_cmds (h : s.cmds = c :: rest) : step s = stepWord c { s with cmds := rest } := by rw [step, h]

theorem stepWord_of_decode {i : Instr} (h : decode c = .ok i) (s : State) : stepWord c s = exec i s := by rw [stepWord, h]

theorem stepWord_of_illegal {e : DecodeError} (h : decode c = .error e) (s : State) :
    stepWord c s = .next (refuse stIllegalCommand s) := by rw [stepWord, h]

end

/-- R297: what a refusal is. -/
theorem endsRefused_refuse (s : State) (st : Byte) : EndsRefused s (refuse st s) st := rfl

/-- Settles O4. -/
theorem stepRunsDecoded : Obligations.StepRunsDecoded := fun _ _ _ _ hc hd =>
  (step_of_cmds hc).trans (stepWord_of_decode hd _)

/-- Settles O5: the refusal comes from the word alone, before any test of the state. -/
theorem illegalWordChangesOnlyCseq : Obligations.IllegalWordChangesOnlyCseq := fun _ _ _ _ hc he =>
  ⟨_, (step_of_cmds hc).trans (stepWord_of_illegal he _), endsRefused_refuse _ _⟩

end Sys2Proof.Machine
end

section
namespace Sys2Proof.Machine

-- One declaration after the other: the threads of the whole text together would pass the check's memory limit.
set_option Elab.async false

/-! ## `CSEQ` influences nothing (R96, R322)

A rule is blind to `CSEQ` when another value of it beforehand gives the same run with that value afterwards. Every way to build a
rule keeps this, the reading of the state included as long as what is read is not `CSEQ`. -/

/-- The state with another value of `CSEQ`. -/
def atCseq (k : BitVec 64) (s : State) : State := { s with cseq := k }

/-- The same end of a run, in the state with another value of `CSEQ`. -/
def recount {α : Type} (k : BitVec 64) : EStateM.Result Stop State α → EStateM.Result Stop State α
  | .ok a s => .ok a (atCseq k s)
  | .error e s => .error e (atCseq k s)

/-- The run of `c` neither depends on `CSEQ` nor writes it. -/
def Blind {α : Type} (c : Cmd α) : Prop := ∀ k s, c (atCseq k s) = recount k (c s)

/-! ### The ways to build a rule -/

section
variable {α β : Type}

theorem blind_pure (a : α) : Blind (pure a : Cmd α) := fun _ _ => rfl

theorem blind_raise (e : ErrKind) (info : Nat) : Blind (raise e info : Cmd α) := fun _ _ => rfl

theorem blind_stick (f : Fault) : Blind (stick f : Cmd α) := fun _ _ => rfl

/-- A change of other parts of the state, which looks at other parts alone; mostly true by definition. -/
theorem blind_modify {f : State → State} (h : ∀ k s, f (atCseq k s) = atCseq k (f s) := by exact fun _ _ => rfl) :
    Blind (modify f : Cmd PUnit) := by
  intro k s
  rw [run_modify, h k s]
  rfl

theorem Blind.seq {c : Cmd α} {f : α → Cmd β} (hc : Blind c) (hf : ∀ a, Blind (f a)) : Blind (c >>= f) := by
  intro k s
  rw [run_bind, run_bind, hc k s]
  cases c s with
  | ok a t => exact hf a k t
  | error e t => rfl

/-- A rule that reads the state and runs `c` from it, where `c` does not use the `CSEQ` read; mostly true by definition. -/
theorem blind_withState {c : State → Cmd α} (hc : ∀ s, Blind (c s))
    (h : ∀ k s, c (atCseq k s) = c s := by exact fun _ _ => rfl) : Blind ((get : Cmd State) >>= c) := by
  intro k s
  rw [run_get_bind, run_get_bind, h k s]
  exact hc s k s

theorem blind_ite {c : Prop} [Decidable c] {x y : Cmd α} (hx : Blind x) (hy : Blind y) : Blind (if c then x else y) := by
  split
  · exact hx
  · exact hy

theorem blind_raiseIf (c : Prop) [Decidable c] (e : ErrKind) (info : Nat) : Blind (raiseIf c e info) :=
  blind_ite (blind_raise e info) (blind_pure ())

theorem blind_fromTree (o : Option α) : Blind (fromTree o) := by
  cases o with
  | none => exact blind_stick _
  | some a => exact blind_pure a

theorem blind_discard {c : Cmd α} (hc : Blind c) : Blind (discard c : Cmd PUnit) := by
  intro k s
  rw [run_discard, run_discard, hc k s]
  cases c s <;> rfl

theorem blind_upFrom {f : Nat → Cmd Unit} (hf : ∀ i, Blind (f i)) (n i : Nat) : Blind (upFrom f n i) := by
  induction n generalizing i with
  | zero => exact blind_pure ()
  | succ n ih => exact (hf i).seq fun _ => ih (i + 1)

theorem blind_repeatTimes {c : Cmd Unit} (hc : Blind c) (n : Nat) : Blind (repeatTimes c n) := by
  induction n with
  | zero => exact blind_pure ()
  | succ n ih => exact hc.seq fun _ => ih

end

/-! ### Port transactions -/

theorem blind_askPort : Blind askPort := by
  intro k s
  rw [askPort_eq, askPort_eq]
  rfl

theorem blind_memRead (off n : Nat) : Blind (memRead off n) :=
  blind_askPort.seq fun a => by
    cases a with
    | failed => exact blind_raise _ _
    | done => exact blind_withState fun _ => blind_pure _

theorem blind_memWrite (off : Nat) (v : List Byte) : Blind (memWrite off v) :=
  blind_askPort.seq fun a => by
    cases a with
    | failed => exact blind_raise _ _
    | done => exact blind_modify

theorem blind_srcByte (off : Nat) (onEnd : ErrKind) : Blind (srcByte off onEnd) :=
  blind_withState fun _ => blind_ite (blind_raise _ _) ((blind_memRead _ _).seq fun _ => blind_pure _)

/-! ### Output -/

theorem blind_flushOut : Blind flushOut :=
  blind_withState fun _ => blind_ite (blind_pure _) ((blind_memWrite _ _).seq fun _ => blind_modify)

theorem blind_emitByte (b : Byte) : Blind (emitByte b) :=
  (blind_modify).seq fun _ => blind_withState fun _ => blind_ite blind_flushOut (blind_pure _)

theorem blind_emitBytes (bs : List Byte) : Blind (emitBytes bs) := by
  induction bs with
  | nil => exact blind_pure _
  | cons b bs ih => exact (blind_emitByte b).seq fun _ => ih

theorem blind_writeBits (v w : Nat) : Blind (writeBits v w) :=
  blind_withState fun _ => (emitWhole_eq_emitBytes _ _ _ ▸ blind_emitBytes _).seq fun _ => blind_modify

theorem blind_emitBits (b : Bits) : Blind (emitBits b) := by
  have chunks : ∀ n b, Blind (emitChunks n b) := fun n => by
    induction n with
    | zero => exact fun _ => blind_pure _
    | succ n ih => exact fun b => blind_ite (blind_pure _) ((blind_writeBits _ _).seq fun _ => ih _)
  exact chunks _ b

theorem blind_finish : Blind finish :=
  blind_withState fun _ => blind_ite (blind_flushOut.seq fun _ => blind_pure _)
    ((blind_emitByte _).seq fun _ => (blind_modify).seq fun _ => blind_flushOut.seq fun _ => blind_pure _)

/-! ### Input -/

theorem advanceBit_atCseq (k : BitVec 64) (s : State) : advanceBit (atCseq k s) = atCseq k (advanceBit s) := by
  by_cases h : s.rdBit = 7#3 <;> simp [advanceBit, atCseq, h]

theorem blind_readBit : Blind readBit :=
  blind_withState fun _ => (blind_srcByte _ _).seq fun _ => (blind_modify advanceBit_atCseq).seq fun _ => blind_pure _

theorem blind_takeByte (onEnd : ErrKind) : Blind (takeByte onEnd) :=
  blind_withState fun _ => (blind_srcByte _ _).seq fun _ => (blind_modify).seq fun _ => blind_pure _

/-! ### The tree codec and the frequency builder -/

theorem blind_flatten : Blind flatten :=
  blind_withState fun _ => (blind_fromTree _).seq fun _ => blind_modify

theorem blind_serHdr (ig sig : Byte) : Blind (serHdr ig sig) :=
  blind_flatten.seq fun _ => blind_withState fun _ => (blind_emitBytes _).seq fun _ => blind_modify

theorem blind_build1 (n sc lc : Nat) : Blind (build1 n sc lc) := by
  induction n generalizing sc lc with
  | zero => exact blind_withState fun _ => blind_raise _ _
  | succ n ih =>
    refine blind_withState fun _ => (blind_raiseIf _ _ _).seq fun _ => (blind_modify).seq fun _ => blind_ite ?_ ?_
    · exact (blind_modify).seq fun _ => (ih _ _).seq fun _ => (ih _ _).seq fun _ => (blind_modify).seq fun _ => blind_pure _
    · exact (blind_raiseIf _ _ _).seq fun _ => (blind_modify).seq fun _ => blind_pure _

theorem blind_deser : Blind deser :=
  (blind_modify).seq fun _ => blind_withState fun _ => (blind_build1 _ _ _).seq fun _ => (blind_raiseIf _ _ _).seq fun _ =>
    (blind_raiseIf _ _ _).seq fun _ => blind_withState fun _ => (blind_raiseIf _ _ _).seq fun _ => blind_modify

theorem blind_scan : Blind scan :=
  blind_withState fun _ => blind_upFrom (fun _ => (blind_srcByte _ _).seq fun _ => blind_modify) _ _

theorem blind_checkDistinct : Blind checkDistinct := blind_withState fun _ => blind_raiseIf _ _ _

theorem blind_build : Blind build :=
  blind_checkDistinct.seq fun _ => (blind_modify).seq fun _ => blind_withState fun _ => (blind_fromTree _).seq fun _ => blind_modify

/-! ### The static coder -/

theorem blind_mkCodes : Blind mkCodes := blind_withState fun _ => (blind_fromTree _).seq fun _ => blind_modify

theorem blind_encSym (b : Byte) : Blind (encSym b) :=
  blind_withState fun _ => blind_ite (blind_stick _) (blind_emitBits _)

theorem blind_decSym (ig : Nat) : Blind (decSym ig) := by
  have loop : ∀ n i, Blind (decLoop ig n i) := fun n => by
    induction n with
    | zero => exact fun _ => blind_stick _
    | succ n ih =>
      exact fun i => blind_withState fun _ => blind_ite (blind_pure _) (blind_readBit.seq fun _ =>
        (blind_fromTree _).seq fun m => blind_ite ((blind_emitByte _).seq fun _ => blind_pure _) (ih m))
  exact blind_withState fun _ => (blind_fromTree _).seq fun i => loop _ i

theorem blind_rdHdr : Blind rdHdr := by
  refine (blind_takeByte _).seq fun _ => (blind_takeByte _).seq fun _ => (blind_modify).seq fun _ => blind_withState fun _ =>
    (blind_raiseIf _ _ _).seq fun _ => (blind_takeByte _).seq fun _ => (blind_takeByte _).seq fun _ => blind_withState fun _ =>
      (blind_raiseIf _ _ _).seq fun _ => (blind_raiseIf _ _ _).seq fun _ => (blind_modify).seq fun _ => ?_
  exact (blind_upFrom (fun _ => (blind_takeByte _).seq fun _ => blind_modify) _ _).seq fun _ => (blind_modify).seq fun _ =>
    (blind_upFrom (fun _ => (blind_takeByte _).seq fun _ => blind_modify) _ _).seq fun _ => (blind_modify).seq fun _ => blind_deser

theorem blind_decAll (n : Nat) : Blind (decAll n) := by
  induction n with
  | zero => exact blind_stick _
  | succ n ih => exact blind_withState fun _ => (blind_decSym _).seq fun _ => blind_ite (blind_pure _) ih

theorem blind_fixup (ig : Byte) : Blind (fixup ig) := (blind_memWrite _ _).seq fun _ => blind_modify

/-! ### The adaptive coder -/

theorem blind_grow (b : Byte) : Blind (grow b) := blind_withState fun _ => (blind_fromTree _).seq fun _ => blind_modify

theorem blind_updateSymbol (b : Byte) : Blind (updateSymbol b) :=
  blind_withState fun _ => (blind_fromTree _).seq fun _ => (blind_fromTree _).seq fun _ => blind_modify

theorem blind_path (n : Nat) : Blind (path n) := blind_withState fun _ => blind_fromTree _

theorem blind_ahEncSym (b : Byte) : Blind (ahEncSym b) := by
  refine blind_withState fun s => ?_
  cases s.mapOf b with
  | some n =>
    exact (blind_path n).seq fun p => (blind_emitBits p).seq fun _ => (blind_updateSymbol b).seq fun _ => blind_pure _
  | none =>
    exact (blind_fromTree _).seq fun y => (blind_path y).seq fun p => (blind_emitBits p).seq fun _ =>
      (blind_writeBits _ _).seq fun _ => (blind_grow b).seq fun _ => (blind_updateSymbol b).seq fun _ => blind_pure _

theorem blind_descend (n i : Nat) : Blind (descend n i) := by
  induction n generalizing i with
  | zero => exact blind_stick _
  | succ n ih =>
    exact blind_withState fun _ => blind_ite (blind_readBit.seq fun _ => (blind_fromTree _).seq fun m => ih m) (blind_pure _)

theorem blind_readRaw (n v : Nat) : Blind (readRaw n v) := by
  induction n generalizing v with
  | zero => exact blind_pure _
  | succ n ih => exact blind_readBit.seq fun _ => ih _

theorem blind_readNewSymbol : Blind readNewSymbol :=
  (blind_readRaw _ _).seq fun _ => blind_withState fun _ => (blind_raiseIf _ _ _).seq fun _ => (blind_grow _).seq fun _ => blind_pure _

theorem blind_ahDecSym : Blind ahDecSym := by
  have tail : ∀ b : Byte, Blind (do emitByte b; updateSymbol b; pure b) := fun b =>
    (blind_emitByte b).seq fun _ => (blind_updateSymbol b).seq fun _ => blind_pure _
  exact blind_withState fun _ => (blind_fromTree _).seq fun r => (blind_descend _ r).seq fun n =>
    blind_ite (blind_readNewSymbol.seq tail) (tail _)

theorem blind_ahUpdateSym (b : Byte) : Blind (ahUpdateSym b) :=
  blind_withState fun _ => blind_ite ((blind_grow b).seq fun _ => blind_updateSymbol b) (blind_updateSymbol b)

/-! ### The composites -/

theorem blind_archiveStatic : Blind archiveStatic :=
  (blind_modify).seq fun _ => blind_scan.seq fun _ => blind_checkDistinct.seq fun _ => blind_build.seq fun _ =>
    blind_mkCodes.seq fun _ => blind_withState fun _ => (blind_serHdr _ _).seq fun _ =>
      (blind_upFrom (fun _ => (blind_srcByte _ _).seq blind_encSym) _ _).seq fun _ => blind_finish.seq fun _ =>
        (blind_fixup _).seq fun _ => (blind_modify).seq fun _ => blind_pure _

theorem blind_unarchiveStatic : Blind unarchiveStatic :=
  (blind_modify).seq fun _ => blind_rdHdr.seq fun _ => blind_withState fun _ => (blind_decAll _).seq fun _ =>
    blind_flushOut.seq fun _ => (blind_modify).seq fun _ => blind_withState fun _ => blind_pure _

theorem blind_archiveAdaptive : Blind archiveAdaptive :=
  (blind_modify).seq fun _ => (blind_modify).seq fun _ => blind_withState fun _ => (blind_emitByte _).seq fun _ =>
    (blind_upFrom (fun _ => (blind_srcByte _ _).seq fun b => blind_discard (blind_ahEncSym b)) _ _).seq fun _ =>
      blind_finish.seq fun _ => (blind_modify).seq fun _ => blind_pure _

theorem blind_unarchiveAdaptive (n : Nat) : Blind (unarchiveAdaptive n) :=
  (blind_modify).seq fun _ => (blind_modify).seq fun _ => (blind_takeByte _).seq fun _ => (blind_modify).seq fun _ =>
    blind_withState fun _ => (blind_raiseIf _ _ _).seq fun _ => (blind_repeatTimes (blind_discard blind_ahDecSym) _).seq fun _ =>
      blind_flushOut.seq fun _ => (blind_modify).seq fun _ => blind_withState fun _ => blind_pure _

/-! ### The commands -/

/-- R33: register 0x02 alone shows `CSEQ`. -/
theorem readRegister_atCseq {r : Byte} (hr : r ≠ 0x02#8) (k : BitVec 64) (s : State) :
    readRegister r (atCseq k s) = readRegister r s := by
  unfold readRegister
  split
  case h_3 h => exact absurd (BitVec.eq_of_toNat_eq h) hr
  all_goals rfl

theorem blind_ruleOf {i : Instr} (hi : i ≠ .ctxRdreg 0x02#8) : Blind (ruleOf i) := by
  have answer : ∀ {c : Cmd Unit} {f : State → Word}, Blind c → (∀ k s, f (atCseq k s) = f s) →
      Blind (do c; let t ← get; pure (f t)) := fun hc hf =>
    hc.seq fun _ => blind_withState (fun _ => blind_pure _) fun k s => congrArg pure (hf k s)
  cases i with
  | ctxInit => exact (blind_modify).seq fun _ => blind_pure _
  | ctxRdreg r =>
    have hr : r ≠ 0x02#8 := fun h => hi (congrArg Instr.ctxRdreg h)
    exact blind_withState (fun _ => blind_pure _) fun k s => congrArg pure (readRegister_atCseq hr k s)
  | bsWrite w v => exact (blind_writeBits _ _).seq fun _ => blind_pure _
  | bsFinish => exact blind_finish.seq fun _ => blind_pure _
  | bsRdbit => exact blind_readBit.seq fun _ => blind_pure _
  | bsAtend ig => exact blind_withState fun _ => blind_pure _
  | tcFlatten => exact answer blind_flatten fun _ _ => rfl
  | tcSerhdr ig sig => exact answer (blind_serHdr ig sig) fun _ _ => rfl
  | tcDeser => exact answer blind_deser fun _ _ => rfl
  | fbAcc b => exact answer blind_modify fun _ _ => rfl
  | fbScan => exact blind_scan.seq fun _ => answer blind_checkDistinct fun _ _ => rfl
  | fbBuild => exact answer blind_build fun _ _ => rfl
  | shMkcodes => exact answer blind_mkCodes fun _ _ => rfl
  | shEncsym b => exact answer (blind_encSym b) fun _ _ => rfl
  | shDecsym ig => exact (blind_decSym _).seq fun _ => blind_pure _
  | shRdhdr => exact answer blind_rdHdr fun _ _ => rfl
  | shFixup ig => exact (blind_fixup ig).seq fun _ => blind_pure _
  | shArchive => exact blind_archiveStatic.seq fun _ => blind_pure _
  | shUnarchive => exact blind_unarchiveStatic.seq fun _ => blind_pure _
  | ahInit => exact (blind_modify).seq fun _ => blind_pure _
  | ahUpdate b => exact answer (blind_ahUpdateSym b) fun _ _ => rfl
  | ahEncsym b => exact (blind_ahEncSym b).seq fun _ => blind_pure _
  | ahDecsym => exact blind_ahDecSym.seq fun _ => blind_pure _
  | ahArchive => exact blind_archiveAdaptive.seq fun _ => blind_pure _
  | ahUnarchive n => exact (blind_unarchiveAdaptive _).seq fun _ => blind_pure _

/-- R298: no admission condition looks at `CSEQ`. -/
theorem admitted_atCseq (i : Instr) (k : BitVec 64) (s : State) : admitted i (atCseq k s) = admitted i s := by cases i <;> rfl

/-- Settles O13: the tests before a rule do not look at `CSEQ`, the rule is blind to it (`blind_ruleOf`), and each of the five ways a
command can end counts on from the value it finds. -/
theorem cseqInfluencesNothing : Obligations.CseqInfluencesNothing := by
  intro i s t c hi h
  have hadm := admitted_atCseq i c s
  have hrule := blind_ruleOf hi c s
  change exec i (atCseq c s) = .next (atCseq (c + 1#64) t)
  rcases exec_cases h with ⟨hw, rfl⟩ | ⟨hw, hf, hx, rfl⟩ | ⟨hw, hf, ha, rfl⟩ | ⟨hw, hf, ha, ⟨v, u, hr, rfl⟩ | ⟨e, info, u, hr, rfl⟩⟩
  · rw [exec_eq, hw, command_illegal]
    rfl
  · rw [exec_eq, hw, hx]
    exact command_faulted _ _ hf
  · rw [exec_eq, hw, hadm, ha]
    exact command_notAdmitted _ hf
  · exact exec_ok (s := atCseq c s) hw hf (hadm.trans ha) (hrule.trans (congrArg (recount c) hr))
  · exact exec_raised (s := atCseq c s) hw hf (hadm.trans ha) (hrule.trans (congrArg (recount c) hr))

end Sys2Proof.Machine
end

section
namespace Sys2Proof.Machine

-- One declaration after the other: the threads of the whole text together would pass the check's memory limit.
set_option Elab.async false

/-! ## The BS unit (40_bitstream.md) -/

/-! ### Bits and the emitted stream -/

/-- The pad count looks at the length within the last byte alone. -/
theorem padCount_mul_add (k n : Nat) : padCount (8 * k + n) = padCount n := by
  unfold padCount
  omega

@[simp] theorem length_pending (s : State) : (pending s).length = s.accCnt.toNat := length_bitsOf _ _

/-- R135: the bits that wait fall short of a whole byte by as much as everything written does. -/
theorem WritesBits.padCount_accCnt {s t : State} {b : Bits} (h : WritesBits s t b) :
    padCount t.accCnt.toNat = padCount (s.accCnt.toNat + b.length) := by
  obtain ⟨bs, -, hbits⟩ := h
  have hlen := congrArg List.length hbits
  simp only [List.length_append, length_unpackMsb, length_pending] at hlen
  rw [← hlen, padCount_mul_add]

/-- R138: where nothing had been emitted and no bit waited, and nothing waits now, the bits written and their padding stand in the
sink, packed. -/
theorem WritesBits.sinkBytes_eq {s t : State} {b : Bits} (h : WritesBits s t (b ++ List.replicate (padCount b.length) false))
    (hs : emitted s = []) (hps : pending s = []) (hpt : pending t = []) (hobuf : t.obuf = []) :
    sinkBytes t = (packMsb b).map some := by
  obtain ⟨bs, ⟨hbytes, -⟩, hbits⟩ := h
  rw [hps, hpt, List.append_nil, List.nil_append] at hbits
  rw [hs, List.nil_append, emitted, hobuf, List.map_nil, List.append_nil] at hbytes
  rw [packMsb_unique hbits, hbytes]

/-! ### The end of a command that writes bits -/

section
variable {s u : State} {b : Bits}

theorem Writes.endsOk (h : Writes s u b) (v : Word) : EndsOk s (finishOk v u) v := by
  apply endsOk_finishOk <;> rw [h.frame]

/-- R91: the end of the command adds the response, `RES` and `CSEQ` to what the writer wrote. -/
theorem Writes.frame_finishOk (h : Writes s u b) (v : Word) :
    finishOk v u = { sameEnd (finishOk v u) s with
      acc := u.acc, accCnt := u.accCnt, obuf := u.obuf, sinkPos := u.sinkPos, snk := u.snk } := by
  rw [h.frame]
  rfl

end

/-! ### `BS.WRITE` and `BS.FINISH` -/

/-- A context whose commands on the writer come to their end: it is not faulted, no transaction fails, and rule R22 holds. -/
structure WriterReady (s : State) : Prop where
  running : s.faulted = false
  good : PortsGood s
  acc : s.acc.toNat < 2 ^ s.accCnt.toNat

/-- R133, R136. -/
theorem exec_bsWrite_good {s : State} {w : Byte} (v : BitVec 32) (hw1 : 1 ≤ w.toNat) (hw32 : w.toNat ≤ 32) (hf : s.faulted = false)
    (h : PortsGood s) :
    ∃ u, exec (.bsWrite w v) s = .next (finishOk 0#64 u) ∧ Writes s u (bitsOf v.toNat w.toNat)
      ∧ u.acc.toNat < 2 ^ u.accCnt.toNat := by
  obtain ⟨u, hu, hwrites, hacc⟩ := writeBits_good v.toNat w.toNat h
  have hlegal : (Instr.bsWrite w v).wf = true := by simp [Instr.wf, widthLegal, Config.widthMax, hw1, hw32]
  exact ⟨u, exec_ok hlegal (by simp [hf]) rfl (run_bind_ok _ hu), hwrites, hacc⟩

/-- Settles O19: `exec_bsWrite_good`, with what the end of the command leaves alone. -/
theorem bsWriteAppendsBits : Obligations.BsWriteAppendsBits := by
  intro s w v hw1 hw32 hf h
  obtain ⟨u, hexec, hwrites, hacc⟩ := exec_bsWrite_good v hw1 hw32 hf h
  exact ⟨_, hexec, hwrites.endsOk _, hwrites.bits, hacc, hwrites.frame_finishOk _⟩

/-- Settles O20: `finish_good`, with what the end of the command leaves alone. -/
theorem bsFinishPadsAndFlushes : Obligations.BsFinishPadsAndFlushes := by
  intro s hf h hacc
  obtain ⟨u, hu, hwrites, hacc0, hcnt0, hobuf, hpos⟩ := finish_good h hacc
  have hexec := exec_ok (i := .bsFinish) rfl (by simp [hf]) rfl (run_bind_ok _ hu)
  exact ⟨_, hexec, hwrites.endsOk _, hwrites.bits, hacc0, hcnt0, hobuf, hpos, hwrites.frame_finishOk _⟩

/-! ### The law of the writer (R138) -/

/-- Commands one after the other, the first of which all go well. -/
theorem execAll_append {is js : List Instr} {s t : State} (h : execAll is s = .next t) :
    execAll (is ++ js) s = execAll js t := by
  induction is generalizing s with
  | nil =>
    cases h
    rfl
  | cons i is ih =>
    simp only [List.cons_append, execAll] at h ⊢
    cases hi : exec i s with
    | next u => exact ih (by simpa [hi] using h)
    | fault f => simp [hi] at h
    | refused r => simp [hi] at h

/-- R138: `BS.WRITE` commands one after the other append their bit strings in order. -/
theorem execAll_bsWrites {ws : List (Byte × BitVec 32)} {s : State} (hlegal : ∀ x ∈ ws, 1 ≤ x.1.toNat ∧ x.1.toNat ≤ 32)
    (h : WriterReady s) :
    ∃ t, execAll (ws.map fun x => Instr.bsWrite x.1 x.2) s = .next t ∧ WriterReady t
      ∧ WritesBits s t (ws.flatMap fun x => bitsOf x.2.toNat x.1.toNat) := by
  induction ws generalizing s with
  | nil => exact ⟨s, rfl, h, WritesBits.refl s⟩
  | cons x ws ih =>
    obtain ⟨⟨hw1, hw32⟩, hrest⟩ := List.forall_mem_cons.mp hlegal
    obtain ⟨u, hexec, hwrites, hacc⟩ := exec_bsWrite_good x.2 hw1 hw32 h.running h.good
    obtain ⟨-, -, -, -, hf⟩ := hwrites.endsOk 0#64
    obtain ⟨t, ht, hready, hbits⟩ := ih hrest ⟨hf.trans h.running, hwrites.good, hacc⟩
    refine ⟨t, ?_, hready, WritesBits.trans hwrites.bits hbits⟩
    rw [List.map_cons, execAll, hexec, ← ht]

/-- Settles O24: the writes append their strings (`execAll_bsWrites`), `BS.FINISH` appends the padding of the whole, and then every
byte of it stands in the sink (`WritesBits.sinkBytes_eq`). -/
theorem writerLaw : Obligations.WriterLaw := by
  intro s ws hf hports hacc hcnt hobuf hpos hlegal
  obtain ⟨u, hu, ⟨huf, hugood, huacc⟩, hwrites⟩ := execAll_bsWrites hlegal ⟨hf, hports, by simp [hacc]⟩
  obtain ⟨t, ht, ⟨hrsp, -⟩, hfinish, htacc, htcnt, htobuf, -⟩ := bsFinishPadsAndFlushes u huf hugood huacc
  have hpad := hwrites.padCount_accCnt
  simp only [hcnt, BitVec.toNat_zero, Nat.zero_add] at hpad
  rw [hpad] at hfinish hrsp
  have hsink := (hwrites.trans hfinish).sinkBytes_eq (by simp [emitted, sinkBytes, hobuf, hpos]) (by simp [pending, hcnt, bitsOf])
    (by simp [pending, htcnt, bitsOf]) htobuf
  refine ⟨t, ?_, hsink, ?_, hrsp⟩
  · simp [execAll_append hu, execAll, ht]
  · have hlen := congrArg List.length hsink
    simpa [sinkBytes] using hlen

/-! ### `BS.RDBIT` and `BS.ATEND` -/

/-- Settles O22: the three ways `ReadBit` can end. -/
theorem bsRdbitReadsNextBit : Obligations.BsRdbitReadsNextBit := by
  intro s hf
  have hrun : s.faulted = true → isContextCommand .bsRdbit = true := by simp [hf]
  refine ⟨fun hl h => ?_, fun hl => ?_, fun rest hl hp => ?_⟩
  · obtain ⟨b, u, hu, hunread, hcursor, -, hframe⟩ := readBit_good h hl
    have hval : BitVec.ofNat 64 b.toNat = if b then 1#64 else 0#64 := by cases b <;> rfl
    refine ⟨_, b, exec_ok rfl hrun rfl (run_bind_ok _ hu), hunread, ?_, hcursor, ?_⟩
    · rw [← hval]
      apply endsOk_finishOk <;> rw [hframe]
    · rw [hframe]
      rfl
  · exact ⟨_, exec_raised rfl hrun rfl (run_bind_error _ (readBit_end hl)), endsFaulted_takeFault .io _ rfl, rfl⟩
  · refine ⟨_, exec_raised rfl hrun rfl (run_bind_error _ (readBit_failed hp hl)), endsFaulted_takeFault .io _ rfl, ?_⟩
    simp [takeFault, usePort, respond, setError, hp]

/-- R141: `AtEnd`, with the subtraction of the spec. -/
theorem atEnd_iff_sub (ig : Nat) (s : State) :
    atEnd ig s = true ↔ 8 * ((s.src.length : Int) - s.rdByte) - s.rdBit.toNat = ig := by
  rw [atEnd, decide_eq_true_iff, State.srcLen]
  omega

/-- Settles O23: the rule reads the state and answers; `atEnd_iff_sub` is the equation. -/
theorem bsAtendTestsLogicalEnd : Obligations.BsAtendTestsLogicalEnd := by
  intro s ig hig hf
  have hlegal : (Instr.bsAtend ig).wf = true := by simp [Instr.wf, ignoreLegal, hig]
  exact ⟨if atEnd ig.toNat s then 1#64 else 0#64, exec_ok hlegal (by simp [hf]) rfl rfl, if_congr (atEnd_iff_sub _ s) rfl rfl⟩

/-! ### The contract of writer and reader (R145) -/

/-- R23: the cursor at the end of a bit string whose packed form is SRC leaves the padding unread. -/
theorem atEnd_padCount_iff {s : State} {b : Bits} (hsrc : s.src = packMsb b) :
    atEnd (padCount b.length) s = true ↔ cursor s = b.length := by
  have hlen := padCount_add b.length
  rw [atEnd, decide_eq_true_iff, State.srcLen, hsrc, length_packMsb, cursor]
  omega

/-- R143: the next unread bit of a packed bit string. -/
theorem unread_packMsb {s : State} {b : Bits} (hsrc : s.src = packMsb b) (h : cursor s < b.length) :
    ∃ rest, unread s = b[cursor s] :: rest := by
  rw [unread, hsrc, unpackMsb_packMsb, List.drop_append_of_le_length h.le, List.drop_eq_getElem_cons h]
  exact ⟨_, rfl⟩

/-- Settles O25: inside the string the next unread bit is the string's (`unread_packMsb`), and what is unread at its end is the padding
(`atEnd_padCount_iff`). -/
theorem readerMirrorsWriter : Obligations.ReaderMirrorsWriter := by
  intro s b hsrc _ hf hports
  refine ⟨fun h => ?_, atEnd_padCount_iff hsrc⟩
  obtain ⟨rest, hnext⟩ := unread_packMsb hsrc h
  obtain ⟨hread, -⟩ := bsRdbitReadsNextBit s hf
  obtain ⟨t, x, ht, hunread, hends, hcursor, -⟩ := hread (rdByte_lt_of_unread hnext) hports
  obtain ⟨rfl, -⟩ : b[cursor s] = x ∧ rest = unread t := by simpa [hnext] using hunread
  exact ⟨t, ht, hends, hcursor⟩

end Sys2Proof.Machine
end

section
namespace Sys2Proof.Machine

-- One declaration after the other: the threads of the whole text together would pass the check's memory limit.
set_option Elab.async false

/-! ## The TC unit (41_treecodec.md) -/

/-! ### `TC.FLATTEN` -/

/-- R161: bytes stored twice in the same place are as after the first time. -/
theorem Table.get_setFrom_twice {α : Type} [DecidableEq α] (d : α) (t : Table α) (xs : List α) (j : Nat) :
    Table.get d (Table.setFrom d (Table.setFrom d t 0 xs) 0 xs) j = Table.get d (Table.setFrom d t 0 xs) j := by
  simp only [Table.get_setFrom]
  split <;> rfl

/-- R41, R161: the shape buffer holds the packed shape. -/
theorem firstN_shape_storeFlat (bits : Bits) (bs : List Byte) (s : State) :
    Table.firstN 0#8 (storeFlat bits bs s).shape (storeFlat bits bs s).shapeSize = packMsb bits := by
  rw [storeFlat_shape, storeFlat_shapeSize, ← length_packMsb]
  exact Table.firstN_setFrom 0#8 [] _

/-- R41, R161: the leaf buffer holds the leaf bytes. -/
theorem firstN_leaves_storeFlat (bits : Bits) (bs : List Byte) (s : State) :
    Table.firstN 0#8 (storeFlat bits bs s).leaves (storeFlat bits bs s).leafCnt = bs :=
  Table.firstN_setFrom 0#8 s.leaves bs

/-- R161: zeros stand behind the packed shape. -/
theorem shapeByte_storeFlat_of_le (bits : Bits) (bs : List Byte) (s : State) {k : Nat} (h : ceil8 bits.length ≤ k) :
    (storeFlat bits bs s).shapeByte k = 0#8 := by
  rw [State.shapeByte, storeFlat_shape, Table.get_setFrom, length_packMsb, if_neg (by omega), Table.get_nil]

/-- R161: the entries behind the leaf bytes keep their values. -/
theorem leafByte_storeFlat_of_le (bits : Bits) (bs : List Byte) (s : State) {k : Nat} (h : bs.length ≤ k) :
    (storeFlat bits bs s).leafByte k = s.leafByte k := by
  rw [State.leafByte, storeFlat_leaves, Table.get_setFrom, if_neg (by omega), State.leafByte]

/-- R162: `TC.FLATTEN` on a tree of at most 256 leaves. -/
theorem exec_tcFlatten_good {s : State} {T : Tree} (hf : s.faulted = false) (hm : s.tmode = .static) (h : TreeAt s T)
    (hl : T.leafCount ≤ 256) :
    exec .tcFlatten s
      = .next (finishOk (BitVec.ofNat 64 (2 * T.leafCount - 1)) (storeFlat T.shape T.leafBytes s)) := by
  have hadm : admitted .tcFlatten s = true := by simp [admitted, hm]
  refine exec_ok rfl (by simp [hf]) hadm ((run_bind_ok _ (flatten_good h hl)).trans ?_)
  rw [run_get_bind, run_pure, storeFlat_leafCnt, Tree.length_leafBytes, shapeBits]

/-- Settles O26: what `storeFlat` leaves in the buffers, and `exec_tcFlatten_good`. -/
theorem tcFlattenStoresShapeAndLeaves : Obligations.TcFlattenStoresShapeAndLeaves := by
  intro s T hf hm h hl
  have hsize : ceil8 T.shape.length = ceil8 (2 * T.leafCount - 1) := congrArg ceil8 T.length_shape
  exact ⟨_, exec_tcFlatten_good hf hm h hl, endsOk_finishOk _ rfl rfl rfl, hsize, T.length_leafBytes, rfl,
    firstN_shape_storeFlat T.shape T.leafBytes s, fun _ => shapeByte_storeFlat_of_le T.shape T.leafBytes s,
    firstN_leaves_storeFlat T.shape T.leafBytes s, fun _ => leafByte_storeFlat_of_le T.shape T.leafBytes s, rfl⟩

/-! ### `TC.SERHDR` -/

/-- Settles O27: `serHdr_good`, and what emitting the header leaves alone. -/
theorem tcSerhdrEmitsHeader : Obligations.TcSerhdrEmitsHeader := by
  intro s T ig sig hig hf hm hcnt h hl hports
  obtain ⟨u, hu, hemits⟩ := serHdr_good ig sig h hl hports
  have hlegal : (Instr.tcSerhdr ig sig).wf = true := by simp [Instr.wf, ignoreLegal, hig]
  have hadm : admitted (.tcSerhdr ig sig) s = true := by simp [admitted, hm, hcnt]
  have hleaves : u.leafCnt = T.leafCount := by
    rw [hemits.frame]
    exact T.length_leafBytes
  have hrule : ruleOf (.tcSerhdr ig sig) s
      = .ok (BitVec.ofNat 64 (4 + ceil8 (2 * T.leafCount - 1) + T.leafCount)) { u with hdrIgnore := ig, hdrSig := sig } := by
    refine (run_bind_ok _ hu).trans ?_
    rw [run_get_bind, run_pure, hleaves, hdrSize, shapeBits]
  refine ⟨_, exec_ok hlegal (by simp [hf]) hadm hrule, ?_, hemits.bytes, rfl, rfl, ?_, ?_⟩
  · apply endsOk_finishOk <;> rw [hemits.frame] <;> rfl
  · rw [hemits.frame]
    rfl
  · rw [hemits.frame]
    rfl

/-! ### `TC.DESER` -/

/-- R38: byte symbols are told from the leaf bytes. -/
theorem Tree.map_setWidth_leafBytes {T : Tree} (h : ∀ x ∈ T.syms, x.toNat < 256) :
    T.leafBytes.map (fun b => b.setWidth 9) = T.syms := by
  rw [Tree.leafBytes, List.map_map, List.map_congr_left (g := id), List.map_id]
  intro x hx
  have := h x hx
  apply BitVec.eq_of_toNat_eq
  simp
  omega

theorem Tree.syms_eq_of_leafBytes {T U : Tree} (hT : ∀ x ∈ T.syms, x.toNat < 256) (hU : ∀ x ∈ U.syms, x.toNat < 256)
    (h : U.leafBytes = T.leafBytes) : U.syms = T.syms := by
  rw [← Tree.map_setWidth_leafBytes hT, ← Tree.map_setWidth_leafBytes hU, h]

/-- R169: `TC.DESER` when `Deser` came to its end. -/
theorem exec_tcDeser_ok {s t : State} {T : Tree} (hf : s.faulted = false) (hv : s.flatValid = true) (hd : deser s = .ok () t)
    (h : Rebuilt s T t) : exec .tcDeser s = .next (finishOk (BitVec.ofNat 64 (2 * T.leafCount - 1)) t) := by
  refine exec_ok rfl (by simp [hf]) hv ((run_bind_ok _ hd).trans ?_)
  rw [run_get_bind, run_pure, h.nodeCnt, T.length_shape]

/-- Settles O28: `deser_good`; the leaf bytes name the symbols (`Tree.syms_eq_of_leafBytes`). -/
theorem tcDeserRebuildsTree : Obligations.TcDeserRebuildsTree := by
  intro s T hf hv ⟨htwo, _, hsyms⟩ hsize hcnt hshape hleaves
  rw [← T.length_shape] at hsize hshape
  obtain ⟨U, u, hu, hU, hUshape, hUleaves⟩ := deser_good hsize hcnt htwo hshape hleaves
  have hcount : 2 * U.leafCount - 1 = 2 * T.leafCount - 1 := by rw [← U.length_shape, ← T.length_shape, hUshape]
  have hexec := exec_tcDeser_ok hf hv hu hU
  rw [hcount] at hexec
  refine ⟨_, U, hexec, ?_, hU.tree, hUshape, Tree.syms_eq_of_leafBytes hsyms hU.syms hUleaves, hU.root,
    fun i => (hU.zero i).1, hU.mode, hU.codes, ?_⟩
  · apply endsOk_finishOk <;> rw [hU.frame]
  · rw [hU.frame]
    rfl

/-- Settles O29: `Deser` ends in one of the two ways of `deser_cases`. -/
theorem tcDeserAcceptsOnlyTrees : Obligations.TcDeserAcceptsOnlyTrees := by
  intro s t hf hv ht
  rcases deser_cases s with ⟨T, u, hu, hT⟩ | ⟨u, hu, hframe⟩
  · obtain rfl : finishOk _ u = t := by simpa [exec_tcDeser_ok hf hv hu hT] using ht
    have hshape := hT.shape
    rw [T.length_shape] at hshape
    refine .inl ⟨T, ?_, hT.tree, hT.two, hT.leafCnt, ?_, hshape, hT.leaves⟩
    · rw [hT.frame]
      rfl
    · rw [← T.length_shape, hT.shapeSize]
  · have hexec := exec_raised (i := .tcDeser) rfl (by simp [hf]) hv (run_bind_error _ hu)
    obtain rfl : takeFault .malformedHeader s.rdByte u = t := by simpa [hexec] using ht
    rw [hframe]
    exact .inr ⟨endsFaulted_takeFault _ _ rfl, rfl, rfl⟩

/-! ### The two together (R170) -/

/-- Settles O30: the buffers `TC.FLATTEN` fills hold the flattened form of the tree, so `TC.DESER` rebuilds it
(`tcDeserRebuildsTree`); it does not touch the buffers, and the second `TC.FLATTEN` stores the same in them again. -/
theorem flattenDeserSelfConsistent : Obligations.FlattenDeserSelfConsistent := by
  intro s T hf hm h hT
  have hl : T.leafCount ≤ 256 := hT.2.1
  have hbits : (unpackMsb (Table.firstN 0#8 (storeFlat T.shape T.leafBytes s).shape (storeFlat T.shape T.leafBytes s).shapeSize)).take
      (2 * T.leafCount - 1) = T.shape := by
    rw [firstN_shape_storeFlat, ← T.length_shape, take_unpackMsb_packMsb]
  obtain ⟨u, U, hu, ⟨-, -, -, -, huf⟩, hU, hUshape, hUsyms, -, -, hum, -, hframe⟩ :=
    tcDeserRebuildsTree (finishOk (BitVec.ofNat 64 (2 * T.leafCount - 1)) (storeFlat T.shape T.leafBytes s)) T hf rfl hT
      (congrArg ceil8 T.length_shape) T.length_leafBytes hbits (firstN_leaves_storeFlat T.shape T.leafBytes s)
  have hUf : u.faulted = false := huf.trans hf
  have hUbytes : U.leafBytes = T.leafBytes := by rw [Tree.leafBytes, hUsyms, Tree.leafBytes]
  have hUl : U.leafCount ≤ 256 := by rwa [Tree.leafCount, hUsyms]
  have hagain := exec_tcFlatten_good hUf hum hU hUl
  rw [hUshape, hUbytes] at hagain
  have hkept : u.leaves = Table.setFrom 0#8 s.leaves 0 T.leafBytes := by
    rw [hframe]
    rfl
  refine ⟨_, u, U, _, exec_tcFlatten_good hf hm h hl, hu, hUf, hum, hU, hUshape, hUsyms, hagain, rfl, rfl, fun k => ⟨rfl, ?_⟩⟩
  change Table.get 0#8 (Table.setFrom 0#8 u.leaves 0 T.leafBytes) k = Table.get 0#8 (Table.setFrom 0#8 s.leaves 0 T.leafBytes) k
  rw [hkept, Table.get_setFrom_twice]

end Sys2Proof.Machine
end

section
namespace Sys2Proof.Machine

-- One declaration after the other: the threads of the whole text together would pass the check's memory limit.
set_option Elab.async false

/-! ## The FB unit (42_freq_builder.md) -/

/-! ### `FB.ACC` and `FB.SCAN` -/

/-- Settles O31: the rule is `accSymbol`, which says what becomes of the counts (`accSymbol_freqOf`) and of `DISTINCT`
(`accSymbol_nonzeroCount`). -/
theorem fbAccCountsSymbol : Obligations.FbAccCountsSymbol := by
  intro s b hf
  have hcount : (accSymbol b s).freqOf b = s.freqOf b + 1 := by rw [accSymbol_freqOf, if_pos rfl]
  have hrule : ruleOf (.fbAcc b) s = .ok (BitVec.ofNat 64 (s.freqOf b + 1)) (accSymbol b s) := by rw [← hcount]; rfl
  exact ⟨_, exec_ok rfl (by simp [hf]) rfl hrule, endsOk_finishOk _ rfl rfl rfl, hcount,
    fun c hc => (accSymbol_freqOf b c s).trans (if_neg hc), rfl, accSymbol_nonzeroCount b, rfl⟩

/-- R31: the number of nonzero counts, read byte value by byte value. -/
theorem nonzeroCount_eq_of_freqOf {s : State} {f : Byte → Nat} (h : ∀ b, s.freqOf b = f b) :
    nonzeroCount s = (List.range 256).countP fun k => decide (0 < f (BitVec.ofNat 8 k)) := by
  rw [nonzeroCount_eq]
  refine List.countP_congr fun k hk => ?_
  have hval : (BitVec.ofNat 8 k).toNat = k := Nat.mod_eq_of_lt (List.mem_range.mp hk)
  rw [← h, State.freqOf, hval]

/-- R182, R183, R184: `FB.SCAN` counts and then tests the number of distinct symbols. -/
theorem fbScan_rule {s : State} (h : PortsGood s) (hd : s.distinct = nonzeroCount s) :
    ∃ u, ruleOf .fbScan s = (if u.distinct < 2 then .error (.raised .invalidInput u.distinct) u
        else .ok (BitVec.ofNat 64 u.distinct) u)
      ∧ u.distinct = nonzeroCount u ∧ (∀ b, u.freqOf b = s.freqOf b + s.src.count b)
      ∧ u = { s with ports := u.ports, freq := u.freq, distinct := u.distinct } := by
  obtain ⟨u, hu, -, hcount, hdistinct, hframe⟩ := scan_good h
  refine ⟨u, (run_bind_ok _ hu).trans ?_, hdistinct hd, hcount, hframe⟩
  by_cases htwo : u.distinct < 2
  · rw [if_pos htwo, run_bind_error _ ((checkDistinct_eq u).trans (if_pos htwo))]
  · rw [if_neg htwo, run_bind_ok _ ((checkDistinct_eq u).trans (if_neg htwo))]
    rfl

/-- Settles O32: `fbScan_rule`, where the guard lets the command pass. -/
theorem fbScanCountsSource : Obligations.FbScanCountsSource := by
  intro s hf hports hd htwo
  obtain ⟨u, hrule, hdistinct, hcount, hframe⟩ := fbScan_rule hports hd
  rw [← nonzeroCount_eq_of_freqOf hcount, ← hdistinct] at htwo
  rw [if_neg (Nat.not_lt.mpr htwo)] at hrule
  refine ⟨_, exec_ok rfl (by simp [hf]) rfl hrule, ?_, hdistinct, hcount, ?_⟩
  · apply endsOk_finishOk <;> rw [hframe]
  · rw [hframe]
    rfl

/-- R184: `FB.BUILD` below two distinct symbols. -/
theorem build_tooFew {s : State} (h : s.distinct < 2) : build s = .error (.raised .invalidInput s.distinct) s :=
  run_bind_error _ ((checkDistinct_eq s).trans (if_pos h))

/-- Settles O33: the guard raises, in `FB.BUILD` before anything is done (`build_tooFew`), in `FB.SCAN` after the count (`fbScan_rule`). -/
theorem tooFewSymbolsFault : Obligations.TooFewSymbolsFault := by
  intro s hf
  refine ⟨fun hfew => ?_, fun hports hd hfew => ?_⟩
  · exact ⟨_, exec_raised rfl (by simp [hf]) rfl (run_bind_error _ (build_tooFew hfew)), endsFaulted_takeFault _ _ rfl, rfl⟩
  · obtain ⟨u, hrule, hdistinct, hcount, hframe⟩ := fbScan_rule hports hd
    rw [← nonzeroCount_eq_of_freqOf hcount, ← hdistinct] at hfew
    rw [if_pos hfew] at hrule
    refine ⟨_, exec_raised rfl (by simp [hf]) rfl hrule, ?_, hfew, hdistinct, hcount, ?_⟩
    · apply endsFaulted_takeFault
      rw [hframe]
    · rw [hframe]
      rfl

end Sys2Proof.Machine
end

section
namespace Sys2Proof.Machine

-- One declaration after the other: the threads of the whole text together would pass the check's memory limit.
set_option Elab.async false

/-! ## `FB.BUILD` (R185 to R187) -/

/-! ### The leaves -/

/-- The leaf of the symbol value `b` with the count `f` (R185). -/
def countedLeaf (b f : Nat) : Node := { Node.reset with kind := .leaf, sym := BitVec.ofNat 9 b, w := f }

/-- The leaves `Build` starts from (R185). -/
def countedLeaves (freq : Table Nat) : List Node := seedLeaves 0 (Table.firstN 0 freq 256)

theorem mem_seedLeaves {b : Nat} {fs : List Nat} {n : Node} :
    n ∈ seedLeaves b fs ↔ ∃ k, ∃ hk : k < fs.length, 0 < fs[k] ∧ n = countedLeaf (b + k) fs[k] := by
  induction fs generalizing b with
  | nil => simp [seedLeaves]
  | cons f fs ih =>
    have hcons : n ∈ seedLeaves b (f :: fs) ↔ (0 < f ∧ n = countedLeaf b f) ∨ n ∈ seedLeaves (b + 1) fs := by
      rw [seedLeaves]
      split <;> simp [countedLeaf, *]
    rw [hcons, ih]
    constructor
    · rintro (⟨hf, rfl⟩ | ⟨k, hk, hf, rfl⟩)
      · exact ⟨0, Nat.succ_pos _, hf, rfl⟩
      · exact ⟨k + 1, Nat.succ_lt_succ hk, hf, by rw [Nat.add_right_comm]; rfl⟩
    · rintro ⟨_ | k, hk, hf, rfl⟩
      · exact .inl ⟨hf, rfl⟩
      · exact .inr ⟨k, Nat.lt_of_succ_lt_succ hk, hf, by rw [Nat.add_right_comm]; rfl⟩

/-- R185: the leaves ascend by symbol value. -/
theorem pairwise_sym_seedLeaves {b : Nat} {fs : List Nat} (h : b + fs.length ≤ 512) :
    (seedLeaves b fs).Pairwise fun m n => m.sym.toNat < n.sym.toNat := by
  induction fs generalizing b with
  | nil => exact List.Pairwise.nil
  | cons f fs ih =>
    rw [List.length_cons] at h
    have hrest := ih (b := b + 1) (by omega)
    rw [seedLeaves]
    split
    · refine List.pairwise_cons.mpr ⟨fun n hn => ?_, hrest⟩
      obtain ⟨k, hk, -, rfl⟩ := mem_seedLeaves.mp hn
      simp only [countedLeaf, BitVec.toNat_ofNat]
      omega
    · exact hrest

theorem length_countedLeaves (s : State) : (countedLeaves s.freq).length = nonzeroCount s := length_seedLeaves _ _

/-- R185: there is one leaf for each symbol of nonzero count, with the count as its weight. -/
theorem mem_countedLeaves {s : State} {n : Node} :
    n ∈ countedLeaves s.freq ↔ ∃ b : Byte, 0 < s.freqOf b ∧ n = countedLeaf b.toNat (s.freqOf b) := by
  rw [countedLeaves, mem_seedLeaves]
  simp only [Table.length_firstN, Table.getElem_firstN, Nat.zero_add]
  constructor
  · rintro ⟨k, hk, hf, rfl⟩
    have hval : (BitVec.ofNat 8 k).toNat = k := Nat.mod_eq_of_lt hk
    exact ⟨BitVec.ofNat 8 k, by rwa [State.freqOf, hval], by rw [State.freqOf, hval]⟩
  · rintro ⟨b, hf, rfl⟩
    exact ⟨b.toNat, b.isLt, hf, rfl⟩

theorem countedLeaf_sym (b : Byte) (f : Nat) : (countedLeaf b.toNat f).sym = b.setWidth 9 := BitVec.ofNat_toNat 9 b

/-- R180, R185: the weight of a symbol's leaf is the symbol's count. -/
theorem w_of_mem_countedLeaves {s : State} {n : Node} {b : Byte} (h : n ∈ countedLeaves s.freq) (hb : n.sym = b.setWidth 9) :
    n.w = s.freqOf b := by
  obtain ⟨c, -, rfl⟩ := mem_countedLeaves.mp h
  rw [countedLeaf_sym] at hb
  rw [setWidth_nine_injective hb]
  rfl

theorem setWidth_mem_syms_iff {s : State} {b : Byte} :
    b.setWidth 9 ∈ (countedLeaves s.freq).map Node.sym ↔ 0 < s.freqOf b := by
  rw [List.mem_map]
  constructor
  · rintro ⟨n, hn, hsym⟩
    obtain ⟨c, hc, rfl⟩ := mem_countedLeaves.mp hn
    rw [countedLeaf_sym] at hsym
    rwa [← setWidth_nine_injective hsym]
  · exact fun hb => ⟨_, mem_countedLeaves.mpr ⟨b, hb, rfl⟩, countedLeaf_sym b _⟩

theorem pairwise_sym_countedLeaves (freq : Table Nat) : (countedLeaves freq).Pairwise fun m n => m.sym.toNat < n.sym.toNat :=
  pairwise_sym_seedLeaves (by simp)

theorem nodup_sym_countedLeaves (freq : Table Nat) : ((countedLeaves freq).map Node.sym).Nodup :=
  List.pairwise_map.mpr ((pairwise_sym_countedLeaves freq).imp fun hlt heq => Nat.ne_of_lt hlt (congrArg BitVec.toNat heq))

/-! ### The priority structure in the order of removal (R186) -/

theorem removedBefore_iff {x y : Nat × Nat} : removedBefore x y = true ↔ x.1 < y.1 ∨ (x.1 = y.1 ∧ x.2 < y.2) := by
  simp [removedBefore]

/-- The list is in the order of removal. -/
def InOrder (live : List (Nat × Nat)) : Prop := live.Pairwise fun x y => removedBefore x y = true

theorem mem_addLive {x z : Nat × Nat} {live : List (Nat × Nat)} : z ∈ addLive x live ↔ z = x ∨ z ∈ live := by
  induction live with
  | nil => simp [addLive]
  | cons y rest ih =>
    rw [addLive]
    split
    · simp
    · rw [List.mem_cons, ih, List.mem_cons]
      tauto

/-- R186: a node with an index of its own is put in its place. -/
theorem InOrder.addLive {x : Nat × Nat} {live : List (Nat × Nat)} (h : InOrder live) (hx : ∀ y ∈ live, y.2 ≠ x.2) :
    InOrder (addLive x live) := by
  induction live with
  | nil => exact List.pairwise_singleton _ _
  | cons y rest ih =>
    obtain ⟨hy, hrest⟩ := List.pairwise_cons.mp h
    rw [Machine.addLive]
    split
    · next hxy =>
      refine List.pairwise_cons.mpr ⟨fun z hz => ?_, h⟩
      rcases List.mem_cons.mp hz with rfl | hz
      · exact hxy
      · have hyz := hy z hz
        rw [removedBefore_iff] at hxy hyz ⊢
        omega
    · next hxy =>
      refine List.pairwise_cons.mpr ⟨fun z hz => ?_, ih hrest fun z hz => hx z (List.mem_cons_of_mem _ hz)⟩
      rcases mem_addLive.mp hz with rfl | hz
      · have hne := hx y List.mem_cons_self
        rw [removedBefore_iff] at hxy ⊢
        omega
      · exact hy z hz

theorem mem_seedLive {i : Nat} {ns : List Node} {z : Nat × Nat} :
    z ∈ seedLive i ns ↔ ∃ k, ∃ hk : k < ns.length, z = (ns[k].w, i + k) := by
  induction ns generalizing i with
  | nil => simp [seedLive]
  | cons n ns ih =>
    rw [seedLive, mem_addLive, ih]
    constructor
    · rintro (rfl | ⟨k, hk, rfl⟩)
      · exact ⟨0, Nat.succ_pos _, rfl⟩
      · exact ⟨k + 1, Nat.succ_lt_succ hk, by rw [Nat.add_right_comm]; rfl⟩
    · rintro ⟨_ | k, hk, rfl⟩
      · exact .inl rfl
      · exact .inr ⟨k, Nat.lt_of_succ_lt_succ hk, by rw [Nat.add_right_comm]; rfl⟩

theorem inOrder_seedLive (i : Nat) (ns : List Node) : InOrder (seedLive i ns) := by
  induction ns generalizing i with
  | nil => exact List.Pairwise.nil
  | cons n ns ih =>
    refine (ih (i + 1)).addLive fun y hy => ?_
    obtain ⟨k, -, rfl⟩ := mem_seedLive.mp hy
    simp only
    omega

/-! ### What a merge keeps -/

/-- `Waiting`, of an arena (R185). -/
def WaitingIn (t : Table Node) (n i : Nat) : Prop := i < n ∧ ∀ p, (nodeAt t i).parent = some p → n ≤ p

/-- `Sooner`, of an arena (R186). -/
def SoonerIn (t : Table Node) (i j : Nat) : Prop := (nodeAt t i).w < (nodeAt t j).w ∨ ((nodeAt t i).w = (nodeAt t j).w ∧ i < j)

/-- Entry `m` was made of the entries `x` and `y`, the first two of those that waited (R185, R186). -/
structure MadeOf (t : Table Node) (m x y : Nat) : Prop where
  kind : (nodeAt t m).kind = .internal
  left : (nodeAt t m).left = some x
  right : (nodeAt t m).right = some y
  first : WaitingIn t m x
  second : WaitingIn t m y
  inOrder : SoonerIn t x y
  least : ∀ z, WaitingIn t m z → z ≠ x → z ≠ y → SoonerIn t y z

/-- The two entries agree in what does not change when one of them gets a parent. -/
structure Alike (a b : Node) : Prop where
  kind : a.kind = b.kind
  sym : a.sym = b.sym
  w : a.w = b.w
  left : a.left = b.left
  right : a.right = b.right

theorem Alike.trans {a b c : Node} (hab : Alike a b) (hbc : Alike b c) : Alike a c :=
  ⟨hab.kind.trans hbc.kind, hab.sym.trans hbc.sym, hab.w.trans hbc.w, hab.left.trans hbc.left, hab.right.trans hbc.right⟩

/-- Below entry `n` the arena `u` is `t`, but for entries without a parent that got the parent `n`. -/
def Adopts (t u : Table Node) (n : Nat) : Prop :=
  ∀ i, i < n → nodeAt u i = nodeAt t i ∨ ((nodeAt t i).parent = none ∧ nodeAt u i = { nodeAt t i with parent := some n })

section
variable {t u : Table Node} {n m i j x y : Nat}

/-- What was there stays but for its parent. -/
theorem Adopts.alike (h : Adopts t u n) (hi : i < n) : Alike (nodeAt u i) (nodeAt t i) := by
  rcases h i hi with heq | ⟨-, heq⟩ <;> rw [heq] <;> exact ⟨rfl, rfl, rfl, rfl, rfl⟩

/-- A parent that comes later does not change who waited. -/
theorem Adopts.waitingIn_iff (h : Adopts t u n) (hm : m ≤ n) : WaitingIn u m i ↔ WaitingIn t m i := by
  refine and_congr_right fun hi => ?_
  rcases h i (by omega) with heq | ⟨hnone, heq⟩
  · rw [heq]
  · simp [heq, hnone, hm]

theorem Adopts.soonerIn_iff (h : Adopts t u n) (hi : i < n) (hj : j < n) : SoonerIn u i j ↔ SoonerIn t i j := by
  rw [SoonerIn, (h.alike hi).w, (h.alike hj).w, SoonerIn]

theorem MadeOf.adopts (h : MadeOf t m x y) (hu : Adopts t u n) (hm : m < n) : MadeOf u m x y := by
  have hx : x < n := h.first.1.trans hm
  have hy : y < n := h.second.1.trans hm
  have hm' := hu.alike hm
  refine ⟨hm'.kind.trans h.kind, hm'.left.trans h.left, hm'.right.trans h.right, (hu.waitingIn_iff hm.le).mpr h.first,
    (hu.waitingIn_iff hm.le).mpr h.second, (hu.soonerIn_iff hx hy).mpr h.inOrder, fun z hz hzx hzy => ?_⟩
  have hz' := (hu.waitingIn_iff hm.le).mp hz
  exact (hu.soonerIn_iff hy (hz'.1.trans hm)).mpr (h.least z hz' hzx hzy)

theorem adopts_mergeNodes (hx : x < n) (hy : y < n) (hxy : x ≠ y) (hpx : (nodeAt t x).parent = none)
    (hpy : (nodeAt t y).parent = none) : Adopts t (mergeNodes t n x y) n := by
  intro i hi
  rw [nodeAt_mergeNodes t hx.ne' hy.ne' hxy, if_neg hi.ne]
  split
  · next h =>
    rcases h with rfl | rfl
    · exact .inr ⟨hpx, rfl⟩
    · exact .inr ⟨hpy, rfl⟩
  · exact .inl rfl

end

/-! ### The loop -/

/-- What holds of the arena `t` and the priority structure when `Build` has made the entries below `n` from the leaves `ns`
(R185, R186). -/
structure Merging (ns : List Node) (live : List (Nat × Nat)) (t : Table Node) (n : Nat) : Prop where
  inOrder : InOrder live
  live : ∀ w i, (w, i) ∈ live ↔ i < n ∧ (nodeAt t i).parent = none ∧ (nodeAt t i).w = w
  parent : ∀ i p, (nodeAt t i).parent = some p → i < p ∧ p < n
  started : ns.length ≤ n
  seeds : ∀ i (h : i < ns.length), Alike (nodeAt t i) ns[i]
  made : ∀ m, ns.length ≤ m → m < n → ∃ x y, MadeOf t m x y
  free : ∀ i, n ≤ i → nodeAt t i = Node.reset

/-- R185: the leaves alone. -/
theorem merging_seeds {ns : List Node} (h : ∀ n ∈ ns, n.parent = none) :
    Merging ns (seedLive 0 ns) (seedArena ns) ns.length := by
  have hin : ∀ i (hi : i < ns.length), nodeAt (seedArena ns) i = ns[i] := fun i hi => by
    rw [nodeAt_seedArena, List.getD_eq_getElem _ _ hi]
  have hout : ∀ i, ns.length ≤ i → nodeAt (seedArena ns) i = Node.reset := fun i hi => by
    rw [nodeAt_seedArena, List.getD_eq_default _ _ hi]
  have hparent : ∀ i, (nodeAt (seedArena ns) i).parent = none := fun i => by
    rcases Nat.lt_or_ge i ns.length with hi | hi
    · rw [hin i hi, h _ (List.getElem_mem hi)]
    · rw [hout i hi]
      rfl
  refine ⟨inOrder_seedLive 0 ns, fun w i => ?_, fun i p hp => ?_, Nat.le_refl _, fun i hi => ?_, fun m hle hlt => ?_, hout⟩
  · rw [mem_seedLive]
    constructor
    · rintro ⟨k, hk, hz⟩
      obtain ⟨rfl, rfl⟩ : w = ns[k].w ∧ i = 0 + k := Prod.mk.inj hz
      rw [Nat.zero_add]
      exact ⟨hk, hparent k, congrArg Node.w (hin k hk)⟩
    · rintro ⟨hi, -, rfl⟩
      exact ⟨i, hi, by rw [hin i hi, Nat.zero_add]⟩
  · rw [hparent i] at hp
    cases hp
  · rw [hin i hi]
    exact ⟨rfl, rfl, rfl, rfl, rfl⟩
  · omega

section
variable {ns : List Node} {x y : Nat × Nat} {rest : List (Nat × Nat)} {t : Table Node} {n : Nat}

/-- The entries that wait for the merge that makes entry `n` are those of the priority structure. -/
theorem Merging.waitingIn_iff {live : List (Nat × Nat)} (h : Merging ns live t n) {i : Nat} :
    WaitingIn t n i ↔ ((nodeAt t i).w, i) ∈ live := by
  rw [h.live, WaitingIn]
  refine and_congr_right fun _ => ⟨fun hp => ⟨?_, rfl⟩, fun ⟨hp, _⟩ p hq => ?_⟩
  · cases hq : (nodeAt t i).parent with
    | none => rfl
    | some p => exact absurd (h.parent i p hq).2 (Nat.not_lt.mpr (hp p hq))
  · rw [hp] at hq
    cases hq

/-- An entry is in the priority structure once. -/
theorem Merging.apart {live : List (Nat × Nat)} (h : Merging ns live t n) : live.Pairwise fun a b => a.2 ≠ b.2 := by
  refine h.inOrder.imp_of_mem fun {a b} ha hb hab heq => ?_
  obtain ⟨-, -, hwa⟩ := (h.live a.1 a.2).mp ha
  obtain ⟨-, -, hwb⟩ := (h.live b.1 b.2).mp hb
  rw [removedBefore_iff, ← hwa, ← hwb, heq] at hab
  omega

/-- R186: the first two of the priority structure are the least two that wait. -/
theorem Merging.least (h : Merging ns (x :: y :: rest) t n) :
    WaitingIn t n x.2 ∧ WaitingIn t n y.2 ∧ SoonerIn t x.2 y.2
      ∧ ∀ z, WaitingIn t n z → z ≠ x.2 → z ≠ y.2 → SoonerIn t y.2 z := by
  obtain ⟨hx, hyrest⟩ := List.pairwise_cons.mp h.inOrder
  obtain ⟨hy, -⟩ := List.pairwise_cons.mp hyrest
  have hxmem : (x.1, x.2) ∈ x :: y :: rest := List.mem_cons_self
  have hymem : (y.1, y.2) ∈ x :: y :: rest := List.mem_cons_of_mem _ List.mem_cons_self
  obtain ⟨-, -, hwx⟩ := (h.live _ _).mp hxmem
  obtain ⟨-, -, hwy⟩ := (h.live _ _).mp hymem
  have hxy := removedBefore_iff.mp (hx y List.mem_cons_self)
  refine ⟨h.waitingIn_iff.mpr (hwx ▸ hxmem), h.waitingIn_iff.mpr (hwy ▸ hymem), by rwa [SoonerIn, hwx, hwy], fun z hz hzx hzy => ?_⟩
  have hmem := h.waitingIn_iff.mp hz
  rcases List.mem_cons.mp hmem with rfl | hmem
  · exact absurd rfl hzx
  rcases List.mem_cons.mp hmem with rfl | hmem
  · exact absurd rfl hzy
  · rw [SoonerIn, hwy]
    exact removedBefore_iff.mp (hy _ hmem)

/-- R185: one merge. -/
theorem Merging.merge (h : Merging ns (x :: y :: rest) t n) :
    Merging ns (addLive (x.1 + y.1, n) rest) (mergeNodes t n x.2 y.2) (n + 1) := by
  obtain ⟨hxapart, hyrest⟩ := List.pairwise_cons.mp h.apart
  obtain ⟨hyapart, -⟩ := List.pairwise_cons.mp hyrest
  have hxy : x.2 ≠ y.2 := hxapart y List.mem_cons_self
  obtain ⟨hx, hpx, hwx⟩ := (h.live x.1 x.2).mp List.mem_cons_self
  obtain ⟨hy, hpy, hwy⟩ := (h.live y.1 y.2).mp (List.mem_cons_of_mem _ List.mem_cons_self)
  have hat := nodeAt_mergeNodes t hx.ne' hy.ne' hxy
  have hnew := (hat n).trans (if_pos rfl)
  have hadopts := adopts_mergeNodes hx hy hxy hpx hpy
  have hrest : ∀ {z}, z ∈ rest → z.2 < n := fun {z} hz =>
    ((h.live z.1 z.2).mp (List.mem_cons_of_mem _ (List.mem_cons_of_mem _ hz))).1
  have hmade : MadeOf (mergeNodes t n x.2 y.2) n x.2 y.2 := by
    obtain ⟨hfirst, hsecond, hsooner, hleast⟩ := h.least
    refine ⟨by rw [hnew], by rw [hnew], by rw [hnew], (hadopts.waitingIn_iff le_rfl).mpr hfirst,
      (hadopts.waitingIn_iff le_rfl).mpr hsecond, (hadopts.soonerIn_iff hx hy).mpr hsooner, fun z hz hzx hzy => ?_⟩
    have hz' := (hadopts.waitingIn_iff le_rfl).mp hz
    exact (hadopts.soonerIn_iff hy hz'.1).mpr (hleast z hz' hzx hzy)
  refine ⟨?_, fun w i => ?_, fun i p hp => ?_, h.started.trans n.le_succ, fun i hi => ?_, fun m hle hlt => ?_, fun i hi => ?_⟩
  · exact InOrder.addLive (List.Pairwise.of_cons (List.Pairwise.of_cons h.inOrder)) fun z hz => (hrest hz).ne
  · rw [mem_addLive, hat]
    by_cases hin : i = n
    · subst hin
      have hnot : (w, i) ∉ rest := fun hz => (hrest hz).ne rfl
      simp [hnot, hwx, hwy, Node.reset, eq_comm]
    · rw [if_neg hin]
      split
      · next hor =>
        have hnot : (w, i) ∉ rest := fun hz => hor.elim (hxapart _ (List.mem_cons_of_mem _ hz)).symm (hyapart _ hz).symm
        simp [hnot, hin]
      · next hor =>
        have hlive := h.live w i
        have hnx : (w, i) ≠ x := fun he => hor (.inl (congrArg Prod.snd he))
        have hny : (w, i) ≠ y := fun he => hor (.inr (congrArg Prod.snd he))
        simp only [List.mem_cons, hnx, hny, false_or] at hlive
        have hlt : i < n + 1 ↔ i < n := by omega
        simp [hin, hlive, hlt]
  · rw [hat] at hp
    split at hp
    · cases hp
    · split at hp
      · next hor =>
        cases hp
        rcases hor with rfl | rfl <;> omega
      · have := h.parent i p hp
        omega
  · exact (hadopts.alike (hi.trans_le h.started)).trans (h.seeds i hi)
  · rcases Nat.lt_succ_iff_lt_or_eq.mp hlt with hlt | rfl
    · obtain ⟨a, b, hab⟩ := h.made m hle hlt
      exact ⟨a, b, hab.adopts hadopts hlt⟩
    · exact ⟨_, _, hmade⟩
  · rw [hat, if_neg (by omega), if_neg (by omega)]
    exact h.free i (by omega)

/-- R185: the loop to its end. -/
theorem Merging.mergeAll {k : Nat} {live : List (Nat × Nat)} {r : Table Node × Nat × Nat} (h : Merging ns live t n)
    (hr : mergeAll k live t n = some r) : ∃ w, Merging ns [(w, r.2.2)] r.1 r.2.1 := by
  induction k generalizing live t n with
  | zero =>
    rcases live with _ | ⟨x, _ | ⟨y, rest⟩⟩
    · cases hr
    · cases hr
      exact ⟨x.1, h⟩
    · cases hr
  | succ k ih =>
    rcases live with _ | ⟨x, _ | ⟨y, rest⟩⟩
    · cases hr
    · cases hr
      exact ⟨x.1, h⟩
    · exact ih h.merge hr

/-- R185: the last entry made is the root. -/
theorem Merging.root_succ {w i : Nat} (h : Merging ns [(w, i)] t n) : i + 1 = n := by
  obtain ⟨hlt, -⟩ := (h.live w i).mp List.mem_cons_self
  have hlast : WaitingIn t n (n - 1) := by
    refine ⟨by omega, fun p hp => ?_⟩
    have := h.parent _ _ hp
    omega
  have hmem := h.waitingIn_iff.mp hlast
  have : n - 1 = i := congrArg Prod.snd (List.mem_singleton.mp hmem)
  omega

theorem Merging.leaf {live : List (Nat × Nat)} (h : Merging ns live t n) (hs : ∀ n ∈ ns, IsSeed n) {i : Nat} (hi : i < ns.length) :
    (nodeAt t i).kind = .leaf ∧ (nodeAt t i).sym = ns[i].sym ∧ (nodeAt t i).w = ns[i].w ∧ (nodeAt t i).left = none := by
  obtain ⟨hkind, hleft, -⟩ := hs _ (List.getElem_mem hi)
  have hseed := h.seeds i hi
  exact ⟨hseed.kind.trans hkind, hseed.sym, hseed.w, hseed.left.trans hleft⟩

/-- R185: a leaf of the arena is one of the leaves the loop began with. -/
theorem Merging.lt_of_leaf {live : List (Nat × Nat)} (h : Merging ns live t n) {i : Nat} (hk : (nodeAt t i).kind = .leaf) :
    i < ns.length := by
  by_contra hle
  rcases Nat.lt_or_ge i n with hi | hi
  · obtain ⟨x, y, hxy⟩ := h.made i (Nat.not_lt.mp hle) hi
    exact absurd (hk.symm.trans hxy.kind) (by decide)
  · rw [h.free i hi] at hk
    cases hk

/-- R186: a left child is not the heavier one. -/
theorem Merging.w_le {live : List (Nat × Nat)} (h : Merging ns live t n) (hs : ∀ n ∈ ns, IsSeed n) {i l r : Nat}
    (hl : (nodeAt t i).left = some l) (hr : (nodeAt t i).right = some r) : (nodeAt t l).w ≤ (nodeAt t r).w := by
  rcases Nat.lt_or_ge i ns.length with hi | hi
  · obtain ⟨-, -, -, hnone⟩ := h.leaf hs hi
    cases hnone.symm.trans hl
  rcases Nat.lt_or_ge i n with hin | hin
  · obtain ⟨x, y, hxy⟩ := h.made i hi hin
    obtain rfl : x = l := Option.some.inj (hxy.left.symm.trans hl)
    obtain rfl : y = r := Option.some.inj (hxy.right.symm.trans hr)
    have := hxy.inOrder
    rw [SoonerIn] at this
    omega
  · rw [h.free i hin] at hl
    cases hl

end

/-! ### The tree -/

theorem Holds.kind_of_hasLeaf {t : Table Node} {p : Option Nat} {T : Tree} (h : Holds t p T) {i : Nat} {sym : BitVec 9}
    (hl : T.HasLeaf i sym) : (nodeAt t i).kind = .leaf := by
  induction T generalizing p with
  | leaf j x =>
    obtain ⟨rfl, -⟩ := hl
    exact h.1
  | node j l r ihl ihr =>
    obtain ⟨-, -, -, -, -, h1, h2⟩ := h
    exact hl.elim (ihl h1) (ihr h2)

/-- What `Build` has found: one tree that takes up the arena, with the symbols counted, and how its entries were made. -/
structure CountedTree (s : State) (r : Table Node × Nat × Nat) (T : Tree) : Prop where
  root : r.2.2 = T.idx
  forest : Forest r.1 r.2.1 [T]
  syms : T.syms.Perm ((countedLeaves s.freq).map Node.sym)
  merging : ∃ w, Merging (countedLeaves s.freq) [(w, r.2.2)] r.1 r.2.1

theorem isSeed_of_mem_countedLeaves {freq : Table Nat} : ∀ n ∈ countedLeaves freq, IsSeed n :=
  fun _ => isSeed_of_mem_seedLeaves (by simp)

/-- R185: the run of the loop from the leaves. -/
theorem builtTree_counted {s : State} (h : 0 < nonzeroCount s) : ∃ r T, builtTree s.freq = some r ∧ CountedTree s r T := by
  have hseed := isSeed_of_mem_countedLeaves (freq := s.freq)
  have hdef : builtTree s.freq = mergeAll (countedLeaves s.freq).length (seedLive 0 (countedLeaves s.freq))
      (seedArena (countedLeaves s.freq)) (countedLeaves s.freq).length := rfl
  rw [← length_countedLeaves] at h
  obtain ⟨ts, hts, hp⟩ := seedLive_seedArena (countedLeaves s.freq)
  have hcount : ts.length = (countedLeaves s.freq).length := hp.length_eq.trans (length_seedTrees _ _)
  obtain ⟨r, T, hr, hidx, hT, hsyms⟩ := mergeAll_forest (k := (countedLeaves s.freq).length) ((forest_seedTrees hseed).perm hp)
    (List.ne_nil_of_length_pos (by omega)) (by omega)
  rw [← hts, ← hdef] at hr
  refine ⟨r, T, hr, hidx, hT, ?_, ?_⟩
  · rw [← syms_seedTrees 0]
    exact hsyms.trans (hp.flatMap_right _)
  · have hroots : ∀ n ∈ countedLeaves s.freq, n.parent = none := fun n hn =>
      let ⟨_, _, _, hparent, _⟩ := hseed n hn
      hparent
    exact (merging_seeds hroots).mergeAll (hdef.symm.trans hr)

section
variable {s : State} {r : Table Node × Nat × Nat} {T : Tree}

theorem CountedTree.leafCount (h : CountedTree s r T) : T.leafCount = nonzeroCount s := by
  rw [Tree.leafCount, h.syms.length_eq, List.length_map, length_countedLeaves]

theorem CountedTree.nodeCnt (h : CountedTree s r T) : r.2.1 = 2 * nonzeroCount s - 1 := by
  have hlen := h.forest.indices.length_eq
  simp only [List.flatMap_singleton, List.length_range, Tree.length_indices, h.leafCount] at hlen
  exact hlen.symm

theorem CountedTree.treeAt (h : CountedTree s r T) {t : State} (ha : t.arena = r.1) (hn : t.nodeCnt = r.2.1) (hroot : t.root = some r.2.2) :
    TreeAt t T := by
  obtain ⟨hheld, -⟩ := h.forest.held T List.mem_cons_self
  refine ⟨by rw [hroot, h.root], ha ▸ hheld, ?_, fun i hi => ?_⟩
  · rw [hn]
    simpa using h.forest.indices
  · rw [State.node, ha]
    exact h.forest.free i (hn ▸ hi)

theorem CountedTree.mem_syms_iff (h : CountedTree s r T) {b : Byte} : b.setWidth 9 ∈ T.syms ↔ 0 < s.freqOf b := by
  rw [h.syms.mem_iff, setWidth_mem_syms_iff]

theorem CountedTree.static (h : CountedTree s r T) (htwo : 2 ≤ nonzeroCount s) : T.Static := by
  refine ⟨h.leafCount ▸ htwo, ?_, fun x hx => ?_⟩
  · have hle := List.countP_le_length (p := fun f => decide (0 < f)) (l := Table.firstN 0 s.freq 256)
    rw [Table.length_firstN] at hle
    exact h.leafCount.trans_le hle
  · obtain ⟨n, hn, rfl⟩ := List.mem_map.mp (h.syms.mem_iff.mp hx)
    obtain ⟨-, -, -, -, hbyte⟩ := isSeed_of_mem_countedLeaves n hn
    exact hbyte

/-- R185: the leaf of a symbol weighs its count. -/
theorem CountedTree.w_of_hasLeaf (h : CountedTree s r T) {i : Nat} {b : Byte} (hl : T.HasLeaf i (b.setWidth 9)) :
    (nodeAt r.1 i).w = s.freqOf b := by
  obtain ⟨hheld, -⟩ := h.forest.held T List.mem_cons_self
  obtain ⟨w, hm⟩ := h.merging
  have hi := hm.lt_of_leaf (hheld.kind_of_hasLeaf hl)
  obtain ⟨-, hsym, hw, -⟩ := hm.leaf isSeed_of_mem_countedLeaves hi
  rw [hw]
  exact w_of_mem_countedLeaves (List.getElem_mem hi) (hsym.symm.trans (hheld.sym_of_hasLeaf hl))

end

/-! ### The command -/

/-- The state `Build` leaves when the tree found is `r` (R185). -/
def putTree (r : Table Node × Nat × Nat) (s : State) : State :=
  { clearArena s with arena := r.1, nodeCnt := r.2.1, root := some r.2.2, tmode := .static }

/-- R185: `Build` with two or more distinct symbols. -/
theorem build_ok {s : State} {r : Table Node × Nat × Nat} (htwo : 2 ≤ s.distinct) (hr : builtTree s.freq = some r) :
    build s = .ok () (putTree r s) := by
  refine (run_bind_ok _ ((checkDistinct_eq s).trans (if_neg (Nat.not_lt.mpr htwo)))).trans ?_
  rw [run_modify_bind, run_get_bind, clearArena_freq, hr]
  rfl

/-- Settles O34: the loop of `Build` keeps how each entry was made (`Merging.merge`) and ends with one tree of the symbols counted
(`builtTree_counted`). -/
theorem fbBuildBuildsTree : Obligations.FbBuildBuildsTree := by
  intro s hf hd htwo
  have htwo' : 2 ≤ nonzeroCount s := hd ▸ htwo
  obtain ⟨r, T, hr, hT⟩ := builtTree_counted (Nat.lt_of_lt_of_le Nat.zero_lt_two htwo')
  have hnodes : r.2.1 = 2 * s.distinct - 1 := hd ▸ hT.nodeCnt
  have hrule : ruleOf .fbBuild s = .ok (BitVec.ofNat 64 (2 * s.distinct - 1)) (putTree r s) := by
    rw [← hnodes]
    exact run_bind_ok _ (build_ok htwo hr)
  obtain ⟨-, hweighted⟩ := hT.forest.held T List.mem_cons_self
  obtain ⟨w, hm⟩ := hT.merging
  have hseed := isSeed_of_mem_countedLeaves (freq := s.freq)
  have hlen : (countedLeaves s.freq).length = s.distinct := (length_countedLeaves s).trans hd.symm
  refine ⟨_, T, exec_ok rfl (by simp [hf]) rfl hrule, endsOk_finishOk _ rfl rfl rfl, hT.treeAt rfl rfl rfl, hT.static htwo',
    hweighted, hT.leafCount.trans hd.symm, hnodes, ?_, fun b => hT.mem_syms_iff,
    hT.syms.nodup_iff.mpr (nodup_sym_countedLeaves s.freq), fun i b => hT.w_of_hasLeaf, fun i l r' => hm.w_le hseed,
    fun i hi => (hm.leaf hseed (hlen.symm ▸ hi)).1, fun i j hij hj => ?_, fun n hle hlt => ?_, rfl, rfl, rfl⟩
  · have := hm.root_succ
    rw [← hT.root]
    omega
  · obtain ⟨-, hsymi, -⟩ := hm.leaf hseed (hlen.symm ▸ hij.trans hj)
    obtain ⟨-, hsymj, -⟩ := hm.leaf hseed (hlen.symm ▸ hj)
    change (nodeAt r.1 i).sym.toNat < (nodeAt r.1 j).sym.toNat
    rw [hsymi, hsymj]
    exact List.pairwise_iff_getElem.mp (pairwise_sym_countedLeaves s.freq) _ _ _ _ hij
  · obtain ⟨x, y, hxy⟩ := hm.made n (hlen.trans_le hle) (hnodes ▸ hlt)
    exact ⟨x, y, hxy.kind, hxy.left, hxy.right, hxy.first, hxy.second, hxy.inOrder, hxy.least⟩

end Sys2Proof.Machine
end

section
namespace Sys2Proof.Machine

-- One declaration after the other: the threads of the whole text together would pass the check's memory limit.
set_option Elab.async false

/-! ## Static codes (43_static_coder.md R200 to R202) -/

/-! ### The number of symbols with a code -/

/-- The numbers below `n` that name an element of a list are as many as its different elements. -/
theorem countP_range_eq_length_dedup {α : Type} [DecidableEq α] {l : List α} {f : α → Nat} {n : Nat} {p : Nat → Bool}
    (hinj : ∀ a ∈ l, ∀ b ∈ l, f a = f b → a = b) (hlt : ∀ a ∈ l, f a < n) (hp : ∀ k, k < n → (p k = true ↔ ∃ a ∈ l, f a = k)) :
    (List.range n).countP p = l.dedup.length := by
  have hnodup : (l.dedup.map f).Nodup :=
    List.Nodup.map_on (fun a ha b hb => hinj a (List.mem_dedup.mp ha) b (List.mem_dedup.mp hb)) l.nodup_dedup
  have hperm : ((List.range n).filter p).Perm (l.dedup.map f) := by
    refine (List.perm_ext_iff_of_nodup (List.nodup_range.filter p) hnodup).mpr fun k => ?_
    simp only [List.mem_filter, List.mem_range, List.mem_map, List.mem_dedup]
    refine ⟨fun ⟨hk, h⟩ => (hp k hk).mp h, fun ⟨a, ha, hk⟩ => ?_⟩
    have hkn : k < n := hk ▸ hlt a ha
    exact ⟨hkn, (hp k hkn).mpr ⟨a, ha, hk⟩⟩
  rw [List.countP_eq_length_filter, hperm.length_eq, List.length_map]

/-- R11: a byte as a 9-bit symbol is the same number. -/
theorem toNat_setWidth_byte (b : Byte) : (b.setWidth 9).toNat = b.toNat := by
  have := b.isLt
  simp
  omega

/-- R200: the symbols with a code are the tree's. -/
theorem CodesOf.codeLen_pos_iff {s : State} {T : Tree} (h : CodesOf s T) (h2 : 2 ≤ T.leafCount) {b : Byte} :
    0 < s.codeLen b ↔ b.setWidth 9 ∈ T.syms := by
  refine ⟨fun hpos => ?_, h.codeLen_pos h2⟩
  rw [← Tree.codeOf_isSome]
  by_contra hnone
  rw [State.codeLen, h b, Option.not_isSome_iff_eq_none.mp hnone] at hpos
  exact absurd hpos (by simp)

/-- R202. -/
theorem CodesOf.codeCount_eq {s : State} {T : Tree} (h : CodesOf s T) (hT : T.Static) : codeCount s = T.syms.dedup.length := by
  obtain ⟨htwo, -, hbyte⟩ := hT
  rw [codeCount, Table.firstN, List.countP_map]
  refine countP_range_eq_length_dedup (f := BitVec.toNat) (fun a _ b _ => BitVec.eq_of_toNat_eq) hbyte fun k hk => ?_
  have hval : (BitVec.ofNat 8 k).toNat = k := Nat.mod_eq_of_lt hk
  have hiff := h.codeLen_pos_iff htwo (b := BitVec.ofNat 8 k)
  rw [State.codeLen, State.codeOf, hval] at hiff
  rw [Function.comp_apply, decide_eq_true_iff, hiff]
  refine ⟨fun hmem => ⟨_, hmem, (toNat_setWidth_byte _).trans hval⟩, fun ⟨a, ha, hak⟩ => ?_⟩
  rwa [BitVec.eq_of_toNat_eq (((toNat_setWidth_byte _).trans hval).trans hak.symm)]

/-! ### `SH.MKCODES` -/

/-- R201, R202: `SH.MKCODES` on a static tree. -/
theorem exec_shMkcodes_good {s : State} {T : Tree} (hf : s.faulted = false) (hm : s.tmode = .static) (h : TreeAt s T) (hT : T.Static) :
    ∃ c, exec .shMkcodes s = .next (finishOk (BitVec.ofNat 64 T.syms.dedup.length) (setCodesValid { s with codeBits := c }))
      ∧ CodesOf { s with codeBits := c } T := by
  obtain ⟨c, hc, hcodes⟩ := mkCodes_good h hT
  have hadm : admitted .shMkcodes s = true := by simp [admitted, hm]
  have hcount : codeCount (setCodesValid { s with codeBits := c }) = T.syms.dedup.length :=
    CodesOf.codeCount_eq (s := setCodesValid { s with codeBits := c }) hcodes hT
  refine ⟨c, exec_ok rfl (by simp [hf]) hadm ((run_bind_ok _ hc).trans ?_), hcodes⟩
  rw [run_get_bind, run_pure, hcount]

/-- Settles O35: the walk gives the paths (`mkCodes_good`), and the symbols with a code are counted (`CodesOf.codeCount_eq`). -/
theorem shMkcodesDerivesPaths : Obligations.ShMkcodesDerivesPaths := by
  intro s T hf hm h hT
  obtain ⟨c, hexec, hcodes⟩ := exec_shMkcodes_good hf hm h hT
  exact ⟨_, hexec, endsOk_finishOk _ rfl rfl rfl, hcodes, rfl, rfl⟩

/-- R200: two symbols of which one's code starts with the other's are the same symbol. -/
theorem Tree.codeOf_inj_of_prefix {T : Tree} {a b : BitVec 9} {p q : Bits} (ha : T.codeOf a = some p) (hb : T.codeOf b = some q)
    (h : p <+: q) : a = b := by
  obtain ⟨r, rfl⟩ := h
  have hleaf := Tree.leafAt_codeOf ha
  obtain rfl := Tree.leafAt_append hleaf (Tree.leafAt_codeOf hb)
  simpa [hleaf] using Tree.leafAt_codeOf hb

/-- R39: a code of the table that is not empty is the tree's. -/
theorem CodesOf.codeOf_eq_some {s : State} {T : Tree} (h : CodesOf s T) {b : Byte} (hb : s.codeLen b ≠ 0) :
    T.codeOf (b.setWidth 9) = some (s.codeOf b) := by
  rw [State.codeLen] at hb
  rw [h b] at hb ⊢
  cases hc : T.codeOf (b.setWidth 9) with
  | none => exact absurd rfl (hc ▸ hb)
  | some p => rfl

/-- Settles O36: the codes are paths to leaves, and no such path goes on from another (`Tree.codeOf_inj_of_prefix`). -/
theorem codesArePrefixFree : Obligations.CodesArePrefixFree := by
  intro s t T hf hm h hT ht b c hbc hb hc hprefix
  obtain ⟨codes, hexec, hcodes⟩ := exec_shMkcodes_good hf hm h hT
  obtain rfl : finishOk _ (setCodesValid { s with codeBits := codes }) = t := by simpa [hexec] using ht
  have hsym := Tree.codeOf_inj_of_prefix (hcodes.codeOf_eq_some hb) (hcodes.codeOf_eq_some hc) hprefix
  have hnat := congrArg BitVec.toNat hsym
  rw [toNat_setWidth_byte, toNat_setWidth_byte] at hnat
  exact hbc (BitVec.eq_of_toNat_eq hnat)

end Sys2Proof.Machine
end

section
namespace Sys2Proof.Machine

-- One declaration after the other: the threads of the whole text together would pass the check's memory limit.
set_option Elab.async false

/-! ## `SH.ENCSYM` and `SH.FIXUP` (R203, R215) -/

/-- R203: a symbol with a code is encoded, and the accumulator keeps rule R22. -/
theorem encSym_good {s : State} {b : Byte} (hb : 0 < s.codeLen b) (h : PortsGood s) :
    ∃ u, encSym b s = .ok () u ∧ Writes s u (s.codeOf b) ∧ (s.acc.toNat < 2 ^ s.accCnt.toNat → u.acc.toNat < 2 ^ u.accCnt.toNat) := by
  obtain ⟨u, hu, hw, hacc⟩ := emitBits_good (s.codeOf b) h
  refine ⟨u, ?_, hw, hacc⟩
  rw [encSym, run_get_bind, if_neg hb.ne', hu]

/-- Settles O37: `encSym_good`, with what the end of the command leaves alone. -/
theorem shEncsymWritesCode : Obligations.ShEncsymWritesCode := by
  intro s b hf hv hb h
  obtain ⟨u, hu, hw, -⟩ := encSym_good hb h
  have hadm : admitted (.shEncsym b) s = true := by simp [admitted, hv, hb]
  have hlen : u.codeLen b = s.codeLen b := by
    rw [hw.frame]
    rfl
  have hrule : ruleOf (.shEncsym b) s = .ok (BitVec.ofNat 64 (s.codeLen b)) u := by
    rw [← hlen]
    exact run_bind_ok _ hu
  exact ⟨_, exec_ok rfl (by simp [hf]) hadm hrule, hw.endsOk _, hw.bits, hw.frame_finishOk _⟩

/-- R215: one byte is stored at offset 0. -/
theorem fixup_good (ig : Byte) {s : State} (h : PortsGood s) :
    fixup ig s = .ok () { usePort s with snk := Memory.store s.snk 0 ig, hdrIgnore := ig } := run_bind_ok _ (memWrite_good 0 [ig] h)

/-- Settles O42: `fixup_good`, and what the sink reads after one byte is stored (`Memory.read_store`). -/
theorem shFixupOverwritesByteZero : Obligations.ShFixupOverwritesByteZero := by
  intro s ig hig hf hobuf hpos h
  have hlegal : (Instr.shFixup ig).wf = true := by simp [Instr.wf, ignoreLegal, hig]
  have hadm : admitted (.shFixup ig) s = true := by simp [admitted, State.obufLen, hobuf, hpos]
  exact ⟨_, exec_ok hlegal (by simp [hf]) hadm (run_bind_ok _ (fixup_good ig h)), endsOk_finishOk _ rfl rfl rfl,
    (Memory.read_store s.snk 0 0 ig).trans (if_pos rfl), fun a ha => (Memory.read_store s.snk 0 a ig).trans (if_neg ha), rfl, rfl⟩

end Sys2Proof.Machine
end

section
namespace Sys2Proof.Machine

-- One declaration after the other: the threads of the whole text together would pass the check's memory limit.
set_option Elab.async false

/-! ## `SH.DECSYM` (R205 to R207) -/

/-! ### Bits taken and bytes emitted -/

/-- The bits `p` were taken from the unread ones, the bytes `bs` were appended to the emitted stream, and nothing else of the state
changed but the answers used up. -/
structure Decodes (s u : State) (p : Bits) (bs : List Byte) : Prop where
  bits : unread s = p ++ unread u
  cursor : cursor u = cursor s + p.length
  bytes : EmitsBytes s u bs
  good : PortsGood u
  frame : u = { s with ports := u.ports, rdByte := u.rdByte, rdBit := u.rdBit, obuf := u.obuf, sinkPos := u.sinkPos, snk := u.snk }

section
variable {s t u : State} {p q : Bits} {bs cs : List Byte}

theorem Decodes.trans (h1 : Decodes s t p bs) (h2 : Decodes t u q cs) : Decodes s u (p ++ q) (bs ++ cs) where
  bits := by rw [h1.bits, h2.bits, List.append_assoc]
  cursor := by rw [h2.cursor, h1.cursor, List.length_append, Nat.add_assoc]
  bytes := h1.bytes.trans h2.bytes
  good := h2.good
  frame := by rw [h2.frame, h1.frame]

/-- Bits are taken first, then bytes are emitted. -/
theorem Emits.decodes (h : Emits t u bs) (hbits : unread s = p ++ unread t) (hcursor : Machine.cursor t = Machine.cursor s + p.length)
    (hframe : t = { s with ports := t.ports, rdByte := t.rdByte, rdBit := t.rdBit }) : Decodes s u p bs where
  bits := by rw [hbits, h.frame]; rfl
  cursor := by rw [← hcursor, h.frame]; rfl
  bytes := by
    have hbytes := h.bytes
    rw [hframe] at hbytes
    exact hbytes
  good := h.good
  frame := by rw [h.frame, hframe]

theorem Decodes.treeAt (h : Decodes s u p bs) {T : Tree} (ht : TreeAt s T) : TreeAt u T := by
  rw [h.frame]
  exact ht

/-- R91: the end of the command adds the response, `RES` and `CSEQ` to what the decoder did. -/
theorem Decodes.endsOk (h : Decodes s u p bs) (v : Word) : EndsOk s (finishOk v u) v := by
  apply endsOk_finishOk <;> rw [h.frame]

end

/-! ### With fewer than `ig` bits unread -/

theorem remaining_eq (s : State) : remaining s = (unread s).length := by simp [remaining, unread, Machine.cursor, State.srcLen]

/-- R141: with fewer than `ig` bits unread there is no logical end. -/
theorem atEnd_of_remaining_lt {ig : Nat} {s : State} (h : remaining s < ig) : atEnd ig s = false := by
  rw [remaining] at h
  simp only [atEnd, decide_eq_false_iff_not]
  omega

/-- The end of a run that comes to the end of SRC instead of a logical end (R295). -/
def raiseAtEnd : EStateM.Result Stop State Nat → EStateM.Result Stop State Nat
  | .ok v t => if v = endOfStream then .error (.raised .io t.rdByte) t else .ok v t
  | .error e t => .error e t

theorem remaining_lt_of_readBit {s t : State} {b : Bool} (h : readBit s = .ok b t) : remaining t < remaining s := by
  obtain ⟨_, _, hget, h⟩ := bind_ok_iff.mp h
  cases hget
  obtain ⟨x, u, hu, hmove⟩ := bind_ok_iff.mp h
  obtain ⟨hl, rfl⟩ := srcByte_ok hu
  cases hmove
  exact Nat.lt_of_succ_le (remaining_advanceBit (s := usePort s) hl).le

/-- R205: a round away from the logical end begins with a bit. -/
theorem decLoop_of_not_atEnd {ig k n : Nat} {s : State} (h : atEnd ig s = false) :
    decLoop ig (k + 1) n s = (do
      let bit ← readBit
      let m ← fromTree (childOf (s.node n) bit)
      if (s.node m).kind = .leaf then do
        emitByte ((s.node m).sym.setWidth 8)
        pure ((s.node m).sym.setWidth 8).toNat
      else decLoop ig k m : Cmd Nat) s := by
  rw [decLoop, run_get_bind, if_neg (Bool.eq_false_iff.mp h)]

/-- R205, R295: with fewer than `ig` bits unread the loop runs as with the logical end at the end of SRC, where it raises. -/
theorem decLoop_short {ig k n : Nat} {s : State} (h : remaining s < ig) : decLoop ig k n s = raiseAtEnd (decLoop 0 k n s) := by
  induction k generalizing n s with
  | zero => rfl
  | succ k ih =>
    have hno := atEnd_of_remaining_lt h
    by_cases hend : atEnd 0 s = true
    · have hbyte : s.src.length ≤ s.rdByte := by
        have := s.rdBit.isLt
        rw [atEnd, decide_eq_true_iff, State.srcLen] at hend
        omega
      rw [decLoop_of_not_atEnd hno, run_bind_error _ (readBit_end hbyte), decLoop, run_get_bind, if_pos hend]
      rfl
    have hend' : atEnd 0 s = false := Bool.eq_false_iff.mpr hend
    cases hb : readBit s with
    | error e t =>
      rw [decLoop_of_not_atEnd hno, decLoop_of_not_atEnd hend', run_bind_error _ hb, run_bind_error _ hb]
      rfl
    | ok b t =>
      cases hm : childOf (s.node n) b with
      | none =>
        rw [decLoop_of_not_atEnd hno, decLoop_of_not_atEnd hend', run_bind_ok _ hb, run_bind_ok _ hb, hm]
        rfl
      | some m =>
        rw [decLoop_round hno hb hm, decLoop_round hend' hb hm]
        by_cases hleaf : (s.node m).kind = .leaf
        · have hbyte : ((s.node m).sym.setWidth 8).toNat ≠ endOfStream := Nat.ne_of_lt ((s.node m).sym.setWidth 8).isLt
          rw [if_pos hleaf, if_pos hleaf, run_bind]
          cases emitByte ((s.node m).sym.setWidth 8) t with
          | error e u => rfl
          | ok a u => exact (if_neg hbyte).symm
        · rw [if_neg hleaf, if_neg hleaf]
          exact ih ((remaining_lt_of_readBit hb).trans h)

/-! ### `DecSym` -/

/-- R205: the loop starts at the root. -/
theorem decSym_eq {s : State} {T : Tree} (h : TreeAt s T) (ig : Nat) : decSym ig s = decLoop ig (remaining s + 1) T.idx s := by
  obtain ⟨hroot, -⟩ := h
  rw [decSym, run_get_bind, hroot]
  rfl

/-- R38: the root of a tree of two or more leaves is no leaf. -/
theorem Tree.leafAt_nil {T : Tree} (h : 2 ≤ T.leafCount) : T.leafAt [] = none := by
  cases T with
  | leaf i x => exact absurd h (by simp)
  | node i l r => rfl

/-- R205: a whole code is consumed and its symbol emitted when the logical end is not inside it. -/
theorem decSym_good {s : State} {T : Tree} {ig : Nat} {p rest : Bits} {sym : BitVec 9} (h : TreeAt s T) (htwo : 2 ≤ T.leafCount)
    (hg : PortsGood s) (hu : unread s = p ++ rest) (hp : T.leafAt p = some sym)
    (hend : ig ≤ rest.length ∨ (unread s).length < ig) :
    ∃ u, decSym ig s = .ok (sym.setWidth 8).toNat u ∧ Decodes s u p [sym.setWidth 8] ∧ unread u = rest := by
  obtain ⟨-, hheld, -⟩ := id h
  have hne : p ≠ [] := by
    rintro rfl
    exact absurd hp (by simp [Tree.leafAt_nil htwo])
  have hk : p.length < remaining s + 1 := by
    rw [remaining_eq, hu, List.length_append]
    omega
  have finish : ∀ {ig' : Nat}, ig' ≤ rest.length → ∃ u, decLoop ig' (remaining s + 1) T.idx s = .ok (sym.setWidth 8).toNat u
      ∧ Decodes s u p [sym.setWidth 8] ∧ unread u = rest := fun hig => by
    obtain ⟨t, u, hrun, hemits, hrest, hcursor, hframe⟩ := decLoop_good hheld hp hne hg hu hig hk
    refine ⟨u, hrun, hemits.decodes (by rw [hu, hrest]) hcursor hframe, ?_⟩
    rw [← hrest, hemits.frame]
    rfl
  rw [decSym_eq h]
  rcases hend with hlong | hshort
  · exact finish hlong
  · obtain ⟨u, hrun, hu⟩ := finish (Nat.zero_le _)
    have hbyte : (sym.setWidth 8).toNat ≠ endOfStream := Nat.ne_of_lt (sym.setWidth 8).isLt
    refine ⟨u, ?_, hu⟩
    rw [decLoop_short (remaining_eq s ▸ hshort), hrun]
    exact if_neg hbyte

/-- R206: bits that complete no code are consumed up to the logical end. -/
theorem decSym_stops {s : State} {T : Tree} {ig : Nat} {p rest : Bits} (h : TreeAt s T) (hg : PortsGood s)
    (hcur : cursor s ≤ 8 * s.src.length) (hu : unread s = p ++ rest) (hrest : rest.length = ig)
    (hno : ∀ q, q <+: p → T.leafAt q = none) :
    ∃ u, decSym ig s = .ok endOfStream u ∧ unread u = rest ∧ cursor u = cursor s + p.length ∧ PortsGood u
      ∧ u = { s with ports := u.ports, rdByte := u.rdByte, rdBit := u.rdBit } := by
  obtain ⟨-, hheld, -⟩ := id h
  rw [decSym_eq h]
  refine decLoop_stops hheld hno hg hu hrest hcur ?_
  rw [remaining_eq, hu, List.length_append]
  omega

/-- R205, R295: fewer than `ig` bits that complete no code are consumed, and then SRC has no more. -/
theorem decSym_runsOut {s : State} {T : Tree} {ig : Nat} (h : TreeAt s T) (hg : PortsGood s) (hcur : cursor s ≤ 8 * s.src.length)
    (hshort : (unread s).length < ig) (hno : ∀ q, q <+: unread s → T.leafAt q = none) :
    ∃ u, decSym ig s = .error (.raised .io s.src.length) u ∧ cursor u = 8 * s.src.length
      ∧ u = { s with ports := u.ports, rdByte := u.rdByte, rdBit := u.rdBit } := by
  obtain ⟨u, hrun, -, hcursor, -, hframe⟩ := decSym_stops (ig := 0) (rest := []) h hg hcur (List.append_nil _).symm rfl hno
  have hlast : cursor u = 8 * s.src.length := by
    have hlen : (unread s).length = 8 * s.src.length - cursor s := by simp [unread]
    omega
  have hbyte : u.rdByte = s.src.length := by
    have := u.rdBit.isLt
    rw [cursor] at hlast
    omega
  refine ⟨u, ?_, hlast, hframe⟩
  rw [decSym_eq h] at hrun ⊢
  rw [decLoop_short (remaining_eq s ▸ hshort), hrun, ← hbyte]
  rfl

/-! ### The command -/

theorem shDecsym_wf {ig : Byte} (hig : ig.toNat ≤ 7) : (Instr.shDecsym ig).wf = true := by simp [Instr.wf, ignoreLegal, hig]

theorem shDecsym_admitted {s : State} (ig : Byte) (hm : s.tmode = .static) : admitted (.shDecsym ig) s = true := by simp [admitted, hm]

/-- Settles O38: a whole code (`decSym_good`), and the end of SRC inside one (`decSym_runsOut`). -/
theorem shDecsymDecodesSymbol : Obligations.ShDecsymDecodesSymbol := by
  refine ⟨fun s T ig p rest sym hig hf hm h htwo hg hu hp hend => ?_, fun s T ig hig hf hm h hg hcur hshort hno => ?_⟩
  · obtain ⟨u, hrun, hdec, hrest⟩ := decSym_good h htwo hg hu hp hend
    have hexec := exec_ok (shDecsym_wf hig) (by simp [hf]) (shDecsym_admitted ig hm) (run_bind_ok _ hrun)
    have hval : BitVec.ofNat 64 (sym.setWidth 8).toNat = (sym.setWidth 8).setWidth 64 := BitVec.ofNat_toNat 64 _
    rw [hval] at hexec
    refine ⟨_, hexec, hdec.endsOk _, hdec.bytes, hrest, hdec.cursor, ?_⟩
    rw [hdec.frame]
    rfl
  · obtain ⟨u, hrun, hcursor, hframe⟩ := decSym_runsOut h hg hcur hshort hno
    refine ⟨_, exec_raised (shDecsym_wf hig) (by simp [hf]) (shDecsym_admitted ig hm) (run_bind_error _ hrun), ?_, hcursor, ?_⟩
    · apply endsFaulted_takeFault
      rw [hframe]
    · rw [hframe]
      rfl

/-- Settles O39: `decSym_stops`, with what the end of the command leaves alone. -/
theorem shDecsymStopsAtLogicalEnd : Obligations.ShDecsymStopsAtLogicalEnd := by
  intro s T ig p rest hig hf hm h hg hcur hu hrest hno
  obtain ⟨u, hrun, hunread, hcursor, -, hframe⟩ := decSym_stops h hg hcur hu hrest hno
  refine ⟨_, exec_ok (shDecsym_wf hig) (by simp [hf]) (shDecsym_admitted ig hm) (run_bind_ok _ hrun), ?_, hunread, hcursor, ?_⟩
  · apply endsOk_finishOk <;> rw [hframe]
  · rw [hframe]
    rfl

end Sys2Proof.Machine
end

section
namespace Sys2Proof.Machine

-- One declaration after the other: the threads of the whole text together would pass the check's memory limit.
set_option Elab.async false

/-! ## `SH.RDHDR` (R211 to R213) -/

/-! ### Bytes from the source -/

section
variable {s : State}

/-- The state with the byte cursor at `r` and the answers `ps` to come: what a reader of bytes writes. -/
def readTo (ps : List PortAnswer) (r : Nat) (s : State) : State := { s with ports := ps, rdByte := r }

/-- R142: the next byte. -/
theorem takeByte_cons (onEnd : ErrKind) {b : Byte} {bs : List Byte} (h : PortsGood s) (hs : s.src.drop s.rdByte = b :: bs) :
    takeByte onEnd s = .ok b (readTo (s.ports.drop 1) (s.rdByte + 1) s) ∧ s.src.drop (s.rdByte + 1) = bs ∧ s.rdByte < s.src.length := by
  have hl : s.rdByte < s.src.length := by
    have hlen := congrArg List.length hs
    simp only [List.length_drop, List.length_cons] at hlen
    omega
  rw [List.drop_eq_getElem_cons hl] at hs
  obtain ⟨rfl, hbs⟩ := List.cons.inj hs
  exact ⟨takeByte_good onEnd h hl, hbs, hl⟩

/-- R142: no byte is left. -/
theorem takeByte_nil (onEnd : ErrKind) (hl : s.rdByte ≤ s.src.length) (hs : s.src.drop s.rdByte = []) :
    takeByte onEnd s = .error (.raised onEnd s.src.length) s := by
  have hend : s.src.length ≤ s.rdByte := List.drop_eq_nil_iff.mp hs
  rw [takeByte_end onEnd hend, Nat.le_antisymm hl hend]

/-- A buffer filled from entry `i` on. -/
def putFrom (put : Nat → Byte → State → State) (i : Nat) : List Byte → State → State
  | [], u => u
  | b :: bs, u => putFrom put (i + 1) bs (put i b u)

/-- `put` stores one byte in a buffer: it looks at nothing a reader of bytes writes, and does not write SRC. -/
structure Stores (put : Nat → Byte → State → State) : Prop where
  commutes : ∀ k b ps r u, put k b (readTo ps r u) = readTo ps r (put k b u)
  keepsSrc : ∀ k b u, (put k b u).src = u.src

theorem Stores.putFrom_readTo {put : Nat → Byte → State → State} (hput : Stores put) (i : Nat) (bs : List Byte) (ps : List PortAnswer)
    (r : Nat) (u : State) : putFrom put i bs (readTo ps r u) = readTo ps r (putFrom put i bs u) := by
  induction bs generalizing i u with
  | nil => rfl
  | cons b bs ih => rw [putFrom, putFrom, hput.commutes, ih]

/-- R211: a loop that fills a buffer from the source, of which the bytes `bs` are left. -/
theorem takeBytes_eq {put : Nat → Byte → State → State} (hput : Stores put) (n i : Nat) {bs : List Byte} (h : PortsGood s)
    (hl : s.rdByte ≤ s.src.length) (hs : s.src.drop s.rdByte = bs) :
    ∃ ps, (∀ a ∈ ps, a = PortAnswer.done)
      ∧ upFrom (fun k => do let b ← takeByte .malformedHeader; modify (put k b)) n i s =
        if n ≤ bs.length then .ok () (readTo ps (s.rdByte + n) (putFrom put i (bs.take n) s))
        else .error (.raised .malformedHeader s.src.length) (readTo ps s.src.length (putFrom put i bs s)) := by
  induction n generalizing i s bs with
  | zero => exact ⟨s.ports, h, (if_pos (Nat.zero_le _)).symm⟩
  | succ n ih =>
    rw [upFrom]
    cases bs with
    | nil =>
      have hend : s.rdByte = s.src.length := Nat.le_antisymm hl (List.drop_eq_nil_iff.mp hs)
      refine ⟨s.ports, h, ?_⟩
      rw [run_bind_error _ (run_bind_error _ (takeByte_nil _ hl hs)), if_neg (by simp), ← hend]
      rfl
    | cons b bs =>
      obtain ⟨hb, hbs, hlt⟩ := takeByte_cons .malformedHeader h hs
      have hround := run_bind_ok (fun b => modify (put i b)) hb
      rw [run_modify, hput.commutes] at hround
      have hsrc : (readTo (s.ports.drop 1) (s.rdByte + 1) (put i b s)).src = s.src := hput.keepsSrc i b s
      obtain ⟨ps, hps, hrest⟩ := ih (s := readTo (s.ports.drop 1) (s.rdByte + 1) (put i b s)) (bs := bs) (i + 1)
        (fun a ha => h a (List.mem_of_mem_drop ha)) (hsrc ▸ hlt) (hsrc ▸ hbs)
      rw [hsrc, hput.putFrom_readTo, hput.putFrom_readTo] at hrest
      refine ⟨ps, hps, (run_bind_ok _ hround).trans (hrest.trans ?_)⟩
      simp only [List.length_cons, Nat.add_le_add_iff_right, List.take_succ_cons, putFrom]
      rw [Nat.add_comm n 1, ← Nat.add_assoc]
      rfl

/-- R211: two bytes, one after the other, of which the source has at most one. -/
theorem takeTwo_short {α : Type} (f : Byte → Byte → Cmd α) {bs : List Byte} (h : PortsGood s) (hl : s.rdByte ≤ s.src.length)
    (hs : s.src.drop s.rdByte = bs) (hshort : bs.length < 2) :
    ∃ ps r, (do let a ← takeByte .malformedHeader; let b ← takeByte .malformedHeader; f a b : Cmd α) s
      = .error (.raised .malformedHeader s.src.length) (readTo ps r s) := by
  match bs, hshort with
  | [], _ => exact ⟨s.ports, s.rdByte, run_bind_error _ (takeByte_nil _ hl hs)⟩
  | [a], _ =>
    obtain ⟨ha, hnil, hlt⟩ := takeByte_cons .malformedHeader h hs
    exact ⟨_, _, (run_bind_ok _ ha).trans (run_bind_error _ (takeByte_nil (s := readTo _ _ s) _ hlt hnil))⟩

theorem takeTwo_cons {α : Type} (f : Byte → Byte → Cmd α) {a b : Byte} {bs : List Byte} (h : PortsGood s)
    (hs : s.src.drop s.rdByte = a :: b :: bs) :
    ∃ ps, (∀ x ∈ ps, x = PortAnswer.done)
      ∧ (do let a ← takeByte .malformedHeader; let b ← takeByte .malformedHeader; f a b : Cmd α) s
        = f a b (readTo ps (s.rdByte + 2) s)
      ∧ s.src.drop (s.rdByte + 2) = bs ∧ s.rdByte + 2 ≤ s.src.length := by
  obtain ⟨ha, hcons, -⟩ := takeByte_cons .malformedHeader h hs
  have hgood : ∀ x ∈ s.ports.drop 1, x = PortAnswer.done := fun x hx => h x (List.mem_of_mem_drop hx)
  obtain ⟨hb, hrest, hlt⟩ := takeByte_cons (s := readTo (s.ports.drop 1) (s.rdByte + 1) s) .malformedHeader hgood hcons
  exact ⟨_, fun x hx => hgood x (List.mem_of_mem_drop hx), (run_bind_ok _ ha).trans (run_bind_ok _ hb), hrest, hlt⟩

end

/-! ### The rule in its parts -/

/-- The fields `SH.RDHDR` may write, beside those of the end of a command. -/
def HeaderFrame (s u : State) : Prop :=
  u = { s with
    ports := u.ports, rdByte := u.rdByte, hdrIgnore := u.hdrIgnore, hdrSig := u.hdrSig, shapeSize := u.shapeSize,
    leafCnt := u.leafCnt, shape := u.shape, leaves := u.leaves, flatValid := u.flatValid, arena := u.arena, nodeCnt := u.nodeCnt,
    root := u.root, tmode := u.tmode, codesValid := u.codesValid }

theorem HeaderFrame.trans {s t u : State} (h1 : HeaderFrame s t) (h2 : HeaderFrame t u) : HeaderFrame s u := by
  rw [HeaderFrame, h2, h1]

/-- `RdHdr` from the shape bytes on: the buffers, and `Deser` (R211). -/
def rdBuffers (size cnt : Nat) : Cmd Unit := do
  modify fun s => { s with shapeSize := size, leafCnt := cnt }
  upFrom takeShape size 0
  modify fun s => { s with shape := Table.clearFrom s.shape size }
  upFrom takeLeaf cnt 0
  modify setFlatValid
  deser

/-- `RdHdr` from byte 2 of the header on (R211). -/
def rdSizes (ig : Byte) : Cmd Unit := do
  let ss ← takeByte .malformedHeader
  let lm ← takeByte .malformedHeader
  let s ← get
  raiseIf (7 < ig.toNat) .malformedHeader s.rdByte
  raiseIf (ss.toNat ≠ ceil8 (shapeBits (lm.toNat + 1))) .malformedHeader s.rdByte
  rdBuffers ss.toNat (lm.toNat + 1)

theorem rdHdr_eq : rdHdr = (do
    let ig ← takeByte .malformedHeader
    let sig ← takeByte .malformedHeader
    modify fun s => { s with hdrIgnore := ig, hdrSig := sig }
    let s ← get
    raiseIf (sig ≠ s.params.sigStatic) .badSignature sig.toNat
    rdSizes ig) := rfl

/-! ### Shape and leaves -/

/-- `SHAPE[k] <- b` (R211). -/
def putShape (k : Nat) (b : Byte) (s : State) : State := { s with shape := Table.set 0#8 s.shape k b }

/-- `LEAVES[k] <- b` (R211). -/
def putLeaf (k : Nat) (b : Byte) (s : State) : State := { s with leaves := Table.set 0#8 s.leaves k b }

theorem stores_putShape : Stores putShape := ⟨fun _ _ _ _ _ => rfl, fun _ _ _ => rfl⟩

theorem stores_putLeaf : Stores putLeaf := ⟨fun _ _ _ _ _ => rfl, fun _ _ _ => rfl⟩

theorem putFrom_putShape (i : Nat) (bs : List Byte) (s : State) :
    putFrom putShape i bs s = { s with shape := Table.setFrom 0#8 s.shape i bs } := by
  induction bs generalizing i s with
  | nil => rfl
  | cons b bs ih => exact ih (i + 1) (putShape i b s)

theorem putFrom_putLeaf (i : Nat) (bs : List Byte) (s : State) :
    putFrom putLeaf i bs s = { s with leaves := Table.setFrom 0#8 s.leaves i bs } := by
  induction bs generalizing i s with
  | nil => rfl
  | cons b bs ih => exact ih (i + 1) (putLeaf i b s)

theorem takeShapes_eq (n : Nat) {s : State} {bs : List Byte} (h : PortsGood s) (hl : s.rdByte ≤ s.src.length)
    (hs : s.src.drop s.rdByte = bs) :
    ∃ ps, (∀ a ∈ ps, a = PortAnswer.done) ∧ upFrom takeShape n 0 s =
      if n ≤ bs.length then .ok () (readTo ps (s.rdByte + n) { s with shape := Table.setFrom 0#8 s.shape 0 (bs.take n) })
      else .error (.raised .malformedHeader s.src.length)
        (readTo ps s.src.length { s with shape := Table.setFrom 0#8 s.shape 0 bs }) := by
  rw [← putFrom_putShape, ← putFrom_putShape]
  exact takeBytes_eq stores_putShape n 0 h hl hs

theorem takeLeaves_eq (n : Nat) {s : State} {bs : List Byte} (h : PortsGood s) (hl : s.rdByte ≤ s.src.length)
    (hs : s.src.drop s.rdByte = bs) :
    ∃ ps, (∀ a ∈ ps, a = PortAnswer.done) ∧ upFrom takeLeaf n 0 s =
      if n ≤ bs.length then .ok () (readTo ps (s.rdByte + n) { s with leaves := Table.setFrom 0#8 s.leaves 0 (bs.take n) })
      else .error (.raised .malformedHeader s.src.length)
        (readTo ps s.src.length { s with leaves := Table.setFrom 0#8 s.leaves 0 bs }) := by
  rw [← putFrom_putLeaf, ← putFrom_putLeaf]
  exact takeBytes_eq stores_putLeaf n 0 h hl hs

/-- The state after the first `size` of the bytes `bs` were taken as the shape of a tree of `cnt` leaves (R211). -/
def shapeRead (ps : List PortAnswer) (size cnt : Nat) (bs : List Byte) (s : State) : State :=
  readTo ps (s.rdByte + size) { s with
    shapeSize := size
    leafCnt := cnt
    shape := Table.clearFrom (Table.setFrom 0#8 s.shape 0 (bs.take size)) size }

/-- The state in which `RdHdr` starts `Deser`: the next `cnt` bytes were taken as the leaves (R211). -/
def filled (ps : List PortAnswer) (size cnt : Nat) (bs : List Byte) (s : State) : State :=
  setFlatValid (readTo ps (s.rdByte + size + cnt) { shapeRead ps size cnt bs s with
    leaves := Table.setFrom 0#8 s.leaves 0 ((bs.drop size).take cnt) })

/-- What is true of the state in which `RdHdr` starts `Deser`: the bytes taken stand in the buffers (R211). -/
structure Buffered (s : State) (shape leaves : List Byte) (w : State) : Prop where
  good : PortsGood w
  frame : HeaderFrame s w
  ignore : w.hdrIgnore = s.hdrIgnore
  sig : w.hdrSig = s.hdrSig
  size : w.shapeSize = shape.length
  cnt : w.leafCnt = leaves.length
  shapeBytes : Table.firstN 0#8 w.shape w.shapeSize = shape
  leafBytes : Table.firstN 0#8 w.leaves w.leafCnt = leaves
  flat : w.flatValid = true
  pos : w.rdByte = s.rdByte + shape.length + leaves.length

theorem buffered_filled {ps : List PortAnswer} (hps : ∀ a ∈ ps, a = PortAnswer.done) {size cnt : Nat} {bs : List Byte} (s : State)
    (h : size + cnt ≤ bs.length) : Buffered s (bs.take size) ((bs.drop size).take cnt) (filled ps size cnt bs s) := by
  have hsize : (bs.take size).length = size := List.length_take_of_le (by omega)
  have hcnt : ((bs.drop size).take cnt).length = cnt := List.length_take_of_le (by rw [List.length_drop]; omega)
  have hshape := Table.firstN_setFrom 0#8 s.shape (bs.take size)
  have hleaves := Table.firstN_setFrom 0#8 s.leaves ((bs.drop size).take cnt)
  rw [hsize] at hshape
  rw [hcnt] at hleaves
  refine ⟨hps, rfl, rfl, rfl, hsize.symm, hcnt.symm, ?_, hleaves, rfl, by rw [hsize, hcnt]; rfl⟩
  rw [← hshape]
  exact Table.firstN_congr _ _ _ _ fun k hk => (Table.get_clearFrom _ _ _ _).trans (if_pos hk)

/-- R211, R212: shape and leaves are taken, or the source ends inside them. -/
theorem rdBuffers_cases {s : State} {bs : List Byte} (size cnt : Nat) (h : PortsGood s) (hl : s.rdByte ≤ s.src.length)
    (hs : s.src.drop s.rdByte = bs) :
    (bs.length < size + cnt ∧ ∃ u, rdBuffers size cnt s = .error (.raised .malformedHeader s.src.length) u ∧ HeaderFrame s u)
    ∨ (size + cnt ≤ bs.length ∧ ∃ w, rdBuffers size cnt s = deser w ∧ Buffered s (bs.take size) ((bs.drop size).take cnt) w) := by
  have hlen : bs.length = s.src.length - s.rdByte := by rw [← hs, List.length_drop]
  obtain ⟨ps, hps, hshape⟩ := takeShapes_eq (s := { s with shapeSize := size, leafCnt := cnt }) size h hl hs
  by_cases hsize : size ≤ bs.length
  · rw [if_pos hsize] at hshape
    have hleft : (shapeRead ps size cnt bs s).src.drop (shapeRead ps size cnt bs s).rdByte = bs.drop size := by
      rw [← hs, List.drop_drop]
      rfl
    have hfits : s.rdByte + size ≤ s.src.length := by omega
    obtain ⟨qs, hqs, hleaves⟩ := takeLeaves_eq (s := shapeRead ps size cnt bs s) cnt hps hfits hleft
    rw [List.length_drop] at hleaves
    by_cases hcnt : cnt ≤ bs.length - size
    · rw [if_pos hcnt] at hleaves
      have hlong : size + cnt ≤ bs.length := by omega
      exact .inr ⟨hlong, filled qs size cnt bs s,
        (run_bind_ok _ hshape).trans ((run_modify_bind _ _ _).trans ((run_bind_ok _ hleaves).trans (run_modify_bind _ _ _))),
        buffered_filled hqs s hlong⟩
    · rw [if_neg hcnt] at hleaves
      exact .inl ⟨by omega, _,
        (run_bind_ok _ hshape).trans ((run_modify_bind _ _ _).trans (run_bind_error _ hleaves)), rfl⟩
  · rw [if_neg hsize] at hshape
    exact .inl ⟨by omega, _, (run_modify_bind _ _ _).trans (run_bind_error _ hshape), rfl⟩

/-! ### The first four bytes -/

/-- The state after the signature was read (R211). -/
def headRead (ps : List PortAnswer) (ig sig : Byte) (s : State) : State :=
  { readTo ps (s.rdByte + 2) s with hdrIgnore := ig, hdrSig := sig }

/-- R211, R212: the signature test. -/
theorem rdHdr_head {s : State} {ig sig : Byte} {bs : List Byte} (h : PortsGood s) (hs : s.src.drop s.rdByte = ig :: sig :: bs) :
    ∃ ps, (∀ a ∈ ps, a = PortAnswer.done)
      ∧ rdHdr s = (if sig ≠ s.params.sigStatic then .error (.raised .badSignature sig.toNat) (headRead ps ig sig s)
        else rdSizes ig (headRead ps ig sig s))
      ∧ s.src.drop (s.rdByte + 2) = bs ∧ s.rdByte + 2 ≤ s.src.length := by
  obtain ⟨ps, hps, hrun, hbs, hl⟩ := takeTwo_cons _ h hs
  rw [rdHdr_eq]
  refine ⟨ps, hps, hrun.trans ((run_modify_bind _ _ _).trans ((run_get_bind _ _).trans ?_)), hbs, hl⟩
  by_cases hsig : sig ≠ s.params.sigStatic
  · rw [if_pos hsig]
    exact run_bind_error _ (raiseIf_pos _ _ _ hsig)
  · rw [if_neg hsig]
    exact run_bind_ok _ (raiseIf_neg _ _ _ hsig)

/-- R211, R212: the tests on `ignoreBits` and the sizes. -/
theorem rdSizes_head {s : State} (ig : Byte) {ss lm : Byte} {bs : List Byte} (h : PortsGood s)
    (hs : s.src.drop s.rdByte = ss :: lm :: bs) :
    ∃ ps, (∀ a ∈ ps, a = PortAnswer.done)
      ∧ rdSizes ig s = (if 7 < ig.toNat ∨ ss.toNat ≠ ceil8 (2 * (lm.toNat + 1) - 1) then
          .error (.raised .malformedHeader (s.rdByte + 2)) (readTo ps (s.rdByte + 2) s)
        else rdBuffers ss.toNat (lm.toNat + 1) (readTo ps (s.rdByte + 2) s))
      ∧ s.src.drop (s.rdByte + 2) = bs ∧ s.rdByte + 2 ≤ s.src.length := by
  obtain ⟨ps, hps, hrun, hbs, hl⟩ := takeTwo_cons _ h hs
  refine ⟨ps, hps, hrun.trans ((run_get_bind _ _).trans ?_), hbs, hl⟩
  by_cases hig : 7 < ig.toNat
  · rw [if_pos (.inl hig)]
    exact run_bind_error _ (raiseIf_pos _ _ _ hig)
  refine (run_bind_ok _ (raiseIf_neg _ _ _ hig)).trans ?_
  by_cases hss : ss.toNat ≠ ceil8 (2 * (lm.toNat + 1) - 1)
  · rw [if_pos (.inr hss)]
    exact run_bind_error _ (raiseIf_pos _ _ _ hss)
  · rw [if_neg (not_or.mpr ⟨hig, hss⟩)]
    exact run_bind_ok _ (raiseIf_neg _ _ _ hss)

/-! ### The command -/

/-- The fields `SH.RDHDR` may write. -/
def RdhdrFrame (s t : State) : Prop :=
  t = { sameEnd t s with
    err := t.err, faulted := t.faulted, errinfo := t.errinfo, rdByte := t.rdByte, hdrIgnore := t.hdrIgnore, hdrSig := t.hdrSig,
    shapeSize := t.shapeSize, leafCnt := t.leafCnt, shape := t.shape, leaves := t.leaves, flatValid := t.flatValid, arena := t.arena,
    nodeCnt := t.nodeCnt, root := t.root, tmode := t.tmode, codesValid := t.codesValid }

theorem HeaderFrame.finishOk {s u : State} (h : HeaderFrame s u) (v : Word) : RdhdrFrame s (finishOk v u) := by
  rw [HeaderFrame] at h
  rw [h]
  rfl

theorem HeaderFrame.takeFault {s u : State} (h : HeaderFrame s u) (e : ErrKind) (info : Nat) : RdhdrFrame s (takeFault e info u) := by
  rw [HeaderFrame] at h
  rw [h]
  rfl

theorem HeaderFrame.endsFaulted {s u : State} (h : HeaderFrame s u) (e : ErrKind) (info : Nat) :
    EndsFaulted s (Machine.takeFault e info u) e info := by
  apply endsFaulted_takeFault
  rw [h]

theorem HeaderFrame.endsOk {s u : State} (h : HeaderFrame s u) (v : Word) : EndsOk s (Machine.finishOk v u) v := by
  apply endsOk_finishOk <;> rw [h]

/-- R212: a state that keeps to `RdhdrFrame` has emitted nothing. -/
theorem RdhdrFrame.silent {s t : State} (h : RdhdrFrame s t) : t.obuf = s.obuf ∧ t.sinkPos = s.sinkPos ∧ t.snk = s.snk := by
  rw [RdhdrFrame] at h
  rw [h]
  exact ⟨rfl, rfl, rfl⟩

/-- The clauses of R212 that hold however `SH.RDHDR` ends, and what `P` says of the end. -/
theorem shRdhdr_ends {s t : State} {P : State → Prop} (hexec : exec .shRdhdr s = .next t) (hframe : RdhdrFrame s t) (hP : P t) :
    ∃ t, exec .shRdhdr s = .next t ∧ t.obuf = s.obuf ∧ t.sinkPos = s.sinkPos ∧ t.snk = s.snk ∧ RdhdrFrame s t ∧ P t := by
  obtain ⟨hobuf, hpos, hsnk⟩ := hframe.silent
  exact ⟨t, hexec, hobuf, hpos, hsnk, hframe, hP⟩

theorem exec_shRdhdr_ok {s u : State} (hf : s.faulted = false) (hbit : s.rdBit = 0#3) (hr : rdHdr s = .ok () u) :
    exec .shRdhdr s = .next (finishOk (u.hdrIgnore.setWidth 64) u) :=
  exec_ok rfl (by simp [hf]) (by simp [admitted, hbit]) (run_bind_ok _ hr)

/-- R296: `SH.RDHDR` when a test failed. -/
theorem shRdhdr_raised {s u : State} {e : ErrKind} {info : Nat} {P : State → Prop} (hf : s.faulted = false) (hbit : s.rdBit = 0#3)
    (hr : rdHdr s = .error (.raised e info) u) (h : HeaderFrame s u)
    (hP : EndsFaulted s (takeFault e info u) e info → P (takeFault e info u)) :
    ∃ t, exec .shRdhdr s = .next t ∧ t.obuf = s.obuf ∧ t.sinkPos = s.sinkPos ∧ t.snk = s.snk ∧ RdhdrFrame s t ∧ P t :=
  shRdhdr_ends (exec_raised rfl (by simp [hf]) (by simp [admitted, hbit]) (run_bind_error _ hr)) (h.takeFault e info)
    (hP (h.endsFaulted e info))

theorem Rebuilt.headerFrame {s t : State} {T : Tree} (h : Rebuilt s T t) : HeaderFrame s t := by
  rw [HeaderFrame, h.frame]

theorem Rebuilt.hdrIgnore {s t : State} {T : Tree} (h : Rebuilt s T t) : t.hdrIgnore = s.hdrIgnore := by
  rw [h.frame]

/-- R168: `Deser` accepts the flattened forms alone. -/
theorem Buffered.deser_cases {s w : State} {shape leaves : List Byte} (h : Buffered s shape leaves w) :
    (∃ T t, deser w = .ok () t ∧ Rebuilt w T t ∧ FlatFormOf shape leaves T)
    ∨ ((∀ T, ¬ FlatFormOf shape leaves T) ∧ ∃ t, deser w = .error (.raised .malformedHeader w.rdByte) t
      ∧ HeaderFrame w t ∧ t.tmode = .empty) := by
  rcases Machine.deser_cases w with ⟨T, t, ht, hT⟩ | ⟨t, ht, hframe⟩
  · have hbits := hT.shape
    rw [h.shapeBytes, T.length_shape] at hbits
    exact .inl ⟨T, t, ht, hT, hT.two, h.leafBytes ▸ hT.leaves, by rw [← h.size, hT.shapeSize, T.length_shape, shapeBits], hbits⟩
  · refine .inr ⟨fun T ⟨htwo, hbytes, hlen, hbits⟩ => ?_, t, ht, by rw [HeaderFrame, hframe], by rw [hframe]⟩
    rw [shapeBits, ← T.length_shape] at hlen hbits
    obtain ⟨U, u, hu, -⟩ := deser_good (s := w) (T := T) (h.size.trans hlen) (by rw [h.cnt, hbytes, Tree.length_leafBytes]) htwo
      (by rw [h.shapeBytes, hbits]) (h.leafBytes.trans hbytes)
    rw [ht] at hu
    cases hu

/-- R212: a source that ends before the signature. -/
theorem rdHdr_short {s : State} {bs : List Byte} (h : PortsGood s) (hl : s.rdByte ≤ s.src.length) (hs : s.src.drop s.rdByte = bs)
    (hshort : bs.length < 2) : ∃ u, rdHdr s = .error (.raised .malformedHeader s.src.length) u ∧ HeaderFrame s u := by
  obtain ⟨ps, r, hr⟩ := takeTwo_short _ h hl hs hshort
  exact ⟨_, hr, rfl⟩

/-- R212: a source that ends before byte 4. -/
theorem rdSizes_short {s : State} {bs : List Byte} (ig : Byte) (h : PortsGood s) (hl : s.rdByte ≤ s.src.length)
    (hs : s.src.drop s.rdByte = bs) (hshort : bs.length < 2) :
    ∃ u, rdSizes ig s = .error (.raised .malformedHeader s.src.length) u ∧ HeaderFrame s u := by
  obtain ⟨ps, r, hr⟩ := takeTwo_short _ h hl hs hshort
  exact ⟨_, hr, rfl⟩

/-- Settles O41: the header is taken byte by byte, each test in its place (`rdHdr_head`, `rdSizes_head`, `rdBuffers_cases`), and at the end
`Deser` tells the flattened forms (`deser_flatForm`). -/
theorem shRdhdrCheckOrder : Obligations.ShRdhdrCheckOrder := by
  intro s hf hbit h hl
  match hs : s.src.drop s.rdByte with
  | [] | [_] =>
    obtain ⟨u, hr, hframe⟩ := rdHdr_short h hl hs (by simp)
    exact shRdhdr_raised hf hbit hr hframe id
  | ig :: sig :: rest =>
    obtain ⟨ps, hps, hr, hrest, hl2⟩ := rdHdr_head h hs
    have hframe2 : HeaderFrame s (headRead ps ig sig s) := rfl
    by_cases hsig : sig ≠ s.params.sigStatic
    · rw [if_pos hsig] at hr
      simp only [if_pos hsig]
      exact shRdhdr_raised hf hbit hr hframe2 fun hend => ⟨hend, rfl, rfl⟩
    rw [if_neg hsig] at hr
    simp only [if_neg hsig]
    match rest with
    | [] | [_] =>
      obtain ⟨u, hr', hframe⟩ := rdSizes_short (s := headRead ps ig sig s) ig hps hl2 hrest (by simp)
      exact shRdhdr_raised hf hbit (hr.trans hr') (hframe2.trans hframe) id
    | ss :: lm :: body =>
      obtain ⟨qs, hqs, hr', hbody, hl4⟩ := rdSizes_head (s := headRead ps ig sig s) ig hps hrest
      have hframe4 : HeaderFrame s (readTo qs (s.rdByte + 4) (headRead ps ig sig s)) := rfl
      by_cases hsizes : 7 < ig.toNat ∨ ss.toNat ≠ ceil8 (2 * (lm.toNat + 1) - 1)
      · rw [if_pos hsizes] at hr'
        simp only [if_pos hsizes]
        exact shRdhdr_raised hf hbit (hr.trans hr') hframe4 id
      rw [if_neg hsizes] at hr'
      simp only [if_neg hsizes]
      rcases rdBuffers_cases (s := readTo qs (s.rdByte + 4) (headRead ps ig sig s)) ss.toNat (lm.toNat + 1) hqs hl4 hbody with
        ⟨hshort, u, hr'', hframe⟩ | ⟨hlong, w, hr'', hw⟩
      · simp only [if_pos hshort]
        exact shRdhdr_raised hf hbit (hr.trans (hr'.trans hr'')) (hframe4.trans hframe) id
      simp only [if_neg (Nat.not_lt.mpr hlong)]
      have hframew := hframe4.trans hw.frame
      rcases hw.deser_cases with ⟨T, u, hu, hT, hform⟩ | ⟨hnone, u, hu, hframe, hmode⟩
      · have hframeu := hframew.trans hT.headerFrame
        have hexec := exec_shRdhdr_ok hf hbit (hr.trans (hr'.trans (hr''.trans hu)))
        rw [hT.hdrIgnore, hw.ignore] at hexec
        exact shRdhdr_ends hexec (hframeu.finishOk _) (.inl ⟨T, hform, hframeu.endsOk _, hT.mode⟩)
      · have hpos : w.rdByte = s.rdByte + 4 + ss.toNat + (lm.toNat + 1) := by
          rw [hw.pos, List.length_take_of_le (by omega), List.length_take_of_le (by rw [List.length_drop]; omega)]
          rfl
        rw [hpos] at hu
        exact shRdhdr_raised hf hbit (hr.trans (hr'.trans (hr''.trans hu))) (hframew.trans hframe)
          fun hend => .inr ⟨hnone, hend, hmode⟩

/-! ### A well-formed header -/

/-- What `RdHdr` leaves when the header of the tree `T` was read: the tree `U` is `T` up to weights and arena indices (R211). -/
structure HeaderTree (s : State) (ig : Byte) (T : Tree) (u : State) (U : Tree) : Prop where
  good : PortsGood u
  frame : HeaderFrame s u
  tree : TreeAt u U
  shape : U.shape = T.shape
  syms : U.syms = T.syms
  pos : u.rdByte = s.rdByte + (4 + ceil8 (2 * T.leafCount - 1) + T.leafCount)
  ignore : u.hdrIgnore = ig
  sig : u.hdrSig = s.params.sigStatic
  size : u.shapeSize = ceil8 (2 * T.leafCount - 1)
  cnt : u.leafCnt = T.leafCount
  mode : u.tmode = .static
  codes : u.codesValid = false
  flat : u.flatValid = true

/-- R110: the sizes of the header of a static tree fit their bytes. -/
theorem Tree.Static.header_sizes {T : Tree} (h : T.Static) :
    (BitVec.ofNat 8 (ceil8 (shapeBits T.leafCount))).toNat = ceil8 (2 * T.leafCount - 1)
      ∧ (BitVec.ofNat 8 (T.leafCount - 1)).toNat + 1 = T.leafCount := by
  obtain ⟨htwo, hmax, -⟩ := h
  rw [Config.leafMax] at hmax
  simp only [BitVec.toNat_ofNat, ceil8, shapeBits]
  omega

/-- R110: the header, its first four bytes one by one. -/
theorem staticHeader_append (ig sig : Byte) (T : Tree) (rest : List Byte) :
    staticHeader ig sig T ++ rest = ig :: sig :: BitVec.ofNat 8 (ceil8 (shapeBits T.leafCount)) :: BitVec.ofNat 8 (T.leafCount - 1)
      :: (packMsb T.shape ++ (T.leafBytes ++ rest)) := by simp [staticHeader]

/-- R211: `RdHdr` on a well-formed header comes to `Deser` with the tree's flattened form in the buffers. -/
theorem rdHdr_staticHeader {s : State} {T : Tree} {ig : Byte} {rest : List Byte} (hig : ig.toNat ≤ 7) (h : PortsGood s) (hT : T.Static)
    (hs : s.src.drop s.rdByte = staticHeader ig s.params.sigStatic T ++ rest) :
    ∃ t w, rdHdr s = deser w ∧ HeaderFrame s t ∧ t.hdrIgnore = ig ∧ t.hdrSig = s.params.sigStatic ∧ t.rdByte = s.rdByte + 4
      ∧ Buffered t (packMsb T.shape) T.leafBytes w := by
  obtain ⟨hsize, hcnt⟩ := hT.header_sizes
  have hshape : (packMsb T.shape).length = ceil8 (2 * T.leafCount - 1) := by rw [length_packMsb, T.length_shape]
  rw [staticHeader_append] at hs
  obtain ⟨ps, hps, hr, hrest, -⟩ := rdHdr_head h hs
  obtain ⟨qs, hqs, hr', hbody, hl⟩ := rdSizes_head (s := headRead ps ig s.params.sigStatic s) ig hps hrest
  rw [if_neg (not_not.mpr rfl)] at hr
  rw [hsize, hcnt, if_neg (by omega)] at hr'
  rcases rdBuffers_cases (s := readTo qs (s.rdByte + 4) (headRead ps ig s.params.sigStatic s)) (ceil8 (2 * T.leafCount - 1)) T.leafCount
    hqs hl hbody with ⟨hshort, -⟩ | ⟨-, w, hr'', hw⟩
  · simp only [List.length_append, hshape, Tree.length_leafBytes] at hshort
    omega
  · rw [← hshape, List.take_left, List.drop_left, ← T.length_leafBytes, List.take_left] at hw
    exact ⟨readTo qs (s.rdByte + 4) (headRead ps ig s.params.sigStatic s), w, hr.trans (hr'.trans hr''), rfl, rfl, rfl, rfl, hw⟩

/-- R211, R213: `RdHdr` on a well-formed header. -/
theorem rdHdr_good {s : State} {T : Tree} {ig : Byte} {rest : List Byte} (hig : ig.toNat ≤ 7) (h : PortsGood s) (hT : T.Static)
    (hs : s.src.drop s.rdByte = staticHeader ig s.params.sigStatic T ++ rest) :
    ∃ u U, rdHdr s = .ok () u ∧ HeaderTree s ig T u U := by
  obtain ⟨t, w, hr, hframe, hignore, hsig, hpos, hw⟩ := rdHdr_staticHeader hig h hT hs
  obtain ⟨htwo, -, hbyte⟩ := hT
  obtain ⟨U, u, hu, hU, hshape, hleaves⟩ := deser_good (s := w) (hw.size.trans (length_packMsb _)) (hw.cnt.trans T.length_leafBytes)
    htwo (by rw [hw.shapeBytes, take_unpackMsb_packMsb]) hw.leafBytes
  have hsize : (packMsb T.shape).length = ceil8 (2 * T.leafCount - 1) := by rw [length_packMsb, T.length_shape]
  refine ⟨u, U, hr.trans hu, ?_⟩
  exact {
    good := hw.good.of_ports (by rw [hU.frame])
    frame := hframe.trans (hw.frame.trans hU.headerFrame)
    tree := hU.tree
    shape := hshape
    syms := Tree.syms_eq_of_leafBytes hbyte hU.syms hleaves
    pos := by rw [hU.frame, hw.pos, hpos, hsize, Tree.length_leafBytes, Nat.add_assoc, Nat.add_assoc, Nat.add_assoc]
    ignore := by rw [hU.frame, hw.ignore, hignore]
    sig := by rw [hU.frame, hw.sig, hsig]
    size := by rw [hU.frame, hw.size, hsize]
    cnt := by rw [hU.frame, hw.cnt, Tree.length_leafBytes]
    mode := hU.mode
    codes := hU.codes
    flat := by rw [hU.frame, hw.flat] }

/-- Settles O40: `rdHdr_good`, with what the end of the command leaves alone. -/
theorem shRdhdrReadsHeader : Obligations.ShRdhdrReadsHeader := by
  intro s T ig rest hig hf hbit h hT hs
  obtain ⟨u, U, hr, hu⟩ := rdHdr_good hig h hT hs
  have hexec := exec_shRdhdr_ok hf hbit hr
  rw [hu.ignore] at hexec
  have hframe := hu.frame
  rw [HeaderFrame] at hframe
  refine ⟨_, U, hexec, hu.frame.endsOk _, hu.tree, hu.shape, hu.syms, hu.pos, ?_, hu.ignore, hu.sig, hu.size, hu.cnt, hu.mode, hu.codes,
    hu.flat, ?_⟩
  · rw [hframe]
    exact hbit
  · rw [hframe]
    rfl

end Sys2Proof.Machine
end

section
namespace Sys2Proof.Machine

-- One declaration after the other: the threads of the whole text together would pass the check's memory limit.
set_option Elab.async false

/-! ## `SH.ARCHIVE` (R216) -/

/-! ### The first pass -/

/-- R31: the nonzero counts of a byte sequence are as many as its distinct bytes. -/
theorem nonzeroCount_eq_distinct {s : State} {x : List Byte} (h : ∀ b, s.freqOf b = x.count b) :
    nonzeroCount s = (distinctBytes x).length := by
  rw [nonzeroCount_eq_of_freqOf h, distinctBytes]
  refine countP_range_eq_length_dedup (f := BitVec.toNat) (fun a _ b _ => BitVec.eq_of_toNat_eq) (fun a _ => a.isLt) fun k hk => ?_
  have hval : (BitVec.ofNat 8 k).toNat = k := Nat.mod_eq_of_lt hk
  rw [decide_eq_true_iff, List.count_pos_iff]
  refine ⟨fun hmem => ⟨_, hmem, hval⟩, fun ⟨a, ha, hak⟩ => ?_⟩
  rwa [BitVec.eq_of_toNat_eq (hval.trans hak.symm)]

/-- What the first pass over SRC leaves in a fresh context (R182, R216). -/
structure Scanned (s u : State) : Prop where
  good : PortsGood u
  count : ∀ b, u.freqOf b = s.src.count b
  distinct : u.distinct = (distinctBytes s.src).length
  nonzero : u.distinct = nonzeroCount u
  frame : u = { initContext s with ports := u.ports, freq := u.freq, distinct := u.distinct }

theorem scan_initContext {s : State} (h : PortsGood s) : ∃ u, scan (initContext s) = .ok () u ∧ Scanned s u := by
  obtain ⟨u, hu, hgood, hcount, hdistinct, hframe⟩ := scan_good (s := initContext s) h
  have hfresh : ∀ b, u.freqOf b = s.src.count b := fun b => (hcount b).trans (Nat.zero_add _)
  have hnonzero : u.distinct = nonzeroCount u := hdistinct nonzeroCount_reset.symm
  exact ⟨u, hu, hgood, hfresh, hnonzero.trans (nonzeroCount_eq_distinct hfresh), hnonzero, hframe⟩

/-- Settles O44: after the first pass (`scan_initContext`) the guard raises. -/
theorem shArchiveRejectsFewSymbols : Obligations.ShArchiveRejectsFewSymbols := by
  intro s hf h hfew
  obtain ⟨u, hu, hscan⟩ := scan_initContext h
  have hguard : checkDistinct u = .error (.raised .invalidInput (distinctBytes s.src).length) u := by
    rw [← hscan.distinct] at hfew ⊢
    exact (checkDistinct_eq u).trans (if_pos hfew)
  have hrule : archiveStatic s = .error (.raised .invalidInput (distinctBytes s.src).length) u :=
    (run_modify_bind _ _ _).trans ((run_bind_ok _ hu).trans (run_bind_error _ hguard))
  have hframe := hscan.frame
  refine ⟨_, exec_raised rfl (by simp [hf]) rfl (run_bind_error _ hrule), ?_, ?_⟩
  · apply endsFaulted_takeFault
    rw [hframe]
    rfl
  · rw [hframe]
    exact ⟨rfl, rfl, rfl, rfl, rfl⟩

/-! ### The tree and the codes -/

/-- `SH.ARCHIVE` from the header on (R216, steps 3 to 6). -/
def archiveCoded : Cmd Nat := do
  let s ← get
  serHdr 0#8 s.params.sigStatic
  upFrom archiveByte s.srcLen 0
  let pad ← finish
  fixup (BitVec.ofNat 8 pad)
  modify (countBytes s.srcLen)
  pure pad

theorem archiveStatic_eq : archiveStatic = (do
    modify initContext
    scan
    checkDistinct
    build
    mkCodes
    archiveCoded) := rfl

/-- R38: the leaf bytes of a static tree are its symbols. -/
theorem Tree.mem_leafBytes_iff {T : Tree} (h : ∀ x ∈ T.syms, x.toNat < 256) {b : Byte} : b ∈ T.leafBytes ↔ b.setWidth 9 ∈ T.syms := by
  have hinj : Function.Injective fun b : Byte => b.setWidth 9 := fun a b hab => by
    have hnat := congrArg BitVec.toNat hab
    rw [toNat_setWidth_byte, toNat_setWidth_byte] at hnat
    exact BitVec.eq_of_toNat_eq hnat
  rw [← Tree.map_setWidth_leafBytes h, List.mem_map_of_injective hinj]

/-- What the second context of `SH.ARCHIVE` holds: the counts, the tree `T` of `Build` and its codes (R185, R201, R216). -/
structure TreeCoded (s v : State) (T : Tree) : Prop where
  good : PortsGood v
  tree : TreeAt v T
  static : T.Static
  leaves : T.leafBytes.Perm (distinctBytes s.src)
  codes : CodesOf v T
  count : ∀ b, v.freqOf b = s.src.count b
  distinct : v.distinct = (distinctBytes s.src).length
  mode : v.tmode = .static
  valid : v.codesValid = true
  frame : v = { initContext s with
    ports := v.ports, freq := v.freq, distinct := v.distinct, arena := v.arena, nodeCnt := v.nodeCnt, root := v.root,
    tmode := v.tmode, codeBits := v.codeBits, codesValid := v.codesValid }

/-- R216, R218: every byte of the source has a leaf. -/
theorem TreeCoded.mem_syms {s v : State} {T : Tree} (h : TreeCoded s v T) {b : Byte} (hb : b ∈ s.src) : b.setWidth 9 ∈ T.syms := by
  obtain ⟨-, -, hbyte⟩ := h.static
  rw [← Tree.mem_leafBytes_iff hbyte, h.leaves.mem_iff]
  exact List.mem_dedup.mpr hb

/-- R185: the leaves of the tree of the counts of a source are its distinct bytes. -/
theorem CountedTree.leafBytes_perm {u : State} {r : Table Node × Nat × Nat} {T : Tree} {x : List Byte} (h : CountedTree u r T)
    (hT : T.Static) (hcount : ∀ b, u.freqOf b = x.count b) : T.leafBytes.Perm (distinctBytes x) := by
  obtain ⟨-, -, hbyte⟩ := hT
  have hnodup : T.leafBytes.Nodup := by
    refine List.Nodup.of_map (fun b => b.setWidth 9) ?_
    rw [Tree.map_setWidth_leafBytes hbyte]
    exact h.syms.nodup_iff.mpr (nodup_sym_countedLeaves u.freq)
  refine (List.perm_ext_iff_of_nodup hnodup x.nodup_dedup).mpr fun b => ?_
  rw [Tree.mem_leafBytes_iff hbyte, h.mem_syms_iff, hcount, List.count_pos_iff, List.mem_dedup]

/-- The state after `Build` and `MkCodes` from `u` (R185, R201). -/
def putCodes (r : Table Node × Nat × Nat) (c : Table Bits) (u : State) : State := setCodesValid { putTree r u with codeBits := c }

/-- What `SH.ARCHIVE` runs through in its first pass (R216, steps 1 and 2): the state `u` after the scan, the tree `r`, the code table
`c`. -/
structure FirstPass (s : State) (T : Tree) (u : State) (r : Table Node × Nat × Nat) (c : Table Bits) : Prop where
  scanned : scan (initContext s) = .ok () u
  checked : checkDistinct u = .ok () u
  built : build u = .ok () (putTree r u)
  derived : mkCodes (putTree r u) = .ok () (putCodes r c u)
  running : u.faulted = false
  coded : TreeCoded s (putCodes r c u) T

theorem firstPass {s : State} (h : PortsGood s) (htwo : 2 ≤ (distinctBytes s.src).length) : ∃ T u r c, FirstPass s T u r c := by
  obtain ⟨u, hu, hscan⟩ := scan_initContext h
  have hdistinct : 2 ≤ u.distinct := hscan.distinct ▸ htwo
  have hnonzero : 2 ≤ nonzeroCount u := hscan.nonzero ▸ hdistinct
  obtain ⟨r, T, hr, hT⟩ := builtTree_counted (s := u) (by omega)
  have hstatic := hT.static hnonzero
  have htree : TreeAt (putTree r u) T := hT.treeAt rfl rfl rfl
  obtain ⟨c, hc, hcodes⟩ := mkCodes_good htree hstatic
  refine ⟨T, u, r, c, hu, (checkDistinct_eq u).trans (if_neg (Nat.not_lt.mpr hdistinct)), build_ok hdistinct hr, hc, ?_, ?_⟩
  · rw [hscan.frame]
    rfl
  · exact {
      good := hscan.good
      tree := htree
      static := hstatic
      leaves := hT.leafBytes_perm hstatic hscan.count
      codes := hcodes
      count := hscan.count
      distinct := hscan.distinct
      mode := rfl
      valid := rfl
      frame := by rw [hscan.frame]; rfl }

/-- R216: the first pass, and then the second from the context it leaves. -/
theorem FirstPass.archiveStatic {s u : State} {T : Tree} {r : Table Node × Nat × Nat} {c : Table Bits} (h : FirstPass s T u r c) :
    archiveStatic s = archiveCoded (putCodes r c u) := by
  rw [archiveStatic_eq]
  exact (run_modify_bind _ _ _).trans ((run_bind_ok _ h.scanned).trans ((run_bind_ok _ h.checked).trans ((run_bind_ok _ h.built).trans
    (run_bind_ok _ h.derived))))

/-! ### The second pass -/

/-- R216: the code of one byte of the source is written. -/
theorem archiveByte_good {s : State} {i : Nat} (h : PortsGood s) (hl : i < s.src.length) (hb : 0 < s.codeLen s.src[i]) :
    ∃ u, archiveByte i s = .ok () u ∧ Writes s u (s.codeOf s.src[i])
      ∧ (s.acc.toNat < 2 ^ s.accCnt.toNat → u.acc.toNat < 2 ^ u.accCnt.toNat) := by
  obtain ⟨u, hu, hw, hacc⟩ := encSym_good (s := usePort s) hb h.use
  exact ⟨u, (run_bind_ok _ (srcByte_good .io h hl)).trans hu, ⟨hw.bits, hw.good, hw.frame⟩, hacc⟩

/-- R216: the codes of the bytes of the source from `i` on are written in order. -/
theorem archiveBytes_good (n i : Nat) {s : State} (h : PortsGood s) (hcodes : ∀ b ∈ s.src, 0 < s.codeLen b)
    (hi : i + n = s.src.length) (hacc : s.acc.toNat < 2 ^ s.accCnt.toNat) :
    ∃ u, upFrom archiveByte n i s = .ok () u ∧ Writes s u ((s.src.drop i).flatMap s.codeOf) ∧ u.acc.toNat < 2 ^ u.accCnt.toNat := by
  induction n generalizing i s with
  | zero =>
    rw [List.drop_eq_nil_of_le (by omega)]
    exact ⟨s, rfl, Writes.refl h, hacc⟩
  | succ n ih =>
    have hl : i < s.src.length := by omega
    obtain ⟨t, ht, hw, hacct⟩ := archiveByte_good h hl (hcodes _ (List.getElem_mem hl))
    have hsrc : t.src = s.src := by rw [hw.frame]
    have hcode : t.codeOf = s.codeOf := by
      rw [hw.frame]
      rfl
    have hlen : t.codeLen = s.codeLen := by
      rw [hw.frame]
      rfl
    obtain ⟨u, hu, hw', haccu⟩ := ih (i + 1) hw.good (by rwa [hsrc, hlen]) (by rw [hsrc]; omega) (hacct hacc)
    rw [hsrc, hcode] at hw'
    refine ⟨u, (run_bind_ok _ ht).trans hu, ?_, haccu⟩
    rw [List.drop_eq_getElem_cons hl, List.flatMap_cons]
    exact hw.trans hw'

/-! ### The sink -/

/-- R138: where no bit waits before and after, the bits written and their padding went out packed. -/
theorem WritesBits.emitsBytes {s t : State} {b : Bits} (h : WritesBits s t (b ++ List.replicate (padCount b.length) false))
    (hps : pending s = []) (hpt : pending t = []) : EmitsBytes s t (packMsb b) := by
  obtain ⟨bs, hbytes, hbits⟩ := h
  rw [hps, hpt, List.append_nil, List.nil_append] at hbits
  rwa [packMsb_unique hbits]

@[simp] theorem length_sinkBytes (s : State) : (sinkBytes s).length = s.sinkPos := by simp [sinkBytes]

/-- R215: what the sink holds when the byte at offset 0 was written again. -/
theorem sinkBytes_fixup {s u : State} {y : Option Byte} {ys : List (Option Byte)} {b : Byte} (h : sinkBytes s = y :: ys)
    (hsnk : u.snk = Memory.store s.snk 0 b) (hpos : u.sinkPos = s.sinkPos) : sinkBytes u = some b :: ys := by
  have hlen := congrArg List.length h
  rw [length_sinkBytes, List.length_cons] at hlen
  rw [sinkBytes, hlen, List.range_succ_eq_map, List.map_cons, List.map_map] at h
  obtain ⟨-, hys⟩ := List.cons.inj h
  rw [sinkBytes, hpos, hlen, hsnk, List.range_succ_eq_map, List.map_cons, List.map_map, Memory.read_store, if_pos rfl]
  refine congrArg _ ((List.map_congr_left fun a _ => ?_).trans hys)
  exact (Memory.read_store s.snk 0 (a + 1) b).trans (if_neg (Nat.succ_ne_zero a))

/-! ### The container -/

/-- R112, R200: the payload is what the code table gives. -/
theorem CodesOf.flatMap_codeOf {s : State} {T : Tree} (h : CodesOf s T) (x : List Byte) : x.flatMap s.codeOf = staticBits T x :=
  congrArg (x.flatMap ·) (funext h)

/-- A writer that has written nothing (R44). -/
structure FreshWriter (s : State) : Prop where
  acc : s.acc = 0#7
  accCnt : s.accCnt = 0#3
  obuf : s.obuf = []
  sinkPos : s.sinkPos = 0

theorem FreshWriter.emitted {s : State} (h : FreshWriter s) : emitted s = [] := by simp [Machine.emitted, sinkBytes, h.obuf, h.sinkPos]

theorem pending_eq_nil {s : State} (h : s.accCnt = 0#3) : pending s = [] := by simp [pending, h, bitsOf]

/-- R163, R216: the header with `ignoreBits = 0`. -/
theorem archiveHeader_good {v : State} {T : Tree} (h : PortsGood v) (ht : TreeAt v T) (hT : T.Static) :
    ∃ w, serHdr 0#8 v.params.sigStatic v = .ok () w ∧ PortsGood w ∧ EmitsBytes v w (staticHeader 0#8 v.params.sigStatic T)
      ∧ w.hdrSig = v.params.sigStatic ∧ w.flatValid = true
      ∧ w = { v with
        ports := w.ports, obuf := w.obuf, sinkPos := w.sinkPos, snk := w.snk, shape := w.shape, shapeSize := w.shapeSize,
        leaves := w.leaves, leafCnt := w.leafCnt, flatValid := w.flatValid, hdrIgnore := w.hdrIgnore, hdrSig := w.hdrSig } := by
  obtain ⟨-, hmax, -⟩ := hT
  obtain ⟨t, hrun, hemit⟩ := serHdr_good 0#8 v.params.sigStatic ht hmax h
  refine ⟨_, hrun, hemit.good, hemit.bytes, rfl, ?_, ?_⟩
  · rw [hemit.frame]
    rfl
  · rw [hemit.frame]
    rfl

/-- R216: the codes of all bytes and the padding, from a state in which no bit waits. -/
theorem archivePayload_good {w : State} {T : Tree} (h : PortsGood w) (hacc : w.acc = 0#7) (hcnt : w.accCnt = 0#3)
    (hcodes : CodesOf w T) (htwo : 2 ≤ T.leafCount) (hx : ∀ b ∈ w.src, b.setWidth 9 ∈ T.syms) :
    ∃ x y, upFrom archiveByte w.src.length 0 w = .ok () x ∧ finish x = .ok (padCount (staticBits T w.src).length) y
      ∧ x.faulted = w.faulted ∧ PortsGood y ∧ EmitsBytes w y (packMsb (staticBits T w.src)) ∧ y.acc = 0#7 ∧ y.accCnt = 0#3 ∧ y.obuf = []
      ∧ y = { w with
        ports := y.ports, acc := y.acc, accCnt := y.accCnt, obuf := y.obuf, sinkPos := y.sinkPos, snk := y.snk } := by
  obtain ⟨x, hrun, hwrites, haccx⟩ := archiveBytes_good w.src.length 0 h (fun b hb => hcodes.codeLen_pos htwo (hx b hb))
    (Nat.zero_add _) (by simp [hacc])
  rw [List.drop_zero, hcodes.flatMap_codeOf] at hwrites
  obtain ⟨y, hfinish, hpads, hacc0, hcnt0, hobuf, -⟩ := finish_good hwrites.good haccx
  have hpad := hwrites.bits.padCount_accCnt
  simp only [hcnt, BitVec.toNat_zero, Nat.zero_add] at hpad
  rw [hpad] at hfinish hpads
  have hall := hwrites.trans hpads
  exact ⟨x, y, hrun, hfinish, by rw [hwrites.frame], hall.good, hall.bits.emitsBytes (pending_eq_nil hcnt) (pending_eq_nil hcnt0),
    hacc0, hcnt0, hobuf, hall.frame⟩

/-- What `SH.ARCHIVE` runs through in its second pass (R216, steps 3 to 5) from `v`: the state `w` after the header, `x` after the codes,
`y` after the padding. -/
structure SecondPass (v : State) (T : Tree) (w x y : State) : Prop where
  header : serHdr 0#8 v.params.sigStatic v = .ok () w
  headerGood : PortsGood w
  coded : upFrom archiveByte v.src.length 0 w = .ok () x
  padded : finish x = .ok (padCount (staticBits T v.src).length) y
  headerFrame : w = { v with
    ports := w.ports, obuf := w.obuf, sinkPos := w.sinkPos, snk := w.snk, shape := w.shape, shapeSize := w.shapeSize,
    leaves := w.leaves, leafCnt := w.leafCnt, flatValid := w.flatValid, hdrIgnore := w.hdrIgnore, hdrSig := w.hdrSig }
  running : x.faulted = v.faulted
  good : PortsGood y
  sink : sinkBytes y = (staticHeader 0#8 v.params.sigStatic T ++ packMsb (staticBits T v.src)).map some
  grows : SinkGrows v y
  sig : y.hdrSig = v.params.sigStatic
  flat : y.flatValid = true
  frame : y = { v with
    ports := y.ports, acc := 0#7, accCnt := 0#3, obuf := [], sinkPos := y.sinkPos, snk := y.snk, shape := y.shape,
    shapeSize := y.shapeSize, leaves := y.leaves, leafCnt := y.leafCnt, flatValid := y.flatValid, hdrIgnore := y.hdrIgnore,
    hdrSig := y.hdrSig }

/-- R216: the second pass, from a context that has written nothing. -/
theorem secondPass {v : State} {T : Tree} (h : PortsGood v) (hw : FreshWriter v) (ht : TreeAt v T) (hT : T.Static)
    (hcodes : CodesOf v T) (hx : ∀ b ∈ v.src, b.setWidth 9 ∈ T.syms) : ∃ w x y, SecondPass v T w x y := by
  obtain ⟨w, hheader, hgoodw, hemitsw, hsig, hflat, hframew⟩ := archiveHeader_good h ht hT
  have hsrc : w.src = v.src := by rw [hframew]
  have hcodesw : CodesOf w T := by
    rw [hframew]
    exact hcodes
  obtain ⟨x, y, hbytes, hfinish, hfaulted, hgoody, hemitsy, hacc, hcnt, hobuf, hframey⟩ := archivePayload_good hgoodw
    (by rw [hframew, ← hw.acc]) (by rw [hframew, ← hw.accCnt]) hcodesw hT.1 (by rwa [hsrc])
  rw [hsrc] at hbytes hfinish hemitsy
  obtain ⟨hstream, hgrows⟩ := hemitsw.trans hemitsy
  rw [hw.emitted, List.nil_append, emitted, hobuf, List.map_nil, List.append_nil] at hstream
  exact ⟨w, x, y, {
    header := hheader
    headerGood := hgoodw
    coded := hbytes
    padded := hfinish
    headerFrame := hframew
    running := by rw [hfaulted, hframew]
    good := hgoody
    sink := hstream
    grows := hgrows
    sig := by rw [← hsig, hframey]
    flat := by rw [← hflat, hframey]
    frame := by rw [← hacc, ← hcnt, ← hobuf, hframey, hframew] }⟩

theorem SecondPass.sinkPos_pos {v w x y : State} {T : Tree} (h : SecondPass v T w x y) : 1 ≤ y.sinkPos := by
  rw [← length_sinkBytes, h.sink]
  simp [staticHeader]

/-- What `SH.ARCHIVE` leaves from the state `v` of `TreeCoded` on (R110, R112, R216). -/
structure ContainerWritten (v : State) (T : Tree) (u : State) : Prop where
  good : PortsGood u
  sink : sinkBytes u = (staticContainer v.params.sigStatic T v.src).map some
  beyond : ∀ a, u.sinkPos ≤ a → Memory.read u.snk a = Memory.read v.snk a
  ignore : u.hdrIgnore = BitVec.ofNat 8 (padCount (staticBits T v.src).length)
  sig : u.hdrSig = v.params.sigStatic
  flat : u.flatValid = true
  bytes : u.bytesIn = v.src.length ∧ u.bytesOut = u.sinkPos
  frame : u = { v with
    ports := u.ports, bytesIn := u.bytesIn, bytesOut := u.bytesOut, acc := 0#7, accCnt := 0#3, obuf := [],
    sinkPos := u.sinkPos, snk := u.snk, shape := u.shape, shapeSize := u.shapeSize, leaves := u.leaves, leafCnt := u.leafCnt,
    flatValid := u.flatValid, hdrIgnore := u.hdrIgnore, hdrSig := u.hdrSig }

theorem ContainerWritten.sinkPos {v u : State} {T : Tree} (h : ContainerWritten v T u) :
    u.sinkPos = (staticContainer v.params.sigStatic T v.src).length := by
  rw [← length_sinkBytes, h.sink, List.length_map]

/-- The state after the fix-up and the counts (R29, R215, R216). -/
def fixedUp (pad : Byte) (n : Nat) (y : State) : State :=
  countBytes n { usePort y with snk := Memory.store y.snk 0 pad, hdrIgnore := pad }

/-- R216: steps 3 to 6. -/
theorem SecondPass.archiveCoded {v w x y : State} {T : Tree} (h : SecondPass v T w x y) :
    archiveCoded v = .ok (padCount (staticBits T v.src).length)
      (fixedUp (BitVec.ofNat 8 (padCount (staticBits T v.src).length)) v.src.length y) :=
  (run_get_bind _ _).trans ((run_bind_ok _ h.header).trans ((run_bind_ok _ h.coded).trans ((run_bind_ok _ h.padded).trans
    ((run_bind_ok _ (fixup_good _ h.good)).trans ((run_modify_bind _ _ _).trans (run_pure _ _))))))

theorem SecondPass.containerWritten {v w x y : State} {T : Tree} (h : SecondPass v T w x y) :
    ContainerWritten v T (fixedUp (BitVec.ofNat 8 (padCount (staticBits T v.src).length)) v.src.length y) where
  good := h.good.use
  sink := sinkBytes_fixup (s := y) (by rw [h.sink]; rfl) rfl rfl
  beyond := fun a ha => by
    have hpos := h.sinkPos_pos
    change y.sinkPos ≤ a at ha
    exact ((Memory.read_store y.snk 0 a _).trans (if_neg (by omega))).trans (h.grows.2 a (.inr ha))
  ignore := rfl
  sig := h.sig
  flat := h.flat
  bytes := ⟨rfl, rfl⟩
  frame := by rw [fixedUp, h.frame]; rfl

/-! ### The command -/

section
variable {s v u : State} {T : Tree}

theorem TreeCoded.fresh (h : TreeCoded s v T) : FreshWriter v := by
  rw [h.frame]
  exact ⟨rfl, rfl, rfl, rfl⟩

/-- R45: what the host gives is the same in the context of the composite. -/
theorem TreeCoded.host (h : TreeCoded s v T) : v.src = s.src ∧ v.params = s.params ∧ v.snk = s.snk ∧ v.cseq = s.cseq := by
  rw [h.frame]
  exact ⟨rfl, rfl, rfl, rfl⟩

/-- What the second pass keeps of the context with the codes. -/
theorem ContainerWritten.keeps (h : ContainerWritten v T u) :
    u.cseq = v.cseq ∧ u.tmode = v.tmode ∧ u.codesValid = v.codesValid ∧ u.faulted = v.faulted ∧ u.freqOf = v.freqOf
      ∧ u.distinct = v.distinct ∧ u.obuf = [] ∧ (TreeAt v T → TreeAt u T) := by
  rw [h.frame]
  exact ⟨rfl, rfl, rfl, rfl, rfl, rfl, rfl, id⟩

/-- R216: both passes of `SH.ARCHIVE` on a source of two or more distinct byte values. -/
theorem archive_passes (h : PortsGood s) (htwo : 2 ≤ (distinctBytes s.src).length) :
    ∃ T u r c w x y, FirstPass s T u r c ∧ SecondPass (putCodes r c u) T w x y := by
  obtain ⟨T, u, r, c, hfirst⟩ := firstPass h htwo
  have hv := hfirst.coded
  obtain ⟨hsrc, -⟩ := hv.host
  obtain ⟨w, x, y, hsecond⟩ := secondPass hv.good hv.fresh hv.tree hv.static hv.codes (fun b hb => hv.mem_syms (hsrc ▸ hb))
  exact ⟨T, u, r, c, w, x, y, hfirst, hsecond⟩

theorem archiveStatic_good (h : PortsGood s) (htwo : 2 ≤ (distinctBytes s.src).length) :
    ∃ v u T, archiveStatic s = .ok (padCount (staticBits T s.src).length) u ∧ TreeCoded s v T ∧ ContainerWritten v T u := by
  obtain ⟨T, u, r, c, w, x, y, hfirst, hsecond⟩ := archive_passes h htwo
  have hrun := hfirst.archiveStatic.trans hsecond.archiveCoded
  have hwritten := hsecond.containerWritten
  rw [hfirst.coded.host.1] at hrun hwritten
  exact ⟨_, _, T, hrun, hfirst.coded, hwritten⟩

end

/-- Settles O43: the container stands in the sink (`ContainerWritten`), written with the codes of the tree of the source's counts
(`TreeCoded`). -/
theorem shArchiveWritesContainer : Obligations.ShArchiveWritesContainer := by
  intro s hf h htwo
  obtain ⟨v, u, T, hrun, hv, hu⟩ := archiveStatic_good h htwo
  obtain ⟨hsrc, hparams, hsnk, hcseq⟩ := hv.host
  obtain ⟨hcseq', hmode, hvalid, hfaulted, hfreq, hdistinct, hobuf, htree⟩ := hu.keeps
  have hsink := hu.sink
  have hpos := hu.sinkPos
  have hignore := hu.ignore
  obtain ⟨hin, hout⟩ := hu.bytes
  rw [hsrc, hparams] at hsink hpos
  rw [hsrc] at hignore hin
  refine ⟨_, T, exec_ok rfl (by simp [hf]) rfl (run_bind_ok _ hrun), htree hv.tree, hv.static, hv.leaves, hsink, hobuf, hpos,
    fun a ha => (hu.beyond a ha).trans (by rw [hsnk]), rfl, rfl, congrArg (· + 1#64) (hcseq'.trans hcseq), hin, hout, hignore,
    hu.sig.trans (by rw [hparams]), hmode.trans hv.mode, hvalid.trans hv.valid, hu.flat, hfaulted.trans ?_,
    fun b => (congrFun hfreq b).trans (hv.count b), hdistinct.trans hv.distinct, ?_⟩
  · rw [hv.frame]
    rfl
  · rw [hu.frame, hv.frame]
    rfl

end Sys2Proof.Machine
end

section
namespace Sys2Proof.Machine

-- One declaration after the other: the threads of the whole text together would pass the check's memory limit.
set_option Elab.async false

/-! ## `SH.UNARCHIVE` (R217) and the round trip (R218) -/

/-! ### The codes of a tree rebuilt from its header -/

/-- R170, R200: the codes depend on the shape and the symbols of a tree alone. -/
theorem Tree.codeOf_congr {T U : Tree} (hshape : T.shape = U.shape) (hsyms : T.syms = U.syms) (a : BitVec 9) :
    T.codeOf a = U.codeOf a := by
  induction T generalizing U with
  | leaf i x =>
    cases U with
    | leaf j y =>
      obtain rfl : x = y := by simpa [Tree.syms] using hsyms
      rfl
    | node j l r => simp [Tree.shape] at hshape
  | node i l r ihl ihr =>
    cases U with
    | leaf j y => simp [Tree.shape] at hshape
    | node j l' r' =>
      obtain ⟨hl, hr⟩ := Tree.shape_append_inj (List.cons.inj hshape).2
      have hcount : l.syms.length = l'.syms.length := by
        have hlen := congrArg List.length hl
        have := l.leafCount_pos
        have := l'.leafCount_pos
        rw [Tree.length_shape, Tree.length_shape] at hlen
        change l.leafCount = l'.leafCount
        omega
      obtain ⟨hsl, hsr⟩ := List.append_inj hsyms hcount
      rw [Tree.codeOf, Tree.codeOf, ihl hl hsl, ihr hr hsr]

theorem staticBits_congr {T U : Tree} (hshape : T.shape = U.shape) (hsyms : T.syms = U.syms) (x : List Byte) :
    staticBits T x = staticBits U x := by
  simp only [staticBits, Tree.codeOf_congr hshape hsyms]

/-- R112: the payload begins with the code of the first byte. -/
theorem staticBits_cons {T : Tree} {b : Byte} {p : Bits} (h : T.codeOf (b.setWidth 9) = some p) (x : List Byte) :
    staticBits T (b :: x) = p ++ staticBits T x := by
  rw [staticBits, List.flatMap_cons, h]
  rfl

/-- R200: a byte costs at least one bit. -/
theorem length_le_staticBits {T : Tree} (htwo : 2 ≤ T.leafCount) {x : List Byte} (hx : ∀ b ∈ x, b.setWidth 9 ∈ T.syms) :
    x.length ≤ (staticBits T x).length := by
  induction x with
  | nil => exact Nat.zero_le _
  | cons b x ih =>
    obtain ⟨hb, hrest⟩ := List.forall_mem_cons.mp hx
    obtain ⟨p, hp⟩ := Option.isSome_iff_exists.mp (Tree.codeOf_isSome.mpr hb)
    have hpos := List.length_pos_iff.mpr (Tree.codeOf_ne_nil htwo hp)
    have := ih hrest
    rw [staticBits_cons hp, List.length_append, List.length_cons]
    omega

/-! ### The decode loop -/

/-- R217: the loop decodes the payload and stops at the logical end. -/
theorem decAll_good {T : Tree} {x : List Byte} {rest : Bits} {s : State} {k : Nat} (h : TreeAt s T) (htwo : 2 ≤ T.leafCount)
    (hg : PortsGood s) (hx : ∀ b ∈ x, b.setWidth 9 ∈ T.syms) (hcur : cursor s ≤ 8 * s.src.length)
    (hu : unread s = staticBits T x ++ rest) (hrest : rest.length = s.hdrIgnore.toNat) (hk : x.length < k) :
    ∃ u, decAll k s = .ok () u ∧ Decodes s u (staticBits T x) x := by
  induction x generalizing s k with
  | nil =>
    obtain ⟨k, rfl⟩ := Nat.exists_eq_add_one_of_ne_zero (Nat.ne_zero_of_lt hk)
    obtain ⟨u, hrun, hunread, hcursor, hgood, hframe⟩ := decSym_stops (p := []) h hg hcur hu hrest
      fun q hq => List.prefix_nil.mp hq ▸ Tree.leafAt_nil htwo
    refine ⟨u, (run_get_bind _ _).trans ((run_bind_ok _ hrun).trans rfl), ?_⟩
    exact (Emits.refl hgood).decodes (by rw [hu, hunread]) hcursor hframe
  | cons b x ih =>
    obtain ⟨k, rfl⟩ := Nat.exists_eq_add_one_of_ne_zero (Nat.ne_zero_of_lt hk)
    obtain ⟨hb, hxs⟩ := List.forall_mem_cons.mp hx
    obtain ⟨p, hp⟩ := Option.isSome_iff_exists.mp (Tree.codeOf_isSome.mpr hb)
    have hbyte : (b.setWidth 9).setWidth 8 = b := BitVec.eq_of_toNat_eq (by
      rw [BitVec.toNat_setWidth, toNat_setWidth_byte]
      exact Nat.mod_eq_of_lt b.isLt)
    rw [staticBits_cons hp, List.append_assoc] at hu
    have hlong : s.hdrIgnore.toNat ≤ (staticBits T x ++ rest).length := by
      rw [List.length_append, hrest]
      exact Nat.le_add_left _ _
    obtain ⟨t, hrun, hdec, hunread⟩ := decSym_good h htwo hg hu (Tree.leafAt_codeOf hp) (.inl hlong)
    rw [hbyte] at hrun hdec
    have hsrc : t.src = s.src := by rw [hdec.frame]
    have hcurt : cursor t ≤ 8 * t.src.length := by
      have hlen := congrArg List.length hu
      simp only [unread, List.length_drop, length_unpackMsb, List.length_append] at hlen
      rw [hdec.cursor, hsrc]
      omega
    obtain ⟨u, hrun', hdec'⟩ := ih (hdec.treeAt h) hdec.good hxs hcurt hunread (by rw [hrest, hdec.frame]) (Nat.lt_of_succ_lt_succ hk)
    have hmore : ¬ b.toNat = endOfStream := Nat.ne_of_lt b.isLt
    refine ⟨u, (run_get_bind _ _).trans ((run_bind_ok _ hrun).trans ?_), ?_⟩
    · rw [if_neg hmore, hrun']
    · rw [staticBits_cons hp]
      exact hdec.trans hdec'

/-! ### The command -/

/-- R110: the length of the header. -/
theorem length_staticHeader (ig sig : Byte) (T : Tree) :
    (staticHeader ig sig T).length = 4 + ceil8 (2 * T.leafCount - 1) + T.leafCount := by
  simp only [staticHeader, List.length_append, List.length_cons, List.length_nil, length_packMsb, T.length_shape, Tree.length_leafBytes]

/-- R112: the bits of a container behind its header. -/
theorem unread_staticContainer {s : State} {ig sig : Byte} {T : Tree} {b : Bits} (hsrc : s.src = staticHeader ig sig T ++ packMsb b)
    (hbyte : s.rdByte = 4 + ceil8 (2 * T.leafCount - 1) + T.leafCount) (hbit : s.rdBit = 0#3) :
    unread s = b ++ List.replicate (padCount b.length) false ∧ cursor s ≤ 8 * s.src.length := by
  have hcursor : cursor s = (unpackMsb (staticHeader ig sig T)).length := by
    rw [cursor, hbyte, hbit, length_unpackMsb, length_staticHeader]
    rfl
  refine ⟨?_, ?_⟩
  · rw [unread, hsrc, unpackMsb_append, hcursor, List.drop_left, unpackMsb_packMsb]
  · rw [hcursor, hsrc, length_unpackMsb, List.length_append]
    omega

/-- R217: behind a header with the pad count of the payload, the loop of `SH.UNARCHIVE` decodes the payload. -/
theorem HeaderTree.decAll_good {s v : State} {T U : Tree} {ig : Byte} {x : List Byte} (hv : HeaderTree s ig T v U)
    (htwo : 2 ≤ T.leafCount) (hx : ∀ b ∈ x, b.setWidth 9 ∈ T.syms) (hig : ig.toNat = padCount (staticBits T x).length)
    (hcur : cursor v ≤ 8 * v.src.length)
    (hunread : unread v = staticBits T x ++ List.replicate (padCount (staticBits T x).length) false) :
    ∃ w, decAll (remaining v + 1) v = .ok () w ∧ Decodes v w (staticBits T x) x := by
  have hcount : U.leafCount = T.leafCount := by rw [Tree.leafCount, hv.syms, Tree.leafCount]
  have hlen := length_le_staticBits htwo hx
  rw [← staticBits_congr hv.shape hv.syms] at hunread hig hlen ⊢
  refine Machine.decAll_good hv.tree (hcount ▸ htwo) hv.good (by rwa [hv.syms]) hcur hunread ?_ ?_
  · rw [List.length_replicate, hv.ignore, hig]
  · rw [remaining_eq, hunread, List.length_append]
    omega

/-- What `SH.UNARCHIVE` leaves on the container of `x` (R217). -/
structure Unarchived (s : State) (x : List Byte) (u : State) : Prop where
  sink : sinkBytes u = x.map some
  beyond : ∀ a, u.sinkPos ≤ a → Memory.read u.snk a = Memory.read s.snk a
  mode : u.tmode = .static
  flat : u.flatValid = true
  bytes : u.bytesIn = s.src.length ∧ u.bytesOut = u.sinkPos
  frame : u = { initContext s with
    ports := u.ports, bytesIn := u.bytesIn, bytesOut := u.bytesOut, rdByte := u.rdByte, rdBit := u.rdBit, sinkPos := u.sinkPos,
    snk := u.snk, arena := u.arena, nodeCnt := u.nodeCnt, root := u.root, tmode := u.tmode, shape := u.shape,
    shapeSize := u.shapeSize, leaves := u.leaves, leafCnt := u.leafCnt, flatValid := u.flatValid, hdrIgnore := u.hdrIgnore,
    hdrSig := u.hdrSig }

theorem Unarchived.sinkPos {s u : State} {x : List Byte} (h : Unarchived s x u) : u.sinkPos = x.length := by
  rw [← length_sinkBytes, h.sink, List.length_map]

/-- R217: `SH.UNARCHIVE` on the container of `x` under a static tree with a leaf for every byte of it. -/
theorem unarchiveStatic_good {s : State} {T : Tree} {x : List Byte} (h : PortsGood s) (hT : T.Static)
    (hx : ∀ b ∈ x, b.setWidth 9 ∈ T.syms) (hsrc : s.src = staticContainer s.params.sigStatic T x) :
    ∃ u, unarchiveStatic s = .ok x.length u ∧ Unarchived s x u := by
  have hpad : padCount (staticBits T x).length < 8 := Nat.mod_lt _ (by decide)
  have hig : (BitVec.ofNat 8 (padCount (staticBits T x).length)).toNat = padCount (staticBits T x).length :=
    Nat.mod_eq_of_lt (by omega)
  obtain ⟨v, U, hheader, hv⟩ := rdHdr_good (s := initContext s) (by rw [hig]; omega) h hT hsrc
  have hframe := hv.frame
  rw [HeaderFrame, hv.codes] at hframe
  have hvsrc : v.src = s.src := by
    rw [hframe]
    rfl
  obtain ⟨hunread, hcur⟩ := unread_staticContainer (s := v) (hvsrc.trans hsrc) (hv.pos.trans (Nat.zero_add _)) (by rw [hframe]; rfl)
  obtain ⟨w, hdecode, hw⟩ := hv.decAll_good hT.1 hx hig hcur hunread
  obtain ⟨z, hflush, hz, hobuf, -⟩ := flushOut_good hw.good
  obtain ⟨hstream, hgrows⟩ := hw.bytes.trans hz.bytes
  have hfresh : emitted v = [] ∧ v.snk = s.snk := by
    rw [hframe]
    exact ⟨rfl, rfl⟩
  rw [hfresh.1, List.nil_append, List.append_nil, emitted, hobuf, List.map_nil, List.append_nil] at hstream
  have hpos : z.sinkPos = x.length := by rw [← length_sinkBytes, hstream, List.length_map]
  refine ⟨countBytes v.src.length z, ?_, ?_⟩
  · rw [← hpos]
    exact (run_modify_bind _ _ _).trans ((run_bind_ok _ hheader).trans ((run_get_bind _ _).trans ((run_bind_ok _ hdecode).trans
      ((run_bind_ok _ hflush).trans ((run_modify_bind _ _ _).trans (run_get_bind _ _))))))
  · exact {
      sink := hstream
      beyond := fun a ha => (hgrows.2 a (.inr ha)).trans (by rw [hfresh.2])
      mode := by rw [← hv.mode, hz.frame, hw.frame]; rfl
      flat := by rw [← hv.flat, hz.frame, hw.frame]; rfl
      bytes := ⟨congrArg List.length hvsrc, rfl⟩
      frame := by rw [hz.frame, hobuf, hw.frame, hframe]; rfl }

/-- Settles O45: `unarchiveStatic_good`, with what the end of the command leaves alone. -/
theorem shUnarchiveDecodesContainer : Obligations.ShUnarchiveDecodesContainer := by
  intro s T x hf h hT hx hsrc
  obtain ⟨u, hrun, hu⟩ := unarchiveStatic_good h hT hx hsrc
  have hpos := hu.sinkPos
  obtain ⟨hin, hout⟩ := hu.bytes
  have hkept : u.obuf = [] ∧ u.cseq = s.cseq ∧ u.codesValid = false ∧ u.faulted = false := by
    rw [hu.frame]
    exact ⟨rfl, rfl, rfl, rfl⟩
  obtain ⟨hobuf, hcseq, hcodes, hfaulted⟩ := hkept
  refine ⟨_, exec_ok rfl (by simp [hf]) rfl (run_bind_ok _ hrun), hu.sink, hpos, hobuf, hu.beyond, rfl, rfl,
    congrArg (· + 1#64) hcseq, hin, hout.trans hpos, hu.mode, hcodes, hu.flat, hfaulted, ?_⟩
  rw [hu.frame]
  rfl

/-! ### The round trip -/

/-- Settles O46: `SH.ARCHIVE` ends OK on two or more distinct bytes alone (`shArchiveWritesContainer`, `shArchiveRejectsFewSymbols`), and
then what it wrote is the container of its source under a tree with a leaf for every byte of it (`unarchiveStatic_good`). -/
theorem staticRoundTrip : Obligations.StaticRoundTrip := by
  refine ⟨fun s hf h htwo => ?_, fun s t s' y hf h ht htf hy hf' h' hparams hsrc => ?_⟩
  · obtain ⟨v, u, T, hrun, hv, hu⟩ := archiveStatic_good h htwo
    obtain ⟨-, -, -, hfaulted, -⟩ := hu.keeps
    refine ⟨_, exec_ok rfl (by simp [hf]) rfl (run_bind_ok _ hrun), hfaulted.trans ?_⟩
    rw [hv.frame]
    rfl
  · have htwo : 2 ≤ (distinctBytes s.src).length := by
      by_contra hfew
      obtain ⟨t', ht', ⟨-, -, hfault, -⟩, -⟩ := shArchiveRejectsFewSymbols s hf h (Nat.not_le.mp hfew)
      rw [ht] at ht'
      cases ht'
      exact absurd hfault (by simp [htf])
    obtain ⟨t', T, ht', -, hT, hleaves, hsink, -⟩ := shArchiveWritesContainer s hf h htwo
    rw [ht] at ht'
    cases ht'
    obtain rfl : y = staticContainer s.params.sigStatic T s.src :=
      List.map_injective_iff.mpr (Option.some_injective _) (hy.symm.trans hsink)
    have hx : ∀ b ∈ s.src, b.setWidth 9 ∈ T.syms := fun b hb => by
      obtain ⟨-, -, hbyte⟩ := hT
      rw [← Tree.mem_leafBytes_iff hbyte, hleaves.mem_iff]
      exact List.mem_dedup.mpr hb
    obtain ⟨u, hu, hout, -, -, -, -, -, -, -, -, -, -, -, hfaulted, -⟩ :=
      shUnarchiveDecodesContainer s' T s.src hf' h' hT hx (by rw [hsrc, hparams])
    exact ⟨u, hu, hfaulted, hout⟩

end Sys2Proof.Machine
end

section
namespace Sys2Proof.Machine

-- One declaration after the other: the threads of the whole text together would pass the check's memory limit.
set_option Elab.async false

/-! ## `SH.ARCHIVE` and the primitive commands (R219)

Two states agree when they differ in nothing but what R219 leaves out and in the answers of good ports. The parts of
`SH.ARCHIVE` run the same from states that agree, so the composite command and the sequence of primitive commands stay in agreement step by
step. -/

/-- The state without what R219 leaves out: `RES`, the byte counts, `CSEQ`, the response and the port answers. -/
def masked (s : State) : State := { s with rsp := none, res := 0#64, bytesIn := 0, bytesOut := 0, cseq := 0#64, ports := [] }

structure Agree (s t : State) : Prop where
  masked : masked s = masked t
  left : PortsGood s
  right : PortsGood t

/-- From states that agree, where one run of `c` comes to its end the other does, with the same value, and the states agree
again. -/
def RunsAlike {α : Type} (c : Cmd α) : Prop :=
  ∀ (s t s' : State) (a : α), Agree s t → c s = .ok a s' → ∃ t', c t = .ok a t' ∧ Agree s' t'

/-- R219: what "the same but for" says. -/
theorem Agree.eq_but {s t : State} (h : Agree s t) :
    s = { t with res := s.res, bytesIn := s.bytesIn, bytesOut := s.bytesOut, cseq := s.cseq, rsp := s.rsp, ports := s.ports } :=
  congrArg (fun m : State =>
    { m with res := s.res, bytesIn := s.bytesIn, bytesOut := s.bytesOut, cseq := s.cseq, rsp := s.rsp, ports := s.ports }) h.masked

/-- Two states still agree when nothing but the masked parts was written. -/
theorem Agree.of_masked {s t s' t' : State} (h : Agree s t) (hs : Machine.masked s' = Machine.masked s)
    (ht : Machine.masked t' = Machine.masked t) (hgood : PortsGood s') (hgood' : PortsGood t') : Agree s' t' :=
  ⟨hs.trans (h.masked.trans ht.symm), hgood, hgood'⟩

theorem Agree.use {s t : State} (h : Agree s t) : Agree (usePort s) (usePort t) := h.of_masked rfl rfl h.left.use h.right.use

/-- A function of the state that does not look at the masked parts. -/
theorem Agree.congr {β : Type} {s t : State} (h : Agree s t) {f : State → β} (hf : ∀ s, f (Machine.masked s) = f s) : f s = f t :=
  (hf s).symm.trans ((congrArg f h.masked).trans (hf t))

/-! ### The ways to build a rule -/

section
variable {α β : Type}

theorem runsAlike_pure (a : α) : RunsAlike (pure a : Cmd α) := by
  intro s t s' b h hc
  obtain ⟨rfl, rfl⟩ := EStateM.Result.ok.inj hc
  exact ⟨t, rfl, h⟩

theorem runsAlike_raise (e : ErrKind) (info : Nat) : RunsAlike (raise e info : Cmd α) := fun _ _ _ _ _ hc => nomatch hc

theorem runsAlike_stick (f : Fault) : RunsAlike (stick f : Cmd α) := fun _ _ _ _ _ hc => nomatch hc

/-- A change of other parts of the state, which looks at other parts alone; mostly true by definition. -/
theorem runsAlike_modify {f : State → State} (h : ∀ s, masked (f s) = f (masked s) := by exact fun _ => rfl)
    (hports : ∀ s, (f s).ports = s.ports := by exact fun _ => rfl) : RunsAlike (modify f : Cmd PUnit) := by
  intro s t s' a hst hc
  obtain ⟨-, rfl⟩ := EStateM.Result.ok.inj hc
  exact ⟨f t, rfl, (h s).trans ((congrArg f hst.masked).trans (h t).symm), hst.left.of_ports (hports s), hst.right.of_ports (hports t)⟩

theorem RunsAlike.seq {c : Cmd α} {f : α → Cmd β} (hc : RunsAlike c) (hf : ∀ a, RunsAlike (f a)) :
    RunsAlike (c >>= f) := by
  intro s t s' b hst hrun
  rw [run_bind] at hrun
  split at hrun
  next a s1 hs1 =>
    obtain ⟨t1, ht1, h1⟩ := hc _ _ _ _ hst hs1
    obtain ⟨t', ht', h'⟩ := hf a _ _ _ _ h1 hrun
    exact ⟨t', (run_bind_ok f ht1).trans ht', h'⟩
  next => cases hrun

/-- A rule that reads the state and runs `c` from it, where `c` uses no masked part of what was read; mostly true by definition. -/
theorem runsAlike_withState {c : State → Cmd α} (hc : ∀ s, RunsAlike (c s))
    (h : ∀ s, c (masked s) = c s := by exact fun _ => rfl) : RunsAlike ((get : Cmd State) >>= c) := by
  intro s t s' a hst hrun
  rw [run_get_bind] at hrun
  rw [run_get_bind, ← hst.congr h]
  exact hc s _ _ _ _ hst hrun

theorem runsAlike_ite {c : Prop} [Decidable c] {x y : Cmd α} (hx : RunsAlike x) (hy : RunsAlike y) :
    RunsAlike (if c then x else y) := by
  split
  · exact hx
  · exact hy

theorem runsAlike_fromTree (o : Option α) : RunsAlike (fromTree o) := by
  cases o with
  | none => exact runsAlike_stick _
  | some a => exact runsAlike_pure a

theorem runsAlike_upFrom {f : Nat → Cmd Unit} (hf : ∀ i, RunsAlike (f i)) (n i : Nat) : RunsAlike (upFrom f n i) := by
  induction n generalizing i with
  | zero => exact runsAlike_pure ()
  | succ n ih => exact (hf i).seq fun _ => ih (i + 1)

end

/-! ### Port transactions and output -/

/-- R64: good ports answer the same. -/
theorem runsAlike_askPort : RunsAlike askPort := by
  intro s t s' a h hc
  rw [askPort_eq, h.left.head] at hc
  obtain ⟨rfl, rfl⟩ := EStateM.Result.ok.inj hc
  exact ⟨usePort t, by rw [askPort_eq, h.right.head], h.use⟩

theorem runsAlike_memRead (off n : Nat) : RunsAlike (memRead off n) :=
  runsAlike_askPort.seq fun a => by
    cases a with
    | failed => exact runsAlike_raise _ _
    | done => exact runsAlike_withState fun _ => runsAlike_pure _

theorem runsAlike_memWrite (off : Nat) (v : List Byte) : RunsAlike (memWrite off v) :=
  runsAlike_askPort.seq fun a => by
    cases a with
    | failed => exact runsAlike_raise _ _
    | done => exact runsAlike_modify

theorem runsAlike_srcByte (off : Nat) (onEnd : ErrKind) : RunsAlike (srcByte off onEnd) :=
  runsAlike_withState fun _ => runsAlike_ite (runsAlike_raise _ _) ((runsAlike_memRead _ _).seq fun _ => runsAlike_pure _)

theorem runsAlike_flushOut : RunsAlike flushOut :=
  runsAlike_withState fun _ => runsAlike_ite (runsAlike_pure _) ((runsAlike_memWrite _ _).seq fun _ => runsAlike_modify)

theorem runsAlike_emitByte (b : Byte) : RunsAlike (emitByte b) :=
  (runsAlike_modify).seq fun _ => runsAlike_withState fun _ => runsAlike_ite runsAlike_flushOut (runsAlike_pure _)

theorem runsAlike_emitBytes (bs : List Byte) : RunsAlike (emitBytes bs) := by
  induction bs with
  | nil => exact runsAlike_pure _
  | cons b bs ih => exact (runsAlike_emitByte b).seq fun _ => ih

theorem runsAlike_writeBits (v w : Nat) : RunsAlike (writeBits v w) :=
  runsAlike_withState fun _ => (emitWhole_eq_emitBytes _ _ _ ▸ runsAlike_emitBytes _).seq fun _ => runsAlike_modify

theorem runsAlike_emitChunks (n : Nat) (b : Bits) : RunsAlike (emitChunks n b) := by
  induction n generalizing b with
  | zero => exact runsAlike_pure _
  | succ n ih => exact runsAlike_ite (runsAlike_pure _) ((runsAlike_writeBits _ _).seq fun _ => ih _)

theorem runsAlike_finish : RunsAlike finish :=
  runsAlike_withState fun _ => runsAlike_ite (runsAlike_flushOut.seq fun _ => runsAlike_pure _)
    ((runsAlike_emitByte _).seq fun _ => (runsAlike_modify).seq fun _ => runsAlike_flushOut.seq fun _ => runsAlike_pure _)

/-! ### The parts of `SH.ARCHIVE` -/

theorem runsAlike_scan : RunsAlike scan :=
  runsAlike_withState fun _ => runsAlike_upFrom (fun _ => (runsAlike_srcByte _ _).seq fun _ => runsAlike_modify) _ _

theorem runsAlike_checkDistinct : RunsAlike checkDistinct :=
  runsAlike_withState fun _ => runsAlike_ite (runsAlike_raise _ _) (runsAlike_pure ())

theorem runsAlike_build : RunsAlike build :=
  runsAlike_checkDistinct.seq fun _ => (runsAlike_modify).seq fun _ => runsAlike_withState fun _ =>
    (runsAlike_fromTree _).seq fun _ => runsAlike_modify

theorem runsAlike_mkCodes : RunsAlike mkCodes :=
  runsAlike_withState fun _ => (runsAlike_fromTree _).seq fun _ => runsAlike_modify

theorem runsAlike_serHdr (ig sig : Byte) : RunsAlike (serHdr ig sig) := by
  have hflatten : RunsAlike flatten := runsAlike_withState fun _ => (runsAlike_fromTree _).seq fun _ => runsAlike_modify
  exact hflatten.seq fun _ => runsAlike_withState fun _ => (runsAlike_emitBytes _).seq fun _ => runsAlike_modify

theorem runsAlike_encSym (b : Byte) : RunsAlike (encSym b) :=
  runsAlike_withState fun _ => runsAlike_ite (runsAlike_stick _) (runsAlike_emitChunks _ _)

theorem runsAlike_fixup (ig : Byte) : RunsAlike (fixup ig) := (runsAlike_memWrite _ _).seq fun _ => runsAlike_modify

/-! ### The primitive commands -/

/-- R298: no admission condition looks at a masked part. -/
theorem admitted_masked (i : Instr) (s : State) : admitted i (masked s) = admitted i s := by cases i <;> rfl

section
variable {i : Instr} {is js : List Instr} {s t s' s'' : State} {v : Word}

/-- A command ends OK from a state that agrees with one from which its rule comes to its end. -/
theorem Agree.exec (h : Agree s t) (hi : RunsAlike (ruleOf i)) (hw : i.wf = true) (hf : s.faulted = false)
    (ha : admitted i s = true) (hr : ruleOf i s = .ok v s') : ∃ t', exec i t = .next (finishOk v t') ∧ Agree s' (finishOk v t') := by
  obtain ⟨t', ht', h'⟩ := hi _ _ _ _ h hr
  have hft : t.faulted = false := (h.congr (f := State.faulted) fun _ => rfl).symm.trans hf
  have hat : admitted i t = true := (h.congr (admitted_masked i)).symm.trans ha
  exact ⟨t', exec_ok hw (by simp [hft]) hat ht', h'.of_masked rfl rfl h'.left (h'.right.of_ports rfl)⟩

/-- The commands `is` lead from every state that agrees with `s` to one that agrees with `s'`. -/
def Mirrors (is : List Instr) (s s' : State) : Prop := ∀ t, Agree s t → ∃ t', execAll is t = .next t' ∧ Agree s' t'

theorem Mirrors.append (h : Mirrors is s s') (h' : Mirrors js s' s'') : Mirrors (is ++ js) s s'' := by
  intro t ht
  obtain ⟨t', hrun, ht'⟩ := h t ht
  obtain ⟨t'', hrun', ht''⟩ := h' t' ht'
  exact ⟨t'', (execAll_append hrun).trans hrun', ht''⟩

theorem mirrors_singleton (hi : RunsAlike (ruleOf i)) (hw : i.wf = true) (hf : s.faulted = false) (ha : admitted i s = true)
    (hr : ruleOf i s = .ok v s') : Mirrors [i] s s' := by
  intro t ht
  obtain ⟨t', hrun, ht'⟩ := ht.exec hi hw hf ha hr
  refine ⟨_, ?_, ht'⟩
  rw [execAll, hrun]
  rfl

/-- A rule whose answer is read off the state it leaves. -/
theorem runsAlike_answer {c : Cmd Unit} {f : State → Word} (hc : RunsAlike c)
    (hf : ∀ s, f (masked s) = f s := by exact fun _ => rfl) : RunsAlike (do c; let t ← get; pure (f t)) :=
  hc.seq fun _ => runsAlike_withState (fun _ => runsAlike_pure _) fun s => congrArg pure (hf s)

end

/-- R219: the first four commands do the first pass. -/
theorem FirstPass.mirrors {s u : State} {T : Tree} {r : Table Node × Nat × Nat} {c : Table Bits} (h : FirstPass s T u r c)
    (hf : s.faulted = false) :
    Mirrors [.ctxInit, .fbScan, .fbBuild, .shMkcodes] s (putCodes r c u) := by
  have hinit : Mirrors [.ctxInit] s (initContext s) :=
    mirrors_singleton ((runsAlike_modify).seq fun _ => runsAlike_pure _) rfl hf rfl rfl
  have hscan : Mirrors [.fbScan] (initContext s) u :=
    mirrors_singleton (runsAlike_scan.seq fun _ => runsAlike_answer runsAlike_checkDistinct) rfl rfl rfl
      ((run_bind_ok _ h.scanned).trans (run_bind_ok _ h.checked))
  have hbuild : Mirrors [.fbBuild] u (putTree r u) :=
    mirrors_singleton (runsAlike_answer runsAlike_build) rfl h.running rfl (run_bind_ok _ h.built)
  have hcodes : Mirrors [.shMkcodes] (putTree r u) (putCodes r c u) :=
    mirrors_singleton (runsAlike_answer runsAlike_mkCodes) rfl h.running rfl (run_bind_ok _ h.derived)
  exact ((hinit.append hscan).append hbuild).append hcodes

/-- R219: `SH.ENCSYM` for every byte from `i` on does what the loop of `SH.ARCHIVE` does, but for the transactions that read the
bytes. -/
theorem mirrors_encsyms (n i : Nat) {s s' : State} (h : PortsGood s) (hf : s.faulted = false) (hv : s.codesValid = true)
    (hcodes : ∀ b ∈ s.src, 0 < s.codeLen b) (hi : i + n = s.src.length) (hrun : upFrom archiveByte n i s = .ok () s') :
    Mirrors ((s.src.drop i).map Instr.shEncsym) s s' := by
  induction n generalizing i s with
  | zero =>
    rw [List.drop_eq_nil_of_le (by omega)]
    obtain ⟨-, rfl⟩ := EStateM.Result.ok.inj hrun
    exact fun t ht => ⟨t, rfl, ht⟩
  | succ n ih =>
    have hl : i < s.src.length := by omega
    have hb := hcodes _ (List.getElem_mem hl)
    obtain ⟨u, hu, hw, -⟩ := encSym_good (s := usePort s) hb h.use
    have hbyte : archiveByte i s = .ok () u := (run_bind_ok _ (srcByte_good .io h hl)).trans hu
    have hadm : admitted (.shEncsym s.src[i]) (usePort s) = true := Bool.and_eq_true_iff.mpr ⟨hv, decide_eq_true hb⟩
    have hfirst : Mirrors [.shEncsym s.src[i]] (usePort s) u :=
      mirrors_singleton (runsAlike_answer (runsAlike_encSym _)) rfl hf hadm (run_bind_ok _ hu)
    obtain ⟨hsrc, hfu, hvu, hlen⟩ :
        u.src = s.src ∧ u.faulted = s.faulted ∧ u.codesValid = s.codesValid ∧ u.codeLen = s.codeLen := by
      rw [hw.frame]
      exact ⟨rfl, rfl, rfl, rfl⟩
    have hrest := ih (i + 1) hw.good (hfu.trans hf) (hvu.trans hv) (by rwa [hsrc, hlen]) (by rw [hsrc]; omega)
      ((run_bind_ok _ hbyte).symm.trans hrun)
    rw [hsrc] at hrest
    rw [List.drop_eq_getElem_cons hl, List.map_cons]
    exact fun t ht => hfirst.append hrest t (ht.of_masked rfl rfl ht.left.use ht.right)

/-- R219: `TC.SERHDR` and the `SH.ENCSYM` of all bytes write the header and the codes. -/
theorem SecondPass.mirrors {s v w x y : State} {T : Tree} (h : SecondPass v T w x y) (hv : TreeCoded s v T) (hf : v.faulted = false) :
    Mirrors (.tcSerhdr 0#8 v.params.sigStatic :: v.src.map Instr.shEncsym) v x := by
  have hheader : Mirrors [.tcSerhdr 0#8 v.params.sigStatic] v w :=
    mirrors_singleton (runsAlike_answer (runsAlike_serHdr _ _)) rfl hf (by simp [admitted, hv.mode, hv.fresh.accCnt])
      (run_bind_ok _ h.header)
  obtain ⟨hsrc, hfw, hvalid, hlen⟩ :
      w.src = v.src ∧ w.faulted = v.faulted ∧ w.codesValid = v.codesValid ∧ w.codeLen = v.codeLen := by
    rw [h.headerFrame]
    exact ⟨rfl, rfl, rfl, rfl⟩
  have hcodes : ∀ b ∈ w.src, 0 < w.codeLen b := fun b hb => by
    rw [hlen]
    exact hv.codes.codeLen_pos hv.static.1 (hv.mem_syms (hv.host.1 ▸ hsrc ▸ hb))
  have hbytes := mirrors_encsyms v.src.length 0 h.headerGood (hfw.trans hf) (hvalid.trans hv.valid) hcodes (by rw [hsrc, Nat.zero_add])
    h.coded
  rw [List.drop_zero, hsrc] at hbytes
  exact hheader.append hbytes

/-- Settles O47: the commands up to the last `SH.ENCSYM` stay in agreement with `SH.ARCHIVE` (`FirstPass.mirrors`,
`SecondPass.mirrors`), and so do `BS.FINISH`, which answers the pad count, and `SH.FIXUP` after them. -/
theorem shArchiveEqualsPrimitives : Obligations.ShArchiveEqualsPrimitives := by
  intro s hf h htwo
  obtain ⟨T, u, r, c, w, x, y, hfirst, hsecond⟩ := archive_passes h htwo
  obtain ⟨hsrc, hparams, -⟩ := hfirst.coded.host
  have hpasses := (hfirst.mirrors hf).append (hsecond.mirrors hfirst.coded hfirst.running)
  have hcomposite := exec_ok (i := .shArchive) rfl (by simp [hf]) rfl
    (run_bind_ok _ (hfirst.archiveStatic.trans hsecond.archiveCoded))
  have hpadded := hsecond.padded
  rw [hsrc, hparams] at hpasses
  rw [hsrc] at hcomposite hpadded
  generalize hn : padCount (staticBits T s.src).length = n at hcomposite hpadded
  have hpad : n < 8 := by rw [← hn, padCount]; omega
  obtain ⟨t, hrun, ht⟩ := hpasses s ⟨rfl, h, h⟩
  obtain ⟨t', hfinish, ht'⟩ := ht.exec (i := .bsFinish) (runsAlike_finish.seq fun _ => runsAlike_pure _) rfl
    (hsecond.running.trans hfirst.running) rfl (run_bind_ok _ hpadded)
  obtain ⟨hobuf, hfy⟩ : y.obuf = [] ∧ y.faulted = false := by
    rw [hsecond.frame]
    exact ⟨rfl, hfirst.running⟩
  have hlegal : (Instr.shFixup (BitVec.ofNat 8 n)).wf = true := by
    simp only [Instr.wf, ignoreLegal, BitVec.toNat_ofNat, decide_eq_true_iff]
    omega
  obtain ⟨t'', hfixup, ht''⟩ := ht'.exec (i := .shFixup (BitVec.ofNat 8 n)) ((runsAlike_fixup _).seq fun _ => runsAlike_pure _)
    hlegal hfy (by simp [admitted, State.obufLen, hobuf, hsecond.sinkPos_pos]) (run_bind_ok _ (fixup_good _ hsecond.good))
  refine ⟨_, _, _, BitVec.ofNat 8 n, hcomposite, (execAll_append hrun).trans ?_, ?_, hfixup, Agree.eq_but ?_⟩
  · rw [execAll, hfinish]
    rfl
  · rw [finishOk_res]
    apply BitVec.eq_of_toNat_eq
    simp only [BitVec.toNat_ofNat, BitVec.toNat_setWidth]
    omega
  · exact ht''.of_masked rfl rfl hsecond.good.use ht''.right

end Sys2Proof.Machine
end

section
namespace Sys2Proof.Machine

-- One declaration after the other: the threads of the whole text together would pass the check's memory limit.
set_option Elab.async false

/-! ## The fresh adaptive tree (44_adaptive.md R235, R241, R252) -/

/-- R235: the arena `AhInit` leaves. -/
theorem ahInitTree_node (s : State) (i : Nat) :
    (ahInitTree s).node i = if i = 0 then adaptiveLeaf Config.nytMark none Config.numRoot else Node.reset :=
  nodeAt_setNode [] 0 i (adaptiveLeaf Config.nytMark none Config.numRoot)

/-- R235: `AhInit` leaves the fresh adaptive tree. -/
theorem freshAdaptive_ahInitTree (s : State) : FreshAdaptive (ahInitTree s) :=
  ⟨(ahInitTree_node s 0).trans (if_pos rfl), fun i hi => (ahInitTree_node s i).trans (if_neg hi), fun _ => rfl,
    rfl, rfl, rfl, rfl, rfl, rfl, rfl⟩

/-- R241: `AH.INIT`. -/
theorem exec_ahInit {s : State} (hf : s.faulted = false) : exec .ahInit s = .next (finishOk 0#64 (ahInitTree s)) :=
  exec_ok rfl (by simp [hf]) rfl rfl

/-- Settles O48: the rule is `ahInitTree`, whose tree is the fresh one. -/
theorem ahInitCreatesNytLeaf : Obligations.AhInitCreatesNytLeaf := fun s hf =>
  ⟨_, exec_ahInit hf, endsOk_finishOk _ rfl rfl rfl, freshAdaptive_ahInitTree s, rfl⟩

/-! ### The signature (R252) -/

/-- The context in which `AH.ARCHIVE` and `AH.UNARCHIVE` begin (R251, R252). -/
def ahStart (s : State) : State := ahInitTree (initContext s)

/-- R252: what `AH.UNARCHIVE` does behind its signature. -/
def unarchiveBody (n : Nat) : Cmd Nat := do
  repeatTimes (discard ahDecSym) n
  flushOut
  modify fun t => countBytes (bytesTouched t) t
  let t ← get
  pure t.sinkPos

/-- R252: the state after the signature byte was taken. -/
def sigTaken (sig : Byte) (s : State) : State := { usePort (ahStart s) with rdByte := 1, hdrSig := sig }

/-- R252, R293: no signature byte. -/
theorem unarchiveAdaptive_empty {s : State} (n : Nat) (h : s.src = []) :
    unarchiveAdaptive n s = .error (.raised .badSignature 0) (ahStart s) :=
  (run_modify_bind _ _ _).trans ((run_modify_bind _ _ _).trans
    (run_bind_error _ (takeByte_end .badSignature (s := ahStart s) (Nat.le_of_eq (congrArg List.length h)))))

/-- R252, R293: the signature byte is taken and tested. -/
theorem unarchiveAdaptive_cons {s : State} {sig : Byte} {rest : List Byte} (n : Nat) (hg : PortsGood s) (h : s.src = sig :: rest) :
    unarchiveAdaptive n s = if sig = s.params.sigAdaptive then unarchiveBody n (sigTaken sig s)
      else .error (.raised .badSignature sig.toNat) (sigTaken sig s) := by
  have hlen : (ahStart s).rdByte < (ahStart s).src.length := by
    change 0 < s.src.length
    rw [h]
    exact Nat.succ_pos _
  have hbyte : (ahStart s).src[(ahStart s).rdByte] = sig := by
    change s.src[0] = sig
    simp [h]
  have htake := takeByte_good .badSignature (s := ahStart s) (hg.of_ports rfl) hlen
  rw [hbyte] at htake
  refine (run_modify_bind _ _ _).trans ((run_modify_bind _ _ _).trans ((run_bind_ok _ htake).trans
    ((run_modify_bind _ _ _).trans ((run_get_bind _ _).trans ?_))))
  by_cases hsig : sig = s.params.sigAdaptive
  · rw [if_pos hsig]
    exact run_bind_ok _ (raiseIf_neg _ _ _ (not_not.mpr hsig))
  · rw [if_neg hsig]
    exact run_bind_error _ (raiseIf_pos _ _ _ hsig)

/-- Settles O57: the two ways the signature test fails (`unarchiveAdaptive_empty`, `unarchiveAdaptive_cons`); nothing but the cursor
and `HDR_SIG` was written in the fresh adaptive context. -/
theorem ahUnarchiveChecksSignature : Obligations.AhUnarchiveChecksSignature := by
  intro s n hf hg
  refine ⟨fun h => ?_, fun sig rest h hsig => ?_⟩
  · have hrun := unarchiveAdaptive_empty n.toNat h
    exact ⟨_, exec_raised rfl (by simp [hf]) rfl (run_bind_error _ hrun), endsFaulted_takeFault _ _ rfl, rfl, rfl, rfl,
      freshAdaptive_ahInitTree _, rfl⟩
  · have hrun := (unarchiveAdaptive_cons n.toNat hg h).trans (if_neg hsig)
    exact ⟨_, exec_raised rfl (by simp [hf]) rfl (run_bind_error _ hrun), endsFaulted_takeFault _ _ rfl, rfl, rfl, rfl,
      freshAdaptive_ahInitTree (initContext s), rfl, rfl⟩

end Sys2Proof.Machine
end

section
namespace Sys2Proof.Machine

-- One declaration after the other: the threads of the whole text together would pass the check's memory limit.
set_option Elab.async false

/-! ## Paths in a tree (R237) -/

/-- An arena holds one tree at most at an entry. -/
theorem Holds.unique {t : Table Node} {p q : Option Nat} {T U : Tree} (h : Holds t p T) (h' : Holds t q U) (hi : T.idx = U.idx) :
    T = U := by
  induction T generalizing p q U with
  | leaf i s =>
    obtain ⟨hk, hs, -⟩ := h
    cases U with
    | leaf j x =>
      obtain rfl : i = j := hi
      rw [← hs, ← h'.2.1]
    | node j l r =>
      obtain rfl : i = j := hi
      exact absurd (hk.symm.trans h'.1) (by decide)
  | node i l r ihl ihr =>
    obtain ⟨hk, -, hl, hr, -, hhl, hhr⟩ := h
    cases U with
    | leaf j x =>
      obtain rfl : i = j := hi
      exact absurd (hk.symm.trans h'.1) (by decide)
    | node j l' r' =>
      obtain rfl : i = j := hi
      obtain ⟨-, -, hl', hr', -, hhl', hhr'⟩ := h'
      rw [ihl hhl hhl' (Option.some.inj (hl.symm.trans hl')), ihr hhr hhr' (Option.some.inj (hr.symm.trans hr'))]

theorem AdaptiveAt.unique {s : State} {T U : Tree} (h : AdaptiveAt s T) (h' : AdaptiveAt s U) : T = U := by
  obtain ⟨⟨hroot, hheld, -⟩, -⟩ := h
  obtain ⟨⟨hroot', hheld', -⟩, -⟩ := h'
  exact hheld.unique hheld' (Option.some.inj (hroot.symm.trans hroot'))

/-- Entry `n` hangs at the path `p` (R237); unlike `Tree.pathTo`, no order of search is in it. -/
def Tree.AtPath (n : Nat) : Bits → Tree → Prop
  | p, .leaf i _ => i = n ∧ p = []
  | p, .node i l r => (i = n ∧ p = []) ∨ (∃ q, p = false :: q ∧ l.AtPath n q) ∨ ∃ q, p = true :: q ∧ r.AtPath n q

theorem Tree.AtPath.mem {T : Tree} {n : Nat} {p : Bits} (h : T.AtPath n p) : n ∈ T.indices := by
  induction T generalizing p with
  | leaf i s => exact List.mem_singleton.mpr h.1.symm
  | node i l r ihl ihr =>
    rcases h with ⟨rfl, -⟩ | ⟨q, -, hq⟩ | ⟨q, -, hq⟩
    · exact List.mem_cons_self
    · exact List.mem_cons_of_mem _ (List.mem_append_left _ (ihl hq))
    · exact List.mem_cons_of_mem _ (List.mem_append_right _ (ihr hq))

theorem Tree.atPath_of_pathTo {T : Tree} {n : Nat} {p : Bits} (h : T.pathTo n = some p) : T.AtPath n p := by
  induction T generalizing p with
  | leaf i s =>
    rw [Tree.pathTo] at h
    split at h
    · next hi => exact ⟨hi, (Option.some.inj h).symm⟩
    · cases h
  | node i l r ihl ihr =>
    rw [Tree.pathTo] at h
    split at h
    · next hi => exact .inl ⟨hi, (Option.some.inj h).symm⟩
    · split at h
      · next q hq => exact .inr (.inl ⟨q, (Option.some.inj h).symm, ihl hq⟩)
      · obtain ⟨q, hq, rfl⟩ := Option.map_eq_some_iff.mp h
        exact .inr (.inr ⟨q, rfl, ihr hq⟩)

/-- R237: in a tree whose entries are distinct, an entry hangs at one path. -/
theorem Tree.AtPath.unique {T : Tree} (hd : T.indices.Nodup) {n : Nat} {p q : Bits} (hp : T.AtPath n p) (hq : T.AtPath n q) : p = q := by
  induction T generalizing p q with
  | leaf i s => rw [hp.2, hq.2]
  | node i l r ihl ihr =>
    have hap := apart_of_nodup hd
    rcases hp with ⟨rfl, rfl⟩ | ⟨p', rfl, hp⟩ | ⟨p', rfl, hp⟩ <;>
      rcases hq with ⟨hi, rfl⟩ | ⟨q', rfl, hq⟩ | ⟨q', rfl, hq⟩
    · rfl
    · exact absurd hq.mem hap.child
    · exact absurd hq.mem hap.sibling
    · exact absurd (hi ▸ hp.mem) hap.child
    · rw [ihl hap.childNodup hp hq]
    · exact absurd hq.mem (hap.disjoint _ hp.mem)
    · exact absurd (hi ▸ hp.mem) hap.sibling
    · exact absurd hp.mem (hap.disjoint _ hq.mem)
    · rw [ihr hap.siblingNodup hp hq]

/-- One entry hangs at a path. -/
theorem Tree.AtPath.entry_unique {T : Tree} {m n : Nat} {p : Bits} (hm : T.AtPath m p) (hn : T.AtPath n p) : m = n := by
  induction T generalizing p with
  | leaf i s => exact hm.1.symm.trans hn.1
  | node i l r ihl ihr =>
    rcases hm with ⟨rfl, rfl⟩ | ⟨p, rfl, hm⟩ | ⟨p, rfl, hm⟩
    · rcases hn with ⟨rfl, -⟩ | ⟨q, hq, -⟩ | ⟨q, hq, -⟩
      · rfl
      · cases hq
      · cases hq
    · rcases hn with ⟨-, hq⟩ | ⟨q, hq, hn⟩ | ⟨q, hq, -⟩
      · cases hq
      · cases hq
        exact ihl hm hn
      · cases hq
    · rcases hn with ⟨-, hq⟩ | ⟨q, hq, -⟩ | ⟨q, hq, hn⟩
      · cases hq
      · cases hq
      · cases hq
        exact ihr hm hn

theorem Tree.pathTo_iff {T : Tree} (hd : T.indices.Nodup) {n : Nat} {p : Bits} : T.pathTo n = some p ↔ T.AtPath n p := by
  refine ⟨Tree.atPath_of_pathTo, fun h => ?_⟩
  obtain ⟨q, hq⟩ := Tree.exists_pathTo h.mem
  rw [hq, (Tree.atPath_of_pathTo hq).unique hd h]

/-- R250: the path of a leaf leads to it. -/
theorem Tree.AtPath.leafAt {T : Tree} (hd : T.indices.Nodup) {n : Nat} {p : Bits} {sym : BitVec 9} (h : T.AtPath n p)
    (hl : T.HasLeaf n sym) : T.leafAt p = some sym := by
  induction T generalizing p with
  | leaf i s => rw [h.2, Tree.leafAt, hl.2]
  | node i l r ihl ihr =>
    have hap := apart_of_nodup hd
    rcases h with ⟨rfl, rfl⟩ | ⟨q, rfl, hq⟩ | ⟨q, rfl, hq⟩
    · exact (hl.elim (fun h => hap.child (Tree.mem_of_hasLeaf h)) fun h => hap.sibling (Tree.mem_of_hasLeaf h)).elim
    · exact ihl hap.childNodup hq (hl.resolve_right fun h => hap.disjoint n hq.mem (Tree.mem_of_hasLeaf h))
    · exact ihr hap.siblingNodup hq (hl.resolve_left fun h => hap.disjoint n (Tree.mem_of_hasLeaf h) hq.mem)

/-- Entry `j` is on the way from the root to the entry `n`, both ends included (R244). -/
def Tree.OnWay (n j : Nat) (T : Tree) : Prop := ∃ p q, T.AtPath j p ∧ T.AtPath n q ∧ p <+: q

theorem Tree.OnWay.mem {T : Tree} {n j : Nat} (h : T.OnWay n j) : j ∈ T.indices := by
  obtain ⟨p, q, hp, -⟩ := h
  exact hp.mem

theorem Tree.OnWay.target_mem {T : Tree} {n j : Nat} (h : T.OnWay n j) : n ∈ T.indices := by
  obtain ⟨p, q, -, hq, -⟩ := h
  exact hq.mem

theorem Tree.onWay_leaf {i n j : Nat} {s : BitVec 9} : (Tree.leaf i s).OnWay n j ↔ i = n ∧ j = i :=
  ⟨fun ⟨_, _, ⟨hj, _⟩, ⟨hn, _⟩, _⟩ => ⟨hn, hj.symm⟩, fun ⟨hn, hj⟩ => ⟨[], [], ⟨hj.symm, rfl⟩, ⟨hn, rfl⟩, List.nil_prefix⟩⟩

/-- The way to an entry of a node: the node itself, and the way in the subtree that the entry stands in. -/
theorem Tree.onWay_node {i n j : Nat} {l r : Tree} :
    (Tree.node i l r).OnWay n j ↔ (j = i ∧ n ∈ (Tree.node i l r).indices) ∨ l.OnWay n j ∨ r.OnWay n j := by
  constructor
  · rintro ⟨p, q, hp, hq, hpq⟩
    rcases hp with ⟨rfl, rfl⟩ | ⟨p, rfl, hp⟩ | ⟨p, rfl, hp⟩
    · exact .inl ⟨rfl, hq.mem⟩
    · rcases hq with ⟨-, rfl⟩ | ⟨q, rfl, hq⟩ | ⟨q, rfl, hq⟩
      · cases List.prefix_nil.mp hpq
      · exact .inr (.inl ⟨p, q, hp, hq, (List.cons_prefix_cons.mp hpq).2⟩)
      · cases (List.cons_prefix_cons.mp hpq).1
    · rcases hq with ⟨-, rfl⟩ | ⟨q, rfl, hq⟩ | ⟨q, rfl, hq⟩
      · cases List.prefix_nil.mp hpq
      · cases (List.cons_prefix_cons.mp hpq).1
      · exact .inr (.inr ⟨p, q, hp, hq, (List.cons_prefix_cons.mp hpq).2⟩)
  · rintro (⟨rfl, hn⟩ | ⟨p, q, hp, hq, hpq⟩ | ⟨p, q, hp, hq, hpq⟩)
    · obtain ⟨q, hq⟩ := Tree.exists_pathTo hn
      exact ⟨[], q, .inl ⟨rfl, rfl⟩, Tree.atPath_of_pathTo hq, List.nil_prefix⟩
    · exact ⟨_, _, .inr (.inl ⟨p, rfl, hp⟩), .inr (.inl ⟨q, rfl, hq⟩), List.cons_prefix_cons.mpr ⟨rfl, hpq⟩⟩
    · exact ⟨_, _, .inr (.inr ⟨p, rfl, hp⟩), .inr (.inr ⟨q, rfl, hq⟩), List.cons_prefix_cons.mpr ⟨rfl, hpq⟩⟩

theorem Tree.onWay_left {i n j : Nat} {l r : Tree} (hap : Apart i l r) (hn : n ∈ l.indices) :
    (Tree.node i l r).OnWay n j ↔ j = i ∨ l.OnWay n j := by
  have hr : ¬ r.OnWay n j := fun h => hap.disjoint n hn h.target_mem
  have hmem : n ∈ (Tree.node i l r).indices := List.mem_cons_of_mem _ (List.mem_append_left _ hn)
  rw [Tree.onWay_node, and_iff_left hmem, or_iff_left hr]

theorem Tree.onWay_right {i n j : Nat} {l r : Tree} (hap : Apart i l r) (hn : n ∈ r.indices) :
    (Tree.node i l r).OnWay n j ↔ j = i ∨ r.OnWay n j := by
  have hl : ¬ l.OnWay n j := fun h => hap.disjoint n h.target_mem hn
  have hmem : n ∈ (Tree.node i l r).indices := List.mem_cons_of_mem _ (List.mem_append_right _ hn)
  rw [Tree.onWay_node, and_iff_left hmem, or_iff_right hl]

/-- A leaf is on the way to itself alone. -/
theorem Tree.OnWay.eq_of_hasLeaf {T : Tree} (hd : T.indices.Nodup) {n j : Nat} {sym : BitVec 9} (h : T.OnWay n j)
    (hl : T.HasLeaf j sym) : j = n := by
  induction T with
  | leaf i s =>
    obtain ⟨hn, hj⟩ := Tree.onWay_leaf.mp h
    exact hj.trans hn
  | node i l r ihl ihr =>
    have hap := apart_of_nodup hd
    rcases Tree.onWay_node.mp h with ⟨rfl, -⟩ | h | h
    · exact (hl.elim (fun h => hap.child (Tree.mem_of_hasLeaf h)) fun h => hap.sibling (Tree.mem_of_hasLeaf h)).elim
    · exact ihl hap.childNodup h (hl.resolve_right fun h' => hap.disjoint j h.mem (Tree.mem_of_hasLeaf h'))
    · exact ihr hap.siblingNodup h (hl.resolve_left fun h' => hap.disjoint j (Tree.mem_of_hasLeaf h') h.mem)

theorem Tree.onWay_iff {T : Tree} (hd : T.indices.Nodup) {n j : Nat} :
    T.OnWay n j ↔ ∃ p q, T.pathTo j = some p ∧ T.pathTo n = some q ∧ p <+: q := by
  simp only [Tree.OnWay, Tree.pathTo_iff hd]

end Sys2Proof.Machine
end

section
namespace Sys2Proof.Machine

-- One declaration after the other: the threads of the whole text together would pass the check's memory limit.
set_option Elab.async false

/-! ## What `Update` does, entry by entry (R244) -/

/-! ### The climb -/

/-- The climb of `Update` from the leaf `n` to the root of a tree in the arena `t`: the arena when all is done but the root's own
increment, and the tree then. -/
inductive Climbs (t : Table Node) (n : Nat) (sym : BitVec 9) : Tree → Table Node → Tree → Prop
  | leaf : Climbs t n sym (.leaf n sym) t (.leaf n sym)
  | swap {i : Nat} {l r l' : Tree} {t1 : Table Node} : Climbs t n sym l t1 l' → (nodeAt t l.idx).w = (nodeAt t r.idx).w →
      Climbs t n sym (.node i l r) (addWeight (swapChildren t1 i l.idx r.idx) l.idx) (.node i r l')
  | left {i : Nat} {l r l' : Tree} {t1 : Table Node} : Climbs t n sym l t1 l' → (nodeAt t l.idx).w ≠ (nodeAt t r.idx).w →
      Climbs t n sym (.node i l r) (addWeight t1 l.idx) (.node i l' r)
  | right {i : Nat} {l r r' : Tree} {t1 : Table Node} : Climbs t n sym r t1 r' →
      Climbs t n sym (.node i l r) (addWeight t1 r.idx) (.node i l r')

/-- A tree in the arena `t`, its root `d` levels down, as an adaptive tree has to be. -/
structure Ready (t : Table Node) (p : Option Nat) (d : Nat) (T : Tree) : Prop where
  held : Holds t p T
  nodup : T.indices.Nodup
  slots : Slots t d T

section
variable {t u t1 : Table Node} {p : Option Nat} {d n i : Nat} {sym : BitVec 9} {T T' l r c m : Tree}

theorem Ready.apart (h : Ready t p d (.node i l r)) : Apart i l r := apart_of_nodup h.nodup

theorem Ready.left (h : Ready t p d (.node i l r)) : Ready t (some i) (d + 1) l := by
  obtain ⟨⟨-, -, -, -, -, hl, -⟩, hd, ⟨-, hw, -⟩, ⟨-, hrise, -⟩, -, -, hnum, -⟩ := h
  exact ⟨hl, (apart_of_nodup hd).childNodup, hw, hrise, hnum⟩

theorem Ready.right (h : Ready t p d (.node i l r)) : Ready t (some i) (d + 1) r := by
  obtain ⟨⟨-, -, -, -, -, -, hr⟩, hd, ⟨-, -, hw⟩, ⟨-, -, hrise⟩, -, -, -, hnum⟩ := h
  exact ⟨hr, (apart_of_nodup hd).siblingNodup, hw, hrise, hnum⟩

theorem AdaptiveAt.ready {s : State} (h : AdaptiveAt s T) : Ready s.arena none 0 T := by
  have hslots := h.slots
  obtain ⟨htree, -⟩ := h
  exact ⟨htree.2.1, htree.nodup, hslots⟩

theorem exists_climbs (t : Table Node) (h : T.HasLeaf n sym) : ∃ u T', Climbs t n sym T u T' := by
  induction T with
  | leaf i s =>
    obtain ⟨rfl, rfl⟩ := h
    exact ⟨_, _, .leaf⟩
  | node i l r ihl ihr =>
    rcases h with h | h
    · obtain ⟨u, l', hc⟩ := ihl h
      by_cases hw : (nodeAt t l.idx).w = (nodeAt t r.idx).w
      · exact ⟨_, _, .swap hc hw⟩
      · exact ⟨_, _, .left hc hw⟩
    · obtain ⟨u, r', hc⟩ := ihr h
      exact ⟨_, _, .right hc⟩

theorem Climbs.hasLeaf (h : Climbs t n sym T u T') : T.HasLeaf n sym := by
  induction h with
  | leaf => exact ⟨rfl, rfl⟩
  | swap _ _ ih => exact .inl ih
  | left _ _ ih => exact .inl ih
  | right _ ih => exact .inr ih

theorem Climbs.mem (h : Climbs t n sym T u T') : n ∈ T.indices := Tree.mem_of_hasLeaf h.hasLeaf

theorem Climbs.touched (h : Climbs t n sym T u T') (hr : Ready t p d T) (hsym : sym ≠ Config.nytMark) :
    Touched t u d n sym T T' := by
  induction h generalizing p d with
  | leaf => exact touched_leaf t d n sym sym
  | swap hc hw ih => exact touched_swap (ih hr.left) hr.held hr.slots hr.apart hc.hasLeaf hsym hw
  | left hc hw ih => exact touched_left (ih hr.left) hr.held hr.slots hr.apart hc.hasLeaf hw
  | right hc ih => exact touched_right (ih hr.right) hr.held hr.slots hr.apart hc.hasLeaf hsym

/-- R243, R244: the round at a left child swaps exactly when the siblings weigh the same. -/
theorem updateUp_left {q : Nat} {l' : Tree} (ht : Touched t t1 (d + 1) n sym l l') (hr : Ready t p d (.node i l r))
    (hrun : ∀ k, updateUp (q + k) n t = updateUp k l.idx t1) (k : Nat) :
    updateUp (q + 1 + k) n t = updateUp k i (addWeight
      (if (nodeAt t l.idx).w = (nodeAt t r.idx).w then swapChildren t1 i l.idx r.idx else t1) l.idx) := by
  have hap := hr.apart
  obtain ⟨⟨-, -, hleft, hright, -, hl, -⟩, -, -, -, hnr, hnl, -⟩ := hr
  have htr : nodeAt t1 r.idx = nodeAt t r.idx := ht.others _ fun hj => hap.disjoint _ hj r.idx_mem_indices
  have hswap : mustSwap t1 l.idx r.idx = true ↔ (nodeAt t l.idx).w = (nodeAt t r.idx).w := by
    rw [mustSwap_iff, htr, ht.root.1, ht.root.2]
    exact and_iff_left (by omega)
  have hstep := updateUp_above hrun (ht.idx ▸ (ht.held _ hl).parent)
    (show sibling t1 i l.idx = some r.idx by simp [sibling, ht.others i hap.child, hleft, hright]) k
  simpa only [hswap] using hstep

/-- R243, R244: the round at a right child swaps nothing. -/
theorem updateUp_right {q : Nat} {r' : Tree} (ht : Touched t t1 (d + 1) n sym r r') (hr : Ready t p d (.node i l r))
    (hrun : ∀ k, updateUp (q + k) n t = updateUp k r.idx t1) (k : Nat) :
    updateUp (q + 1 + k) n t = updateUp k i (addWeight t1 r.idx) := by
  have hap := hr.apart
  obtain ⟨⟨-, -, hleft, hright, -, -, hr⟩, -, -, -, hnr, hnl, -⟩ := hr
  have htl : nodeAt t1 l.idx = nodeAt t l.idx := ht.others _ fun hj => hap.disjoint _ l.idx_mem_indices hj
  have hswap : ¬ mustSwap t1 r.idx l.idx = true := by
    rw [mustSwap_iff, htl, ht.root.2]
    omega
  have hstep := updateUp_above hrun (ht.idx ▸ (ht.held _ hr).parent)
    (show sibling t1 i r.idx = some l.idx by simp [sibling, ht.others i hap.sibling, hleft, hap.ne]) k
  rwa [if_neg hswap] at hstep

/-- R244: the rounds of `updateUp` are the climb. -/
theorem Climbs.run (h : Climbs t n sym T u T') (hr : Ready t p d T) (hsym : sym ≠ Config.nytMark) :
    ∃ q, q < T.leafCount ∧ ∀ k, updateUp (q + k) n t = updateUp k T.idx u := by
  induction h generalizing p d with
  | leaf => exact ⟨0, Nat.one_pos, fun k => by rw [Nat.zero_add]; rfl⟩
  | @swap i l r l' t1 hc hw ih =>
    obtain ⟨q, hq, hrun⟩ := ih hr.left
    have hstep := updateUp_left (hc.touched hr.left hsym) hr hrun
    have hpos := r.leafCount_pos
    rw [if_pos hw] at hstep
    exact ⟨q + 1, by rw [Tree.leafCount_node]; omega, hstep⟩
  | @left i l r l' t1 hc hw ih =>
    obtain ⟨q, hq, hrun⟩ := ih hr.left
    have hstep := updateUp_left (hc.touched hr.left hsym) hr hrun
    have hpos := r.leafCount_pos
    rw [if_neg hw] at hstep
    exact ⟨q + 1, by rw [Tree.leafCount_node]; omega, hstep⟩
  | @right i l r r' t1 hc ih =>
    obtain ⟨q, hq, hrun⟩ := ih hr.right
    have hpos := l.leafCount_pos
    exact ⟨q + 1, by rw [Tree.leafCount_node]; omega, updateUp_right (hc.touched hr.right hsym) hr hrun⟩

/-! ### What the climb changes -/

/-- The children of entry `q` are `a` on the left and `b` on the right. -/
def Children (t : Table Node) (q a b : Nat) : Prop := (nodeAt t q).left = some a ∧ (nodeAt t q).right = some b

/-- From `t` to `u` the children `a` and `b` of entry `q` changed sides, the numbers staying with the slots, or nothing of that
happened, as `P` says (R243, R244). -/
structure Sides (t u : Table Node) (q a b : Nat) (P : Prop) : Prop where
  swap : P → Children u q b a ∧ (nodeAt u b).num = (nodeAt t a).num ∧ (nodeAt u a).num = (nodeAt t b).num
  stay : ¬ P → Children u q a b ∧ (nodeAt u a).num = (nodeAt t a).num ∧ (nodeAt u b).num = (nodeAt t b).num

/-- What a climb from the entry `n` changes in the arena. -/
structure Changed (t u : Table Node) (n : Nat) (T : Tree) : Prop where
  parent : ∀ j, (nodeAt u j).parent = (nodeAt t j).parent
  onWay : ∀ j, T.OnWay n j → (nodeAt (addWeight u T.idx) j).w = (nodeAt t j).w + 1
  offWay : ∀ j, ¬ T.OnWay n j → (nodeAt (addWeight u T.idx) j).w = (nodeAt t j).w
  sides : ∀ q ∈ T.indices, ∀ a b, Children t q a b → Sides t u q a b (T.OnWay n a ∧ (nodeAt t a).w = (nodeAt t b).w)

/-- The children of an entry of the tree hang below its root. -/
theorem Children.mem_tail {q a b : Nat} (h : Children t q a b) (hT : Holds t p T) (hq : q ∈ T.indices) :
    a ∈ T.indices.tail ∧ b ∈ T.indices.tail := by
  induction T generalizing p with
  | leaf i s =>
    obtain rfl := List.mem_singleton.mp hq
    obtain ⟨-, -, hl, -⟩ := hT
    cases hl.symm.trans h.1
  | node i l r ihl ihr =>
    obtain ⟨-, -, hl, hr, -, hhl, hhr⟩ := hT
    rcases List.mem_cons.mp hq with rfl | hq
    · obtain rfl := Option.some.inj (hl.symm.trans h.1)
      obtain rfl := Option.some.inj (hr.symm.trans h.2)
      exact ⟨List.mem_append_left _ l.idx_mem_indices, List.mem_append_right _ r.idx_mem_indices⟩
    · rcases List.mem_append.mp hq with hq | hq
      · obtain ⟨ha, hb⟩ := ihl hhl hq
        exact ⟨List.mem_append_left _ (List.mem_of_mem_tail ha), List.mem_append_left _ (List.mem_of_mem_tail hb)⟩
      · obtain ⟨ha, hb⟩ := ihr hhr hq
        exact ⟨List.mem_append_right _ (List.mem_of_mem_tail ha), List.mem_append_right _ (List.mem_of_mem_tail hb)⟩

/-- What came after left the entry's sides and its children's numbers alone. -/
theorem Sides.congr {v : Table Node} {q a b : Nat} {P Q : Prop} (h : Sides t u q a b P) (hPQ : Q ↔ P)
    (hq : SameLinks (nodeAt u q) (nodeAt v q)) (ha : (nodeAt v a).num = (nodeAt u a).num) (hb : (nodeAt v b).num = (nodeAt u b).num) :
    Sides t v q a b Q := by
  have hlinks : ∀ x y, Children u q x y → Children v q x y := by
    rintro x y ⟨hl, hr⟩
    rw [SameLinks] at hq
    exact ⟨by rw [hq, ← hl], by rw [hq, ← hr]⟩
  refine ⟨fun hQ => ?_, fun hQ => ?_⟩
  · obtain ⟨hc, hnb, hna⟩ := h.swap (hPQ.mp hQ)
    exact ⟨hlinks _ _ hc, hb.trans hnb, ha.trans hna⟩
  · obtain ⟨hc, hna, hnb⟩ := h.stay (mt hPQ.mpr hQ)
    exact ⟨hlinks _ _ hc, ha.trans hna, hb.trans hnb⟩

theorem Sides.of_not {q a b : Nat} {P : Prop} (hP : ¬ P) (h : Children t q a b) : Sides t t q a b P :=
  ⟨fun hp => absurd hp hP, fun _ => ⟨h, rfl, rfl⟩⟩

/-- At the leaf itself nothing but its weight changes. -/
theorem changed_leaf (t : Table Node) (n : Nat) (sym : BitVec 9) (hl : (nodeAt t n).left = none) : Changed t t n (.leaf n sym) where
  parent := fun _ => rfl
  onWay := fun j h => by
    obtain ⟨-, rfl⟩ := Tree.onWay_leaf.mp h
    rw [Tree.idx_leaf, nodeAt_addWeight_same]
  offWay := fun j h => by
    have hj : j ≠ n := fun he => h (Tree.onWay_leaf.mpr ⟨rfl, he⟩)
    rw [Tree.idx_leaf, nodeAt_addWeight_ne t hj]
  sides := fun q hq a b h => by
    obtain rfl := List.mem_singleton.mp hq
    cases hl.symm.trans h.1

/-- One level of the climb: the round at the child `c` of the node `i` with the sibling `m`, after the climb below `c`. -/
theorem Changed.level (h : Changed t t1 n c) (ht : ∀ j, j ∉ c.indices → nodeAt t1 j = nodeAt t j) (hc : Holds t (some i) c)
    (hm : Holds t (some i) m) (hap : Apart i c m) (hround : Round t1 u i c.idx m.idx)
    (hparent : (nodeAt u i).parent = (nodeAt t i).parent) (hidx : T.idx = i)
    (hway : ∀ j, T.OnWay n j ↔ j = i ∨ c.OnWay n j) (hmem : ∀ j ∈ T.indices, j = i ∨ j ∈ c.indices ∨ j ∈ m.indices)
    (hsides : ∀ a b, Children t i a b → Sides t u i a b (T.OnWay n a ∧ (nodeAt t a).w = (nodeAt t b).w)) :
    Changed t u n T := by
  have hti := ht i hap.child
  have hweight : ∀ j, (nodeAt u j).w = (nodeAt (addWeight t1 c.idx) j).w := fun j => by
    by_cases hj : j = c.idx
    · rw [hj, hround.child, nodeAt_addWeight_same]
    · rw [hround.weights j hj, nodeAt_addWeight_ne t1 hj]
  have hu : (nodeAt u i).w = (nodeAt t i).w := by rw [hround.weights i hap.child_ne, hti]
  refine ⟨fun j => ?_, fun j hj => ?_, fun j hj => ?_, fun q hq a b hab => ?_⟩
  · by_cases hj : j = i
    · rw [hj, hparent]
    · rw [← h.parent, hround.links j hj]
  · rw [hidx]
    by_cases hji : j = i
    · rw [hji, nodeAt_addWeight_same, ← hu]
    · rw [nodeAt_addWeight_ne u hji, hweight, h.onWay j (((hway j).mp hj).resolve_left hji)]
  · rw [hidx]
    obtain ⟨hji, hjc⟩ := not_or.mp (mt (hway j).mpr hj)
    rw [nodeAt_addWeight_ne u hji, hweight, h.offWay j hjc]
  · rcases hmem q hq with rfl | hqc | hqm
    · exact hsides a b hab
    · obtain ⟨ha, hb⟩ := hab.mem_tail hc hqc
      have hne : ∀ x ∈ c.indices.tail, x ≠ i ∧ x ≠ c.idx ∧ x ≠ m.idx := fun x hx =>
        ⟨fun he => hap.child (he ▸ List.mem_of_mem_tail hx), Tree.ne_idx_of_mem_tail hap.childNodup hx,
          fun he => hap.disjoint x (List.mem_of_mem_tail hx) (he ▸ m.idx_mem_indices)⟩
      obtain ⟨hai, hac, ham⟩ := hne a ha
      obtain ⟨-, hbc, hbm⟩ := hne b hb
      exact (h.sides q hqc a b hab).congr (by rw [hway, or_iff_right hai]) (hround.links q fun he => hap.child (he ▸ hqc))
        (hround.nums a hac ham) (hround.nums b hbc hbm)
    · obtain ⟨ha, hb⟩ := hab.mem_tail hm hqm
      have hmc : ∀ x ∈ m.indices, x ∉ c.indices := fun x hx hxc => hap.disjoint x hxc hx
      have hne : ∀ x ∈ m.indices.tail, x ≠ i ∧ x ≠ c.idx ∧ x ≠ m.idx := fun x hx =>
        ⟨fun he => hap.sibling (he ▸ List.mem_of_mem_tail hx),
          fun he => hmc x (List.mem_of_mem_tail hx) (he ▸ c.idx_mem_indices), Tree.ne_idx_of_mem_tail hap.siblingNodup hx⟩
      obtain ⟨hai, hac, ham⟩ := hne a ha
      obtain ⟨-, hbc, hbm⟩ := hne b hb
      have hoff : ¬ (T.OnWay n a ∧ (nodeAt t a).w = (nodeAt t b).w) := fun h =>
        hmc a (List.mem_of_mem_tail ha) (((hway a).mp h.1).resolve_left hai).mem
      refine (Sides.of_not hoff hab).congr Iff.rfl ?_ ?_ ?_
      · rw [← ht q (hmc q hqm)]
        exact hround.links q fun he => hap.sibling (he ▸ hqm)
      · rw [hround.nums a hac ham, ht a (hmc a (List.mem_of_mem_tail ha))]
      · rw [hround.nums b hbc hbm, ht b (hmc b (List.mem_of_mem_tail hb))]

theorem Tree.onWay_idx (h : n ∈ T.indices) : T.OnWay n T.idx := by
  obtain ⟨q, hq⟩ := Tree.exists_pathTo h
  refine ⟨[], q, ?_, Tree.atPath_of_pathTo hq, List.nil_prefix⟩
  cases T with
  | leaf i s => exact ⟨rfl, rfl⟩
  | node i l r => exact .inl ⟨rfl, rfl⟩

theorem Children.eq_idx {a b : Nat} (h : Children t i a b) (hT : Holds t p (.node i l r)) : a = l.idx ∧ b = r.idx := by
  obtain ⟨-, -, hl, hr, -⟩ := hT
  exact ⟨Option.some.inj (h.1.symm.trans hl), Option.some.inj (h.2.symm.trans hr)⟩

/-- R244: everything a climb changes in the arena. -/
theorem Climbs.changed (h : Climbs t n sym T u T') (hr : Ready t p d T) (hsym : sym ≠ Config.nytMark) : Changed t u n T := by
  induction h generalizing p d with
  | leaf =>
    obtain ⟨⟨-, -, hl, -⟩, -⟩ := hr
    exact changed_leaf t n sym hl
  | @swap i l r l' t1 hc hw ih =>
    have hap := hr.apart
    have ht := hc.touched hr.left hsym
    have hat := nodeAt_swapChildren t1 hap.child_ne hap.sibling_ne hap.ne
    have hui : nodeAt (addWeight (swapChildren t1 i l.idx r.idx) l.idx) i
        = { nodeAt t i with left := (nodeAt t i).right, right := (nodeAt t i).left } := by
      rw [nodeAt_addWeight_ne _ hap.child_ne, hat, if_pos rfl, ht.others i hap.child]
    have hway := fun j => Tree.onWay_left (j := j) hap hc.mem
    refine (ih hr.left).level ht.others hr.left.held hr.right.held hap (round_swap t1 hap.child_ne hap.sibling_ne hap.ne)
      (by rw [hui]) rfl hway (fun j hj => by simpa [Tree.indices] using hj) fun a b hab => ?_
    obtain ⟨rfl, rfl⟩ := hab.eq_idx hr.held
    refine ⟨fun _ => ⟨⟨by rw [hui, hab.2], by rw [hui, hab.1]⟩, ?_, ?_⟩, fun hno => absurd ⟨?_, hw⟩ hno⟩
    · rw [num_addWeight, hat, if_neg hap.sibling_ne.symm, if_neg hap.ne.symm, if_pos rfl, ht.root.2]
    · rw [num_addWeight, hat, if_neg hap.child_ne.symm, if_pos rfl, ht.others _ fun hj => hap.disjoint _ hj r.idx_mem_indices]
    · exact (hway _).mpr (.inr (Tree.onWay_idx hc.mem))
  | @left i l r l' t1 hc hw ih =>
    have hap := hr.apart
    have ht := hc.touched hr.left hsym
    have hui : nodeAt (addWeight t1 l.idx) i = nodeAt t i := by rw [nodeAt_addWeight_ne _ hap.child_ne, ht.others i hap.child]
    refine (ih hr.left).level ht.others hr.left.held hr.right.held hap (round_addWeight t1 i l.idx r.idx) (by rw [hui]) rfl
      (fun j => Tree.onWay_left hap hc.mem) (fun j hj => by simpa [Tree.indices] using hj) fun a b hab => ?_
    obtain ⟨rfl, rfl⟩ := hab.eq_idx hr.held
    refine (Sides.of_not (fun h => hw h.2) hab).congr Iff.rfl (by rw [hui]; rfl) ?_ ?_
    · rw [num_addWeight, ht.root.2]
    · rw [num_addWeight, ht.others _ fun hj => hap.disjoint _ hj r.idx_mem_indices]
  | @right i l r r' t1 hc ih =>
    have hap := hr.apart
    have ht := hc.touched hr.right hsym
    have hui : nodeAt (addWeight t1 r.idx) i = nodeAt t i := by rw [nodeAt_addWeight_ne _ hap.sibling_ne, ht.others i hap.sibling]
    have hway := fun j => Tree.onWay_right (j := j) hap hc.mem
    refine (ih hr.right).level ht.others hr.right.held hr.left.held hap.symm (round_addWeight t1 i r.idx l.idx) (by rw [hui]) rfl
      hway (fun j hj => by simpa [Tree.indices, or_comm] using hj) fun a b hab => ?_
    obtain ⟨rfl, rfl⟩ := hab.eq_idx hr.held
    have hleft : ¬ (Tree.node i l r).OnWay n l.idx := fun h =>
      ((hway _).mp h).elim hap.child_ne.symm fun h => hap.disjoint _ l.idx_mem_indices h.mem
    refine (Sides.of_not (fun h => hleft h.1) hab).congr Iff.rfl (by rw [hui]; rfl) ?_ ?_
    · rw [num_addWeight, ht.others _ fun hj => hap.disjoint _ l.idx_mem_indices hj]
    · rw [num_addWeight, ht.root.2]

/-- R247: a climb changes sides alone, so every entry stays at its depth. -/
theorem Climbs.depth (h : Climbs t n sym T u T') {j : Nat} {q : Bits} (hq : T.AtPath j q) :
    ∃ q', T'.AtPath j q' ∧ q'.length = q.length := by
  induction h generalizing q with
  | leaf => exact ⟨q, hq, rfl⟩
  | swap _ _ ih =>
    rcases hq with ⟨rfl, rfl⟩ | ⟨q, rfl, hq⟩ | ⟨q, rfl, hq⟩
    · exact ⟨[], .inl ⟨rfl, rfl⟩, rfl⟩
    · obtain ⟨q', hq', hlen⟩ := ih hq
      exact ⟨_, .inr (.inr ⟨q', rfl, hq'⟩), congrArg (· + 1) hlen⟩
    · exact ⟨_, .inr (.inl ⟨q, rfl, hq⟩), rfl⟩
  | left _ _ ih =>
    rcases hq with ⟨rfl, rfl⟩ | ⟨q, rfl, hq⟩ | ⟨q, rfl, hq⟩
    · exact ⟨[], .inl ⟨rfl, rfl⟩, rfl⟩
    · obtain ⟨q', hq', hlen⟩ := ih hq
      exact ⟨_, .inr (.inl ⟨q', rfl, hq'⟩), congrArg (· + 1) hlen⟩
    · exact ⟨_, .inr (.inr ⟨q, rfl, hq⟩), rfl⟩
  | right _ ih =>
    rcases hq with ⟨rfl, rfl⟩ | ⟨q, rfl, hq⟩ | ⟨q, rfl, hq⟩
    · exact ⟨[], .inl ⟨rfl, rfl⟩, rfl⟩
    · exact ⟨_, .inr (.inl ⟨q, rfl, hq⟩), rfl⟩
    · obtain ⟨q', hq', hlen⟩ := ih hq
      exact ⟨_, .inr (.inr ⟨q', rfl, hq'⟩), congrArg (· + 1) hlen⟩

/-- The data of a tree looks at the weights of its entries alone. -/
theorem Tree.model_congr {v : Table Node} (h : ∀ j ∈ T.indices, (nodeAt v j).w = (nodeAt t j).w) : T.model v = T.model t := by
  induction T with
  | leaf i s => rw [Tree.model_leaf, Tree.model_leaf, h i (List.mem_singleton.mpr rfl)]
  | node i l r ihl ihr =>
    rw [Tree.model_node, Tree.model_node, ihl fun j hj => h j (List.mem_cons_of_mem _ (List.mem_append_left _ hj)),
      ihr fun j hj => h j (List.mem_cons_of_mem _ (List.mem_append_right _ hj))]

/-- A symbol without a leaf has no path. -/
theorem Tree.model_touch_none (h : ∀ j, ¬ T.HasLeaf j sym) : (T.model t).touch sym = none := by
  induction T with
  | leaf i s => exact if_neg fun hs => h i ⟨rfl, hs⟩
  | node i l r ihl ihr =>
    rw [Tree.model_node, Model.touch, ihl fun j hj => h j (.inl hj), ihr fun j hj => h j (.inr hj)]
    rfl

/-- The data of what the child's subtree became is as it was when the climb had left the child. -/
theorem Changed.model_child (h : Changed t u n T) (hc : Changed t t1 n c) (hway : ∀ j ∈ c.indices, T.OnWay n j ↔ c.OnWay n j)
    {c' : Tree} (hc' : c'.indices.Perm c.indices) : c'.model (addWeight u T.idx) = c'.model (addWeight t1 c.idx) := by
  refine Tree.model_congr fun j hj => ?_
  by_cases hon : c.OnWay n j
  · rw [hc.onWay j hon, h.onWay j ((hway j (hc'.mem_iff.mp hj)).mpr hon)]
  · rw [hc.offWay j hon, h.offWay j (mt (hway j (hc'.mem_iff.mp hj)).mp hon)]

/-- The way to an entry of the left subtree goes through that subtree alone. -/
theorem Apart.onWay_left (hap : Apart i l r) (hn : n ∈ l.indices) :
    (∀ j ∈ l.indices, (Tree.node i l r).OnWay n j ↔ l.OnWay n j) ∧ ∀ j ∈ r.indices, ¬ (Tree.node i l r).OnWay n j :=
  ⟨fun _ hj => (Tree.onWay_left hap hn).trans (or_iff_right fun he => hap.child (he ▸ hj)),
    fun j hj h => ((Tree.onWay_left hap hn).mp h).elim (fun he => hap.sibling (he ▸ hj)) fun h => hap.disjoint j h.mem hj⟩

theorem Apart.onWay_right (hap : Apart i l r) (hn : n ∈ r.indices) :
    (∀ j ∈ r.indices, (Tree.node i l r).OnWay n j ↔ r.OnWay n j) ∧ ∀ j ∈ l.indices, ¬ (Tree.node i l r).OnWay n j :=
  ⟨fun _ hj => (Tree.onWay_right hap hn).trans (or_iff_right fun he => hap.sibling (he ▸ hj)),
    fun j hj h => ((Tree.onWay_right hap hn).mp h).elim (fun he => hap.child (he ▸ hj)) fun h => hap.disjoint j hj h.mem⟩

/-- R115, R244: on symbols and weights the climb and the root's increment are `touch`. -/
theorem Climbs.model (h : Climbs t n sym T u T') (hr : Ready t p d T) (hsym : sym ≠ Config.nytMark)
    (huniq : ∀ j, T.HasLeaf j sym → j = n) : (T.model t).touch sym = some (T'.model (addWeight u T.idx)) := by
  have hall := h.changed hr hsym
  induction h generalizing p d with
  | leaf =>
    rw [Tree.model_leaf, Model.touch, if_pos rfl, Tree.model_leaf, Tree.idx_leaf, nodeAt_addWeight_same]
  | @swap i l r l' t1 hc hw ih =>
    have hap := hr.apart
    have hlow := hc.changed hr.left hsym
    obtain ⟨hway, hoff⟩ := hap.onWay_left hc.mem
    rw [Tree.model_node, Model.touch, ih hr.left (fun j hj => huniq j (.inl hj)) hlow]
    simp only [hr.left.slots.weighted.weight_model, hr.right.slots.weighted.weight_model, if_pos hw]
    rw [Tree.model_node, hall.model_child hlow hway (hc.touched hr.left hsym).indices,
      Tree.model_congr fun j hj => hall.offWay j (hoff j hj)]
  | @left i l r l' t1 hc hw ih =>
    have hap := hr.apart
    have hlow := hc.changed hr.left hsym
    obtain ⟨hway, hoff⟩ := hap.onWay_left hc.mem
    rw [Tree.model_node, Model.touch, ih hr.left (fun j hj => huniq j (.inl hj)) hlow]
    simp only [hr.left.slots.weighted.weight_model, hr.right.slots.weighted.weight_model, if_neg hw]
    rw [Tree.model_node, hall.model_child hlow hway (hc.touched hr.left hsym).indices,
      Tree.model_congr fun j hj => hall.offWay j (hoff j hj)]
  | @right i l r r' t1 hc ih =>
    have hap := hr.apart
    have hlow := hc.changed hr.right hsym
    obtain ⟨hway, hoff⟩ := hap.onWay_right hc.mem
    have hno : ∀ j, ¬ l.HasLeaf j sym := fun j hj => hap.disjoint j (Tree.mem_of_hasLeaf hj) (huniq j (.inl hj) ▸ hc.mem)
    rw [Tree.model_node, Model.touch, Tree.model_touch_none hno, ih hr.right (fun j hj => huniq j (.inr hj)) hlow, Option.map_some]
    simp only
    rw [Tree.model_node, hall.model_child hlow hway (hc.touched hr.right hsym).indices,
      Tree.model_congr fun j hj => hall.offWay j (hoff j hj)]

end

end Sys2Proof.Machine
end

section
namespace Sys2Proof.Machine

-- One declaration after the other: the threads of the whole text together would pass the check's memory limit.
set_option Elab.async false

/-! ## What `Grow` does to the tree (R238, R239) -/

/-- The tree after `Grow`: the leaf `y` has become a node, the fresh NYT leaf `a` on its left, the leaf `a + 1` of the symbol on its
right. -/
def Tree.growAt (y a : Nat) (b : Byte) : Tree → Tree
  | .leaf i s => if i = y then .node y (.leaf a Config.nytMark) (.leaf (a + 1) (b.setWidth 9)) else .leaf i s
  | .node i l r => .node i (l.growAt y a b) (r.growAt y a b)

section
variable {t : Table Node} {p : Option Nat} {y a : Nat} {b : Byte} {num : BitVec 10} {T : Tree}

theorem Tree.growAt_idx (T : Tree) (y a : Nat) (b : Byte) : (T.growAt y a b).idx = T.idx := by
  cases T with
  | leaf i s =>
    rw [Tree.growAt]
    split
    · next h => exact h.symm
    · rfl
  | node i l r => rfl

/-- R238: the arena after `Grow` holds the grown tree. -/
theorem Holds.growAt (h : Holds t p T) (hy : (nodeAt t y).kind = .leaf) (hyT : ∀ s, T.HasLeaf y s → s = Config.nytMark)
    (hya : y ≠ a) (hya' : y ≠ a + 1) (ha : a ∉ T.indices) (ha' : a + 1 ∉ T.indices) :
    Holds (growNodes t y a b num) p (T.growAt y a b) := by
  have hat := nodeAt_growNodes t b num hya hya'
  have hkeep := fun {j : Nat} => growNodes_keeps (t := t) (b := b) (num := num) hya hya' (j := j)
  induction T generalizing p with
  | leaf i s =>
    rw [Tree.growAt]
    split
    · next hi =>
      subst hi
      obtain ⟨-, -, -, -, hp⟩ := h
      have hnode := (hat i).trans (if_pos rfl)
      have hnyt := (hat a).trans ((if_neg hya.symm).trans (if_pos rfl))
      have hsym := (hat (a + 1)).trans ((if_neg hya'.symm).trans ((if_neg (Nat.succ_ne_self a)).trans (if_pos rfl)))
      refine ⟨by rw [hnode], by rw [hnode], by rw [hnode]; rfl, by rw [hnode]; rfl, by rw [hnode, hp], ?_, ?_⟩
      · rw [Holds, hnyt]
        exact ⟨rfl, rfl, rfl, rfl, rfl⟩
      · rw [Holds, hsym]
        exact ⟨rfl, rfl, rfl, rfl, rfl⟩
    · next hi =>
      obtain ⟨-, -, hsame⟩ := hkeep (Ne.symm fun he => ha (List.mem_singleton.mpr he)) (Ne.symm fun he => ha' (List.mem_singleton.mpr he))
      rw [Holds, hsame hi]
      exact h
  | node i l r ihl ihr =>
    obtain ⟨hk, hs, hl, hr, hp, hhl, hhr⟩ := h
    rw [Tree.indices, List.mem_cons, List.mem_append, not_or, not_or] at ha ha'
    have hi : i ≠ y := by
      rintro rfl
      exact absurd (hk.symm.trans hy) (by decide)
    obtain ⟨-, -, hsame⟩ := hkeep (Ne.symm ha.1) (Ne.symm ha'.1)
    refine ⟨by rw [hsame hi, hk], by rw [hsame hi, hs], by rw [hsame hi, hl, Tree.growAt_idx], by rw [hsame hi, hr, Tree.growAt_idx],
      by rw [hsame hi, hp], ihl hhl (fun s hs => hyT s (.inl hs)) ha.2.1 ha'.2.1, ihr hhr (fun s hs => hyT s (.inr hs)) ha.2.2 ha'.2.2⟩

/-- R238: every old entry hangs where it hung. -/
theorem Tree.growAt_atPath {j : Nat} (hj : j ≠ a) (hj' : j ≠ a + 1) {q : Bits} :
    (T.growAt y a b).AtPath j q ↔ T.AtPath j q := by
  induction T generalizing q with
  | leaf i s =>
    rw [Tree.growAt]
    split
    · next hi =>
      simp [Tree.AtPath, hi, Ne.symm hj, Ne.symm hj']
    · exact Iff.rfl
  | node i l r ihl ihr => simp only [Tree.growAt, Tree.AtPath, ihl, ihr]

/-- R239: the fresh leaves hang below the old NYT leaf, the NYT leaf on the left, the symbol's on the right. -/
theorem Tree.AtPath.growAt {q : Bits} (h : T.AtPath y q) {s : BitVec 9} (hl : T.HasLeaf y s) (hd : T.indices.Nodup) :
    (T.growAt y a b).AtPath a (q ++ [false]) ∧ (T.growAt y a b).AtPath (a + 1) (q ++ [true]) := by
  induction T generalizing q with
  | leaf i s =>
    obtain ⟨hi, rfl⟩ := h
    rw [Tree.growAt, if_pos hi]
    exact ⟨.inr (.inl ⟨[], rfl, rfl, rfl⟩), .inr (.inr ⟨[], rfl, rfl, rfl⟩)⟩
  | node i l r ihl ihr =>
    have hap := apart_of_nodup hd
    rcases h with ⟨rfl, -⟩ | ⟨q, rfl, hq⟩ | ⟨q, rfl, hq⟩
    · exact (hl.elim (fun h => hap.child (Tree.mem_of_hasLeaf h)) fun h => hap.sibling (Tree.mem_of_hasLeaf h)).elim
    · obtain ⟨h1, h2⟩ := ihl hq (hl.resolve_right fun h => hap.disjoint y hq.mem (Tree.mem_of_hasLeaf h)) hap.childNodup
      exact ⟨.inr (.inl ⟨_, rfl, h1⟩), .inr (.inl ⟨_, rfl, h2⟩)⟩
    · obtain ⟨h1, h2⟩ := ihr hq (hl.resolve_left fun h => hap.disjoint y (Tree.mem_of_hasLeaf h) hq.mem) hap.siblingNodup
      exact ⟨.inr (.inr ⟨_, rfl, h1⟩), .inr (.inr ⟨_, rfl, h2⟩)⟩

/-- R239: the way to the symbol's fresh leaf goes over the way to the old NYT leaf. -/
theorem Tree.growAt_onWay {s : BitVec 9} (hl : T.HasLeaf y s) (hd : T.indices.Nodup) (hd' : (T.growAt y a b).indices.Nodup) {j : Nat}
    (hj : j ≠ a) (hj' : j ≠ a + 1) : (T.growAt y a b).OnWay (a + 1) j ↔ T.OnWay y j := by
  obtain ⟨q, hq⟩ := Tree.exists_pathTo (Tree.mem_of_hasLeaf hl)
  have hy := Tree.atPath_of_pathTo hq
  obtain ⟨-, hfresh⟩ := hy.growAt (a := a) (b := b) hl hd
  constructor
  · rintro ⟨x, x', hx, hx', hpre⟩
    obtain rfl := hx'.unique hd' hfresh
    refine ⟨x, q, (Tree.growAt_atPath hj hj').mp hx, hy, (List.prefix_concat_iff.mp hpre).resolve_left ?_⟩
    rintro rfl
    exact hj' (hx.entry_unique hfresh)
  · rintro ⟨x, x', hx, hx', hpre⟩
    obtain rfl := hx'.unique hd hy
    exact ⟨x, _, (Tree.growAt_atPath hj hj').mpr hx, hfresh, hpre.trans (List.prefix_append _ _)⟩

/-- R115, R238: on symbols and weights `Grow` is `Model.grow`. -/
theorem Tree.growAt_model (hyT : ∀ i, T.HasLeaf i Config.nytMark → i = y) (hleaf : ∀ s, T.HasLeaf y s → s = Config.nytMark)
    (hya : y ≠ a) (hya' : y ≠ a + 1) (ha : a ∉ T.indices) (ha' : a + 1 ∉ T.indices) :
    (T.growAt y a b).model (growNodes t y a b num) = (T.model t).grow (b.setWidth 9) := by
  have hat := nodeAt_growNodes t b num hya hya'
  induction T with
  | leaf i s =>
    rw [Tree.growAt, Tree.model_leaf, Model.grow]
    split
    · next hi =>
      subst hi
      have hnyt := (hat a).trans ((if_neg hya.symm).trans (if_pos rfl))
      have hsym := (hat (a + 1)).trans ((if_neg hya'.symm).trans ((if_neg (Nat.succ_ne_self a)).trans (if_pos rfl)))
      rw [if_pos (hleaf s ⟨rfl, rfl⟩), Tree.model_node, Tree.model_leaf, Tree.model_leaf, hnyt, hsym]
      rfl
    · next hi =>
      have hs : s ≠ Config.nytMark := fun hs => hi (hyT i ⟨rfl, hs⟩)
      obtain ⟨hw, -⟩ := growNodes_keeps (t := t) (b := b) (num := num) hya hya' (Ne.symm fun he => ha (List.mem_singleton.mpr he))
        (Ne.symm fun he => ha' (List.mem_singleton.mpr he))
      rw [if_neg hs, Tree.model_leaf, hw]
  | node i l r ihl ihr =>
    rw [Tree.indices, List.mem_cons, List.mem_append, not_or, not_or] at ha ha'
    rw [Tree.growAt, Tree.model_node, Tree.model_node, Model.grow,
      ihl (fun i hi => hyT i (.inl hi)) (fun s hs => hleaf s (.inl hs)) ha.2.1 ha'.2.1,
      ihr (fun i hi => hyT i (.inr hi)) (fun s hs => hleaf s (.inr hs)) ha.2.2 ha'.2.2]

end

end Sys2Proof.Machine
end

section
namespace Sys2Proof.Machine

-- One declaration after the other: the threads of the whole text together would pass the check's memory limit.
set_option Elab.async false

/-! ## One step of the adaptive model (R238, R244, R248) -/

/-! ### The first half: a new symbol grows the tree -/

/-- R247: a chain has one NYT leaf. -/
theorem Tree.IsChain.nyt_unique {T : Tree} (h : T.IsChain) {i j : Nat} (hi : T.HasLeaf i Config.nytMark)
    (hj : T.HasLeaf j Config.nytMark) : i = j := by
  induction T with
  | leaf k s => exact hi.1.symm.trans hj.1
  | node k l r ihl ihr =>
    rcases h with ⟨hc, hsym⟩ | ⟨hsym, hc, -⟩
    · exact ihl hc (hi.resolve_right (Tree.not_hasLeaf_nyt hsym i)) (hj.resolve_right (Tree.not_hasLeaf_nyt hsym j))
    · exact ihr hc (hi.resolve_left (Tree.not_hasLeaf_nyt hsym i)) (hj.resolve_left (Tree.not_hasLeaf_nyt hsym j))

/-- R247: the NYT leaf of a chain hangs as deep as the chain has internal nodes. -/
theorem Tree.IsChain.depth_nyt {T : Tree} (h : T.IsChain) (hd : T.indices.Nodup) {y : Nat} (hy : T.HasLeaf y Config.nytMark)
    {p : Bits} (hp : T.AtPath y p) : p.length + 1 = T.leafCount := by
  induction T generalizing p with
  | leaf k s => rw [hp.2]; rfl
  | node k l r ihl ihr =>
    have hap := apart_of_nodup hd
    rw [Tree.leafCount_node]
    rcases h with ⟨hc, hsym⟩ | ⟨hsym, hc, -⟩
    · have hyl := hy.resolve_right (Tree.not_hasLeaf_nyt hsym y)
      have hmem := Tree.mem_of_hasLeaf hyl
      rcases hp with ⟨rfl, -⟩ | ⟨q, rfl, hq⟩ | ⟨q, rfl, hq⟩
      · exact absurd hmem hap.child
      · rw [List.length_cons, ihl hc hap.childNodup hyl hq, Tree.leafCount_of_isSymbolLeaf hsym]
      · exact absurd hq.mem (hap.disjoint y hmem)
    · have hyr := hy.resolve_left (Tree.not_hasLeaf_nyt hsym y)
      have hmem := Tree.mem_of_hasLeaf hyr
      rcases hp with ⟨rfl, -⟩ | ⟨q, rfl, hq⟩ | ⟨q, rfl, hq⟩
      · exact absurd hmem hap.sibling
      · exact absurd hmem (hap.disjoint y hq.mem)
      · rw [List.length_cons, ihr hc hap.siblingNodup hyr hq, Tree.leafCount_of_isSymbolLeaf hsym, Nat.add_comm]

/-- A held leaf's entry. -/
theorem Holds.kind_of_leaf {t : Table Node} {p : Option Nat} {T : Tree} (h : Holds t p T) {i : Nat} {s : BitVec 9}
    (hl : T.HasLeaf i s) : (nodeAt t i).kind = .leaf ∧ (nodeAt t i).left = none ∧ (nodeAt t i).right = none := by
  induction T generalizing p with
  | leaf j x =>
    obtain ⟨rfl, rfl⟩ := hl
    exact ⟨h.1, h.2.2.1, h.2.2.2.1⟩
  | node j l r ihl ihr =>
    obtain ⟨-, -, -, -, -, h1, h2⟩ := h
    exact hl.elim (ihl h1) (ihr h2)

section
variable {s : State} {T : Tree} {b : Byte} {y n : Nat}

/-- R31: an entry with children is an entry of the tree. -/
theorem TreeAt.mem_of_children {q l r : Nat} (h : TreeAt s T) (hc : Children s.arena q l r) :
    q ∈ T.indices ∧ l ∈ T.indices ∧ r ∈ T.indices := by
  have hq : q ∈ T.indices := by
    rw [h.mem_indices]
    by_contra hlt
    have hfree : s.node q = Node.reset := h.2.2.2 q (Nat.le_of_not_lt hlt)
    cases hc.1.symm.trans (congrArg Node.left hfree)
  obtain ⟨hl, hr⟩ := hc.mem_tail h.2.1 hq
  exact ⟨hq, List.mem_of_mem_tail hl, List.mem_of_mem_tail hr⟩

/-- A step of the model for a symbol without a leaf: the tree grows under the NYT leaf `y` (R238). -/
structure NewSymbol (s : State) (T : Tree) (b : Byte) (y : Nat) : Prop where
  tree : AdaptiveAt s T
  new : s.mapOf b = none
  nyt : s.ahNyt = some y

theorem AdaptiveAt.newSymbol (h : AdaptiveAt s T) (hb : s.mapOf b = none) : ∃ y, NewSymbol s T b y := by
  have hnyt := h
  obtain ⟨-, ⟨y, hy, -⟩, -⟩ := hnyt
  exact ⟨y, h, hb, hy⟩

theorem AdaptiveAt.nyt_leaf (h : AdaptiveAt s T) (hy : s.ahNyt = some y) : T.HasLeaf y Config.nytMark := by
  obtain ⟨-, ⟨y', hy', hleaf, -⟩, -⟩ := h
  exact Option.some.inj (hy.symm.trans hy') ▸ hleaf

theorem NewSymbol.leaf (h : NewSymbol s T b y) : T.HasLeaf y Config.nytMark := h.tree.nyt_leaf h.nyt

/-- The fresh entries are none of the tree's. -/
theorem NewSymbol.fresh (h : NewSymbol s T b y) :
    s.nodeCnt ∉ T.indices ∧ s.nodeCnt + 1 ∉ T.indices ∧ y ≠ s.nodeCnt ∧ y ≠ s.nodeCnt + 1 := by
  have hy := Tree.mem_of_hasLeaf h.leaf
  obtain ⟨⟨htree, -⟩, -, -⟩ := h
  rw [htree.mem_indices, htree.mem_indices]
  rw [htree.mem_indices] at hy
  omega

theorem AdaptiveAt.nodup (h : AdaptiveAt s T) : T.indices.Nodup := h.1.nodup

theorem AdaptiveAt.held (h : AdaptiveAt s T) : Holds s.arena none T := h.1.2.1

theorem NewSymbol.leaf_sym (h : NewSymbol s T b y) {x : BitVec 9} (hx : T.HasLeaf y x) : x = Config.nytMark :=
  (h.tree.held.sym_of_hasLeaf hx).symm.trans (h.tree.held.sym_of_hasLeaf h.leaf)

/-- R238: the tree after `Grow`, by name. -/
theorem NewSymbol.grown (h : NewSymbol s T b y) : AdaptiveAt (growAt y b s) (T.growAt y s.nodeCnt b) := by
  obtain ⟨T', hT'⟩ := h.tree.grow h.new h.nyt
  obtain ⟨ha, ha', hya, hya'⟩ := h.fresh
  have hheld : Holds (growAt y b s).arena none (T.growAt y s.nodeCnt b) :=
    h.tree.held.growAt (h.tree.held.kind_of_leaf h.leaf).1 (fun _ => h.leaf_sym) hya hya' ha ha'
  have hidx : T'.idx = (T.growAt y s.nodeCnt b).idx := by
    rw [Tree.growAt_idx]
    exact Option.some.inj (hT'.1.1.symm.trans h.tree.1.1)
  exact hT'.held.unique hheld hidx ▸ hT'

/-- R238: what `Grow` keeps of the old entries. -/
theorem NewSymbol.keeps (h : NewSymbol s T b y) {i : Nat} (hi : i ∈ T.indices) :
    ((growAt y b s).node i).w = (s.node i).w ∧ ((growAt y b s).node i).num = (s.node i).num
      ∧ ((growAt y b s).node i).parent = (s.node i).parent ∧ (i ≠ y → (growAt y b s).node i = s.node i) := by
  obtain ⟨ha, ha', hya, hya'⟩ := h.fresh
  have hia : i ≠ s.nodeCnt := fun he => ha (he ▸ hi)
  have hia' : i ≠ s.nodeCnt + 1 := fun he => ha' (he ▸ hi)
  obtain ⟨hw, hnum, hsame⟩ := growNodes_keeps (t := s.arena) (b := b) (num := s.ahNextnum) hya hya' hia hia'
  refine ⟨hw, hnum, ?_, hsame⟩
  by_cases hiy : i = y
  · rw [hiy, State.node, growAt_arena, nodeAt_growNodes s.arena b s.ahNextnum hya hya', if_pos rfl]
    rfl
  · rw [State.node, growAt_arena, hsame hiy]
    rfl

/-- R238: the entries after `Grow` that it wrote. -/
theorem NewSymbol.writes (h : NewSymbol s T b y) :
    Children (growAt y b s).arena y s.nodeCnt (s.nodeCnt + 1)
      ∧ (growAt y b s).node s.nodeCnt = adaptiveLeaf Config.nytMark (some y) (s.ahNextnum - 1#10)
      ∧ (growAt y b s).node (s.nodeCnt + 1) = adaptiveLeaf (b.setWidth 9) (some y) s.ahNextnum := by
  obtain ⟨-, -, hya, hya'⟩ := h.fresh
  have hat := nodeAt_growNodes s.arena b s.ahNextnum hya hya'
  have hnode := (hat y).trans (if_pos rfl)
  refine ⟨⟨congrArg Node.left hnode, congrArg Node.right hnode⟩, (hat _).trans ((if_neg hya.symm).trans (if_pos rfl)),
    (hat _).trans ((if_neg hya'.symm).trans ((if_neg (Nat.succ_ne_self _)).trans (if_pos rfl)))⟩

/-- R238: the entries that had children keep them. -/
theorem NewSymbol.children (h : NewSymbol s T b y) {q l r : Nat} (hc : Children s.arena q l r) :
    Children (growAt y b s).arena q l r := by
  obtain ⟨hq, -⟩ := h.tree.1.mem_of_children hc
  have hqy : q ≠ y := by
    rintro rfl
    cases hc.1.symm.trans (h.tree.held.kind_of_leaf h.leaf).2.1
  obtain ⟨-, -, -, hsame⟩ := h.keeps hq
  have hnode : nodeAt (growAt y b s).arena q = nodeAt s.arena q := hsame hqy
  rwa [Children, hnode]

/-- The first half of a step (R248): for a symbol without a leaf, `Grow`. -/
def grownFor (b : Byte) (s : State) : State :=
  match s.mapOf b, s.ahNyt with
  | none, some y => growAt y b s
  | _, _ => s

theorem grownFor_known (hb : s.mapOf b = some n) : grownFor b s = s := by rw [grownFor, hb]

theorem NewSymbol.grownFor_eq (h : NewSymbol s T b y) : grownFor b s = growAt y b s := by rw [grownFor, h.new, h.nyt]

theorem updatePath_known (hb : s.mapOf b = some n) : updatePath s T b = T.pathTo n := by rw [updatePath, hb]

theorem NewSymbol.updatePath_eq (h : NewSymbol s T b y) : updatePath s T b = T.pathTo y := by
  rw [updatePath, h.new, h.nyt]
  rfl

/-- What the first half of a step for the symbol `b` leaves: the tree `T1`, in which the symbol's leaf is `n`. -/
structure GrownFrom (s : State) (T : Tree) (b : Byte) (n : Nat) (T1 : Tree) : Prop where
  tree : AdaptiveAt (grownFor b s) T1
  idx : T1.idx = T.idx
  target : n = (s.mapOf b).getD (s.nodeCnt + 1)
  mapSelf : (grownFor b s).mapOf b = some n
  mapOther : ∀ c, c ≠ b → (grownFor b s).mapOf c = s.mapOf c
  keeps : ∀ i ∈ T.indices, ((grownFor b s).node i).w = (s.node i).w ∧ ((grownFor b s).node i).num = (s.node i).num
    ∧ ((grownFor b s).node i).parent = (s.node i).parent
  children : ∀ q l r, Children s.arena q l r → Children (grownFor b s).arena q l r
  path : ∀ j p, T.AtPath j p → T1.AtPath j p
  way : ∀ i ∈ T.indices, (OnUpdatePath s T b i ↔ T1.OnWay n i)
  weight : ((grownFor b s).node n).w = symbolWeight b s
  ahS : (grownFor b s).ahS = if s.mapOf b = none then s.ahS + 1 else s.ahS

theorem AdaptiveAt.grownFrom_known (h : AdaptiveAt s T) (hb : s.mapOf b = some n) : GrownFrom s T b n T := by
  have heq := grownFor_known hb
  refine ⟨heq.symm ▸ h, rfl, by rw [hb]; rfl, by rw [heq, hb], fun c _ => by rw [heq], fun i _ => by rw [heq]; exact ⟨rfl, rfl, rfl⟩,
    fun q l r => by rw [heq]; exact id, fun _ _ => id, fun i _ => ?_, by rw [heq, symbolWeight, hb], by rw [heq, hb]; rfl⟩
  rw [OnUpdatePath, updatePath_known hb, Tree.onWay_iff h.nodup]

theorem NewSymbol.grownFrom (h : NewSymbol s T b y) : GrownFrom s T b (s.nodeCnt + 1) (T.growAt y s.nodeCnt b) := by
  have heq := h.grownFor_eq
  have hgrown := h.grown
  obtain ⟨ha, ha', -, -⟩ := h.fresh
  obtain ⟨-, -, hleaf⟩ := h.writes
  have hold : ∀ j ∈ T.indices, j ≠ s.nodeCnt ∧ j ≠ s.nodeCnt + 1 := fun j hj => ⟨fun he => ha (he ▸ hj), fun he => ha' (he ▸ hj)⟩
  rw [← heq] at hgrown
  refine ⟨hgrown, Tree.growAt_idx _ _ _ _, by rw [h.new]; rfl, by rw [heq, growAt_mapOf, if_pos rfl],
    fun c hc => by rw [heq, growAt_mapOf, if_neg hc], fun i hi => ?_, fun q l r hc => by rw [heq]; exact h.children hc,
    fun j p hp => ?_, fun i hi => ?_, by rw [heq, hleaf, symbolWeight, h.new]; rfl, by rw [heq, if_pos h.new]; rfl⟩
  · obtain ⟨hw, hnum, hp, -⟩ := h.keeps hi
    rw [heq]
    exact ⟨hw, hnum, hp⟩
  · obtain ⟨hj, hj'⟩ := hold j hp.mem
    exact (Tree.growAt_atPath hj hj').mpr hp
  · obtain ⟨hj, hj'⟩ := hold i hi
    rw [OnUpdatePath, h.updatePath_eq, ← Tree.onWay_iff h.tree.nodup, Tree.growAt_onWay h.leaf h.tree.nodup hgrown.nodup hj hj']

/-- R248: the first half of a step on an adaptive tree. -/
theorem AdaptiveAt.grownFrom (h : AdaptiveAt s T) (b : Byte) : ∃ n T1, GrownFrom s T b n T1 := by
  cases hb : s.mapOf b with
  | some n => exact ⟨n, T, h.grownFrom_known hb⟩
  | none =>
    obtain ⟨y, hnew⟩ := h.newSymbol hb
    exact ⟨_, _, hnew.grownFrom⟩

/-! ### The second half: `Update` -/

/-- What `Update` from the leaf `n` of the symbol `b` does to the arena of `s`, which becomes `v`, and to the tree `T`, which becomes
`T'` (R244). -/
structure Updated (s : State) (b : Byte) (n : Nat) (T : Tree) (v : Table Node) (T' : Tree) : Prop where
  run : updateUp Config.arenaSize n s.arena = some v
  tree : AdaptiveAt { s with arena := v } T'
  idx : T'.idx = T.idx
  parent : ∀ j, (nodeAt v j).parent = (nodeAt s.arena j).parent
  onWay : ∀ j, T.OnWay n j → (nodeAt v j).w = (nodeAt s.arena j).w + 1
  offWay : ∀ j, ¬ T.OnWay n j → (nodeAt v j).w = (nodeAt s.arena j).w
  sides : ∀ q l r, Children s.arena q l r →
    Sides s.arena v q l r (T.OnWay n l ∧ (nodeAt s.arena l).w = (nodeAt s.arena r).w)
  leaves : ∀ i x, T'.HasLeaf i x ↔ T.HasLeaf i x
  depth : ∀ j p, T.AtPath j p → ∃ p', T'.AtPath j p' ∧ p'.length = p.length
  model : (T.model s.arena).touch (b.setWidth 9) = some (T'.model v)

theorem AdaptiveAt.mem_map (h : AdaptiveAt s T) {i : Nat} : s.mapOf b = some i ↔ T.HasLeaf i (b.setWidth 9) := by
  obtain ⟨-, -, -, hmap, -⟩ := h
  exact hmap b i

/-- R244: `Update` on an adaptive tree is the climb and the root's increment. -/
theorem AdaptiveAt.updated (h : AdaptiveAt s T) (hb : s.mapOf b = some n) : ∃ v T', Updated s b n T v T' := by
  have hready := h.ready
  have hsym := setWidth_ne_nytMark b
  have hcount := h.leafCount_le
  obtain ⟨u, T', hc⟩ := exists_climbs s.arena (h.mem_map.mp hb)
  have ht := hc.touched hready hsym
  have hch := hc.changed hready hsym
  have hheld := ht.held none h.held
  obtain ⟨q, hq, hrun⟩ := hc.run hready hsym
  have hlast : updateUp Config.arenaSize n s.arena = some (addWeight u T.idx) := by
    obtain ⟨k, hk⟩ : ∃ k, Config.arenaSize = q + (k + 1) := ⟨Config.arenaSize - q - 1, by unfold Config.arenaSize; omega⟩
    rw [hk, hrun, updateUp_root k (ht.idx ▸ hheld.parent)]
  obtain ⟨v, U, hv, hU⟩ := h.update hb
  obtain rfl := Option.some.inj (hlast.symm.trans hv)
  have hlinks := fun j => sameLinks_addWeight u T.idx j
  obtain rfl : U = T' := by
    refine hU.held.unique (hheld.congr_links fun j _ => hlinks j) ?_
    rw [ht.idx]
    exact Option.some.inj (hU.1.1.symm.trans h.1.1)
  refine ⟨_, U, hlast, hU, ht.idx, fun j => ?_, hch.onWay, hch.offWay, fun q l r hqc => ?_, ht.leaves, fun j p => hc.depth,
    hc.model hready hsym fun j hj => ?_⟩
  · rw [← hch.parent, hlinks j]
  · exact (hch.sides q (h.1.mem_of_children hqc).1 l r hqc).congr Iff.rfl (hlinks q) (num_addWeight u _ l) (num_addWeight u _ r)
  · exact Option.some.inj ((h.mem_map.mpr hj).symm.trans hb)

/-! ### The whole step -/

/-- A step for the symbol `b` (R248), the arena after `Update` being `v`. -/
def stepped (b : Byte) (v : Table Node) (s : State) : State := { grownFor b s with arena := v }

/-- A step for the symbol `b` from `s`, whose tree is `T`, to the tree `T'`: `T1` is the tree between the two halves, `n` the leaf
`Update` starts from. -/
structure ModelStep (s : State) (T : Tree) (b : Byte) (n : Nat) (T1 : Tree) (v : Table Node) (T' : Tree) : Prop where
  grown : GrownFrom s T b n T1
  updated : Updated (grownFor b s) b n T1 v T'

theorem AdaptiveAt.modelStep (h : AdaptiveAt s T) (b : Byte) : ∃ n T1 v T', ModelStep s T b n T1 v T' := by
  obtain ⟨n, T1, hgrown⟩ := h.grownFrom b
  obtain ⟨v, T', hupdated⟩ := hgrown.tree.updated hgrown.mapSelf
  exact ⟨n, T1, v, T', hgrown, hupdated⟩

end

end Sys2Proof.Machine
end

section
namespace Sys2Proof.Machine

-- One declaration after the other: the threads of the whole text together would pass the check's memory limit.
set_option Elab.async false

/-! ## `AH.UPDATE` (R248) -/

section
variable {s : State} {T T1 T' : Tree} {b : Byte} {n y : Nat} {v : Table Node}

/-! ### The run -/

theorem grow_eq (b : Byte) (hy : s.ahNyt = some y) : grow b s = .ok () (growAt y b s) := by
  rw [grow, run_get_bind, hy]
  rfl

theorem updateSymbol_eq (hb : s.mapOf b = some n) (hrun : updateUp Config.arenaSize n s.arena = some v) :
    updateSymbol b s = .ok () { s with arena := v } := by
  rw [updateSymbol, run_get_bind, hb, run_bind_ok _ (run_fromTree_some n s), hrun, run_bind_ok _ (run_fromTree_some v s), run_modify]

theorem ModelStep.updateSymbol (h : ModelStep s T b n T1 v T') : updateSymbol b (grownFor b s) = .ok () (stepped b v s) :=
  updateSymbol_eq h.grown.mapSelf h.updated.run

theorem ModelStep.ahUpdateSym (h : ModelStep s T b n T1 v T') (hT : AdaptiveAt s T) : ahUpdateSym b s = .ok () (stepped b v s) := by
  rw [Machine.ahUpdateSym, run_get_bind]
  cases hb : s.mapOf b with
  | some m =>
    rw [if_neg (by simp), ← h.updateSymbol, grownFor_known hb]
  | none =>
    obtain ⟨y, hnew⟩ := hT.newSymbol hb
    rw [if_pos rfl, run_bind_ok _ (grow_eq b hnew.nyt), ← h.updateSymbol, hnew.grownFor_eq]

/-! ### The weights -/

theorem Tree.onWay_self (h : n ∈ T.indices) : T.OnWay n n := by
  obtain ⟨q, hq⟩ := Tree.exists_pathTo h
  exact ⟨q, q, Tree.atPath_of_pathTo hq, Tree.atPath_of_pathTo hq, List.prefix_refl q⟩

theorem symbolWeight_some {u : State} {m : Nat} (h : u.mapOf b = some m) : symbolWeight b u = (u.node m).w := by
  rw [symbolWeight, h]

theorem symbolWeight_none {u : State} (h : u.mapOf b = none) : symbolWeight b u = 0 := by rw [symbolWeight, h]

/-- R244, R248: the symbol's weight gains 1. -/
theorem ModelStep.symbolWeight_self (h : ModelStep s T b n T1 v T') : symbolWeight b (stepped b v s) = symbolWeight b s + 1 := by
  have hn := Tree.onWay_self (Tree.mem_of_hasLeaf (h.grown.tree.mem_map.mp h.grown.mapSelf))
  rw [symbolWeight_some (u := stepped b v s) h.grown.mapSelf, ← h.grown.weight]
  exact h.updated.onWay n hn

/-- R244, R245: and no other symbol's does. -/
theorem ModelStep.symbolWeight_other (h : ModelStep s T b n T1 v T') (hT : AdaptiveAt s T) {c : Byte} (hc : c ≠ b) :
    symbolWeight c (stepped b v s) = symbolWeight c s := by
  have hmap := h.grown.mapOther c hc
  cases hm : s.mapOf c with
  | none => rw [symbolWeight_none hm, symbolWeight_none (u := stepped b v s) (hmap.trans hm)]
  | some m =>
    have hm1 := hmap.trans hm
    have hleaf := h.grown.tree.mem_map.mp hm1
    have hoff : ¬ T1.OnWay n m := fun hon => by
      obtain rfl := hon.eq_of_hasLeaf h.grown.tree.nodup hleaf
      have hb := h.grown.tree.held.sym_of_hasLeaf (h.grown.tree.mem_map.mp h.grown.mapSelf)
      exact hc (setWidth_nine_injective ((h.grown.tree.held.sym_of_hasLeaf hleaf).symm.trans hb))
    rw [symbolWeight_some hm, symbolWeight_some (u := stepped b v s) hm1,
      ← (h.grown.keeps m (Tree.mem_of_hasLeaf (hT.mem_map.mp hm))).1]
    exact h.updated.offWay m hoff

/-- R244: the root is on every path. -/
theorem ModelStep.root (h : ModelStep s T b n T1 v T') :
    T'.idx = T.idx ∧ ((stepped b v s).node T'.idx).w = (s.node T.idx).w + 1 := by
  have hidx := h.updated.idx.trans h.grown.idx
  have hon := h.updated.onWay _ (Tree.onWay_idx (Tree.mem_of_hasLeaf (h.grown.tree.mem_map.mp h.grown.mapSelf)))
  obtain ⟨hw, -, -⟩ := h.grown.keeps T.idx T.idx_mem_indices
  rw [h.grown.idx] at hon
  exact ⟨hidx, by rw [hidx, ← hw]; exact hon⟩

/-! ### The entries -/

/-- R244: of a leaf `Update` changes the weight and the number alone. -/
theorem Updated.leaf_entry (h : Updated s b n T v T') (hT : AdaptiveAt s T) {i : Nat} {x : BitVec 9} (hi : T.HasLeaf i x) :
    nodeAt v i = { s.node i with w := (nodeAt v i).w, num := (nodeAt v i).num } := by
  have hi' := (h.leaves i x).mpr hi
  obtain ⟨hk, hl, hr⟩ := hT.held.kind_of_leaf hi
  obtain ⟨hk', hl', hr'⟩ := h.tree.held.kind_of_leaf hi'
  have hs := hT.held.sym_of_hasLeaf hi
  have hs' := h.tree.held.sym_of_hasLeaf hi'
  have hp := h.parent i
  change nodeAt v i = { nodeAt s.arena i with w := (nodeAt v i).w, num := (nodeAt v i).num }
  change (nodeAt v i).kind = _ at hk'
  change (nodeAt v i).left = _ at hl'
  change (nodeAt v i).right = _ at hr'
  change (nodeAt v i).sym = _ at hs'
  generalize nodeAt v i = m' at *
  generalize nodeAt s.arena i = m at *
  cases m
  cases m'
  simp_all

/-- R238, R239, R240: the two leaves a new symbol brings, when the step is over. -/
theorem ModelStep.fresh (h : ModelStep s T b n T1 v T') (hnew : NewSymbol s T b y) :
    Children v y s.nodeCnt (s.nodeCnt + 1)
      ∧ nodeAt v s.nodeCnt = adaptiveLeaf Config.nytMark (some y) (s.ahNextnum - 1#10)
      ∧ nodeAt v (s.nodeCnt + 1) = { adaptiveLeaf (b.setWidth 9) (some y) s.ahNextnum with w := 1 } := by
  obtain ⟨hchildren, hnyt, hsymbol⟩ := hnew.writes
  obtain ⟨hgrown, hupdated⟩ := h
  obtain rfl : n = s.nodeCnt + 1 := hgrown.target.trans (by rw [hnew.new]; rfl)
  have htree := hgrown.tree
  have hleaf := hgrown.tree.mem_map.mp hgrown.mapSelf
  rw [hnew.grownFor_eq] at htree hupdated
  have hnytLeaf : T1.HasLeaf s.nodeCnt Config.nytMark := htree.nyt_leaf rfl
  have hoff : ¬ T1.OnWay (s.nodeCnt + 1) s.nodeCnt := fun hon =>
    Nat.succ_ne_self _ (hon.eq_of_hasLeaf htree.nodup hnytLeaf).symm
  obtain ⟨hc, hnum, hnum'⟩ := (hupdated.sides y _ _ hchildren).stay fun hP => hoff hP.1
  have hw := hupdated.offWay _ hoff
  have hw' := hupdated.onWay _ (Tree.onWay_self (Tree.mem_of_hasLeaf hleaf))
  rw [State.node] at hnyt hsymbol
  refine ⟨hc, ?_, ?_⟩
  · rw [hupdated.leaf_entry htree hnytLeaf, hnum, hw, State.node, hnyt]
  · rw [hupdated.leaf_entry htree hleaf, hnum', hw', State.node, hsymbol]
    rfl

/-- R244: everything a step does to the entries of the arena. -/
theorem ModelStep.reweighted (h : ModelStep s T b n T1 v T') (hT : AdaptiveAt s T) : Reweighted s (stepped b v s) T b where
  parent := fun i hi => by
    obtain ⟨-, -, hp⟩ := h.grown.keeps i (hT.1.mem_indices.mpr hi)
    exact (h.updated.parent i).trans hp
  onPath := fun i hi hon => by
    have hmem := hT.1.mem_indices.mpr hi
    obtain ⟨hw, -, -⟩ := h.grown.keeps i hmem
    exact (h.updated.onWay i ((h.grown.way i hmem).mp hon)).trans (congrArg (· + 1) hw)
  offPath := fun i hi hoff => by
    have hmem := hT.1.mem_indices.mpr hi
    obtain ⟨hw, -, -⟩ := h.grown.keeps i hmem
    exact (h.updated.offWay i (mt (h.grown.way i hmem).mpr hoff)).trans hw
  swap := fun q l r hl hr hon hw => by
    obtain ⟨-, hlm, hrm⟩ := hT.1.mem_of_children ⟨hl, hr⟩
    obtain ⟨hwl, hnl, -⟩ := h.grown.keeps l hlm
    obtain ⟨hwr, hnr, -⟩ := h.grown.keeps r hrm
    obtain ⟨⟨hl', hr'⟩, hnr', hnl'⟩ := (h.updated.sides q l r (h.grown.children q l r ⟨hl, hr⟩)).swap
      ⟨(h.grown.way l hlm).mp hon, hwl.trans (hw.trans hwr.symm)⟩
    exact ⟨hl', hr', hnr'.trans hnl, hnl'.trans hnr⟩
  stay := fun q l r hl hr hoff => by
    obtain ⟨-, hlm, hrm⟩ := hT.1.mem_of_children ⟨hl, hr⟩
    obtain ⟨hwl, hnl, -⟩ := h.grown.keeps l hlm
    obtain ⟨hwr, hnr, -⟩ := h.grown.keeps r hrm
    obtain ⟨⟨hl', hr'⟩, hnl', hnr'⟩ := (h.updated.sides q l r (h.grown.children q l r ⟨hl, hr⟩)).stay
      fun hP => hoff ⟨(h.grown.way l hlm).mpr hP.1, hwl.symm.trans (hP.2.trans hwr)⟩
    exact ⟨hl', hr', hnl'.trans hnl, hnr'.trans hnr⟩
  grown := fun y hb hy => by
    obtain ⟨⟨hl, hr⟩, hnyt, hsym⟩ := h.fresh ⟨hT, hb, hy⟩
    refine ⟨hl, hr, hnyt, hsym, ?_⟩
    rw [stepped, NewSymbol.grownFor_eq ⟨hT, hb, hy⟩]
    rfl
  mapSelf := h.grown.mapSelf.trans (congrArg some h.grown.target)
  mapOther := h.grown.mapOther

/-! ### The depths -/

/-- R247: in a chain of `AH_S` symbols the NYT leaf hangs at depth `AH_S`. -/
theorem AdaptiveAt.nyt_path (h : AdaptiveAt s T) : ∃ y p, s.ahNyt = some y ∧ T.pathTo y = some p ∧ p.length = s.ahS := by
  have hcount := h.leafCount
  have hnodup := h.nodup
  obtain ⟨-, ⟨y, hy, hleaf, -⟩, hchain, -⟩ := h
  obtain ⟨p, hp⟩ := Tree.exists_pathTo (Tree.mem_of_hasLeaf hleaf)
  have hdepth := hchain.depth_nyt hnodup hleaf (Tree.atPath_of_pathTo hp)
  exact ⟨y, p, hy, hp, by omega⟩

/-- R244: no entry changes its depth. -/
theorem ModelStep.depth (h : ModelStep s T b n T1 v T') {i : Nat} {p : Bits} (hp : T.pathTo i = some p) :
    ∃ p', T'.pathTo i = some p' ∧ p'.length = p.length := by
  obtain ⟨p', hp', hlen⟩ := h.updated.depth i p (h.grown.path i p (Tree.atPath_of_pathTo hp))
  exact ⟨p', (Tree.pathTo_iff h.updated.tree.nodup).mpr hp', hlen⟩

/-- R238, R247: the leaf of a new symbol hangs at depth `AH_S`, beside the NYT leaf. -/
theorem ModelStep.fresh_depth (h : ModelStep s T b n T1 v T') (hnew : NewSymbol s T b y) :
    ∃ p, T'.pathTo n = some p ∧ p.length = (stepped b v s).ahS := by
  obtain ⟨hgrown, hupdated⟩ := h
  obtain rfl : n = s.nodeCnt + 1 := hgrown.target.trans (by rw [hnew.new]; rfl)
  obtain ⟨y', q, hy', hq, hlen⟩ := hnew.tree.nyt_path
  obtain rfl : y' = y := Option.some.inj (hy'.symm.trans hnew.nyt)
  obtain rfl : T1 = T.growAt y' s.nodeCnt b := hgrown.tree.unique hnew.grownFrom.tree
  obtain ⟨-, hfresh⟩ := (Tree.atPath_of_pathTo hq).growAt (a := s.nodeCnt) (b := b) hnew.leaf hnew.tree.nodup
  obtain ⟨p, hp, hlen'⟩ := hupdated.depth _ _ hfresh
  refine ⟨p, (Tree.pathTo_iff hupdated.tree.nodup).mpr hp, ?_⟩
  have hahS : (stepped b v s).ahS = s.ahS + 1 := hgrown.ahS.trans (if_pos hnew.new)
  rw [hlen', List.length_append, hlen, hahS]
  rfl

/-! ### The command -/

theorem Reweighted.finishOk {t : State} (h : Reweighted s t T b) (w : Word) : Reweighted s (finishOk w t) T b := { h with }

/-- A step writes the tree and the adaptive registers alone. -/
theorem stepped_frame (b : Byte) (v : Table Node) (s : State) :
    stepped b v s = { s with
      arena := v, nodeCnt := (stepped b v s).nodeCnt, map := (stepped b v s).map, ahNyt := (stepped b v s).ahNyt,
      ahS := (stepped b v s).ahS, ahNextnum := (stepped b v s).ahNextnum } := by
  unfold stepped grownFor
  split <;> rfl

theorem ModelStep.exec (h : ModelStep s T b n T1 v T') (hT : AdaptiveAt s T) (hf : s.faulted = false) (hm : s.tmode = .adaptive) :
    exec (.ahUpdate b) s = .next (finishOk (BitVec.ofNat 64 (symbolWeight b s + 1)) (stepped b v s)) := by
  rw [← h.symbolWeight_self]
  exact exec_ok rfl (by simp [hf]) (by simp [admitted, hm]) ((run_bind_ok _ (h.ahUpdateSym hT)).trans (run_get_bind _ _))

end

/-- Settles O49: the command is the two halves of a step (`ModelStep`), and what they do is said entry by entry
(`ModelStep.reweighted`). -/
theorem ahUpdateReweights : Obligations.AhUpdateReweights := by
  intro s T b hf hm hT
  obtain ⟨n, T1, v, T', h⟩ := hT.modelStep b
  obtain ⟨hidx, hroot⟩ := h.root
  have hframe := stepped_frame b v s
  refine ⟨_, T', h.exec hT hf hm, ?_, h.updated.tree, h.symbolWeight_self, fun c => h.symbolWeight_other hT, hroot, hidx,
    (h.reweighted hT).finishOk _, fun i p => h.depth, fun hb => ?_, h.updated.tree.nyt_path, h.grown.ahS, ?_⟩
  · apply endsOk_finishOk <;> rw [hframe]
  · obtain ⟨y, hnew⟩ := hT.newSymbol hb
    obtain ⟨p, hp, hlen⟩ := h.fresh_depth hnew
    exact ⟨n, p, h.grown.mapSelf, hp, hlen⟩
  · rw [hframe]
    rfl

end Sys2Proof.Machine
end

section
namespace Sys2Proof.Machine

-- One declaration after the other: the threads of the whole text together would pass the check's memory limit.
set_option Elab.async false

/-! ## `AH.ENCSYM` and `AH.DECSYM` (R249, R250) -/

/-! ### States with one model (R253) -/

section
variable {s t u : State} {T T1 T' : Tree} {b : Byte} {n y : Nat} {v : Table Node} {bits : Bits}

theorem SameModel.refl (s : State) : SameModel s s := ⟨rfl, rfl, rfl, rfl, rfl, rfl, rfl⟩

theorem SameModel.symm (h : SameModel s t) : SameModel t s := by
  obtain ⟨h1, h2, h3, h4, h5, h6, h7⟩ := h
  exact ⟨h1.symm, h2.symm, h3.symm, h4.symm, h5.symm, h6.symm, h7.symm⟩

theorem SameModel.mapOf (h : SameModel s t) (b : Byte) : s.mapOf b = t.mapOf b := by
  obtain ⟨-, hmap, -⟩ := h
  rw [State.mapOf, hmap, State.mapOf]

theorem SameModel.arena (h : SameModel s t) : s.arena = t.arena := h.1

theorem SameModel.adaptiveAt (h : SameModel s t) (hT : AdaptiveAt s T) : AdaptiveAt t T := by
  obtain ⟨harena, hmap, hS, hnext, hnyt, hcnt, hroot⟩ := h
  unfold AdaptiveAt TreeAt State.node State.mapOf at hT ⊢
  rwa [← harena, ← hmap, ← hS, ← hnext, ← hnyt, ← hcnt, ← hroot]

theorem SameModel.grownFor (h : SameModel s t) (b : Byte) : SameModel (grownFor b s) (grownFor b t) := by
  unfold Machine.grownFor
  rw [← h.mapOf b]
  obtain ⟨harena, hmap, hS, hnext, hnyt, hcnt, hroot⟩ := id h
  rw [← hnyt]
  split
  · exact ⟨by rw [growAt_arena, growAt_arena, harena, hcnt, hnext], by rw [growAt_map, growAt_map, hmap, hcnt],
      congrArg (· + 1) hS, congrArg (· - 2#10) hnext, congrArg some hcnt, congrArg (· + 2) hcnt, hroot⟩
  · exact h

theorem SameModel.stepped (h : SameModel s t) (b : Byte) (v : Table Node) : SameModel (stepped b v s) (stepped b v t) := by
  obtain ⟨-, hmap, hS, hnext, hnyt, hcnt, hroot⟩ := h.grownFor b
  exact ⟨rfl, hmap, hS, hnext, hnyt, hcnt, hroot⟩

/-- R253: the second half of a step runs from every state with the model the first half leaves. -/
theorem ModelStep.updateSymbol_grownFor (h : ModelStep s T b n T1 v T') (hst : SameModel s t) :
    Machine.updateSymbol b (Machine.grownFor b t) = .ok () (Machine.stepped b v t) := by
  have hgrown := hst.grownFor b
  exact updateSymbol_eq ((hgrown.mapOf b).symm.trans h.grown.mapSelf) (hgrown.arena ▸ h.updated.run)

/-! ### The encoder -/

/-- Bits were written and the model was changed, and nothing else of the state. -/
structure AhWrites (s u : State) (b : Bits) : Prop where
  bits : WritesBits s u b
  good : PortsGood u
  acc : s.acc.toNat < 2 ^ s.accCnt.toNat → u.acc.toNat < 2 ^ u.accCnt.toNat
  frame : u = { s with
    ports := u.ports, acc := u.acc, accCnt := u.accCnt, obuf := u.obuf, sinkPos := u.sinkPos, snk := u.snk, arena := u.arena,
    nodeCnt := u.nodeCnt, map := u.map, ahNyt := u.ahNyt, ahS := u.ahS, ahNextnum := u.ahNextnum }

/-- A writer's state keeps the model. -/
theorem Writes.sameModel (h : Writes s t bits) : SameModel s t := by
  rw [h.frame]
  exact .refl s

/-- The bits first, then the step. -/
theorem Writes.stepped (h : Writes s t bits) (hacc : s.acc.toNat < 2 ^ s.accCnt.toNat → t.acc.toNat < 2 ^ t.accCnt.toNat)
    (b : Byte) (v : Table Node) : AhWrites s (stepped b v t) bits := by
  have hframe := stepped_frame b v t
  refine ⟨?_, ?_, ?_, ?_⟩
  · rw [hframe]
    exact h.bits
  · rw [hframe]
    exact h.good
  · rw [hframe]
    exact hacc
  · rw [hframe, h.frame]

/-- R237: the path of the leaf that `MAP` names, and of the NYT leaf. -/
theorem AdaptiveAt.path_good (h : AdaptiveAt s T) {q : Bits} (hq : T.pathTo n = some q) : path n s = .ok q s :=
  Machine.path_good h.1 hq (((Tree.length_pathTo_lt hq).trans_le h.leafCount_le).trans (by decide))

/-- R249: `AhEncSym` writes the symbol's path, or the NYT path and the raw symbol, and makes a step. -/
theorem ModelStep.ahEncSym (h : ModelStep s T b n T1 v T') (hT : AdaptiveAt s T) (hg : PortsGood s) :
    ∃ u bits, ahEncSym b s = .ok bits.length u ∧ AhWrites s u bits ∧ SameModel u (stepped b v s) ∧ CodeIn s T b bits := by
  have finish : ∀ {t : State} {bits : Bits}, Writes s t bits →
      (s.acc.toNat < 2 ^ s.accCnt.toNat → t.acc.toNat < 2 ^ t.accCnt.toNat) →
      Machine.ahEncSym b s = (do Machine.updateSymbol b; pure bits.length : Cmd Nat) (grownFor b t) → CodeIn s T b bits →
      ∃ u bits, Machine.ahEncSym b s = .ok bits.length u ∧ AhWrites s u bits ∧ SameModel u (Machine.stepped b v s)
        ∧ CodeIn s T b bits := fun hw hacc hrun hcode =>
    ⟨_, _, hrun.trans (run_bind_ok _ (h.updateSymbol_grownFor hw.sameModel)), hw.stepped hacc b v,
      (hw.sameModel.stepped b v).symm, hcode⟩
  cases hb : s.mapOf b with
  | some m =>
    obtain ⟨q, hq⟩ := Tree.exists_pathTo (Tree.mem_of_hasLeaf (hT.mem_map.mp hb))
    obtain ⟨t, ht, hw, hacc⟩ := emitBits_good q hg
    refine finish hw hacc ?_ (by rw [CodeIn, hb]; exact hq)
    rw [Machine.ahEncSym, run_get_bind, hb, grownFor_known ((hw.sameModel.mapOf b).symm.trans hb)]
    exact (run_bind_ok _ (hT.path_good hq)).trans (run_bind_ok _ ht)
  | none =>
    obtain ⟨y, hnew⟩ := hT.newSymbol hb
    obtain ⟨q, hq⟩ := Tree.exists_pathTo (Tree.mem_of_hasLeaf hnew.leaf)
    obtain ⟨t, ht, hw, hacc⟩ := emitBits_good q hg
    obtain ⟨t', ht', hw', hacc'⟩ := writeBits_good b.toNat 8 hw.good
    have hall := hw.trans hw'
    have hnyt : t'.ahNyt = some y := by rw [hall.frame, hnew.nyt]
    have hgrown : grownFor b t' = growAt y b t' := by rw [Machine.grownFor, ← hall.sameModel.mapOf b, hb, hnyt]
    have hlen : (q ++ bitsOf b.toNat 8).length = q.length + 8 := by rw [List.length_append, length_bitsOf]
    have hread : (fromTree s.ahNyt : Cmd Nat) s = .ok y s := by rw [hnew.nyt, run_fromTree_some]
    refine finish hall (fun _ => hacc') ?_ (by rw [CodeIn, hb]; exact ⟨y, q, hnew.nyt, hq, rfl⟩)
    rw [Machine.ahEncSym, run_get_bind, hb, hgrown, hlen]
    exact (run_bind_ok _ hread).trans ((run_bind_ok _ (hT.path_good hq)).trans ((run_bind_ok _ ht).trans ((run_bind_ok _ ht').trans
      (run_bind_ok _ (grow_eq b hnyt)))))

theorem AhWrites.endsOk (h : AhWrites s u bits) (w : Word) : EndsOk s (finishOk w u) w := by
  apply endsOk_finishOk <;> rw [h.frame]

end

/-- Settles O50: `ModelStep.ahEncSym`, with the step `AH.UPDATE` makes (`ModelStep.exec`). -/
theorem ahEncsymWritesPath : Obligations.AhEncsymWritesPath := by
  intro s T b hf hm hT hg
  obtain ⟨n, T1, v, T', h⟩ := hT.modelStep b
  obtain ⟨u, bits, hrun, hwrites, hsame, hcode⟩ := h.ahEncSym hT hg
  refine ⟨_, _, bits, exec_ok rfl (by simp [hf]) (by simp [admitted, hm]) (run_bind_ok _ hrun), h.exec hT hf hm, hsame, hcode,
    hwrites.endsOk _, hwrites.bits, ?_⟩
  rw [hwrites.frame]
  rfl

end Sys2Proof.Machine
end

section
namespace Sys2Proof.Machine

-- One declaration after the other: the threads of the whole text together would pass the check's memory limit.
set_option Elab.async false

/-! ### The decoder -/

section
variable {s t u : State} {T T1 T' : Tree} {b : Byte} {m n y : Nat} {v : Table Node} {p bits rest : Bits}

/-- Bits were taken, bytes were emitted and the model was changed, and nothing else of the state. -/
structure AhDecodes (s u : State) (p : Bits) (bs : List Byte) : Prop where
  bits : unread s = p ++ unread u
  cursor : cursor u = cursor s + p.length
  bytes : EmitsBytes s u bs
  good : PortsGood u
  frame : u = { s with
    ports := u.ports, rdByte := u.rdByte, rdBit := u.rdBit, obuf := u.obuf, sinkPos := u.sinkPos, snk := u.snk, arena := u.arena,
    nodeCnt := u.nodeCnt, map := u.map, ahNyt := u.ahNyt, ahS := u.ahS, ahNextnum := u.ahNextnum }

theorem Decodes.sameModel {bs : List Byte} (h : Decodes s t p bs) : SameModel s t := by
  rw [h.frame]
  exact .refl s

theorem Decodes.stepped {bs : List Byte} (h : Decodes s t p bs) (b : Byte) (v : Table Node) : AhDecodes s (stepped b v t) p bs := by
  have hframe := stepped_frame b v t
  refine ⟨?_, ?_, ?_, ?_, ?_⟩
  · rw [hframe]
    exact h.bits
  · rw [hframe]
    exact h.cursor
  · rw [hframe]
    exact h.bytes
  · rw [hframe]
    exact h.good
  · rw [hframe, h.frame]

/-- R131, R238: emitting a byte and growing the tree touch different parts of the state. -/
theorem emitByte_growAt {c : Byte} (h : emitByte b s = .ok () t) : emitByte b (growAt y c s) = .ok () (growAt y c t) := by
  by_cases hfull : s.obuf.length + 1 = s.params.blockSize
  · rw [emitByte_full hfull] at h
    rw [emitByte_full (s := growAt y c s) hfull]
    by_cases hd : s.ports.headD .done = .done
    · obtain ⟨-, rfl⟩ := EStateM.Result.ok.inj ((flushOut_done (buffered_ne_nil b s) hd).symm.trans h)
      exact flushOut_done (buffered_ne_nil b _) hd
    · cases (flushOut_failed (buffered_ne_nil b s) hd).symm.trans h
  · obtain ⟨-, rfl⟩ := EStateM.Result.ok.inj ((emitByte_room hfull).symm.trans h)
    exact emitByte_room (s := growAt y c s) hfull

/-- R250: what `AhDecSym` does at the leaf of the symbol `x`. -/
def decodeLeaf (x : BitVec 9) : Cmd Byte := do
  let sym ← if x = Config.nytMark then readNewSymbol else pure (x.setWidth 8)
  emitByte sym
  updateSymbol sym
  pure sym

/-- R250: the descent, and then the leaf. -/
theorem ahDecSym_eq (hT : AdaptiveAt s T) (hd : descend (remaining s + 1) T.idx s = .ok m t) :
    ahDecSym s = decodeLeaf (s.node m).sym t := by
  rw [ahDecSym, run_get_bind, hT.1.1, run_bind_ok _ (run_fromTree_some _ s), run_bind_ok _ hd]
  rfl

/-- R250: the bits of the path of a leaf lead `AhDecSym` there. -/
theorem AdaptiveAt.ahDecSym_leaf {a : BitVec 9} (hT : AdaptiveAt s T) (hg : PortsGood s) (hp : T.leafAt p = some a)
    (hu : unread s = p ++ rest) :
    ∃ t, ahDecSym s = decodeLeaf a t ∧ unread t = rest ∧ cursor t = cursor s + p.length ∧ PortsGood t
      ∧ t = { s with ports := t.ports, rdByte := t.rdByte, rdBit := t.rdBit } := by
  obtain ⟨m, t, hd, hsym, -, -, hrest, hcursor, hgood, hframe⟩ := descend_good (k := remaining s + 1) hT.held hp hg hu
    (by rw [remaining_eq, hu, List.length_append]; omega)
  exact ⟨t, hsym ▸ ahDecSym_eq hT hd, hrest, hcursor, hgood, hframe⟩

theorem Tree.leafAt_of_pathTo (hd : T.indices.Nodup) {a : BitVec 9} (hp : T.pathTo n = some p) (hl : T.HasLeaf n a) :
    T.leafAt p = some a := (Tree.atPath_of_pathTo hp).leafAt hd hl

/-- R250: the raw bits of a symbol are read as the symbol. -/
theorem readRaw_symbol (b : Byte) (hg : PortsGood s) (hu : unread s = bitsOf b.toNat 8 ++ rest) :
    ∃ t, readRaw 8 0 s = .ok b.toNat t ∧ unread t = rest ∧ cursor t = cursor s + 8 ∧ PortsGood t
      ∧ t = { s with ports := t.ports, rdByte := t.rdByte, rdBit := t.rdBit } := by
  obtain ⟨t, ht, hrest, hcursor, hgood, hframe⟩ := readRaw_good (bitsOf b.toNat 8) rest 0 hg hu
  rw [length_bitsOf, valOf_bitsOf, Nat.zero_mul, Nat.zero_add, Nat.mod_eq_of_lt b.isLt] at ht
  rw [length_bitsOf] at hcursor
  exact ⟨t, ht, hrest, hcursor, hgood, hframe⟩

/-- R250, R253: on the bits `AhEncSym` writes, `AhDecSym` takes them, emits the symbol and makes the same step. -/
theorem ModelStep.ahDecSym (h : ModelStep s T b n T1 v T') (hT : AdaptiveAt s T) (hg : PortsGood s) (hc : CodeIn s T b bits)
    (hu : unread s = bits ++ rest) :
    ∃ u, ahDecSym s = .ok b u ∧ AhDecodes s u bits [b] ∧ SameModel u (stepped b v s) := by
  have finish : ∀ {t : State}, Decodes s t bits [b] →
      Machine.ahDecSym s = (do Machine.updateSymbol b; pure b : Cmd Byte) (grownFor b t) →
      ∃ u, Machine.ahDecSym s = .ok b u ∧ AhDecodes s u bits [b] ∧ SameModel u (Machine.stepped b v s) := fun hd hrun =>
    ⟨_, hrun.trans (run_bind_ok _ (h.updateSymbol_grownFor hd.sameModel)), hd.stepped b v, (hd.sameModel.stepped b v).symm⟩
  cases hb : s.mapOf b with
  | some m =>
    rw [CodeIn, hb] at hc
    obtain ⟨t, hrun, hrest, hcursor, hgood, hframe⟩ :=
      hT.ahDecSym_leaf hg (Tree.leafAt_of_pathTo hT.nodup hc (hT.mem_map.mp hb)) hu
    obtain ⟨w, hw, hemit⟩ := emitByte_good b hgood
    have hdec := hemit.decodes (hu.trans (by rw [hrest])) hcursor hframe
    have hback : (b.setWidth 9).setWidth 8 = b := by simp
    refine finish hdec (hrun.trans ?_)
    rw [decodeLeaf, if_neg (setWidth_ne_nytMark b), run_pure_bind, hback,
      grownFor_known ((hdec.sameModel.mapOf b).symm.trans hb)]
    exact run_bind_ok _ hw
  | none =>
    obtain ⟨y, hnew⟩ := hT.newSymbol hb
    rw [CodeIn, hb] at hc
    obtain ⟨y', q, hy', hq, rfl⟩ := hc
    obtain rfl : y' = y := Option.some.inj (hy'.symm.trans hnew.nyt)
    rw [List.append_assoc] at hu
    obtain ⟨t, hrun, hrest, hcursor, hgood, hframe⟩ := hT.ahDecSym_leaf hg (Tree.leafAt_of_pathTo hT.nodup hq hnew.leaf) hu
    obtain ⟨t', hraw, hrest', hcursor', hgood', hframe'⟩ := readRaw_symbol b hgood hrest
    obtain ⟨w, hw, hemit⟩ := emitByte_good b hgood'
    have hall : t' = { s with ports := t'.ports, rdByte := t'.rdByte, rdBit := t'.rdBit } := by rw [hframe', hframe]
    have hdec := hemit.decodes (s := s) (p := q ++ bitsOf b.toNat 8) (by rw [hu, hrest', List.append_assoc])
      (by rw [hcursor', hcursor, List.length_append, length_bitsOf]; omega) hall
    have hnyt : t'.ahNyt = some y' ∧ t'.mapOf b = none := by
      rw [hall]
      exact ⟨hnew.nyt, hb⟩
    have hgrown : grownFor b w = growAt y' b w := by
      have hwnyt : w.ahNyt = some y' := by rw [hdec.frame, hnew.nyt]
      rw [Machine.grownFor, ← hdec.sameModel.mapOf b, hb, hwnyt]
    have hnewSymbol : readNewSymbol t = .ok b (growAt y' b t') := by
      rw [readNewSymbol, run_bind_ok _ hraw, run_get_bind, BitVec.ofNat_toNat, BitVec.setWidth_eq,
        run_bind_ok _ (raiseIf_neg _ _ _ (not_not.mpr hnyt.2)), run_bind_ok _ (grow_eq b hnyt.1), run_pure]
    refine finish hdec (hrun.trans ?_)
    rw [decodeLeaf, if_pos rfl, hgrown]
    exact (run_bind_ok _ hnewSymbol).trans (run_bind_ok _ (emitByte_growAt hw))

theorem AhDecodes.endsOk {bs : List Byte} (h : AhDecodes s u p bs) (w : Word) : EndsOk s (finishOk w u) w := by
  apply endsOk_finishOk <;> rw [h.frame]

end

/-- Settles O51: `ModelStep.ahDecSym`, with the step `AH.UPDATE` makes (`ModelStep.exec`). -/
theorem ahDecsymMirrorsEncsym : Obligations.AhDecsymMirrorsEncsym := by
  intro s T b bits rest hf hm hT hg hc hu
  obtain ⟨n, T1, v, T', h⟩ := hT.modelStep b
  obtain ⟨u, hrun, hdec, hsame⟩ := h.ahDecSym hT hg hc hu
  refine ⟨_, _, exec_ok rfl (by simp [hf]) (by simp [admitted, hm]) (run_bind_ok _ hrun), h.exec hT hf hm, hsame, hdec.endsOk _,
    hdec.bytes, List.append_cancel_left (hdec.bits.symm.trans hu), hdec.cursor, ?_⟩
  rw [hdec.frame]
  rfl

end Sys2Proof.Machine
end

section
namespace Sys2Proof.Machine

-- One declaration after the other: the threads of the whole text together would pass the check's memory limit.
set_option Elab.async false

/-! ### The input that `AhDecSym` rejects -/

section
variable {α β : Type} {s t : State} {T : Tree} {b : Byte} {k n y : Nat} {p raw rest : Bits} {c d : Cmd α} {pp : Option Nat}

/-- R295: the source ends while the command runs: the command raises `IOError` with `SRC_LEN`, and the reader has moved to the end. -/
def RunsOut (c : Cmd α) (s : State) : Prop :=
  ∃ t, c s = .error (.raised .io s.src.length) t ∧ cursor t = 8 * s.src.length
    ∧ t = { s with ports := t.ports, rdByte := t.rdByte, rdBit := t.rdBit }

/-- The command that runs out is the first of a sequence. -/
theorem RunsOut.first {d : Cmd β} (h : RunsOut c s) (hrun : ∀ {e t}, c s = .error e t → d s = .error e t) : RunsOut d s := by
  obtain ⟨t, ht, hrest⟩ := h
  exact ⟨t, hrun ht, hrest⟩

/-- A command that comes to a command which runs out has run out itself. -/
theorem RunsOut.of_run (h : RunsOut c t) (hrun : d s = c t)
    (hframe : t = { s with ports := t.ports, rdByte := t.rdByte, rdBit := t.rdBit }) : RunsOut d s := by
  obtain ⟨u, hu, hcursor, huframe⟩ := h
  have hsrc : t.src = s.src := by rw [hframe]
  exact ⟨u, by rw [hrun, hu, hsrc], by rw [hcursor, hsrc], by rw [huframe, hframe]⟩

theorem readBit_runsOut (hu : unread s = []) (hcur : cursor s ≤ 8 * s.src.length) : RunsOut readBit s := by
  have hlen : 8 * s.src.length ≤ cursor s := by
    have h := List.drop_eq_nil_iff.mp hu
    rwa [length_unpackMsb] at h
  have hbyte : s.rdByte = s.src.length := by
    simp only [cursor] at hcur hlen
    omega
  exact ⟨s, hbyte ▸ readBit_end hbyte.ge, le_antisymm hcur hlen, rfl⟩

/-- The reader stays inside the source while there are unread bits. -/
theorem cursor_le_of_read {x : Bool} {q : Bits} (hu : unread s = x :: q) (hcursor : cursor t = cursor s + 1) (hsrc : t.src = s.src) :
    cursor t ≤ 8 * t.src.length := by
  have := cursor_le_of_unread hu
  rw [hcursor, hsrc]
  omega

/-- R250: fewer bits than the raw symbol needs. -/
theorem readRaw_runsOut (raw : Bits) (v : Nat) (hg : PortsGood s) (hu : unread s = raw) (hcur : cursor s ≤ 8 * s.src.length)
    (hk : raw.length < k) : RunsOut (readRaw k v) s := by
  induction raw generalizing s k v with
  | nil =>
    obtain ⟨k, rfl⟩ := Nat.exists_eq_succ_of_ne_zero hk.ne'
    exact (readBit_runsOut hu hcur).first (run_bind_error _)
  | cons x raw ih =>
    obtain ⟨k, rfl⟩ := Nat.exists_eq_succ_of_ne_zero (Nat.ne_zero_of_lt hk)
    obtain ⟨z, t, ht, hnext, hcursor, hgood, hframe⟩ := readBit_good hg (rdByte_lt_of_unread hu)
    obtain ⟨-, hrest⟩ := List.cons.inj (hnext.symm.trans hu)
    have hsrc : t.src = s.src := by rw [hframe]
    exact (ih (shiftIn v z) hgood hrest (cursor_le_of_read hu hcursor hsrc) (Nat.lt_of_succ_lt_succ hk)).of_run
      (run_bind_ok _ ht) hframe

/-- The subtree under a bit of a held node, with no leaf where the node has none. -/
theorem Holds.child {a : Table Node} {i : Nat} {l r : Tree} (h : Holds a pp (.node i l r)) (x : Bool) :
    ∃ U, childOf (nodeAt a i) x = some U.idx ∧ Holds a (some i) U ∧ ∀ q, U.leafAt q = (Tree.node i l r).leafAt (x :: q) := by
  refine ⟨if x then r else l, childOf_holds h x, ?_, fun q => by cases x <;> rfl⟩
  obtain ⟨-, -, -, -, -, hl, hr⟩ := h
  cases x
  · exact hl
  · exact hr

/-- R250: the unread bits lead to no leaf. -/
theorem descend_runsOut (h : Holds s.arena pp T) (hno : ∀ q, q <+: p → T.leafAt q = none) (hg : PortsGood s) (hu : unread s = p)
    (hcur : cursor s ≤ 8 * s.src.length) (hk : p.length < k) : RunsOut (descend k T.idx) s := by
  induction p generalizing T pp s k with
  | nil =>
    obtain ⟨k, rfl⟩ := Nat.exists_eq_succ_of_ne_zero hk.ne'
    cases T with
    | leaf i x => exact absurd (hno [] List.nil_prefix) (by simp [Tree.leafAt])
    | node i l r =>
      have hkind : (s.node i).kind = .internal := h.1
      exact (readBit_runsOut hu hcur).first fun ht => by rw [descend, run_get_bind, Tree.idx, if_pos hkind, run_bind_error _ ht]
  | cons x p ih =>
    obtain ⟨k, rfl⟩ := Nat.exists_eq_succ_of_ne_zero (Nat.ne_zero_of_lt hk)
    cases T with
    | leaf i x => exact absurd (hno [] List.nil_prefix) (by simp [Tree.leafAt])
    | node i l r =>
      obtain ⟨z, t, ht, hnext, hcursor, hgood, hframe⟩ := readBit_good hg (rdByte_lt_of_unread hu)
      obtain ⟨rfl, hrest⟩ := List.cons.inj (hnext.symm.trans hu)
      obtain ⟨harena, hsrc⟩ : t.arena = s.arena ∧ t.src = s.src := by rw [hframe]; exact ⟨rfl, rfl⟩
      obtain ⟨U, hchild, hU, hleaf⟩ := h.child z
      have hkind : (s.node i).kind = .internal := h.1
      exact (ih (harena ▸ hU) (fun q hq => (hleaf q).trans (hno _ (List.cons_prefix_cons.mpr ⟨rfl, hq⟩))) hgood hrest
        (cursor_le_of_read hu hcursor hsrc) (Nat.lt_of_succ_lt_succ hk)).of_run (descend_internal hkind ht hchild) hframe

/-- R250: the two places where the source can end inside a symbol. -/
theorem AdaptiveAt.ahDecSym_runsOut (hT : AdaptiveAt s T) (hg : PortsGood s) (hcur : cursor s ≤ 8 * s.src.length)
    (h : (∀ q, q <+: unread s → T.leafAt q = none)
      ∨ ∃ p raw, unread s = p ++ raw ∧ T.leafAt p = some Config.nytMark ∧ raw.length < 8) : RunsOut ahDecSym s := by
  rcases h with hno | ⟨p, raw, hu, hleaf, hraw⟩
  · have hd := descend_runsOut (k := remaining s + 1) hT.held hno hg rfl hcur (by rw [remaining_eq]; omega)
    exact hd.first fun ht => by rw [ahDecSym, run_get_bind, hT.1.1, run_bind_ok _ (run_fromTree_some _ s), run_bind_error _ ht]
  · obtain ⟨t, hrun, hrest, hcursor, hgood, hframe⟩ := hT.ahDecSym_leaf hg hleaf hu
    have hsrc : t.src = s.src := by rw [hframe]
    have hlen : cursor t ≤ 8 * t.src.length := by
      have hbits := congrArg List.length hu
      rw [unread, List.length_drop, length_unpackMsb, List.length_append] at hbits
      rw [hcursor, hsrc]
      omega
    refine RunsOut.of_run (c := decodeLeaf Config.nytMark) ?_ hrun hframe
    rw [decodeLeaf, if_pos rfl]
    exact (readRaw_runsOut raw 0 hgood hrest hlen hraw).first fun ht => run_bind_error _ (run_bind_error _ ht)

/-- R250, R300: a symbol sent as new that has a leaf. -/
theorem AdaptiveAt.ahDecSym_twice (hT : AdaptiveAt s T) (hg : PortsGood s) (hleaf : T.leafAt p = some Config.nytMark)
    (hb : s.mapOf b ≠ none) (hu : unread s = p ++ bitsOf b.toNat 8 ++ rest) :
    ∃ t, ahDecSym s = .error (.raised .corruptStream b.toNat) t ∧ unread t = rest
      ∧ t = { s with ports := t.ports, rdByte := t.rdByte, rdBit := t.rdBit } := by
  rw [List.append_assoc] at hu
  obtain ⟨t, hrun, hrest, -, hgood, hframe⟩ := hT.ahDecSym_leaf hg hleaf hu
  obtain ⟨t', hraw, hrest', -, -, hframe'⟩ := readRaw_symbol b hgood hrest
  have hall : t' = { s with ports := t'.ports, rdByte := t'.rdByte, rdBit := t'.rdBit } := by rw [hframe', hframe]
  have hmap : t'.mapOf (BitVec.ofNat 8 b.toNat) ≠ none := by
    rw [BitVec.ofNat_toNat, BitVec.setWidth_eq, hall]
    exact hb
  refine ⟨t', hrun.trans ?_, hrest', hall⟩
  rw [decodeLeaf, if_pos rfl]
  refine run_bind_error _ ?_
  rw [readNewSymbol, run_bind_ok _ hraw, run_get_bind, run_bind_error _ (raiseIf_pos _ _ _ hmap)]

end

/-- Settles O52: `AdaptiveAt.ahDecSym_twice`, at the NYT leaf's path, and `AdaptiveAt.ahDecSym_runsOut`. -/
theorem ahDecsymCorruptStream : Obligations.AhDecsymCorruptStream := by
  have ends {s t : State} {e : ErrKind} {info : Nat} (hf : s.faulted = false) (hm : s.tmode = .adaptive)
      (hrun : ahDecSym s = .error (.raised e info) t) : exec .ahDecsym s = .next (takeFault e info t) :=
    exec_raised rfl (by simp [hf]) (by simp [admitted, hm]) (run_bind_error _ hrun)
  refine ⟨fun s T b y n p rest hf hm hT hg hy hp hb hu => ?_, fun s T hf hm hT hg hcur h => ?_⟩
  · obtain ⟨t, hrun, hrest, hframe⟩ := hT.ahDecSym_twice hg (Tree.leafAt_of_pathTo hT.nodup hp (hT.nyt_leaf hy)) (by simp [hb]) hu
    refine ⟨_, ends hf hm hrun, endsFaulted_takeFault _ _ (by rw [hframe]), hrest, ?_⟩
    rw [hframe]
    rfl
  · obtain ⟨t, hrun, hcursor, hframe⟩ := hT.ahDecSym_runsOut hg hcur h
    refine ⟨_, ends hf hm hrun, endsFaulted_takeFault _ _ (by rw [hframe]), hcursor, ?_⟩
    rw [hframe]
    rfl

end Sys2Proof.Machine
end

section
namespace Sys2Proof.Machine

-- One declaration after the other: the threads of the whole text together would pass the check's memory limit.
set_option Elab.async false

/-! ## The adaptive containers (R251, R252) -/

/-! ### The payload, from the tree as plain data (R115) -/

section
variable {s t u : State} {T T1 T' : Tree} {b : Byte} {n y : Nat} {v : Table Node} {x : List Byte} {bits rest : Bits}

theorem AdaptiveAt.pathTo_known (hT : AdaptiveAt s T) (hb : s.mapOf b = some n) :
    (T.model s.arena).pathTo (b.setWidth 9) = T.pathTo n :=
  Tree.model_pathTo (fun _ => hT.mem_map.symm.trans (by rw [hb, Option.some_inj, eq_comm])) hT.nodup

theorem AdaptiveAt.pathTo_new (hT : AdaptiveAt s T) (hb : s.mapOf b = none) : (T.model s.arena).pathTo (b.setWidth 9) = none := by
  have htouch : (T.model s.arena).touch (b.setWidth 9) = none := Tree.model_touch_none fun j hj => by
    cases hb.symm.trans (hT.mem_map.mpr hj)
  rw [← Option.isNone_iff_eq_none, ← Option.not_isSome, ← Model.touch_isSome, htouch]
  rfl

theorem AdaptiveAt.nyt_iff (hT : AdaptiveAt s T) (hy : s.ahNyt = some y) {i : Nat} : T.HasLeaf i Config.nytMark ↔ i = y := by
  obtain ⟨-, -, hchain, -⟩ := id hT
  exact ⟨fun hi => hchain.nyt_unique hi (hT.nyt_leaf hy), fun hi => hi ▸ hT.nyt_leaf hy⟩

/-- R249: the code in the state is the code in the data. -/
theorem AdaptiveAt.codeIn_iff (hT : AdaptiveAt s T) : CodeIn s T b bits ↔ bits = (T.model s.arena).code b := by
  cases hb : s.mapOf b with
  | some n =>
    obtain ⟨p, hp⟩ := Tree.exists_pathTo (Tree.mem_of_hasLeaf (hT.mem_map.mp hb))
    rw [CodeIn, hb, Model.code, hT.pathTo_known hb, hp]
    change T.pathTo n = some bits ↔ bits = p
    rw [hp, Option.some_inj, eq_comm]
  | none =>
    obtain ⟨y, hnew⟩ := hT.newSymbol hb
    obtain ⟨p, hp⟩ := Tree.exists_pathTo (Tree.mem_of_hasLeaf hnew.leaf)
    have hnyt := (Tree.model_pathTo (t := s.arena) (fun _ => hT.nyt_iff hnew.nyt) hT.nodup).trans hp
    rw [CodeIn, hb, Model.code, hT.pathTo_new hb, hnyt]
    constructor
    · rintro ⟨y', q, hy', hq, rfl⟩
      obtain rfl := Option.some.inj (hy'.symm.trans hnew.nyt)
      obtain rfl := Option.some.inj (hq.symm.trans hp)
      rfl
    · rintro rfl
      exact ⟨y, p, hnew.nyt, hp, rfl⟩

/-- R238: the first half of a step, on the data. -/
theorem ModelStep.model_grown (h : ModelStep s T b n T1 v T') (hT : AdaptiveAt s T) :
    T1.model (Machine.grownFor b s).arena = if ((T.model s.arena).pathTo (b.setWidth 9)).isSome then T.model s.arena
      else (T.model s.arena).grow (b.setWidth 9) := by
  cases hb : s.mapOf b with
  | some m =>
    obtain ⟨p, hp⟩ := Tree.exists_pathTo (Tree.mem_of_hasLeaf (hT.mem_map.mp hb))
    have hsame := grownFor_known hb
    obtain rfl : T1 = T := (hsame ▸ h.grown.tree).unique hT
    rw [hT.pathTo_known hb, hp, if_pos Option.isSome_some, hsame]
  | none =>
    obtain ⟨y, hnew⟩ := hT.newSymbol hb
    obtain ⟨ha, ha', hya, hya'⟩ := hnew.fresh
    obtain rfl : T1 = T.growAt y s.nodeCnt b := h.grown.tree.unique hnew.grownFrom.tree
    rw [hT.pathTo_new hb, if_neg (by decide), hnew.grownFor_eq, growAt_arena]
    exact Tree.growAt_model (fun i => (hT.nyt_iff hnew.nyt).mp) (fun s => hnew.leaf_sym) hya hya' ha ha'

/-- R248: the step, on the data. -/
theorem ModelStep.model_next (h : ModelStep s T b n T1 v T') (hT : AdaptiveAt s T) : T'.model v = (T.model s.arena).next b := by
  have htouch := h.updated.model
  rw [h.model_grown hT] at htouch
  rw [Model.next, htouch, Option.getD_some]

/-- R115: the code of symbols in the state is their payload in the data. -/
theorem AdaptiveAt.adaptiveCode_iff (hT : AdaptiveAt s T) (hf : s.faulted = false) (hm : s.tmode = .adaptive) :
    AdaptiveCode s x bits ↔ bits = (T.model s.arena).payload x := by
  induction x generalizing s T bits with
  | nil =>
    rw [Model.payload_nil]
    exact ⟨fun h => by cases h; rfl, fun h => h ▸ .nil s⟩
  | cons b x ih =>
    obtain ⟨n, T1, v, T', hstep⟩ := hT.modelStep b
    have hexec := hstep.exec hT hf hm
    have hframe := stepped_frame b v s
    have hnext := fun rest => ih (s := finishOk (BitVec.ofNat 64 (symbolWeight b s + 1)) (stepped b v s)) (bits := rest)
      hstep.updated.tree ((congrArg State.faulted hframe).trans hf) ((congrArg State.tmode hframe).trans hm)
    have hmodel : T'.model (finishOk (BitVec.ofNat 64 (symbolWeight b s + 1)) (stepped b v s)).arena = (T.model s.arena).next b :=
      hstep.model_next hT
    rw [hmodel] at hnext
    rw [Model.payload_cons]
    constructor
    · rintro (_ | ⟨_, u, U, _, _, p, rest, hU, hcode, hu, hrest⟩)
      obtain rfl := hU.unique hT
      obtain rfl := Host.Outcome.next.inj (hexec.symm.trans hu)
      rw [hT.codeIn_iff.mp hcode, (hnext _).mp hrest]
    · rintro rfl
      exact .cons _ _ T b x _ _ hT (hT.codeIn_iff.mpr rfl) hexec ((hnext _).mpr rfl)

end
end Sys2Proof.Machine
end

section
namespace Sys2Proof.Machine

-- One declaration after the other: the threads of the whole text together would pass the check's memory limit.
set_option Elab.async false

/-! ### `AH.ARCHIVE` (R251) -/

section
variable {s t u w x y : State} {T T1 T' : Tree} {b : Byte} {n : Nat} {v : Table Node} {bits rest : Bits}

/-! #### The loop over the source -/

theorem AhWrites.refl (h : PortsGood s) : AhWrites s s [] := ⟨WritesBits.refl s, h, id, rfl⟩

theorem AhWrites.trans (h : AhWrites s t bits) (h' : AhWrites t u rest) : AhWrites s u (bits ++ rest) := by
  refine ⟨h.bits.trans h'.bits, h'.good, fun hacc => h'.acc (h.acc hacc), ?_⟩
  rw [h'.frame, h.frame]

/-- R62: reading a source byte uses up an answer. -/
theorem AhWrites.of_usePort (h : AhWrites (usePort s) u bits) : AhWrites s u bits := ⟨h.bits, h.good, h.acc, h.frame⟩

theorem ModelStep.tree (h : ModelStep s T b n T1 v T') : AdaptiveAt (Machine.stepped b v s) T' := h.updated.tree

/-- R249: the codes are those of the data, and the tree is the next one. -/
theorem AdaptiveAt.ahEncSym (hT : AdaptiveAt s T) (hg : PortsGood s) (b : Byte) :
    ∃ u T', ahEncSym b s = .ok ((T.model s.arena).code b).length u ∧ AhWrites s u ((T.model s.arena).code b) ∧ AdaptiveAt u T'
      ∧ T'.model u.arena = (T.model s.arena).next b := by
  obtain ⟨n, T1, v, T', hstep⟩ := hT.modelStep b
  obtain ⟨u, bits, hrun, hwrites, hsame, hcode⟩ := hstep.ahEncSym hT hg
  obtain rfl := hT.codeIn_iff.mp hcode
  refine ⟨u, T', hrun, hwrites, hsame.symm.adaptiveAt hstep.tree, ?_⟩
  rw [hsame.arena]
  exact hstep.model_next hT

theorem ahArchiveByte_ok {i : Nat} (hg : PortsGood s) (hi : i < s.src.length) (h : ahEncSym s.src[i] (usePort s) = .ok n u) :
    ahArchiveByte i s = .ok () u := by
  rw [ahArchiveByte, run_bind_ok _ (srcByte_good .io hg hi), run_discard, h]

/-- R251: the bytes from the `i`-th on. -/
theorem AdaptiveAt.ahArchiveBytes {k i : Nat} (hT : AdaptiveAt s T) (hg : PortsGood s) (hi : i + k = s.src.length) :
    ∃ u, upFrom Machine.ahArchiveByte k i s = .ok () u ∧ AhWrites s u ((T.model s.arena).payload (s.src.drop i)) := by
  induction k generalizing s T i with
  | zero =>
    refine ⟨s, rfl, ?_⟩
    have hend : s.src.length ≤ i := hi.ge
    rw [List.drop_eq_nil_of_le hend, Model.payload_nil]
    exact .refl hg
  | succ k ih =>
    have hlt : i < s.src.length := by omega
    obtain ⟨t, T', henc, hwrites, hT', hmodel⟩ := AdaptiveAt.ahEncSym (s := usePort s) hT hg.use s.src[i]
    have hsrc : t.src = s.src := by rw [hwrites.frame]; rfl
    obtain ⟨u, hrun', hwrites'⟩ := ih (i := i + 1) hT' hwrites.good (by rw [hsrc]; omega)
    rw [hmodel, hsrc] at hwrites'
    refine ⟨u, (run_bind_ok _ (ahArchiveByte_ok hg hlt henc)).trans hrun', ?_⟩
    rw [List.drop_eq_getElem_cons hlt, Model.payload_cons]
    exact hwrites.of_usePort.trans hwrites'

/-! #### The container -/

/-- What `AH.ARCHIVE` runs through: the state `w` after the signature, `x` after the codes, `y` after the padding. -/
structure AhPass (s w x y : State) : Prop where
  signed : emitByte s.params.sigAdaptive (ahStart s) = .ok () w
  coded : upFrom ahArchiveByte s.src.length 0 w = .ok () x
  padded : finish x = .ok (padCount (adaptivePayload s.src).length) y
  running : x.faulted = false
  sink : sinkBytes y = (s.params.sigAdaptive :: packMsb (adaptivePayload s.src)).map some
  grows : SinkGrows (ahStart s) y
  frame : y = { ahStart s with
    ports := y.ports, obuf := [], sinkPos := y.sinkPos, snk := y.snk, arena := y.arena, nodeCnt := y.nodeCnt, map := y.map,
    ahNyt := y.ahNyt, ahS := y.ahS, ahNextnum := y.ahNextnum }

/-- R251: no transaction fails. -/
theorem ahPass (hg : PortsGood s) : ∃ w x y, AhPass s w x y := by
  have hstart : PortsGood (ahStart s) := hg
  obtain ⟨w, hsig, hemit⟩ := emitByte_good s.params.sigAdaptive hstart
  have htree : AdaptiveAt w (.leaf 0 Config.nytMark) := by
    rw [hemit.frame]
    exact adaptiveAt_ahInitTree (initContext s)
  obtain ⟨harena, hsrc, hacc, hcnt⟩ : w.arena = (ahStart s).arena ∧ w.src = s.src ∧ w.acc = 0#7 ∧ w.accCnt = 0#3 := by
    rw [hemit.frame]
    exact ⟨rfl, rfl, rfl, rfl⟩
  obtain ⟨x, hrun, hwrites⟩ := htree.ahArchiveBytes (k := s.src.length) (i := 0) hemit.good (by rw [Nat.zero_add, hsrc])
  have hpayload : ((Tree.leaf 0 Config.nytMark).model w.arena).payload (w.src.drop 0) = adaptivePayload s.src := by
    rw [harena, hsrc]
    rfl
  rw [hpayload] at hwrites
  obtain ⟨y, hfinish, hpads, hacc0, hcnt0, hobuf, -⟩ := finish_good hwrites.good (hwrites.acc (by simp [hacc]))
  have hpad := hwrites.bits.padCount_accCnt
  simp only [hcnt, BitVec.toNat_zero, Nat.zero_add] at hpad
  rw [hpad] at hfinish hpads
  obtain ⟨hstream, hgrows⟩ := hemit.bytes.trans
    ((hwrites.bits.trans hpads.bits).emitsBytes (pending_eq_nil hcnt) (pending_eq_nil hcnt0))
  have hempty : emitted (ahStart s) = [] := rfl
  rw [hempty, List.nil_append, emitted, hobuf, List.map_nil, List.append_nil] at hstream
  refine ⟨w, x, y, hsig, hrun, hfinish, by rw [hwrites.frame, hemit.frame]; rfl, hstream, hgrows, ?_⟩
  rw [hpads.frame, hacc0, hcnt0, hobuf, hwrites.frame, hemit.frame]
  rfl

theorem AhPass.archiveAdaptive (h : AhPass s w x y) :
    archiveAdaptive s = .ok (padCount (adaptivePayload s.src).length) (countBytes s.src.length y) :=
  (run_modify_bind _ _ _).trans ((run_modify_bind _ _ _).trans ((run_get_bind _ _).trans ((run_bind_ok _ h.signed).trans
    ((run_bind_ok _ h.coded).trans ((run_bind_ok _ h.padded).trans ((run_modify_bind _ _ _).trans (run_pure _ _)))))))

/-- R251: the command. -/
theorem AhPass.exec (h : AhPass s w x y) (hf : s.faulted = false) :
    exec .ahArchive s = .next (finishOk (BitVec.ofNat 64 (padCount (adaptivePayload s.src).length)) (countBytes s.src.length y)) :=
  exec_ok rfl (by simp [hf]) rfl (run_bind_ok _ h.archiveAdaptive)

theorem AhPass.sinkPos (h : AhPass s w x y) : y.sinkPos = 1 + ceil8 (adaptivePayload s.src).length := by
  rw [← length_sinkBytes, h.sink, List.length_map, List.length_cons, length_packMsb, Nat.add_comm]

end

/-- Settles O54: the signature and the codes from the trees as they stand (`AhPass`), which are the payload from the fresh tree
(`AdaptiveAt.adaptiveCode_iff`). -/
theorem ahArchiveWritesContainer : Obligations.AhArchiveWritesContainer := by
  intro s hf hg
  obtain ⟨w, x, y, h⟩ := ahPass hg
  have hcode : AdaptiveCode (finishOk 0#64 (ahInitTree s)) s.src (adaptivePayload s.src) :=
    (AdaptiveAt.adaptiveCode_iff (s := finishOk 0#64 (ahInitTree s)) (adaptiveAt_ahInitTree s) hf rfl).mpr rfl
  have hframe := h.frame
  refine ⟨_, _, _, exec_ahInit hf, hcode, h.exec hf, h.sink, by rw [hframe]; rfl, h.sinkPos, fun a ha => h.grows.2 a (.inr ha), rfl, rfl,
    by rw [hframe]; rfl, rfl, rfl, by rw [hframe]; rfl, by rw [hframe]; rfl, ?_⟩
  rw [hframe]
  rfl

end Sys2Proof.Machine
end

section
namespace Sys2Proof.Machine

-- One declaration after the other: the threads of the whole text together would pass the check's memory limit.
set_option Elab.async false

/-! ### `AH.ARCHIVE` and the primitive commands (R255)

As for `SH.ARCHIVE`: the composite command and the sequence of primitive commands stay in agreement (`Agree`) step by step. -/

theorem runsAlike_path (n : Nat) : RunsAlike (path n) := runsAlike_withState fun _ => runsAlike_fromTree _

theorem runsAlike_updateSymbol (b : Byte) : RunsAlike (updateSymbol b) :=
  runsAlike_withState fun _ => (runsAlike_fromTree _).seq fun _ => (runsAlike_fromTree _).seq fun _ => runsAlike_modify

theorem runsAlike_grow (b : Byte) : RunsAlike (grow b) :=
  runsAlike_withState fun _ => (runsAlike_fromTree _).seq fun _ => runsAlike_modify

theorem runsAlike_ahEncSym (b : Byte) : RunsAlike (ahEncSym b) :=
  runsAlike_withState fun s => by
    cases s.mapOf b with
    | some n =>
      exact (runsAlike_path _).seq fun _ => (runsAlike_emitChunks _ _).seq fun _ => (runsAlike_updateSymbol _).seq fun _ =>
        runsAlike_pure _
    | none =>
      exact (runsAlike_fromTree _).seq fun _ => (runsAlike_path _).seq fun _ => (runsAlike_emitChunks _ _).seq fun _ =>
        (runsAlike_writeBits _ _).seq fun _ => (runsAlike_grow _).seq fun _ => (runsAlike_updateSymbol _).seq fun _ => runsAlike_pure _

section
variable {s t w x y : State} {T : Tree}

/-- R133: where no bit waits, writing eight bits emits a byte. -/
theorem writeBits_byte (b : Byte) (hacc : s.acc = 0#7) (hcnt : s.accCnt = 0#3) (hrun : emitByte b s = .ok () t)
    (hframe : t = { s with ports := t.ports, obuf := t.obuf, sinkPos := t.sinkPos, snk := t.snk }) : writeBits b.toNat 8 s = .ok () t := by
  have hclear : ({ t with acc := 0#7, accCnt := 0#3 } : State) = t := by rw [hframe, hacc, hcnt]
  have hwhole : emitWhole b.toNat 1 8 s = .ok () t := by
    rw [emitWhole, run_bind_ok _ (by simpa using hrun)]
    rfl
  have hvalue : s.acc.toNat * 2 ^ 8 + b.toNat % 2 ^ 8 = b.toNat := by rw [hacc, Nat.mod_eq_of_lt b.isLt]; simp
  rw [writeBits, run_get_bind, hvalue, hcnt]
  refine (run_bind_ok _ hwhole).trans ?_
  have hnone : b.toNat % 2 ^ (((0#3).toNat + 8) % 8) = 0 := Nat.mod_one _
  rw [hnone]
  exact congrArg (EStateM.Result.ok ()) hclear

/-- R255: `AH.ENCSYM` for every byte from `i` on does what the loop of `AH.ARCHIVE` does, but for the transactions that read the
bytes. -/
theorem AdaptiveAt.mirrors_ahEncsyms (n i : Nat) (hT : AdaptiveAt s T) (h : PortsGood s) (hf : s.faulted = false)
    (hm : s.tmode = .adaptive) (hi : i + n = s.src.length) (hrun : upFrom ahArchiveByte n i s = .ok () t) :
    Mirrors ((s.src.drop i).map Instr.ahEncsym) s t := by
  induction n generalizing i s T with
  | zero =>
    rw [List.drop_eq_nil_of_le (by omega)]
    obtain ⟨-, rfl⟩ := EStateM.Result.ok.inj hrun
    exact fun t ht => ⟨t, rfl, ht⟩
  | succ n ih =>
    have hl : i < s.src.length := by omega
    obtain ⟨u, T', henc, hwrites, hT', -⟩ := AdaptiveAt.ahEncSym (s := usePort s) hT h.use s.src[i]
    have hfirst : Mirrors [.ahEncsym s.src[i]] (usePort s) u :=
      mirrors_singleton ((runsAlike_ahEncSym _).seq fun _ => runsAlike_pure _) rfl hf (by simp [admitted, usePort, hm]) (run_bind_ok _ henc)
    obtain ⟨hsrc, hfu, hmu⟩ : u.src = s.src ∧ u.faulted = s.faulted ∧ u.tmode = s.tmode := by
      rw [hwrites.frame]
      exact ⟨rfl, rfl, rfl⟩
    have hrest := ih (i + 1) hT' hwrites.good (hfu.trans hf) (hmu.trans hm) (by rw [hsrc]; omega)
      ((run_bind_ok _ (ahArchiveByte_ok h hl henc)).symm.trans hrun)
    rw [hsrc] at hrest
    rw [List.drop_eq_getElem_cons hl, List.map_cons]
    exact fun t ht => hfirst.append hrest t (ht.of_masked rfl rfl ht.left.use ht.right)

/-- R255: the commands before `BS.FINISH`. -/
theorem AhPass.mirrors (h : AhPass s w x y) (hg : PortsGood s) (hf : s.faulted = false) :
    Mirrors ([.ctxInit, .ahInit, .bsWrite 8#8 (s.params.sigAdaptive.setWidth 32)] ++ s.src.map Instr.ahEncsym) s x := by
  have hinit : Mirrors [.ctxInit] s (initContext s) :=
    mirrors_singleton ((runsAlike_modify).seq fun _ => runsAlike_pure _) rfl hf rfl rfl
  have htree : Mirrors [.ahInit] (initContext s) (ahStart s) :=
    mirrors_singleton ((runsAlike_modify).seq fun _ => runsAlike_pure _) rfl rfl rfl rfl
  have hstart : PortsGood (ahStart s) := hg
  obtain ⟨w', hsig, hemit⟩ := emitByte_good s.params.sigAdaptive hstart
  obtain ⟨-, rfl⟩ := EStateM.Result.ok.inj (hsig.symm.trans h.signed)
  have hvalue : (s.params.sigAdaptive.setWidth 32).toNat = s.params.sigAdaptive.toNat := by
    have := s.params.sigAdaptive.isLt
    simp
    omega
  have hwrite : Mirrors [.bsWrite 8#8 (s.params.sigAdaptive.setWidth 32)] (ahStart s) w' := by
    refine mirrors_singleton ((runsAlike_writeBits _ _).seq fun _ => runsAlike_pure _) rfl rfl rfl (run_bind_ok (a := ()) _ ?_)
    rw [hvalue]
    exact writeBits_byte _ rfl rfl hsig hemit.frame
  obtain ⟨hT, hsrc, hfw, hmw⟩ :
      AdaptiveAt w' (.leaf 0 Config.nytMark) ∧ w'.src = s.src ∧ w'.faulted = false ∧ w'.tmode = .adaptive := by
    rw [hemit.frame]
    exact ⟨adaptiveAt_ahInitTree (initContext s), rfl, rfl, rfl⟩
  have hbytes := hT.mirrors_ahEncsyms s.src.length 0 hemit.good hfw hmw (by rw [hsrc, Nat.zero_add]) h.coded
  rw [List.drop_zero, hsrc] at hbytes
  exact ((hinit.append htree).append hwrite).append hbytes

end

/-- Settles O53: the commands up to the last `AH.ENCSYM` stay in agreement with `AH.ARCHIVE` (`AhPass.mirrors`), and so does
`BS.FINISH`, which answers the pad count. -/
theorem ahArchiveEqualsPrimitives : Obligations.AhArchiveEqualsPrimitives := by
  intro s hf hg
  obtain ⟨w, x, y, h⟩ := ahPass hg
  obtain ⟨t, hrun, ht⟩ := h.mirrors hg hf s ⟨rfl, hg, hg⟩
  obtain ⟨t', hfinish, ht'⟩ := ht.exec (i := .bsFinish) (runsAlike_finish.seq fun _ => runsAlike_pure _) rfl h.running rfl
    (run_bind_ok _ h.padded)
  have hframe := h.frame
  refine ⟨_, _, h.exec hf, (execAll_append hrun).trans ?_, Agree.eq_but (ht'.of_masked rfl rfl ht'.left ht'.right), ?_, rfl, rfl,
    ?_, rfl, rfl, ?_, ?_, ?_, ?_⟩
  · rw [execAll, hfinish]
    rfl
  · rw [hframe]; rfl
  · rw [hframe]; rfl
  · rw [hframe]; rfl
  · rw [hframe]; rfl
  · exact congrArg List.head? h.sink
  · exact fun a ha => h.grows.2 a (.inr ha)

end Sys2Proof.Machine
end

section
namespace Sys2Proof.Machine

-- One declaration after the other: the threads of the whole text together would pass the check's memory limit.
set_option Elab.async false

/-! ### `AH.UNARCHIVE` (R252) and the round trip (R254) -/

section
variable {s t u : State} {T T' : Tree} {b : Byte} {n : Nat} {x xs ys body : List Byte} {p bits rest : Bits}

/-! #### The decode loop -/

theorem AhDecodes.refl (h : PortsGood s) : AhDecodes s s [] [] := ⟨rfl, rfl, .refl s, h, rfl⟩

theorem AhDecodes.trans (h : AhDecodes s t p xs) (h' : AhDecodes t u rest ys) : AhDecodes s u (p ++ rest) (xs ++ ys) := by
  refine ⟨?_, ?_, h.bytes.trans h'.bytes, h'.good, ?_⟩
  · rw [h.bits, h'.bits, List.append_assoc]
  · rw [h'.cursor, h.cursor, List.length_append, Nat.add_assoc]
  · rw [h'.frame, h.frame]

/-- R250: on the code of a symbol in the data the decoder emits the symbol, and the tree is the next one. -/
theorem AdaptiveAt.ahDecSym (hT : AdaptiveAt s T) (hg : PortsGood s) (hu : unread s = (T.model s.arena).code b ++ rest) :
    ∃ u T', ahDecSym s = .ok b u ∧ AhDecodes s u ((T.model s.arena).code b) [b] ∧ AdaptiveAt u T'
      ∧ T'.model u.arena = (T.model s.arena).next b := by
  obtain ⟨n, T1, v, T', hstep⟩ := hT.modelStep b
  obtain ⟨u, hrun, hdec, hsame⟩ := hstep.ahDecSym hT hg (hT.codeIn_iff.mpr rfl) hu
  refine ⟨u, T', hrun, hdec, hsame.symm.adaptiveAt hstep.tree, ?_⟩
  rw [hsame.arena]
  exact hstep.model_next hT

/-- R252: the loop decodes the payload. -/
theorem AdaptiveAt.ahDecSyms (hT : AdaptiveAt s T) (hg : PortsGood s) (hu : unread s = (T.model s.arena).payload x ++ rest) :
    ∃ u, repeatTimes (discard Machine.ahDecSym) x.length s = .ok () u ∧ AhDecodes s u ((T.model s.arena).payload x) x := by
  induction x generalizing s T with
  | nil => exact ⟨s, rfl, by rw [Model.payload_nil]; exact .refl hg⟩
  | cons b x ih =>
    rw [Model.payload_cons] at hu ⊢
    rw [List.append_assoc] at hu
    obtain ⟨t, T', hrun, hdec, hT', hmodel⟩ := hT.ahDecSym hg hu
    have hrest := List.append_cancel_left (hdec.bits.symm.trans hu)
    rw [← hmodel] at hrest ⊢
    obtain ⟨u, hrun', hdec'⟩ := ih hT' hdec.good hrest
    have hbyte : (discard Machine.ahDecSym : Cmd Unit) s = .ok () t := by rw [run_discard, hrun]
    exact ⟨u, (run_bind_ok _ hbyte).trans hrun', hdec.trans hdec'⟩

/-! #### The command -/

/-- R252: the bytes the cursor touched, the signature's and those with bits of the payload. -/
theorem bytesTouched_eq (h : cursor u = 8 + n) : bytesTouched u = 1 + ceil8 n := by
  have hbit := u.rdBit.isLt
  have hzero : u.rdBit = 0#3 ↔ u.rdBit.toNat = 0 := BitVec.toNat_inj.symm
  simp only [cursor] at h
  simp only [bytesTouched, hzero, ceil8]
  split <;> omega

/-- What `AH.UNARCHIVE` leaves where the payload of `x` stands behind the signature. -/
structure AhUnarchived (s : State) (x : List Byte) (u : State) : Prop where
  run : unarchiveAdaptive x.length s = .ok x.length u
  sink : sinkBytes u = x.map some
  beyond : ∀ a, u.sinkPos ≤ a → Memory.read u.snk a = Memory.read s.snk a
  bytesIn : u.bytesIn = 1 + ceil8 (adaptivePayload x).length
  bytesOut : u.bytesOut = u.sinkPos
  frame : u = { sigTaken s.params.sigAdaptive s with
    ports := u.ports, bytesIn := u.bytesIn, bytesOut := u.bytesOut, rdByte := u.rdByte, rdBit := u.rdBit, obuf := [],
    sinkPos := u.sinkPos, snk := u.snk, arena := u.arena, nodeCnt := u.nodeCnt, map := u.map, ahNyt := u.ahNyt, ahS := u.ahS,
    ahNextnum := u.ahNextnum }

theorem AhUnarchived.sinkPos (h : AhUnarchived s x u) : u.sinkPos = x.length := by
  rw [← length_sinkBytes, h.sink, List.length_map]

/-- R252: no transaction fails. -/
theorem ahUnarchived (hg : PortsGood s) (hsrc : s.src = s.params.sigAdaptive :: body) (hx : adaptivePayload x <+: unpackMsb body) :
    ∃ u, AhUnarchived s x u := by
  have hgood : PortsGood (sigTaken s.params.sigAdaptive s) := hg.use
  have htree : AdaptiveAt (sigTaken s.params.sigAdaptive s) (.leaf 0 Config.nytMark) := adaptiveAt_ahInitTree (initContext s)
  obtain ⟨rest, hrest⟩ := hx
  have hunread : unread (sigTaken s.params.sigAdaptive s) = adaptivePayload x ++ rest := by
    change (unpackMsb s.src).drop 8 = _
    rw [hsrc, unpackMsb_cons, hrest]
    exact List.drop_left' (length_bitsOf _ _)
  obtain ⟨t, hloop, hdec⟩ := htree.ahDecSyms hgood hunread
  obtain ⟨u, hflush, hemit, hobuf, -⟩ := flushOut_good hdec.good
  obtain ⟨hstream, hgrows⟩ := hdec.bytes.trans hemit.bytes
  have hempty : emitted (sigTaken s.params.sigAdaptive s) = [] := rfl
  rw [hempty, List.nil_append, List.append_nil, emitted, hobuf, List.map_nil, List.append_nil] at hstream
  have hcursor : cursor u = 8 + (adaptivePayload x).length := by
    rw [hemit.frame]
    exact hdec.cursor
  have hpos : u.sinkPos = x.length := by rw [← length_sinkBytes, hstream, List.length_map]
  refine ⟨countBytes (bytesTouched u) u, ?_, hstream, fun a ha => hgrows.2 a (.inr ha), bytesTouched_eq hcursor, rfl, ?_⟩
  · refine (unarchiveAdaptive_cons _ hg hsrc).trans ((if_pos rfl).trans ?_)
    refine (run_bind_ok _ hloop).trans ((run_bind_ok _ hflush).trans ((run_modify_bind _ _ _).trans ((run_get_bind _ _).trans ?_)))
    exact congrArg (EStateM.Result.ok · _) hpos
  · rw [← hobuf, hemit.frame, hdec.frame]
    rfl

theorem AhUnarchived.exec (h : AhUnarchived s x u) (hf : s.faulted = false) (hx : x.length < 2 ^ 48) :
    exec (.ahUnarchive (BitVec.ofNat 48 x.length)) s = .next (finishOk (BitVec.ofNat 64 x.length) u) := by
  have hn : (BitVec.ofNat 48 x.length).toNat = x.length := by rw [BitVec.toNat_ofNat, Nat.mod_eq_of_lt hx]
  exact exec_ok rfl (by simp [hf]) rfl (run_bind_ok _ (hn.symm ▸ h.run))

end

/-- Settles O55: the decode loop on the payload (`AhUnarchived`), which the trees give (`AdaptiveAt.adaptiveCode_iff`). -/
theorem ahUnarchiveDecodesContainer : Obligations.AhUnarchiveDecodesContainer := by
  refine ⟨fun s x body hf hg hlen hsrc hx => ?_, fun s u x bits hf hu hcode => ?_⟩
  · obtain ⟨u, h⟩ := ahUnarchived hg hsrc hx
    have hframe := h.frame
    refine ⟨_, h.exec hf hlen, h.sink, h.sinkPos, by rw [hframe]; rfl, h.beyond, rfl, rfl, by rw [hframe]; rfl, h.bytesIn,
      h.bytesOut.trans h.sinkPos, by rw [hframe]; rfl, by rw [hframe]; rfl, by rw [hframe]; rfl, ?_⟩
    rw [hframe]
    rfl
  · obtain rfl := Host.Outcome.next.inj ((exec_ahInit hf).symm.trans hu)
    exact (AdaptiveAt.adaptiveCode_iff (s := finishOk 0#64 (ahInitTree s)) (adaptiveAt_ahInitTree s) hf rfl).mp hcode

/-- Settles O56: what `AH.ARCHIVE` wrote (`AhPass`) is a container that `AH.UNARCHIVE` decodes (`AhUnarchived`). -/
theorem adaptiveRoundTrip : Obligations.AdaptiveRoundTrip := by
  intro s t s' y hf hg hrun hsink hlen hf' hg' hparams hsrc
  obtain ⟨w, x, z, h⟩ := ahPass hg
  obtain rfl := Host.Outcome.next.inj ((h.exec hf).symm.trans hrun)
  have hy : y = s.params.sigAdaptive :: packMsb (adaptivePayload s.src) :=
    List.map_injective_iff.mpr (Option.some_injective _) (hsink.symm.trans h.sink)
  obtain ⟨u, h'⟩ := ahUnarchived (x := s.src) hg' (by rw [hsrc, hy, hparams])
    (by rw [unpackMsb_packMsb]; exact List.prefix_append _ _)
  have hframe := h'.frame
  refine ⟨_, h'.exec hf' hlen, by rw [hframe]; rfl, h'.sink, rfl, by rw [hframe]; rfl, ?_, h'.bytesOut.trans h'.sinkPos,
    by rw [hframe]; rfl⟩
  refine h'.bytesIn.trans ?_
  rw [hy, List.length_cons, length_packMsb, Nat.add_comm]

end Sys2Proof.Machine
end

section
namespace Sys2Proof.Machine

-- One declaration after the other: the threads of the whole text together would pass the check's memory limit.
set_option Elab.async false

/-! ## The context commands (45_system.md R271, R272) -/

/-- R33: what `CTX.RDREG` reads, register by register, is the table. -/
theorem registerTable_eq_map (s : State) :
    registerTable s = (List.range 0x17).map fun k => readRegister (BitVec.ofNat 8 k) s :=
  rfl

/-- R33: a legal number names the register at its place in the table. -/
theorem registerTable_getElem? (s : State) {r : Byte} (h : r.toNat ≤ 0x16) :
    (registerTable s)[r.toNat]? = some (readRegister r s) := by
  rw [registerTable_eq_map, List.getElem?_map, List.getElem?_range (Nat.lt_succ_of_le h), Option.map_some,
    BitVec.ofNat_toNat, BitVec.setWidth_eq]

/-- R93: the operand of `CTX.RDREG` is legal where it names a register. -/
theorem wf_ctxRdreg_iff {r : Byte} : (Instr.ctxRdreg r).wf = true ↔ r.toNat ≤ 0x16 := decide_eq_true_iff

/-- R272: `CTX.RDREG` of a register, in any state. -/
theorem exec_ctxRdreg {r : Byte} (s : State) (h : r.toNat ≤ 0x16) :
    exec (.ctxRdreg r) s = .next (finishOk (readRegister r s) s) :=
  exec_ok (wf_ctxRdreg_iff.mpr h) (fun _ => rfl) rfl rfl

/-- R97: a command with an illegal operand is refused in any state. -/
theorem exec_illegal {i : Instr} (s : State) (h : i.wf = false) : exec i s = .next (refuse stIllegalCommand s) := by
  rw [exec_eq, h]
  exact command_illegal _ _ _ _

/-- R270, R271: `CTX.INIT`, in any state. -/
theorem exec_ctxInit (s : State) : exec .ctxInit s = .next (finishOk 0#64 (initContext s)) :=
  exec_ok rfl (fun _ => rfl) rfl rfl

/-- Settles O17: the rule is `Init`, which is the reset state but for the host's side and `CSEQ`, and the end of the command counts
`CSEQ` on. -/
theorem ctxInitRestoresReset : Obligations.CtxInitRestoresReset := exec_ctxInit

/-- Settles O18: the register read is the one at its place in the table, and a number past the table is an illegal operand. -/
theorem ctxRdregReadsRegister : Obligations.CtxRdregReadsRegister := fun s _ =>
  ⟨fun h => ⟨_, registerTable_getElem? s h, exec_ctxRdreg s h⟩, fun h =>
    ⟨_, exec_illegal s (Bool.eq_false_iff.mpr fun hw => Nat.not_le_of_lt h (wf_ctxRdreg_iff.mp hw)), endsRefused_refuse _ _⟩⟩

end Sys2Proof.Machine
end

section
namespace Sys2Proof.Machine

-- One declaration after the other: the threads of the whole text together would pass the check's memory limit.
set_option Elab.async false

/-! ## Exceptions (60_exceptions.md)

`Closed` asks every relation to be kept by `MkCodes` in any state, so it cannot say that `CODES_VALID = 1` implies `TMODE = STATIC`
(R298); and it says nothing of the kinds a rule raises (R290) nor of what a rule emits before it raises (R303). One walk through the
parts of the rules says the three at once. -/

/-! ### What a part of a rule may do -/

/-- R298. -/
def CodesLawful (s : State) : Prop := s.codesValid = true → s.tmode = .static

/-- Nothing was emitted from `s` to `t` (R303). -/
def Silent (s t : State) : Prop := t.sinkPos = s.sinkPos ∧ t.obuf = s.obuf ∧ t.snk = s.snk

/-- What a part of a rule keeps: the error fields and `RES` (R25, R296), the law of R298, and, when it is `quiet`, the output. -/
structure Kept (quiet : Prop) (s t : State) : Prop where
  err : t.err = s.err
  faulted : t.faulted = s.faulted
  res : t.res = s.res
  codes : CodesLawful s → CodesLawful t
  silent : quiet → Silent s t

/-- A raise of one of the kinds `K`. -/
def Stop.Among (K : List ErrKind) : Stop → Prop
  | .raised e _ => e ∈ K
  | .stuck _ => True

/-- The kinds with which a command rejects its input (R303). -/
def ErrKind.Rejects (e : ErrKind) : Prop := e = .invalidInput ∨ e = .badSignature ∨ e = .malformedHeader

/-- A raise with which a command rejects its input (R303). -/
def Stop.Rejects : Stop → Prop
  | .raised e _ => e.Rejects
  | .stuck _ => False

section
variable {α β : Type} {quiet : Prop} {K : List ErrKind} {s t u : State}

/-- The run `r` of a part, begun in `s`, raises only the kinds `K` and keeps what `Kept` says, however it ends. -/
def ConfinedAt (quiet : Prop) (K : List ErrKind) (s : State) (r : EStateM.Result Stop State α) : Prop :=
  Ends (fun _ => Kept quiet s) (fun e t => e.Among K ∧ Kept quiet s t) r

/-- `ConfinedAt` from every state. -/
def Confined (quiet : Prop) (K : List ErrKind) (c : Cmd α) : Prop := ∀ s, ConfinedAt quiet K s (c s)

/-- The run `r` of a rule, begun in `s`, raises only the kinds `K`, keeps what `Kept` says, and has emitted nothing where it rejects
its input. -/
def Guarded (K : List ErrKind) (s : State) (r : EStateM.Result Stop State α) : Prop :=
  Ends (fun _ => Kept False s) (fun e t => e.Among K ∧ Kept e.Rejects s t) r

theorem Kept.trans (h1 : Kept quiet s t) (h2 : Kept quiet t u) : Kept quiet s u where
  err := h2.err.trans h1.err
  faulted := h2.faulted.trans h1.faulted
  res := h2.res.trans h1.res
  codes := h2.codes ∘ h1.codes
  silent := fun hq =>
    have ⟨hpos1, hobuf1, hsnk1⟩ := h1.silent hq
    have ⟨hpos2, hobuf2, hsnk2⟩ := h2.silent hq
    ⟨hpos2.trans hpos1, hobuf2.trans hobuf1, hsnk2.trans hsnk1⟩

theorem Kept.mono {loud : Prop} (h : Kept quiet s t) (hq : loud → quiet) : Kept loud s t := { h with silent := h.silent ∘ hq }

theorem Kept.refl (s : State) : Kept quiet s s := ⟨rfl, rfl, rfl, id, fun _ => ⟨rfl, rfl, rfl⟩⟩

/-! ### The ways to build a rule -/

theorem confinedAt_ok {r : EStateM.Result Stop State α} {a : α} (h : r = .ok a t) (hk : Kept quiet s t) : ConfinedAt quiet K s r :=
  ends_of_ok h hk

theorem confinedAt_raised {r : EStateM.Result Stop State α} {e : ErrKind} {info : Nat} (h : r = .error (.raised e info) t)
    (he : e ∈ K) (hk : Kept quiet s t) : ConfinedAt quiet K s r :=
  ends_of_error h ⟨he, hk⟩

theorem confinedAt_bind {c : Cmd α} {f : α → Cmd β} (hc : ConfinedAt quiet K s (c s))
    (hf : ∀ a t, c s = .ok a t → ConfinedAt quiet K t (f a t)) : ConfinedAt quiet K s ((c >>= f) s) :=
  ends_bind hc fun a t hok hk => (hf a t hok).mono (fun _ _ _ => hk.trans) fun _ _ h => ⟨h.1, hk.trans h.2⟩

theorem Confined.seq {c : Cmd α} {f : α → Cmd β} (hc : Confined quiet K c) (hf : ∀ a, Confined quiet K (f a)) :
    Confined quiet K (c >>= f) :=
  fun s => confinedAt_bind (hc s) fun a t _ => hf a t

theorem confined_pure (a : α) : Confined quiet K (pure a : Cmd α) := fun s => Kept.refl s

theorem confined_get : Confined quiet K (get : Cmd State) := fun s => Kept.refl s

theorem confined_stick (f : Fault) : Confined quiet K (stick f : Cmd α) := fun s => ⟨trivial, Kept.refl s⟩

theorem confined_raiseIf {c : Prop} [Decidable c] {e : ErrKind} (he : e ∈ K) (info : Nat) : Confined quiet K (raiseIf c e info) :=
  fun s => ends_raiseIf ⟨he, Kept.refl s⟩ fun _ => Kept.refl s

theorem confined_fromTree (o : Option α) : Confined quiet K (fromTree o) :=
  fun s => ends_fromTree (fun _ => ⟨trivial, Kept.refl s⟩) fun _ _ => Kept.refl s

theorem confined_ite {c : Prop} [Decidable c] {x y : Cmd α} (hx : Confined quiet K x) (hy : Confined quiet K y) :
    Confined quiet K (if c then x else y) :=
  fun s => ends_ite (fun _ => hx s) fun _ => hy s

/-- A rule that reads the state and then runs `c` from it. -/
theorem confined_withState {c : State → Cmd α} (hc : ∀ s, Confined quiet K (c s)) : Confined quiet K ((get : Cmd State) >>= c) :=
  fun s => hc s s

theorem confined_discard {c : Cmd α} (hc : Confined quiet K c) : Confined quiet K (discard c : Cmd PUnit) := fun s => ends_discard (hc s)

theorem confined_upFrom {f : Nat → Cmd Unit} (hf : ∀ i, Confined quiet K (f i)) (n i : Nat) : Confined quiet K (upFrom f n i) := by
  induction n generalizing i with
  | zero => exact confined_pure ()
  | succ n ih => exact (hf i).seq fun _ => ih (i + 1)

theorem confined_repeatTimes {c : Cmd Unit} (hc : Confined quiet K c) (n : Nat) : Confined quiet K (repeatTimes c n) := by
  induction n with
  | zero => exact confined_pure ()
  | succ n ih => exact hc.seq fun _ => ih

/-- A change of other parts of the state; at most places the fields are the same by definition. -/
theorem confined_modify {f : State → State}
    (h : ∀ s, Kept quiet s (f s) := by exact fun _ => ⟨rfl, rfl, rfl, id, fun _ => ⟨rfl, rfl, rfl⟩⟩) :
    Confined quiet K (modify f : Cmd PUnit) := h

/-- A change of the output alone. -/
theorem confined_output {f : State → State}
    (h : ∀ s, Kept False s (f s) := by exact fun _ => ⟨rfl, rfl, rfl, id, False.elim⟩) :
    Confined False K (modify f : Cmd PUnit) := h

/-- A part that emits nothing, and then the rest of the rule. -/
theorem Guarded.seq {c : Cmd α} {f : α → Cmd β} (hc : ConfinedAt True K s (c s))
    (hf : ∀ a t, c s = .ok a t → Guarded K t (f a t)) : Guarded K s ((c >>= f) s) :=
  ends_bind (hc.mono (fun _ _ _ => id) fun _ _ h => ⟨h.1, h.2.mono fun _ => trivial⟩) fun a t hok hk =>
    (hf a t hok).mono (fun _ _ _ h => (hk.mono False.elim).trans h) fun _ _ h => ⟨h.1, (hk.mono fun _ => trivial).trans h.2⟩

/-- `Guarded.seq`, from every state in which the first part can end. -/
theorem Guarded.step {c : Cmd α} {f : α → Cmd β} (hc : Confined True K c) (hf : ∀ a t, Guarded K t (f a t)) :
    Guarded K s ((c >>= f) s) := .seq (hc s) fun a t _ => hf a t

/-- A part that emits nothing guards its rejections. -/
theorem Guarded.of_quiet {r : EStateM.Result Stop State α} (h : ConfinedAt True K s r) : Guarded K s r :=
  h.mono (fun _ _ _ hk => hk.mono False.elim) fun _ _ h => ⟨h.1, h.2.mono fun _ => trivial⟩

/-- A part that never rejects its input may emit. -/
theorem Guarded.of_late {L : List ErrKind} {r : EStateM.Result Stop State α} (h : ConfinedAt False L s r)
    (hL : ∀ e ∈ L, ¬ e.Rejects) (hsub : ∀ e ∈ L, e ∈ K) : Guarded K s r := by
  refine h.mono (fun _ _ _ => id) fun e t ⟨hamong, hk⟩ => ?_
  cases e with
  | raised e info => exact ⟨hsub e hamong, hk.mono fun hrej => (hL e hamong hrej).elim⟩
  | stuck f => exact ⟨trivial, hk.mono False.elim⟩

/-- The answer of a command, read off the state after its rule. -/
theorem Guarded.answer {c : Cmd α} {f : α → Cmd β} (h : Guarded K s (c t))
    (hf : ∀ a u, ∃ v, f a u = .ok v u := by exact fun _ _ => ⟨_, rfl⟩) : Guarded K s ((c >>= f) t) :=
  ends_bind h fun a u _ hk => by
    obtain ⟨v, hv⟩ := hf a u
    exact ends_of_ok hv hk

end

section
variable {quiet : Prop} {K : List ErrKind}

/-! ### Input -/

theorem confined_srcByte (hio : .io ∈ K) {onEnd : ErrKind} (hend : onEnd ∈ K) (off : Nat) : Confined quiet K (srcByte off onEnd) := by
  intro s
  have husePort : Kept quiet s (usePort s) := ⟨rfl, rfl, rfl, id, fun _ => ⟨rfl, rfl, rfl⟩⟩
  by_cases hl : s.src.length ≤ off
  · exact confinedAt_raised (srcByte_end onEnd hl) hend (Kept.refl s)
  · by_cases hd : s.ports.headD .done = .done
    · exact confinedAt_ok (((srcByte_eq off onEnd s).trans (if_neg hl)).trans (if_pos hd)) husePort
    · exact confinedAt_raised (((srcByte_eq off onEnd s).trans (if_neg hl)).trans (if_neg hd)) hio husePort

theorem kept_advanceBit (s : State) : Kept quiet s (advanceBit s) where
  err := advanceBit_err s
  faulted := advanceBit_faulted s
  res := advanceBit_res s
  codes := fun h => by
    rw [CodesLawful, advanceBit_codesValid, advanceBit_tmode]
    exact h
  silent := fun _ => ⟨advanceBit_sinkPos s, advanceBit_obuf s, advanceBit_snk s⟩

theorem confined_readBit (hio : .io ∈ K) : Confined quiet K readBit :=
  confined_withState fun _ => (confined_srcByte hio hio _).seq fun _ => (confined_modify kept_advanceBit).seq fun _ =>
    confined_pure _

theorem confined_takeByte (hio : .io ∈ K) {onEnd : ErrKind} (hend : onEnd ∈ K) : Confined quiet K (takeByte onEnd) :=
  confined_withState fun _ => (confined_srcByte hio hend _).seq fun _ => (confined_modify).seq fun _ => confined_pure _

/-! ### The tree codec and the frequency builder -/

theorem confined_flatten : Confined quiet K flatten :=
  confined_withState fun _ => (confined_fromTree _).seq fun _ => confined_modify

/-- R168: `Deser` rebuilds a static tree or leaves none, in both cases without codes. -/
theorem confined_deser (hm : .malformedHeader ∈ K) : Confined quiet K deser := by
  intro s
  have keeps : ∀ {t : State} {a n r m c}, t = { s with arena := a, nodeCnt := n, root := r, tmode := m, codesValid := c } →
      CodesLawful t → Kept quiet s t := by
    rintro t a n r m c rfl hlaw
    exact ⟨rfl, rfl, rfl, fun _ => hlaw, fun _ => ⟨rfl, rfl, rfl⟩⟩
  rcases deser_cases s with ⟨T, t, ht, hT⟩ | ⟨t, ht, hframe⟩
  · exact confinedAt_ok ht (keeps hT.frame fun _ => hT.mode)
  · exact confinedAt_raised ht hm (keeps hframe (hframe ▸ nofun))

theorem confined_scan (hio : .io ∈ K) : Confined quiet K scan :=
  confined_withState fun _ => confined_upFrom (fun _ => (confined_srcByte hio hio _).seq fun _ => confined_modify) _ _

theorem confined_checkDistinct (hi : .invalidInput ∈ K) : Confined quiet K checkDistinct :=
  confined_withState fun _ => confined_raiseIf hi _

theorem confined_clearArena : Confined quiet K (modify clearArena : Cmd PUnit) :=
  confined_modify fun _ => ⟨rfl, rfl, rfl, fun _ => nofun, fun _ => ⟨rfl, rfl, rfl⟩⟩

/-- R185: the tree of `Build` is static, and there is none before it. -/
theorem confined_build (hi : .invalidInput ∈ K) : Confined quiet K build :=
  (confined_checkDistinct hi).seq fun _ => confined_clearArena.seq fun _ => confined_withState fun _ =>
    (confined_fromTree _).seq fun _ => confined_modify (by exact fun _ => ⟨rfl, rfl, rfl, fun _ _ => rfl, fun _ => ⟨rfl, rfl, rfl⟩⟩)

theorem build_ok_static {s t : State} (h : build s = .ok () t) : t.tmode = .static := by
  obtain ⟨_, u, -, h⟩ := bind_ok_iff.mp h
  rw [run_modify_bind, run_get_bind] at h
  obtain ⟨_, v, -, h⟩ := bind_ok_iff.mp h
  cases h
  rfl

/-! ### The static coder -/

/-- R201, R298: on a static tree `MkCodes` keeps the law of R298; from another state it would not. -/
theorem confined_mkCodes {s : State} (hm : s.tmode = .static) : ConfinedAt quiet K s (mkCodes s) :=
  ends_get (ends_bind (confined_fromTree (quiet := quiet) (derivedCodes s) s) fun c t hc _ => by
    obtain ⟨-, rfl⟩ := fromTree_ok hc
    exact ⟨rfl, rfl, rfl, fun _ _ => hm, fun _ => ⟨rfl, rfl, rfl⟩⟩)

theorem confined_rdHdr (hio : .io ∈ K) (hm : .malformedHeader ∈ K) (hb : .badSignature ∈ K) : Confined quiet K rdHdr := by
  have take : Confined quiet K (takeByte .malformedHeader) := confined_takeByte hio hm
  refine take.seq fun _ => take.seq fun _ => (confined_modify).seq fun _ => confined_withState fun _ => (confined_raiseIf hb _).seq fun _ =>
    take.seq fun _ => take.seq fun _ => confined_withState fun _ => (confined_raiseIf hm _).seq fun _ => (confined_raiseIf hm _).seq fun _ =>
      (confined_modify).seq fun _ => ?_
  exact (confined_upFrom (fun _ => take.seq fun _ => confined_modify) _ _).seq fun _ => (confined_modify).seq fun _ =>
    (confined_upFrom (fun _ => take.seq fun _ => confined_modify) _ _).seq fun _ => (confined_modify).seq fun _ => confined_deser hm

/-! ### Output -/

theorem confined_flushOut (hio : .io ∈ K) : Confined False K flushOut := by
  intro s
  by_cases hb : s.obuf = []
  · exact confinedAt_ok (flushOut_empty hb) (Kept.refl s)
  · by_cases hd : s.ports.headD .done = .done
    · exact confinedAt_ok (flushOut_done hb hd) ⟨rfl, rfl, rfl, id, False.elim⟩
    · exact confinedAt_raised (flushOut_failed hb hd) hio ⟨rfl, rfl, rfl, id, False.elim⟩

theorem confined_emitByte (hio : .io ∈ K) (b : Byte) : Confined False K (emitByte b) :=
  (confined_output).seq fun _ => confined_withState fun _ => confined_ite (confined_flushOut hio) (confined_pure _)

theorem confined_emitBytes (hio : .io ∈ K) (bs : List Byte) : Confined False K (emitBytes bs) := by
  induction bs with
  | nil => exact confined_pure _
  | cons b bs ih => exact (confined_emitByte hio b).seq fun _ => ih

theorem confined_writeBits (hio : .io ∈ K) (v w : Nat) : Confined False K (writeBits v w) :=
  confined_withState fun _ => (emitWhole_eq_emitBytes _ _ _ ▸ confined_emitBytes hio _).seq fun _ => confined_modify

theorem confined_emitBits (hio : .io ∈ K) (b : Bits) : Confined False K (emitBits b) := by
  have chunks : ∀ k b, Confined False K (emitChunks k b) := fun k => by
    induction k with
    | zero => exact fun _ => confined_pure _
    | succ k ih => exact fun b => confined_ite (confined_pure _) ((confined_writeBits hio _ _).seq fun _ => ih _)
  exact chunks _ b

theorem confined_finish (hio : .io ∈ K) : Confined False K finish :=
  confined_withState fun _ => confined_ite ((confined_flushOut hio).seq fun _ => confined_pure _)
    ((confined_emitByte hio _).seq fun _ => (confined_modify).seq fun _ => (confined_flushOut hio).seq fun _ => confined_pure _)

theorem confined_serHdr (hio : .io ∈ K) (ig sig : Byte) : Confined False K (serHdr ig sig) :=
  confined_flatten.seq fun _ => confined_withState fun _ => (confined_emitBytes hio _).seq fun _ => confined_modify

theorem confined_fixup (hio : .io ∈ K) (ig : Byte) : Confined False K (fixup ig) := by
  intro s
  by_cases hd : s.ports.headD .done = .done
  · exact confinedAt_ok ((fixup_eq ig s).trans (if_pos hd)) ⟨rfl, rfl, rfl, id, False.elim⟩
  · exact confinedAt_raised ((fixup_eq ig s).trans (if_neg hd)) hio ⟨rfl, rfl, rfl, id, False.elim⟩

/-! ### Symbols of the static coder -/

theorem confined_encSym (hio : .io ∈ K) (b : Byte) : Confined False K (encSym b) :=
  confined_withState fun _ => confined_ite (confined_stick _) (confined_emitBits hio _)

theorem confined_decSym (hio : .io ∈ K) (ig : Nat) : Confined False K (decSym ig) := by
  have loop : ∀ k n, Confined False K (decLoop ig k n) := fun k => by
    induction k with
    | zero => exact fun _ => confined_stick _
    | succ k ih =>
      exact fun n => confined_withState fun _ => confined_ite (confined_pure _) ((confined_readBit hio).seq fun _ =>
        (confined_fromTree _).seq fun m => confined_ite ((confined_emitByte hio _).seq fun _ => confined_pure _) (ih m))
  exact confined_withState fun _ => (confined_fromTree _).seq fun n => loop _ n

theorem confined_decAll (hio : .io ∈ K) (k : Nat) : Confined False K (decAll k) := by
  induction k with
  | zero => exact confined_stick _
  | succ k ih => exact confined_withState fun _ => (confined_decSym hio _).seq fun _ => confined_ite (confined_pure _) ih

/-! ### The adaptive coder -/

theorem confined_grow (b : Byte) : Confined quiet K (grow b) :=
  confined_withState fun _ => (confined_fromTree _).seq fun _ => confined_modify

theorem confined_updateSymbol (b : Byte) : Confined quiet K (updateSymbol b) :=
  confined_withState fun _ => (confined_fromTree _).seq fun _ => (confined_fromTree _).seq fun _ => confined_modify

theorem confined_path (n : Nat) : Confined quiet K (path n) := confined_withState fun _ => confined_fromTree _

theorem confined_ahInitTree : Confined quiet K (modify ahInitTree : Cmd PUnit) :=
  confined_modify fun _ => ⟨rfl, rfl, rfl, fun _ => nofun, fun _ => ⟨rfl, rfl, rfl⟩⟩

theorem confined_ahEncSym (hio : .io ∈ K) (b : Byte) : Confined False K (ahEncSym b) := by
  refine confined_withState fun s => ?_
  cases s.mapOf b with
  | some n =>
    exact (confined_path n).seq fun p => (confined_emitBits hio p).seq fun _ => (confined_updateSymbol b).seq fun _ => confined_pure _
  | none =>
    exact (confined_fromTree _).seq fun y => (confined_path y).seq fun p => (confined_emitBits hio p).seq fun _ =>
      (confined_writeBits hio _ _).seq fun _ => (confined_grow b).seq fun _ => (confined_updateSymbol b).seq fun _ => confined_pure _

theorem confined_descend (hio : .io ∈ K) (k n : Nat) : Confined quiet K (descend k n) := by
  induction k generalizing n with
  | zero => exact confined_stick _
  | succ k ih =>
    exact confined_withState fun _ =>
      confined_ite ((confined_readBit hio).seq fun _ => (confined_fromTree _).seq fun m => ih m) (confined_pure _)

theorem confined_readRaw (hio : .io ∈ K) (k v : Nat) : Confined quiet K (readRaw k v) := by
  induction k generalizing v with
  | zero => exact confined_pure _
  | succ k ih => exact (confined_readBit hio).seq fun _ => ih _

/-- R300: a raw symbol that has a leaf already is a corrupt stream. -/
theorem confined_readNewSymbol (hio : .io ∈ K) (hc : .corruptStream ∈ K) : Confined quiet K readNewSymbol :=
  (confined_readRaw hio _ _).seq fun _ => confined_withState fun _ => (confined_raiseIf hc _).seq fun _ => (confined_grow _).seq fun _ =>
    confined_pure _

theorem confined_ahDecSym (hio : .io ∈ K) (hc : .corruptStream ∈ K) : Confined False K ahDecSym := by
  have tail : ∀ b : Byte, Confined False K (do emitByte b; updateSymbol b; pure b) := fun b =>
    (confined_emitByte hio b).seq fun _ => (confined_updateSymbol b).seq fun _ => confined_pure _
  exact confined_withState fun _ => (confined_fromTree _).seq fun r => (confined_descend hio _ r).seq fun n =>
    confined_ite ((confined_readNewSymbol hio hc).seq tail) (tail _)

theorem confined_ahUpdateSym (b : Byte) : Confined quiet K (ahUpdateSym b) :=
  confined_withState fun _ => confined_ite ((confined_grow b).seq fun _ => confined_updateSymbol b) (confined_updateSymbol b)

end

/-! ### The composites, from the fresh context on -/

section
variable {α : Type} {K : List ErrKind}

/-- R295: the end of the source and a failed transaction are no rejection of the input. -/
theorem Guarded.of_io {s : State} {r : EStateM.Result Stop State α} (h : ConfinedAt False [.io] s r) (hio : .io ∈ K) :
    Guarded K s r :=
  Guarded.of_late h (by simp [ErrKind.Rejects]) (by simpa using hio)

/-- R300: a corrupt payload is no rejection either: symbols before it may have been emitted. -/
theorem Guarded.of_stream {s : State} {r : EStateM.Result Stop State α} (h : ConfinedAt False [.io, .corruptStream] s r)
    (hio : .io ∈ K) (hc : .corruptStream ∈ K) : Guarded K s r :=
  Guarded.of_late h (by simp [ErrKind.Rejects]) (by simp [hio, hc])

/-- R270: a rule that begins with `Init`. -/
theorem Guarded.init {s : State} {f : PUnit → Cmd α} (h : Guarded K (initContext s) (f ⟨⟩ (initContext s))) :
    Guarded K (initContext s) (((modify initContext : Cmd PUnit) >>= f) s) := h

theorem mem_io : ErrKind.io ∈ [ErrKind.io] := List.mem_singleton_self _

/-- R216: the guard on the source comes before the header. -/
theorem guarded_archiveStatic (hi : .invalidInput ∈ K) (hio : .io ∈ K) (s : State) : Guarded K (initContext s) (archiveStatic s) := by
  refine .init <| .step (confined_scan hio) fun _ _ => .step (confined_checkDistinct hi) fun _ t =>
    .seq (confined_build hi t) fun _ u hu => .seq (confined_mkCodes (build_ok_static hu)) fun _ v _ => .of_io ?_ hio
  refine (confined_withState fun _ => (confined_serHdr mem_io _ _).seq fun _ => ?_) v
  exact (confined_upFrom (fun _ => (confined_srcByte mem_io mem_io _).seq fun b => confined_encSym mem_io b) _ _).seq fun _ =>
    (confined_finish mem_io).seq fun _ => (confined_fixup mem_io _).seq fun _ => (confined_modify).seq fun _ => confined_pure _

/-- R217: the header is read before a symbol is decoded. -/
theorem guarded_unarchiveStatic (hio : .io ∈ K) (hm : .malformedHeader ∈ K) (hb : .badSignature ∈ K) (s : State) :
    Guarded K (initContext s) (unarchiveStatic s) :=
  .init <| .step (confined_rdHdr hio hm hb) fun _ t => .of_io ((confined_withState fun _ => (confined_decAll mem_io _).seq fun _ =>
    (confined_flushOut mem_io).seq fun _ => (confined_modify).seq fun _ => confined_withState fun _ => confined_pure _) t) hio

/-- R251: no source is rejected. -/
theorem guarded_archiveAdaptive (hio : .io ∈ K) (s : State) : Guarded K (initContext s) (archiveAdaptive s) :=
  .init <| .step confined_ahInitTree fun _ t => .of_io ((confined_withState fun _ => (confined_emitByte mem_io _).seq fun _ =>
    (confined_upFrom (fun _ => (confined_srcByte mem_io mem_io _).seq fun b => confined_discard (confined_ahEncSym mem_io b)) _ _).seq
      fun _ => (confined_finish mem_io).seq fun _ => (confined_modify).seq fun _ => confined_pure _) t) hio

/-- R252: the signature is tested before a symbol is decoded. -/
theorem guarded_unarchiveAdaptive (hb : .badSignature ∈ K) (hio : .io ∈ K) (hc : .corruptStream ∈ K) (n : Nat) (s : State) :
    Guarded K (initContext s) (unarchiveAdaptive n s) := by
  refine .init <| .step confined_ahInitTree fun _ _ => .step (confined_takeByte hio hb) fun _ _ => .step confined_modify fun _ _ =>
    .step confined_get fun _ _ => .step (confined_raiseIf hb _) fun _ t => .of_stream ?_ hio hc
  have decode : Confined False [.io, .corruptStream] ahDecSym := confined_ahDecSym (by simp) (by simp)
  exact ((confined_repeatTimes (confined_discard decode) _).seq fun _ => (confined_flushOut (by simp)).seq fun _ =>
    (confined_modify).seq fun _ => confined_withState fun _ => confined_pure _) t

end

/-! ### The commands -/

/-- The context in which the rule of a command begins, after the `Init` of a composite (R16) and of `CTX.INIT` (R271). -/
def begun (i : Instr) (s : State) : State := if isComposite i = true ∨ i = .ctxInit then initContext s else s

theorem begun_of_composite {i : Instr} (h : isComposite i = true) (s : State) : begun i s = initContext s := if_pos (.inl h)

theorem begun_of_primitive {i : Instr} (h : isComposite i = false) (hi : i ≠ .ctxInit) (s : State) : begun i s = s :=
  if_neg (by simp [h, hi])

/-- What the context before a command has and every fresh context has, the rule begins with. -/
theorem begun_keeps {P : State → Prop} (i : Instr) {s : State} (hinit : P (initContext s)) (h : P s) : P (begun i s) := by
  rw [begun]
  split
  · exact hinit
  · exact h

/-- R91, R270: what `RES` holds when a rule begins. -/
theorem begun_res {i : Instr} (hi : i ≠ .ctxInit) (s : State) : (begun i s).res = if isComposite i then 0#64 else s.res := by
  cases hc : isComposite i with
  | true => exact congrArg State.res (begun_of_composite hc s)
  | false => exact congrArg State.res (begun_of_primitive hc hi s)

/-- R290, R298, R303: what the rule of an admitted command does besides its task. -/
theorem rule_guarded (i : Instr) {s : State} (hadm : admitted i s = true) : Guarded (raisable i) (begun i s) (ruleOf i s) := by
  have reads : ∀ {c : Cmd Unit} {f : State → Word}, Confined True (raisable i) c →
      ∀ s, Guarded (raisable i) s ((do c; let t ← get; pure (f t) : Cmd Word) s) := fun hc s => .answer (.of_quiet (hc s))
  have emits : ∀ {α : Type} {c : Cmd α}, Confined False [.io] c → .io ∈ raisable i → Guarded (raisable i) s (c s) :=
    fun hc => .of_io (hc s)
  cases i with
  | ctxInit => exact Kept.refl _
  | ctxRdreg r => exact Kept.refl _
  | bsWrite w v => exact .answer (emits (confined_writeBits mem_io _ _) mem_io)
  | bsFinish => exact .answer (emits (confined_finish mem_io) mem_io)
  | bsRdbit => exact .answer (.of_quiet (confined_readBit mem_io s))
  | bsAtend ig => exact Kept.refl _
  | tcFlatten => exact reads confined_flatten s
  | tcSerhdr ig sig => exact .answer (emits (confined_serHdr mem_io ig sig) mem_io)
  | tcDeser => exact reads (confined_deser (List.mem_singleton_self _)) s
  | fbAcc b => exact reads confined_modify s
  | fbScan => exact .step (confined_scan (by simp [raisable])) fun _ t => reads (confined_checkDistinct (by simp [raisable])) t
  | fbBuild => exact reads (confined_build (List.mem_singleton_self _)) s
  | shMkcodes => exact .answer (.of_quiet (confined_mkCodes (of_decide_eq_true hadm)))
  | shEncsym b => exact .answer (emits (confined_encSym mem_io b) mem_io)
  | shDecsym ig => exact .answer (emits (confined_decSym mem_io _) mem_io)
  | shRdhdr => exact reads (confined_rdHdr (by simp [raisable]) (by simp [raisable]) (by simp [raisable])) s
  | shFixup ig => exact .answer (emits (confined_fixup mem_io ig) mem_io)
  | shArchive => exact .answer (guarded_archiveStatic (by simp [raisable]) (by simp [raisable]) s)
  | shUnarchive => exact .answer (guarded_unarchiveStatic (by simp [raisable]) (by simp [raisable]) (by simp [raisable]) s)
  | ahInit => exact .answer (.of_quiet (confined_ahInitTree s))
  | ahUpdate b => exact reads (confined_ahUpdateSym b) s
  | ahEncsym b => exact .answer (emits (confined_ahEncSym mem_io b) mem_io)
  | ahDecsym => exact .answer (.of_stream (confined_ahDecSym (by simp) (by simp) s) (by simp [raisable]) (by simp [raisable]))
  | ahArchive => exact .answer (guarded_archiveAdaptive mem_io s)
  | ahUnarchive n =>
    exact .answer (guarded_unarchiveAdaptive (by simp [raisable]) (by simp [raisable]) (by simp [raisable]) n.toNat s)

/-- Everything a command can answer: a refusal, the end of its rule, or the fault its rule raised. -/
theorem exec_ends {i : Instr} {s t : State} (h : exec i s = .next t) :
    (¬ (i.wf = true ∧ s.faulted = false ∧ admitted i s = true) ∧ ∃ st, t = refuse st s)
    ∨ (∃ v u, t = finishOk v u ∧ Kept False (begun i s) u)
    ∨ ∃ e info u, t = takeFault e info u ∧ e ∈ raisable i ∧ Kept e.Rejects (begun i s) u := by
  rcases exec_cases h with ⟨hw, rfl⟩ | ⟨-, hf, -, rfl⟩ | ⟨-, -, ha, rfl⟩ | ⟨-, -, ha, hrun⟩
  · exact .inl ⟨by simp [hw], _, rfl⟩
  · exact .inl ⟨by simp [hf], _, rfl⟩
  · exact .inl ⟨by simp [ha], _, rfl⟩
  · have hguard := rule_guarded i ha
    rcases hrun with ⟨v, u, hr, rfl⟩ | ⟨e, info, u, hr, rfl⟩
    · rw [hr] at hguard
      exact .inr (.inl ⟨v, u, rfl, hguard⟩)
    · rw [hr] at hguard
      exact .inr (.inr ⟨e, info, u, rfl, hguard⟩)

/-! ### The faulted context (R299) -/

/-- R299: of the two commands executed in a faulted context, `CTX.RDREG` leaves it faulted. -/
theorem contextCommand_keeps_faulted {i : Instr} {s u : State} {v : Word} (hi : isContextCommand i = true) (hne : i ≠ .ctxInit)
    (hr : ruleOf i s = .ok v u) : u.faulted = s.faulted := by
  cases i with
  | ctxInit => exact absurd rfl hne
  | ctxRdreg r =>
    cases hr
    rfl
  | _ => cases hi

/-- Settles O8: the test of `FAULTED` comes before admission, an illegal word is refused before any test of the state, and of the two
commands executed in a faulted context only `CTX.INIT` writes `FAULTED`. -/
theorem faultedContextRefuses : Obligations.FaultedContextRefuses := by
  refine ⟨fun i s hw hf hi => ⟨_, ?_, endsRefused_refuse s _⟩, fun s c rest e _ hc he => illegalWordChangesOnlyCseq s c rest e hc he,
    fun i s t h hf ht => ?_⟩
  · rw [exec_eq, hw, hi]
    exact command_faulted _ _ hf
  · by_contra hne
    rcases exec_cases h with ⟨-, rfl⟩ | ⟨-, -, -, rfl⟩ | ⟨-, -, -, rfl⟩ | ⟨-, hi, -, ⟨v, u, hr, rfl⟩ | ⟨e, info, u, hr, rfl⟩⟩
    · exact nomatch ht.symm.trans hf
    · exact nomatch ht.symm.trans hf
    · exact nomatch ht.symm.trans hf
    · exact nomatch ht.symm.trans ((contextCommand_keeps_faulted (hi hf) hne hr).trans hf)
    · exact nomatch ht

/-! ### Admission (R298) -/

/-- Settles O9: a command that is not admitted is refused before its rule, and the rule of one that is admitted keeps the law
(`rule_guarded`). -/
theorem notAdmittedIsRefused : Obligations.NotAdmittedIsRefused := by
  refine ⟨fun i s hw hf ha => ⟨_, ?_, endsRefused_refuse s _⟩, fun i s t hlaw h => ?_⟩
  · rw [exec_eq, hw, ha]
    exact command_notAdmitted _ (by simp [hf])
  · have hbegun : CodesLawful (begun i s) := begun_keeps i nofun hlaw
    rcases exec_ends h with ⟨-, st, rfl⟩ | ⟨v, u, rfl, hk⟩ | ⟨e, info, u, rfl, -, hk⟩
    · exact hlaw
    · exact hk.codes hbegun
    · exact hk.codes hbegun

/-! ### Faults (R290, R296, R303) -/

/-- Settles O10: of the ways a command can end (`exec_ends`) only the taken fault sets `FAULTED`, and the rule had left `RES` as it was
when it began (`begun_res`). -/
theorem faultIsRecorded : Obligations.FaultIsRecorded := by
  intro i s t h hf ht
  rcases exec_ends h with ⟨-, st, rfl⟩ | ⟨v, u, rfl, hk⟩ | ⟨e, info, u, rfl, he, hk⟩
  · exact nomatch ht.symm.trans hf
  · have hbegun : (begun i s).faulted = false := begun_keeps (P := fun u => u.faulted = false) i rfl hf
    exact nomatch ht.symm.trans (hk.faulted.trans hbegun)
  · have hi : i ≠ .ctxInit := by
      rintro rfl
      cases he
    exact ⟨⟨e, rfl, rfl⟩, hk.res.trans (begun_res hi s)⟩

/-- Settles O11: the error a command leaves is one its rule raised (`exec_ends`), for without a raise there is none. -/
theorem onlyListedKindsAreRaised : Obligations.OnlyListedKindsAreRaised := by
  intro i s t e h _ hnone he
  rcases exec_ends h with ⟨-, st, rfl⟩ | ⟨v, u, rfl, hk⟩ | ⟨e', info, u, rfl, he', -⟩
  · exact nomatch he.symm.trans hnone
  · have hbegun : (begun i s).err = none := begun_keeps (P := fun u => u.err = none) i rfl hnone
    exact nomatch he.symm.trans (hk.err.trans hbegun)
  · cases he
    exact he'

/-- R93, R298: a composite has no operand that could be illegal and no condition of admission. -/
theorem composite_admitted {i : Instr} (hi : isComposite i = true) (s : State) : i.wf = true ∧ admitted i s = true := by
  cases i with
  | shArchive => exact ⟨rfl, rfl⟩
  | shUnarchive => exact ⟨rfl, rfl⟩
  | ahArchive => exact ⟨rfl, rfl⟩
  | ahUnarchive n => exact ⟨rfl, rfl⟩
  | _ => cases hi

/-- Settles O12: a composite begins with empty output (`begun_of_composite`), and where its rule rejects the input it has emitted nothing
(`exec_ends`). -/
theorem rejectionEmitsNothing : Obligations.RejectionEmitsNothing := by
  intro i s t e hi hf h he hrej
  have hends := exec_ends h
  rw [begun_of_composite hi] at hends
  rcases hends with ⟨hnot, -⟩ | ⟨v, u, rfl, hk⟩ | ⟨e', info, u, rfl, -, hk⟩
  · obtain ⟨hw, ha⟩ := composite_admitted hi s
    exact absurd ⟨hw, hf, ha⟩ hnot
  · exact nomatch he.symm.trans hk.err
  · cases he
    exact hk.silent hrej

end Sys2Proof.Machine
end
